-- ==== Sys2Proof/Word.lean ====
section
/-! DEFINITION. The words of the machine and their plainest arithmetic (R7, R8): 64-bit registers,
32-bit instruction words, bytes, `Wrap`, `Signed` and `Sat`. -/

namespace Sys2Proof

/-- A 64-bit scalar register, system register, address value or memory word. -/
abbrev Word := BitVec 64

/-- A byte of memory or of tile storage. -/
abbrev Byte := BitVec 8

/-- An instruction word (R218). -/
abbrev IWord := BitVec 32

/-- `Wrap(x, n)` of R8, for a natural number. -/
def wrapN (x n : Nat) : Nat := x % 2 ^ n

/-- `Wrap(x, 64)` of an integer, as a register word (R8). -/
def wordOfInt (x : Int) : Word := BitVec.ofInt 64 x

/-- `Signed(x, n)` of R8, for a natural number below or above 2^n. -/
def signedN (x n : Nat) : Int :=
  let y := x % 2 ^ n
  if y < 2 ^ (n - 1) then (y : Int) else (y : Int) - (2 ^ n : Nat)

/-- `Sat(x, lo, hi)` of R8 on integers. -/
def satI (x lo hi : Int) : Int := if x < lo then lo else if hi < x then hi else x

/-- `Sat(x, 0, hi)` of R8 on natural numbers. -/
def satN (x hi : Nat) : Nat := if hi < x then hi else x

/-- `x[lo+w-1 : lo]`, the unsigned value of a bit field (R7). -/
def bitsAt (x lo w : Nat) : Nat := x / 2 ^ lo % 2 ^ w

/-- The ceiling of a quotient. -/
def ceilDiv (a b : Nat) : Nat := (a + b - 1) / b

end Sys2Proof
end

