-- ==== Sys2Proof/Machine/Map.lean ====
section
/-! DEFINITION. Sparse maps and memory as plain lists. A map lists its keys rising; a key it does not list reads as the
default its reader names. Memory is a list of (address, byte) pairs in one canonical form: addresses strictly rising and
no entry equal to 0, which is what an unlisted address reads as (DESIGN CHOICE, log 3). -/

namespace Sys2Proof.Machine

/-- A map from numbers: a list of key and value pairs. -/
abbrev Map (α : Type) := List (Nat × α)

/-- The value a map holds at a key. -/
def Map.find {α : Type} (m : Map α) (k : Nat) : Option α :=
  match m with
  | [] => none
  | (j, v) :: r => if j = k then some v else Map.find r k

/-- The value at a key, or the default. -/
def Map.at {α : Type} (m : Map α) (k : Nat) (d : α) : α := (Map.find m k).getD d

/-- Inserts before the first greater key and drops an entry of the same key. -/
def Map.put {α : Type} (m : Map α) (k : Nat) (v : α) : Map α :=
  match m with
  | [] => [(k, v)]
  | (j, w) :: r => if k < j then (k, v) :: (j, w) :: r else if j = k then (k, v) :: r else (j, w) :: Map.put r k v

/-- Drops a key. -/
def Map.drop {α : Type} (m : Map α) (k : Nat) : Map α := m.filter fun e => e.1 != k

/-- Byte memory (Host.Cell pairs). -/
abbrev Memory := List Host.Cell

/-- What an unlisted address reads as (DESIGN CHOICE, log 3). -/
def Memory.unlisted : Byte := 0

/-- One byte. -/
def Memory.byte (m : Memory) (a : Nat) : Byte :=
  match m with
  | [] => Memory.unlisted
  | (j, v) :: r => if j = a then v else Memory.byte r a

/-- Drops an address. -/
def Memory.erase (m : Memory) (a : Nat) : Memory :=
  match m with
  | [] => []
  | (j, v) :: r => if j = a then Memory.erase r a else (j, v) :: Memory.erase r a

/-- Inserts an address that is not listed, keeping addresses rising. -/
def Memory.insert (m : Memory) (a : Nat) (b : Byte) : Memory :=
  match m with
  | [] => [(a, b)]
  | (j, v) :: r => if a < j then (a, b) :: (j, v) :: r else (j, v) :: Memory.insert r a b

/-- Writes one byte; writing what an unlisted address reads as removes the entry. -/
def Memory.setByte (m : Memory) (a : Nat) (b : Byte) : Memory :=
  if b = Memory.unlisted then Memory.erase m a else Memory.insert (Memory.erase m a) a b

/-- `n` bytes from an address, the lowest address first. -/
def Memory.bytes (m : Memory) (a n : Nat) : List Byte := (List.range n).map fun i => Memory.byte m (a + i)

/-- Writes bytes from an address. -/
def Memory.setBytes (m : Memory) (a : Nat) : List Byte → Memory
  | [] => m
  | b :: r => Memory.setBytes (Memory.setByte m a b) (a + 1) r

/-- The number that bytes hold, little-endian (R104). -/
def leNat : List Byte → Nat
  | [] => 0
  | b :: r => b.toNat + 256 * leNat r

/-- The `n` bytes of a number, little-endian (R104). -/
def leBytes (n x : Nat) : List Byte :=
  match n with
  | 0 => []
  | k + 1 => .ofNat 8 x :: leBytes k (x / 256)

/-- The aligned 8-byte word at an address (R104). -/
def Memory.word (m : Memory) (a : Nat) : Word := .ofNat 64 (leNat (Memory.bytes m a 8))

/-- Writes an 8-byte word (R104). -/
def Memory.setWord (m : Memory) (a : Nat) (v : Word) : Memory := Memory.setBytes m a (leBytes 8 v.toNat)

/-- The canonical form: addresses strictly rising from `lo` and no byte that an unlisted address reads as. -/
def Memory.wfFrom (lo : Nat) : Memory → Bool
  | [] => true
  | (j, v) :: r => decide (lo ≤ j) && decide (v ≠ Memory.unlisted) && Memory.wfFrom (j + 1) r

/-- Memory's canonical form. -/
def Memory.wf (m : Memory) : Bool := Memory.wfFrom 0 m

/-! ### Sets of addresses as rising, disjoint spans -/

/-- A span of addresses from the first number up to the second. -/
abbrev Spans := List (Nat × Nat)

/-- An address lies in a span. -/
def Spans.has (l : Spans) (a : Nat) : Bool := l.any fun e => decide (e.1 ≤ a ∧ a < e.2)

/-- Adds a span, joined with those that it meets. -/
def Spans.add (l : Spans) (lo hi : Nat) : Spans :=
  match l with
  | [] => [(lo, hi)]
  | (a, b) :: r =>
    if hi < a then (lo, hi) :: (a, b) :: r else if b < lo then (a, b) :: Spans.add r lo hi else Spans.add r (min a lo) (max b hi)

end Sys2Proof.Machine
end

