-- ==== Sys2Proof/Machine/Records.lean ====
section
/-! DEFINITION. The records that the state is built of: contexts, accesses in flight, tile state, matrix instructions,
engine operations, cells, clusters, memory, launches and what the host sees. All of it is plain data. -/

namespace Sys2Proof

/-- A unit that fails (R378). -/
inductive FailUnit where
  | cluster (g : Nat) | slice (g : Nat) | die (d : Nat) | pilot (p : Nat) | stack (k : Nat) | link (l : Nat)
  | bridge (b : Nat)                   -- a die-to-die bridge, R129
deriving DecidableEq, Repr

namespace Machine

/-- The three cores of a cell (R174). -/
inductive CoreKind where
  | a | c | m
deriving DecidableEq, Repr

/-- The state of a context (R176). -/
inductive CtxStat where
  | free | eligible | parked | halted
deriving DecidableEq, Repr

/-- Why a context is parked (R182), in the order that the context image numbers (R374). -/
inductive ParkCause where
  | none | syncRead | semaphore | mutex | barrier | mailbox | matrixBatch | sendQueue | wayConversion
deriving DecidableEq, Repr

/-- What happens before a moment of a context or of a host party (R101): for each of them, by name, the moment before which what it did counts
(`threadOf`). -/
abbrev Clock := Map Nat

/-- Two clocks together. -/
def joinClock (a b : Clock) : Clock := b.foldl (fun m e => Map.put m e.1 (max (Map.at m e.1 0) e.2)) a

/-- Access kinds (R39). -/
inductive AccessKind where
  | read | write | atomic | exec
deriving DecidableEq, Repr

/-- A location (R101): an aligned 8-byte word of memory (its physical address with KEY in [55:50]), of a cluster's
scratchpad (physical offset), or of chart store (die and offset). -/
inductive Loc where
  | mem (pa : Nat) | spad (cluster : Nat) (phys : Nat) | chart (die : Nat) (off : Nat)
deriving DecidableEq, Repr

/-- The operations of AMO and CAS (R256 to R258). -/
inductive AmoOp where
  | add | and | or | xor | minI | maxI | minN | maxN | swap | fadd | cas
deriving DecidableEq, Repr

/-- One step on one word at its home: a read, a masked write, an atomic, or an operation on a barrier object (R347). -/
inductive WordOp where
  | read
  | write (v : Word) (bm : BitVec 8)
  | amo (op : AmoOp) (size off : Nat) (p : Word) (cmp : Word) (mode : Nat)
  | barInit (v : Word)
  | barExpect (v : Word)
  | barArrive
  | barAck
  | barWait (p : Nat)
  | barAdd (n : Nat)
  | barCount (n : Nat)
deriving DecidableEq, Repr

/-- How far an access in flight has come (R45, R47, R113). -/
inductive AccPhase where
  | sent                       -- on its way to its home
  | revoking (owner : Nat)     -- accepted at its home, which waits for the former owner's bit to be cleared before it performs it
  | accepted                   -- accepted at its home, with no owner left in the way
  | performed                  -- performed; the acknowledgement is on its way
deriving DecidableEq, Repr

/-- A scalar access in flight to its home, or a posted barrier step. -/
structure Acc where
  id     : Nat
  ctx    : Nat
  loc    : Loc
  va     : Word
  op     : WordOp
  uc     : Bool            -- an uncached page (R48)
  pl     : Nat             -- placement of the page: PLMODE x 256 + PLARG (R30)
  dest   : Nat             -- destination register, 0 for none
  size   : Nat
  off    : Nat
  acq    : Bool            -- acquire steps follow (R108)
  rel    : Bool            -- st.rel or an atomic: enters the cache only once owned (R112)
  sbits  : BitVec 32       -- full bits cleared when the instruction completes (R219)
  slot   : Option Nat      -- the log slot a load is bound to (R261)
  exitEv : Option (Nat × Nat)   -- the exit event of a loop that this access ends: its slot and trip (R275)
  issued : Nat
  phase  : AccPhase
  entry  : Word            -- the leaf of its page and the address that the leaf gives, for a fault that the home names (R25, R41)
  ga     : Word
  clock  : Clock := []     -- what a release had before it when it issued (R101)
deriving DecidableEq, Repr

/-- A trap to be taken at a turn of the context (R76, R329, R358). `pc = none`: the first unit not yet issued. -/
structure TrapReq where
  code   : Nat
  pc     : Option Word
  va     : Word
  kind   : Nat
  fcause : Nat
  arg    : Nat
  late   : Bool
  reg    : Nat
deriving DecidableEq, Repr

/-- Why a context is about to halt: its turn halts it once its `ReleaseWait` has ended (R42, R360, R362). -/
inductive StopReq where
  | trapHalt (code : Nat) (pc : Word)     -- R360
  | faultStop (fcause : Nat)              -- R42, R329
deriving DecidableEq, Repr

/-- A hint word held in the latch of its context (R229). -/
inductive Hint where
  | log (slot : Nat) | imm (p : BitVec 22) | sched (alloc : Nat) | mod (mode : Nat) | ignored
deriving DecidableEq, Repr

/-- A hint of the group being gathered, with the address of its word. -/
structure HintRec where
  pc   : Word
  hint : Hint
deriving DecidableEq, Repr

/-- A fault that a context or a matrix engine has posted and waits on (R40 to R42). -/
structure FaultWait where
  seq    : Nat
  cause  : Nat
  va     : Word
  kind   : Nat
  pc     : Word
  report : Bool      -- an extent failure of an earlier store, reported at an `AwaitOwned` (R72)
  id     : Nat := 0  -- its place among the requests of its core to the pilot core (R126)
deriving DecidableEq, Repr

/-- A store that failed its extent check, not yet reported (R72). `id` is its number: the oldest store has the lowest. -/
structure FailedStore where
  id    : Nat
  va    : Word
  cause : Nat
  entry : Word
  aux   : Word
deriving DecidableEq, Repr

/-- The task that a helper runs (R191, R195, R402). -/
structure TaskInfo where
  serial  : Nat
  spawner : Nat
  done    : Nat
  doneEn  : Bool
  enq     : Nat
  rdy     : Nat
  deq     : Nat
  fails   : Nat
  stolen  : Bool
  launch  : Option Nat := none     -- the launch in whose cell it was spawned (R195)
deriving DecidableEq, Repr

/-- A scalar scratchpad access of the context's own cluster (R53, R54): presented or forfeited, then performed. -/
structure SpadReq where
  cluster : Nat
  phys    : Nat
  op      : WordOp
  result  : Option (Word × Bool × Bool)   -- the word found, whether the step was refused, whether it was poisoned
  rel     : Bool := false          -- a release (R106)
  got     : Clock := []            -- what the value found, or the phase that a wait found complete, brings with it (R101, R146)
  ops     : List Nat := []         -- the operations that this phase counted (R146)
deriving DecidableEq, Repr

/-- What a walk told a waiting context (R32): the fault cause, level, entry and auxiliary word of R41. -/
structure WalkErr where
  page  : Nat
  cause : Nat
  level : Nat
  entry : Word
  aux   : Word
deriving DecidableEq, Repr

/-- What a context waits for at its turns, besides registers. -/
inductive Block where
  | none
  | tlbinv (lo hi : Nat) (walks : List Nat)   -- R366: the entries whose page meets lo to hi - 1; the walks in flight when it began (R34)
  | tlbinvDone
  | cachecfg (old : Nat)           -- R367: in progress; CONV before it
  | cachecfgDone (old : Nat)
  | writebacks (lines : List Nat)  -- fence.x towards SOUND (R143)
  | micro (op : Nat)               -- a micro-step of mma8x in the engine (R370)
  | microDone
deriving DecidableEq, Repr

/-- An instruction that has issued and not completed, and so has not yet cleared the full bits of its synchronised reads (R219). -/
inductive ClearBy where
  | acc (id : Nat) | div (reg : Nat) | mbox (id : Nat) | view (reg : Nat) | tile (id : Nat) | matrix (id : Nat)
deriving DecidableEq, Repr

/-- One hardware context (R176). -/
structure Ctx where
  stat     : CtxStat
  park     : ParkCause
  parkNum  : Nat
  parkSeq  : Nat
  pc       : Word
  regs     : Vector Word 32
  full     : BitVec 32
  clears   : List (ClearBy × BitVec 32)   -- full bits to be cleared when these instructions complete (R219)
  exits    : List (ClearBy × Nat × Nat)   -- exit events of the loops that their completion ends: slot and trip (R275)
  busy     : BitVec 32             -- destinations of outstanding loads, atomics, divisions and replies (R105)
  tokens   : List (Nat × Nat)      -- bound registers and their operations (R334)
  filled   : List (Nat × Nat)      -- registers that a completion filled, and the operation (R106, R139)
  waypt    : Word
  loopPc   : Word
  loopCnt  : Word
  loopSl   : Word
  trCause  : Word
  trPc     : Word
  trVa     : Word
  trWay    : Word
  trLoop   : Word
  trVec    : Word
  trScr    : Word
  mbatch   : Word
  cp       : Vector Word 8         -- CPSRC, CPDST, CPEXT, CPSS, CPDS, CPATTR, CPBAR, CPMASK
  mbox     : List (Word × Nat)     -- words in arrival order with their senders
  mbFrom   : Nat                   -- MBSTAT.FROM
  hints    : List HintRec          -- newest last
  ignoring : Bool                  -- the run of hints is ignored (R227)
  arrived  : Bool                  -- the PC was reached other than by fall-through
  faultWait : Option FaultWait
  pendTrap : List TrapReq          -- oldest first
  pendStop : Option StopReq
  failed   : List FailedStore      -- oldest first
  task     : Option TaskInfo
  seen     : List Nat              -- operations observed complete (R139)
  divs     : List (Nat × Word)     -- divisions in progress: register and result (R242)
  spadReq  : Option SpadReq
  walkErr  : Option WalkErr
  block    : Block
  ticket   : Option Nat            -- the number of a tile instruction's accesses in the engine queues of banks (R53)
  midStop  : Bool                  -- a pre-emption stops the tile instruction that issues at one of its units (R214, R371)
  bkSkip   : Bool                  -- resumed at a breakpoint that it must not match again (R401)
  bkHit    : Bool                  -- stopped precisely (R401)
  held     : Bool                  -- stopped by a pre-emption: ELIGIBLE in its image (R371)
  tell     : Bool                  -- resumed with failed stores that it reports before it issues anything (R72)
  run      : Nat                   -- when it began to run, which tells its batches from those of an earlier run (R139, R322)
deriving DecidableEq, Repr

/-- A translation: the stage-1 leaf with its tags (R31). -/
structure TlbEnt where
  vf    : Nat
  asid  : Nat
  vpn   : Nat          -- VA div page size
  level : Nat          -- 2: 512 MiB, 3: 64 KiB
  leaf  : Word
deriving DecidableEq, Repr

/-- A line of a core data or instruction cache (R46, R47); only a data cache owns words. -/
structure CLine where
  words : Vector Word 8
  valid : BitVec 8
  owned : BitVec 8
deriving DecidableEq, Repr

/-- One core of a cell. -/
structure CoreSt where
  ptr      : Nat
  last     : Vector Int 11
  cyc      : Nat
  resv     : Nat
  dcache   : Map CLine             -- by line key
  icache   : Map CLine             -- by line key
  itlb     : List TlbEnt
  dtlb     : List TlbEnt
  mcache   : Map (Word × Word × Word)   -- manifest entries: BASE, LENGTH, attributes
  fills    : Map Nat               -- line keys whose fill is in flight, and the placement of their page
  prefs    : List Nat              -- those of them that only a `pref` asks for (R260)
  dispAt   : Nat                   -- the cycle after that of the last dispatch (R194)
  probeAt  : Nat                   -- the cycle after that of the last probe (R196)
  probe    : Nat                   -- the neighbour of the last probe, 4 for none
  fails    : List (Nat × Nat)      -- when its steals failed: first and last trace timebase of each run of cycles, newest first (R402)
  knows    : Map Clock             -- by name: what happens before what the contexts of the core do next (R101, R106)
  saw      : List (Nat × Nat × Nat)   -- operations that its contexts observed complete: operation, moment, name of the context (R137, R139)
deriving DecidableEq, Repr

/-- Storage and tag of a tile register, accumulator or mask register (R201, R203). -/
structure TileReg where
  tag  : Word
  data : Memory
deriving DecidableEq, Repr

/-- One write of a tile instruction in progress: a register, a new tag and bytes. Registers are numbered t0 to t11,
a0 to a3 (12 to 15), m0 to m7 (16 to 23), the order of the context image (R373). -/
structure TileWrite where
  reg   : Nat
  tag   : Option Word
  bytes : List (Nat × Byte)
deriving DecidableEq, Repr

/-- A run of bytes in memory for the elements c0 to c1 of a row, from byte `o` of the row: `n` bytes move, `chk` bytes are checked
(R210, R215). -/
structure Span where
  va  : Word
  n   : Nat
  chk : Nat
  row : Nat
  c0  : Nat
  c1  : Nat
  o   : Nat := 0
deriving DecidableEq, Repr

/-- A tile instruction in progress (R285, R287). (DESIGN CHOICE, log 25.) -/
structure PendTile where
  id     : Nat
  ctx    : Nat
  writes : List TileWrite
  chart  : List (Nat × Nat) := []  -- die and bank of chart store whose reads are not yet performed (R65)
  gather : List (Span × List (Loc × Nat × Nat)) := []   -- a gather's reads that are still to come: the words of each span, with offset and count in each (R137)
  tag    : Word := 0               -- the tag that a gather captured at issue
  clock  : Clock := []             -- what happens before its issue (R144)
deriving DecidableEq, Repr

/-- The summed, history and maximum fields of a slot or of a delta (R273, R275): `x` and `y` are TAKEN and NOTTAKEN, or
HIT and MISS; `h` is HIST, LAT or LAST; `mx` is MAX; `av` is AVG. -/
structure SlotVal where
  kind : Nat
  x    : Nat
  y    : Nat
  h    : Nat
  mx   : Nat
  av   : Nat
deriving DecidableEq, Repr

/-- An event of R274 on its way to a slot. -/
inductive LogEvent where
  | branch (taken : Bool) | load (hit : Bool) (lat : Nat) | loop (trip : Nat)
deriving DecidableEq, Repr

/-- An event of a core that came outside its turns, in the cycle to which it belongs (R275). -/
structure LateEv where
  cyc  : Nat
  core : Nat
  slot : Nat
  ev   : LogEvent
deriving DecidableEq, Repr

/-- What an instruction makes of a view that is still being fetched (R281 to R283). -/
inductive LogRead where
  | selx (last cd : Bool) (a b : Word) | unrx (m c : Nat) | pfx (m c : Nat)
deriving DecidableEq, Repr

/-- An event, or a read by a context into a register, that waits for an entry. -/
inductive LogWait where
  | event (e : LogEvent) | read (c d : Nat) (r : LogRead)
deriving DecidableEq, Repr

/-- An entry of the logbook cache (R275). While `fetching`, HOME is not known and events and reads wait in order. -/
structure LogEntry where
  slot     : Nat
  fetching : Bool
  home     : SlotVal
  delta    : SlotVal
  ev       : Nat
  waiting  : List LogWait
deriving DecidableEq, Repr

/-- A task in the deque (R191, R396, R402). -/
structure TaskRec where
  w0      : Word
  arg1    : Word
  arg2    : Word
  arg3    : Word
  spawner : Nat
  serial  : Nat
  enq     : Nat
  rdy     : Option Nat
  caught  : Bool                   -- a pre-emption caught it (R402)
  clock   : Clock := []            -- what its `spawn` had before it (R117)
deriving DecidableEq, Repr

/-- An operand of a matrix product as captured at issue (R313, R316). -/
inductive MxOperand where
  | tile (reg : Nat) (tag : Word)
  | spad (base : Word) (fmt rows cols rot pitch step : Nat)
deriving DecidableEq, Repr

/-- The instructions of the matrix queue (R316, R321, R333, R370). -/
inductive MxKind where
  | mma | mmas | mmab | azero | ald | ast | swap | micro
deriving DecidableEq, Repr

/-- An instruction of the matrix queue (R316, R323, R328). -/
structure MxOp where
  id      : Nat
  ctx     : Nat
  kind    : MxKind
  pc      : Word
  batch   : Nat
  acc     : Nat             -- accumulator, or the tile of a swap
  accTag  : Word
  a       : MxOperand
  b       : MxOperand
  koff    : Nat
  kc      : Nat
  base    : Word            -- ald and ast
  pitch   : Word
  pairing : Nat             -- which swap of the cell this is
  pos     : Nat             -- the waypoint, counted from KOFF
  started : Bool
  ticket  : Option Nat       -- the number of its scratchpad accesses in the engine queues of banks (R53)
  resumed : Bool             -- carried over a pre-emption; runs before any A core turn (R331)
  kept    : List TlbEnt := []   -- leaves that walks found for it (R32)
  run     : Nat := 0         -- when its context began to run (R139)
  clock   : Clock := []      -- what happens before its issue (R144)
deriving DecidableEq, Repr

/-- One cell. -/
structure CellSt where
  tiles    : Map TileReg
  pend     : List PendTile
  sems     : Map Nat
  mtx      : Map Nat               -- mutex and its holder's context number
  deps     : Map Nat
  depUnf   : Word
  deque    : List TaskRec          -- oldest first
  spawned  : Nat                   -- serial numbers given in this launch
  log      : List LogEntry
  logQ     : List (Nat × LogWait)  -- events and reads that wait, in order, for room in a cache whose entries are all being fetched
  late     : List LateEv           -- events that came outside the cores' turns, in the order in which the cache gets them (R275)
  lbDet    : Bool
  lbClash  : Nat
  lbDrop   : Nat
  mq       : List MxOp             -- the matrix queue, oldest first
  mxFault  : Option FaultWait
  swaps    : Nat
  faultSeq : Nat
  tokSeq   : Nat
  parkSeq  : Nat
  cellNo   : Nat
  lpos     : Word
  ptRoot   : Word
  winLen   : Word
  logPa    : Nat                   -- LOGBOOK target with its key in [55:50]
  manPa    : Nat                   -- MANIFEST target with its key in [55:50]
  codeBase : Nat
  codeSize : Nat
  cpWgt    : Word
  depOps   : Map (List Nat)        -- by counter: the copies whose completion decremented it (R139, R340)
  depClk   : Map Clock             -- by counter: what its decrements bring with them (R117)
  semClk   : Map Clock             -- by semaphore: what its `semv`s bring with them (R114)
  mtxClk   : Map Clock             -- by mutex: what its last `munlock` brings with it (R115)
  engAt    : Nat                   -- the cycle after the one in which an engine last decremented a counter (R193)
  depAt    : Nat                   -- the cycle after the one in which the neighbour port last did
  probeAt  : Nat                   -- the cycle after the one in which the deque last served a probe (R196)
  probePtr : Nat                   -- the direction whose probe the deque serves next
  launch   : Option Nat            -- the launch whose part runs
  last     : Option Nat            -- the launch that ran here last (R375)
  wakes    : List Nat              -- launches whose WAKE waits
deriving DecidableEq, Repr

/-- A new or forfeited scalar access at a bank (R53). -/
structure BankReq where
  ctx  : Nat
  phys : Nat
  op   : WordOp
deriving DecidableEq, Repr

/-- One scratchpad bank (R50, R53). -/
structure Bank where
  forfeit  : List BankReq
  engine   : List Nat              -- accesses in flight, by id
  present  : List BankReq
  ptr      : Nat
  servedForfeit : Bool             -- the queue of the previous queue service
deriving DecidableEq, Repr

/-- A context parked by `bar.wait` (R347). -/
structure BarWaiter where
  ctx   : Nat
  phys  : Nat
  p     : Nat
  sbits : BitVec 32                -- full bits cleared when the wait completes (R219)
deriving DecidableEq, Repr

/-- A page walk (R29, R32): the cluster's walker reads for the contexts that wait. -/
structure WalkRec where
  id      : Nat
  cluster : Nat
  vf      : Nat
  asid    : Nat
  root    : Word                   -- PTROOT
  page    : Nat                    -- VA div 64 KiB
  va      : Word
  waiters : List (Nat × Bool)      -- contexts, and whether for the instruction TLB
  engs    : List Nat               -- engine operations that wait for it
  prefs   : List (Nat × Word)      -- contexts whose `pref` asked for it and does not wait, and its address (R43)
  discard : Bool                   -- a tlbinv began meanwhile: the result is discarded (R34)
deriving DecidableEq, Repr

/-- One cluster. -/
structure ClusterSt where
  spad    : Memory
  spoison : List Nat               -- poisoned scratchpad words
  banks   : Map Bank
  waiters : List BarWaiter
  counted : List (Nat × Nat × Nat)   -- barrier word, phase, and an operation whose bytes that phase counted (R146)
  barClk  : Map Clock              -- by barrier word x 2 + phase: what the arrivals of that phase bring with them (R146)
  conv    : Nat
  convBy  : Option Nat             -- the launch that holds the converted ways (R63)
  epoch   : Nat
  busy    : Bool
  cfgNew  : Nat                    -- the CONV that a running cachecfg asks for
  cfgOld  : Nat                    -- the CONV before it
  cfgCtx  : Option Nat             -- its context
  cfgWait : List (Nat × Nat)       -- contexts parked for it and their n, in arrival order
  tlb     : List TlbEnt
  engErrs : List (Nat × WalkErr)   -- faults that walks found for engine operations, until these take them (R32)
  defc    : Map Nat                -- DEF of the copy engine's 48 queues
  lastVf  : Option (Nat × Nat)     -- VF and ASID of the last launch
  fenced  : Bool
  fencing : Bool                   -- to be fenced once its launches are pre-empted (R414)
deriving DecidableEq, Repr

/-- A line of a shared-cache slice (R55), or of the memory-side cache (R69), by its tag: KEY and the physical address. -/
structure SLine where
  slice   : Nat                    -- the slice's number; 0 in the memory-side cache
  set     : Nat
  way     : Nat
  words   : Vector Word 8
  dirty   : BitVec 8               -- words newer than the memory behind
  writers : List (Nat × Nat)       -- who wrote the dirty words: engine class, and the context (LS) or operation (R143)
deriving DecidableEq, Repr

/-- A value that a word held before a write (R138): the write's class and writer, when it was performed, the classes for which a
`fence.x` has ordered it, with the moment and the name of the context of the fence (R144), and the contexts that have read what it wrote, or
a later value, by an access of class LS (R103); `brings` is what the value before it brings to an acquire (R101). (DESIGN CHOICE, log 78.) -/
structure OldVal where
  old : Word
  cls : Nat
  who : Nat
  at_ : Nat
  before : List (Nat × Nat × Nat)
  seen   : List Nat := []
  brings : Clock := []
deriving DecidableEq, Repr

/-- A record of a slice's ownership registry (R47): the location's key, the owning core, the slice, and the store that it was made for. -/
structure OwnerRec where
  key   : Nat
  core  : Nat
  slice : Nat
  id    : Nat
deriving DecidableEq, Repr

/-- An extent of CXL memory (R25, R70, R71). -/
structure Extent where
  base    : Nat
  len     : Nat
  present : Bool
  releasing : Bool                 -- a release waits for accesses accepted before it (R70)
deriving DecidableEq, Repr

/-- Memory, its homes and its media. -/
structure MemSt where
  ram     : Memory                 -- by HOME and LOCAL, bits [49:0]
  written : Spans                  -- the bytes written since boot (R426)
  keyed   : Map Nat                -- line number and the key material of its last write
  slines  : Map SLine              -- lines of the slices, by physical address with key div 64 (R55)
  msc     : Map SLine              -- lines of the memory-side cache, likewise (R69)
  hist    : Map (List OldVal)      -- older values of a location, by its key, newest first (R138)
  pubs    : Map (List (Nat × Nat)) -- the `sndfill`s that a block's HDR includes, by its address: the context's name and number (R90)
  rels    : Map (Clock × Clock)    -- by location's key: what its present value, and what all its releases, bring to an acquire (R101)
  owner   : List OwnerRec          -- the slices' records, oldest first (R47)
  first   : Map Nat                -- FIRST placement records by line (R57)
  poison  : List Nat               -- poisoned word addresses
  softErr : List Nat               -- armed corrected-error events of R423, by word address
  chart   : Nat                    -- when firmware last copied into chart store (R64, R341)
  cpoison : List Nat
  extents : List Extent
deriving DecidableEq, Repr

/-- The engine operations of an M core (R334). -/
inductive EngKind where
  | copy | copym | sound | snddot | sndfill
deriving DecidableEq, Repr

/-- A piece of a copy (R339); `recv` is the receiving cluster of a multicast. -/
structure Piece where
  idx       : Nat
  o         : Nat
  len       : Nat
  recv      : Option Nat
  src       : Loc                  -- aligned words of its first bytes, before bank rotation, and the bytes' places in them
  sb        : Nat
  spl       : Nat                  -- placement of the source's page, and whether it is uncached
  suc       : Bool
  dst       : Loc
  db        : Nat
  dpl       : Nat
  duc       : Bool
  ticket    : Nat                  -- its place in the engine queues of scratchpad banks (R53)
  performed : Bool
  counted   : Bool
deriving DecidableEq, Repr

/-- A block that a sounding's bank scans (R83): its index in LIST, its physical address with key, its footprint. -/
structure SndBlock where
  k  : Nat
  pa : Nat
deriving DecidableEq, Repr

/-- How far a bank has come with a sounding (R83). -/
inductive BankPhase where
  | waiting | queried | yielded | scanned | returned | written
deriving DecidableEq, Repr

/-- One bank's part of a sounding (R84 to R87). -/
structure BankScan where
  bank   : Nat                     -- bank number across the device (R78)
  blocks : List SndBlock
  phase  : BankPhase
  m      : BitVec 32
  l      : BitVec 32
  acc    : List (BitVec 32)
  ntok   : Nat
  nblk   : Nat
  cecnt  : Nat
  ue     : Bool
  nan    : Bool
  badhdr : Bool
  yields : Nat
  dots   : List (Nat × List (BitVec 32))   -- snddot results by block
  arr    : Option Nat              -- when its SCAN joined the bank's queue (R94)
  bi     : Nat                     -- the block that the scan has reached
  toks   : Option (List Nat)       -- the tokens of that block still to take, once its HDR is read
  part   : List (BitVec 32)        -- snddot results of that block so far
  pubs   : List (Nat × Nat) := []  -- the `sndfill`s that the HDR of that block includes: the context's name and number (R90)
  ticket : Nat                     -- the place of its record's writes in the engine queues of scratchpad banks (R53)
deriving DecidableEq, Repr

/-- A copy, multicast, sounding, `snddot` or `sndfill` in flight (R334, R343). -/
structure EngOp where
  id      : Nat
  ctx     : Nat
  kind    : EngKind
  shape   : Vector Word 8          -- the captured shadow set
  args    : List Word              -- LIST, DST, range; or block VA and n
  dim     : Nat
  fmt     : Nat
  query   : List (BitVec 32)
  todo    : Nat                    -- bytes of its bursts and commands that wait in its core's queue (R344)
  credit  : Nat                    -- bytes that the copy engine has taken from there
  started : Bool
  pieces  : List Piece
  status  : Option Word            -- the status word, once known
  added   : List Nat               -- receivers' acknowledgements already added to ARR (R342)
  appliedCounts : List (Nat × Nat) -- pieces counted: linear offset, and 1 + receiver or 0 (R343)
  decDone : Bool
  banks   : List BankScan
  hdrPa   : Nat                    -- sndfill: the HDR word
  hdrNew  : Option Word
  hdrAt   : Nat                    -- sndfill: its place in the home's order
  dstAt   : List (Nat × Loc × Nat × Bool)   -- sounding: where DST lies, page by page, with placement and whether uncached
  ticket  : Option Nat             -- sounding: the place of its LIST reads in the engine queues of scratchpad banks (R53)
  retry   : Bool                   -- a retry response is pending (R95)
  clock   : Clock := []            -- what happens before its issue (R144)
  kept    : List TlbEnt := []      -- leaves that walks found for it while it starts (R32, R83)
deriving DecidableEq, Repr

/-- A byte count or acknowledgement on its way to a barrier object (R146, R147). -/
structure BarPost where
  id      : Nat
  cluster : Nat
  phys    : Nat
  op      : WordOp
  eng     : Option (Nat × Nat)     -- the operation and piece counted
  acc     : Option Nat             -- the posting context of a bar.ack
  va      : Word := 0
  clock   : Clock := []            -- what a bar.ack had before it (R101)
deriving DecidableEq, Repr

/-- A mailbox word in flight (R365). -/
structure MboxMsg where
  id     : Nat
  sender : Nat
  dest   : Nat                     -- the register for the status
  sbits  : BitVec 32
  target : Word
  word   : Word
  status : Option Nat              -- the reply's CODE, once the word has arrived
deriving DecidableEq, Repr

/-- A `launch` request in flight to its pilot core (R368). -/
structure LaunchReq where
  id     : Nat
  ctx    : Nat
  va     : Word
  launch : Nat                     -- the issuing launch
  status : Option Word             -- the status, once the pilot core has taken the request
  clock  : Clock := []             -- what its `launch` had before it (R188)
deriving DecidableEq, Repr

/-- A fault message on its way, behind earlier requests of its core to the same pilot core in its lane (R126). -/
structure FaultMsg where
  id    : Nat
  core  : Nat
  pilot : Nat
  cell  : Nat
  seq   : Nat
  words : List Word
deriving DecidableEq, Repr

/-- A decrement on its way through the neighbour port (R195). -/
structure DepMsg where
  id   : Nat
  cell : Nat                       -- the number that the launch gives to the cell
  dep  : Nat
  launch : Option Nat := none      -- the launch in whose cell the task was spawned
  clock : Clock := []              -- what the retirement had before it (R117)
deriving DecidableEq, Repr

/-- A process: a loaded binary (R26, R382 to R385). -/
structure Proc where
  vf       : Nat
  asid     : Nat
  ptRoot   : Word
  codeBase : Nat
  codeSize : Nat
  manPa    : Nat                   -- process manifest, with key
  manCount : Nat
  manCopy  : Nat                   -- where a launch's copy is placed (R383)
  logPa    : Nat                   -- logbook image, with key
  lbSlots  : Nat
  frames   : List Nat              -- frames left to the loader
  bin      : List Byte             -- the parts of its binary that a signature covers: which binary it is (R385, R388, R424)
  shared   : Bool                  -- its logbook image is one that others may share (R385)
  held     : List (Nat × Nat)      -- the memory that the loader has used for it: address and length (R382)
deriving DecidableEq, Repr

/-- The life of a launch. -/
inductive LaunchStat where
  | accepted | running | preempted | ended
deriving DecidableEq, Repr

/-- A launch (R183 to R190). -/
structure Launch where
  id     : Nat
  vf     : Nat
  q      : Nat
  proc   : Nat
  record : List Word               -- the eight words of R183
  cseq   : Nat
  man    : Nat                     -- its manifest copy, with key (R383)
  stat   : LaunchStat
  snap   : Map Word                -- the DETERMINISTIC snapshot (R280)
  cells  : List Nat                -- covered cells, by the numbers the launch sees
  ended  : List Nat                -- cells whose part has ended
  orphan : Nat
  fail   : Option (Nat × Nat × Nat)   -- CODE, FCAUSE, cell (R410)
  hwfault : Bool
  place  : List (Nat × Nat)        -- recorded cluster and the cluster now used (R376)
  reports : Bool                   -- its end is reported
  stopping : Bool                  -- a pre-emption request has reached its cells (R371)
  start    : Nat                   -- when its record started
  allStop  : Bool                  -- it stands at a breakpoint with ALLSTOP (R401)
  clock  : Clock := []             -- what happens before its control contexts begin (R188)
deriving DecidableEq, Repr

/-- A signer's public key: its DER form, and the modulus and the exponent that this stands for (R387). -/
structure SignKey where
  der      : List Byte
  modulus  : Nat
  exponent : Nat
deriving DecidableEq, Repr

/-- How far a page's move has come (R419): its leaf written with V = 0; the invalidation done and the page copied. -/
inductive MoveStep where
  | unmapped | copied
deriving DecidableEq, Repr

/-- A page on its way to a new frame (R419). -/
structure PageMove where
  root  : Word
  cell  : Nat
  core  : Nat
  va    : Nat
  leaf  : Word                     -- the leaf that it had
  pa    : Nat                      -- where that leaf lies, with key
  frame : Nat
  phase : MoveStep
deriving DecidableEq, Repr

/-- A launch queue (R407 to R409). -/
structure Queue where
  proc    : Option Nat
  qcfg    : Word
  rhead   : Nat
  dropped : Nat
  cseq    : Nat
  slot    : Vector Word 8          -- the record slot
  recs    : List Nat               -- accepted and not yet started, in order
deriving DecidableEq, Repr

/-- A cluster's bank region as an image keeps it (R375), with its poison and its counted phases (R146). -/
structure SpadImage where
  bank    : Memory
  poison  : List Nat
  counted : List (Nat × Nat × Nat)
  barClk  : Map Clock := []
deriving DecidableEq, Repr

/-- What a pre-emption keeps of a launch (R371 to R375): contexts, cells, clusters and engine operations, all by the numbers
that the launch sees (R376). (DESIGN CHOICE, log 61.) -/
structure SavedImage where
  launch   : Nat
  ctxs     : Map Ctx
  cells    : Map CellSt
  resvs    : Map Nat               -- RESV by core
  knows    : Map Clock := []       -- by name: what happens before what its contexts do next (R101)
  spads    : Map SpadImage         -- by cluster
  convs    : Map (Nat × Nat)       -- CONV and EPOCH by cluster
  ops      : List EngOp
  reqs     : List LaunchReq        -- `launch` requests whose status has not reached the token (R368)
  counters : Map Nat               -- profiling counters, by the launch's number of the block x 8 + index (R406)
  events   : Map (List (Nat × Nat))   -- what they count, by that number
deriving DecidableEq, Repr

/-- A launch that the host brings here from another Tsuyr: its image, its own state, what must stand here before it resumes, and the process
that was loaded for it (R424). -/
structure Brought where
  launch   : Launch
  image    : SavedImage
  codeBase : Nat
  bases    : List Word             -- BASE of every manifest entry
  bytes    : List Memory           -- what every entry's resource held when the pre-emption completed, by offset
  bin      : List Byte
  featmask : List Word             -- every leaf's
  proc     : Nat
deriving DecidableEq, Repr

/-- The tile storage of a cell in canonical form. -/
def tilesWf (x : CellSt) : Bool := x.tiles.all fun t => Memory.wf t.2.data

/-- The bytes that an image of a launch holds in canonical form. -/
def SavedImage.memWf (m : SavedImage) : Bool := m.spads.all (fun g => Memory.wf g.2.bank) && m.cells.all fun n => tilesWf n.2

/-- The same of all that a launch brings. -/
def Brought.memWf (b : Brought) : Bool := b.image.memWf && b.bytes.all Memory.wf

/-- What the outside sees. -/
inductive HostOut where
  | report (vf q addr : Nat) (words : List Word)               -- at a host address, R408, R410
  | vector (vf n : Nat)                                        -- MSI-X, R410
  | read (vf : Nat) (bytes : List Byte) (poisoned : Bool)      -- R131, R134
  | unsupported (vf : Nat)                                     -- R133, R134
  | atomicOld (vf : Nat) (old : Word)                          -- R133
  | faultMsg (pilot : Nat) (words : List Word)                 -- R41
  | pilotWord (pilot : Nat) (sender : Nat) (w : Word)          -- R365
  | extentReleased (base len : Nat)                            -- R70
  | extentLost (base len lines : Nat)                          -- R71
  | loadReport (vf code cleared : Nat)                         -- R384, R389
  | stopReport (ctx : Nat) (name : List Word) (pc : Word) (bkpt : Nat)   -- R401
  | dump (cell : Nat) (names : List (List Word)) (bytes : List Byte)   -- R396, R401
  | hotDie (die : Nat)                                         -- R415
  | hwFault (u : FailUnit)                                     -- R378
  | failed (launch code fcause : Nat) (pc : Word) (cell core ctx : Nat)   -- R42, R360
  | ready                                                      -- R416
  | serviced (pilot : Nat)                                     -- R414
deriving DecidableEq, Repr

/-- A latched snapshot set (R398). Blocks are numbered by MARK_LATCH's argument. -/
structure Snapshot where
  seq  : Nat
  ttb  : Nat
  counters : Map Nat               -- by function x 8 + index
deriving DecidableEq, Repr

/-- A trace or log ring in memory (R402, R403). -/
structure Ring where
  vf      : Nat
  base    : Nat                    -- where it lies in the function's memory
  size    : Nat                    -- bytes
  head    : Nat                    -- records that the host has collected
  tail    : Nat                    -- records that were written
  dropped : Nat
  broken  : List Nat               -- words, with key, that the log has still to mark as unusable for replay (R403)
deriving DecidableEq, Repr

/-- The runs that a replay log holds for one word (R404). -/
structure ReplayWord where
  vf    : Nat                      -- the function whose launches replay it
  key   : Nat
  waddr : Nat
  runs  : List (Nat × Nat)         -- requester, device x 2^17 + number, and remaining count
  bad   : Bool := false            -- the log marks the word unusable (R403)
deriving DecidableEq, Repr

/-- Device registers and units. -/
structure DevSt where
  devno    : Nat
  mscSize  : Nat
  slsub    : Map Word
  sndcnt   : Map Word
  sidAct   : Map Nat               -- the active SID of a pseudo-channel, by stack x 64 + pseudo-channel (R77, R94)
  s2seg    : Map Word
  s2keys   : Map Word
  featmask : Map Word              -- v x 64 + leaf
  keys     : Map Nat               -- key slots: material numbers
  keyMiss  : Map Nat               -- KEYMISS by memory controller (R73)
  ceCount  : Map Nat               -- corrected errors by memory controller (R76)
  hvpilot  : Nat
  routes   : Map Word              -- by device, a set of links
  recal    : Map (List Nat)        -- link being recalibrated and the devices whose sets held it
  retired  : Map Nat               -- chart banks, die x 4096 + bank: launches that start from this moment on fault there (R66)
  markSeq  : Nat
  marking  : List Nat              -- blocks that have not latched the MARK in progress
  snaps    : Map Snapshot
  bkpt     : Map Word              -- v x 4 + i
  power    : Bool                  -- matrix issue cycles are withheld
  hot      : List Nat              -- dies above 105 degrees
  failed   : List FailUnit
  ready    : Bool
  refresh  : List Nat              -- stacks in refresh
  off      : Bool                  -- power to the module is cut (R415)
  fwKeys   : List SignKey          -- the keys that firmware may be signed with (R414, R416)
  ttb0     : Nat                   -- when the module was last reset (R395)
deriving DecidableEq, Repr

/-- Host and pilot firmware. -/
structure HostSt where
  procs    : Map Proc
  queues   : Map Queue             -- v x 256 + q
  launches : Map Launch
  images   : Map SavedImage        -- by launch
  out      : List HostOut          -- newest first
  errs     : Map Nat               -- error counters by function (R134)
  fkey     : Map Nat               -- key identifier of each function (R407)
  trace    : Map Ring              -- by function (R402)
  logs     : Map Ring              -- by slice (R403)
  lastLog  : Map (Nat × Nat × Nat) -- by slice: the word, requester and count of the run in progress
  replay   : List ReplayWord
  diverge  : Nat
  replayed : List Nat              -- functions whose launches replay a log
  events   : Map (List (Nat × Nat)) -- profiling events by function x 2048 + block (R406)
  counters : Map Nat               -- (function x 2048 + block) x 8 + event index
  classes  : Map Nat               -- slice class by function (R411)
  shareLb  : List Nat              -- functions that may share a logbook image (R385)
  lastQ    : Map Nat               -- by process x 8 + PRIO: the queue whose record started last (R411)
  saves    : Map Nat               -- by function: where its images are saved (R371)
  signKeys : List SignKey          -- the keys that the hypervisor trusts (R388)
  signAny  : Bool                  -- it also loads binaries whose key it does not trust (R388)
  migrates : List Nat              -- functions with page migration enabled (R419)
  injects  : List Nat              -- functions with error injection enabled (R423)
  moves    : List PageMove         -- pages on their way (R419)
  shares   : Map Nat               -- share of time slices by function (R411)
  weights  : Map Nat               -- weight by process (R411)
  sliceRun : Map Nat               -- time slices that a function has had (R411)
  brought  : List Brought          -- launches that the host brings from other devices (R424)
  clocks   : Map Clock             -- by host party: what happens before its next request (R132, R135)
deriving DecidableEq, Repr

end Machine

end Sys2Proof
end

