-- ==== Sys2Proof/Syntax.lean ====
section
/-! DEFINITION. The instructions of the Briurn Tsuyr: one constructor per row of the opcode table. An
encoded row carries the fields of its word in the table's order (R219 to R224). An event row is a step of the device,
of an engine, of pilot firmware or of the host (95_what_each_step_holds.md); it carries the choices of that step. -/

namespace Sys2Proof

/-- The operation of a PCIe AtomicOp request (R133). -/
inductive HostAtomic where
  | fetchAdd | swap | cas
deriving DecidableEq, Repr

/-- A register that the host or pilot firmware writes and that has no event of its own (REGISTER_WRITE, R16). -/
inductive HostReg where
  | s2seg (v : Nat)                    -- R35
  | s2keys (v : Nat)                   -- R35
  | featmask (v : Nat) (leaf : Nat)    -- R237
  | hvpilot                            -- R39
  | slsub (k : Nat)                    -- R56
  | cpwgt (cell : Nat)                 -- R344
  | qcfg (v : Nat) (q : Nat)           -- R408
  | recordWord (v : Nat) (q : Nat) (i : Nat)   -- words 0 to 6 of a record slot, R409
  | bkpt (v : Nat) (i : Nat)           -- R400
  | route (dev : Nat)                  -- R413, a set of links, bit l for link l
  | traceRing (v : Nat) (base : Nat)   -- R402, where the ring lies in the function's memory, its size in 64 KiB; 0 turns tracing off
  | traceHead (v : Nat)                -- R402, how many records the host has collected
  | logRing (slice : Nat) (v : Nat) (base : Nat)   -- R403, likewise in the memory of function v; 0 turns logging off
  | logHead (slice : Nat)              -- R403, how many entries the host has collected
  | replayWord (v : Nat) (dev : Nat) (key : Nat) (waddr : Nat) (req : Nat) (count : Nat)  -- R404, one run of a log loaded for function v;
                                       -- COUNT 0: the log marks the word unusable (R403)
  | bindQueue (v : Nat) (q : Nat)      -- R407, binds a window to a process of the function
  | sliceClass (v : Nat)               -- R411, 0 URGENT, 1 STANDARD, 2 BACKGROUND
  | sliceShare (v : Nat)               -- R411, the share of time slices within the class
  | processWeight (proc : Nat)         -- R411, the weight of a process among those of its function
  | shareLogbook (v : Nat)             -- R385, the hypervisor allows v to share a logbook image
  | functionKey (v : Nat)              -- R407, the key identifier of a function
  | signKey (der : List Byte) (modulus : Nat) (exponent : Nat)   -- R388, a signer's key: 0 the hypervisor trusts it no longer
  | signPolicy                         -- R388, whether a binary whose key is not trusted is loaded: 0 no
  | firmwareKey (der : List Byte) (modulus : Nat) (exponent : Nat)   -- R414, R416, a key that firmware may be signed with
  | migration (v : Nat)                -- R419, page migration enabled for the partition
  | injection (v : Nat)                -- R423, error injection enabled for the partition
  | saveArea (v : Nat)                 -- R371, where in the function's memory its images are saved; 0 names no area
  | bring (b : Machine.Brought)        -- R424, a launch brought from another Tsuyr that may resume here; 0: it may no longer
deriving DecidableEq, Repr

/-- What the loader chooses when it places a binary or moves a resource (R26, R382): an ASID, the root table, free
64 KiB frames for tables and pages, the code base and the base of each used manifest entry; `logKey` is the key of a
shared logbook image (R425). -/
structure LoadChoice where
  asid     : Nat
  root     : Nat
  frames   : List Nat
  codeBase : Nat
  bases    : List Nat
  logBase  : Nat
  manBase  : Nat
  logKey   : Nat
deriving DecidableEq, Repr

/-- The word at which the host arms an error: an offset of a manifest entry's resource of a process (R423). -/
structure InjectAt where
  proc  : Nat
  entry : Nat
  off   : Nat
deriving DecidableEq, Repr

/-- A firmware image for a pilot core, with its signature (R387, R414). -/
structure PilotImage where
  pilot : Nat
  image : List Byte
  sig   : List Byte
deriving DecidableEq, Repr

/-- What power-on brings to the module: the material of key slots, and boot firmware with its signature (R387, R416). -/
structure BootSet where
  keys  : List (Nat × Nat)
  image : List Byte
  sig   : List Byte
deriving DecidableEq, Repr

/-- One instruction, hint word, fate of a word or event of the opcode table. -/
inductive Instr where
  | add (d : BitVec 5) (a : BitVec 6) (b : BitVec 6)   -- ADD, R242
  | sub (d : BitVec 5) (a : BitVec 6) (b : BitVec 6)   -- SUB, R242
  | mul (d : BitVec 5) (a : BitVec 6) (b : BitVec 6)   -- MUL, R242
  | mulhI (d : BitVec 5) (a : BitVec 6) (b : BitVec 6)   -- MULH_I, R242
  | mulhN (d : BitVec 5) (a : BitVec 6) (b : BitVec 6)   -- MULH_N, R242
  | divI (d : BitVec 5) (a : BitVec 6) (b : BitVec 6)   -- DIV_I, R242
  | divN (d : BitVec 5) (a : BitVec 6) (b : BitVec 6)   -- DIV_N, R242
  | remI (d : BitVec 5) (a : BitVec 6) (b : BitVec 6)   -- REM_I, R242
  | remN (d : BitVec 5) (a : BitVec 6) (b : BitVec 6)   -- REM_N, R242
  | and (d : BitVec 5) (a : BitVec 6) (b : BitVec 6)   -- AND, R242
  | or (d : BitVec 5) (a : BitVec 6) (b : BitVec 6)   -- OR, R242
  | xor (d : BitVec 5) (a : BitVec 6) (b : BitVec 6)   -- XOR, R242
  | sll (d : BitVec 5) (a : BitVec 6) (b : BitVec 6)   -- SLL, R242
  | srl (d : BitVec 5) (a : BitVec 6) (b : BitVec 6)   -- SRL, R242
  | sra (d : BitVec 5) (a : BitVec 6) (b : BitVec 6)   -- SRA, R242
  | rol (d : BitVec 5) (a : BitVec 6) (b : BitVec 6)   -- ROL, R242
  | ror (d : BitVec 5) (a : BitVec 6) (b : BitVec 6)   -- ROR, R242
  | minI (d : BitVec 5) (a : BitVec 6) (b : BitVec 6)   -- MIN_I, R242
  | maxI (d : BitVec 5) (a : BitVec 6) (b : BitVec 6)   -- MAX_I, R242
  | minN (d : BitVec 5) (a : BitVec 6) (b : BitVec 6)   -- MIN_N, R242
  | maxN (d : BitVec 5) (a : BitVec 6) (b : BitVec 6)   -- MAX_N, R242
  | clz (d : BitVec 5) (a : BitVec 6)   -- CLZ, R245
  | ctz (d : BitVec 5) (a : BitVec 6)   -- CTZ, R245
  | popc (d : BitVec 5) (a : BitVec 6)   -- POPC, R245
  | sext1 (d : BitVec 5) (a : BitVec 6)   -- SEXT_1, R245
  | sext2 (d : BitVec 5) (a : BitVec 6)   -- SEXT_2, R245
  | sext4 (d : BitVec 5) (a : BitVec 6)   -- SEXT_4, R245
  | zext1 (d : BitVec 5) (a : BitVec 6)   -- ZEXT_1, R245
  | zext2 (d : BitVec 5) (a : BitVec 6)   -- ZEXT_2, R245
  | zext4 (d : BitVec 5) (a : BitVec 6)   -- ZEXT_4, R245
  | cmpEq (d : BitVec 5) (a : BitVec 6) (b : BitVec 6)   -- CMP_EQ, R246
  | cmpNe (d : BitVec 5) (a : BitVec 6) (b : BitVec 6)   -- CMP_NE, R246
  | cmpLtI (d : BitVec 5) (a : BitVec 6) (b : BitVec 6)   -- CMP_LT_I, R246
  | cmpGeI (d : BitVec 5) (a : BitVec 6) (b : BitVec 6)   -- CMP_GE_I, R246
  | cmpLtN (d : BitVec 5) (a : BitVec 6) (b : BitVec 6)   -- CMP_LT_N, R246
  | cmpGeN (d : BitVec 5) (a : BitVec 6) (b : BitVec 6)   -- CMP_GE_N, R246
  | sel (d : BitVec 5) (a : BitVec 6) (b : BitVec 6) (c : BitVec 6)   -- SEL, R247
  | bfx (d : BitVec 5) (a : BitVec 6) (p : BitVec 6) (l : BitVec 6)   -- BFX, R248
  | bfi (d : BitVec 5) (a : BitVec 6) (p : BitVec 6) (l : BitVec 6)   -- BFI, R248
  | fadd (d : BitVec 5) (a : BitVec 6) (b : BitVec 6)   -- FADD, R249
  | fmul (d : BitVec 5) (a : BitVec 6) (b : BitVec 6)   -- FMUL, R249
  | fcmpEq (d : BitVec 5) (a : BitVec 6) (b : BitVec 6)   -- FCMP_EQ, R249
  | fcmpNe (d : BitVec 5) (a : BitVec 6) (b : BitVec 6)   -- FCMP_NE, R249
  | fcmpLt (d : BitVec 5) (a : BitVec 6) (b : BitVec 6)   -- FCMP_LT, R249
  | fcmpLe (d : BitVec 5) (a : BitVec 6) (b : BitVec 6)   -- FCMP_LE, R249
  | fcvtF32I64 (d : BitVec 5) (a : BitVec 6)   -- FCVT_F32_I64, R249
  | fcvtF32N64 (d : BitVec 5) (a : BitVec 6)   -- FCVT_F32_N64, R249
  | fcvtF32F16 (d : BitVec 5) (a : BitVec 6)   -- FCVT_F32_F16, R249
  | fcvtF32Bf16 (d : BitVec 5) (a : BitVec 6)   -- FCVT_F32_BF16, R249
  | fcvtI64F32 (d : BitVec 5) (a : BitVec 6)   -- FCVT_I64_F32, R249
  | fcvtN64F32 (d : BitVec 5) (a : BitVec 6)   -- FCVT_N64_F32, R249
  | fcvtF16F32 (d : BitVec 5) (a : BitVec 6)   -- FCVT_F16_F32, R249
  | fcvtBf16F32 (d : BitVec 5) (a : BitVec 6)   -- FCVT_BF16_F32, R249
  | ffma (d : BitVec 5) (a : BitVec 6) (b : BitVec 6) (c : BitVec 6)   -- FFMA, R250
  | addi (d : BitVec 5) (a : BitVec 6) (i : BitVec 14)   -- ADDI, R243
  | andi (d : BitVec 5) (a : BitVec 6) (i : BitVec 14)   -- ANDI, R243
  | ori (d : BitVec 5) (a : BitVec 6) (i : BitVec 14)   -- ORI, R243
  | xori (d : BitVec 5) (a : BitVec 6) (i : BitVec 14)   -- XORI, R243
  | slli (d : BitVec 5) (a : BitVec 6) (n : BitVec 6)   -- SLLI, R244
  | srli (d : BitVec 5) (a : BitVec 6) (n : BitVec 6)   -- SRLI, R244
  | srai (d : BitVec 5) (a : BitVec 6) (n : BitVec 6)   -- SRAI, R244
  | roli (d : BitVec 5) (a : BitVec 6) (n : BitVec 6)   -- ROLI, R244
  | rori (d : BitVec 5) (a : BitVec 6) (n : BitVec 6)   -- RORI, R244
  | ld1 (d : BitVec 5) (a : BitVec 6) (i : BitVec 14)   -- LD_1, R252
  | ld2 (d : BitVec 5) (a : BitVec 6) (i : BitVec 14)   -- LD_2, R252
  | ld4 (d : BitVec 5) (a : BitVec 6) (i : BitVec 14)   -- LD_4, R252
  | ld8 (d : BitVec 5) (a : BitVec 6) (i : BitVec 14)   -- LD_8, R252
  | st1 (b : BitVec 6) (a : BitVec 5) (i : BitVec 14)   -- ST_1, R253
  | st2 (b : BitVec 6) (a : BitVec 5) (i : BitVec 14)   -- ST_2, R253
  | st4 (b : BitVec 6) (a : BitVec 5) (i : BitVec 14)   -- ST_4, R253
  | st8 (b : BitVec 6) (a : BitVec 5) (i : BitVec 14)   -- ST_8, R253
  | ldIndex (d : BitVec 5) (a : BitVec 6) (b : BitVec 6) (z : BitVec 2)   -- LD_INDEX, R252
  | stIndex (b : BitVec 6) (a : BitVec 6) (c : BitVec 6) (z : BitVec 2)   -- ST_INDEX, R253
  | ldRes (d : BitVec 5) (a : BitVec 6) (n : BitVec 10) (z : BitVec 2)   -- LD_RES, R252
  | stRes (b : BitVec 6) (a : BitVec 6) (n : BitVec 10) (z : BitVec 2)   -- ST_RES, R253
  | ldAcq (d : BitVec 5) (a : BitVec 6) (i : BitVec 14)   -- LD_ACQ, R254
  | stRel (b : BitVec 6) (a : BitVec 5) (i : BitVec 14)   -- ST_REL, R254
  | amoAdd (d : BitVec 5) (a : BitVec 6) (b : BitVec 6) (z : BitVec 1)   -- AMO_ADD, R256
  | amoAnd (d : BitVec 5) (a : BitVec 6) (b : BitVec 6) (z : BitVec 1)   -- AMO_AND, R256
  | amoOr (d : BitVec 5) (a : BitVec 6) (b : BitVec 6) (z : BitVec 1)   -- AMO_OR, R256
  | amoXor (d : BitVec 5) (a : BitVec 6) (b : BitVec 6) (z : BitVec 1)   -- AMO_XOR, R256
  | amoMinI (d : BitVec 5) (a : BitVec 6) (b : BitVec 6) (z : BitVec 1)   -- AMO_MIN_I, R256
  | amoMaxI (d : BitVec 5) (a : BitVec 6) (b : BitVec 6) (z : BitVec 1)   -- AMO_MAX_I, R256
  | amoMinN (d : BitVec 5) (a : BitVec 6) (b : BitVec 6) (z : BitVec 1)   -- AMO_MIN_N, R256
  | amoMaxN (d : BitVec 5) (a : BitVec 6) (b : BitVec 6) (z : BitVec 1)   -- AMO_MAX_N, R256
  | amoSwap (d : BitVec 5) (a : BitVec 6) (b : BitVec 6) (z : BitVec 1)   -- AMO_SWAP, R256
  | famoAdd (d : BitVec 5) (a : BitVec 6) (b : BitVec 6)   -- FAMO_ADD, R257
  | cas (d : BitVec 5) (a : BitVec 6) (b : BitVec 6) (c : BitVec 6) (z : BitVec 1)   -- CAS, R258
  | pref (a : BitVec 6) (i : BitVec 14)   -- PREF, R260
  | beqz (a : BitVec 6) (o : BitVec 19)   -- BEQZ, R263
  | bnez (a : BitVec 6) (o : BitVec 19)   -- BNEZ, R263
  | bltz (a : BitVec 6) (o : BitVec 19)   -- BLTZ, R263
  | bgez (a : BitVec 6) (o : BitVec 19)   -- BGEZ, R263
  | jal (d : BitVec 5) (o : BitVec 19)   -- JAL, R264
  | jr (d : BitVec 5) (a : BitVec 6) (i : BitVec 14)   -- JR, R264
  | loop (a : BitVec 6) (o : BitVec 19)   -- LOOP, R266
  | bexpMaj (c : BitVec 1) (o : BitVec 19)   -- BEXP_MAJ, R282
  | bexpLast (c : BitVec 1) (o : BitVec 19)   -- BEXP_LAST, R282
  | selxMaj (d : BitVec 5) (a : BitVec 6) (b : BitVec 6) (c : BitVec 1)   -- SELX_MAJ, R282
  | selxLast (d : BitVec 5) (a : BitVec 6) (b : BitVec 6) (c : BitVec 1)   -- SELX_LAST, R282
  | unrx (d : BitVec 5) (m : BitVec 4) (c : BitVec 4)   -- UNRX, R283
  | pfx (d : BitVec 5) (m : BitVec 6) (c : BitVec 6)   -- PFX, R283
  | start (d : BitVec 5) (a : BitVec 6) (b : BitVec 6)   -- START, R267
  | spawn (a : BitVec 6) (b : BitVec 6)   -- SPAWN, R269
  | depSet (a : BitVec 6) (b : BitVec 6)   -- DEP_SET, R270
  | depDec (a : BitVec 6)   -- DEP_DEC, R270
  | helpres (d : BitVec 5) (a : BitVec 6) (i : BitVec 14)   -- HELPRES, R271
  | semp (k : BitVec 4)   -- SEMP, R272
  | semv (k : BitVec 4)   -- SEMV, R272
  | mlock (k : BitVec 3)   -- MLOCK, R272
  | munlock (k : BitVec 3)   -- MUNLOCK, R272
  | tshape (t : BitVec 4) (a : BitVec 6)   -- TSHAPE, R289
  | tld (t : BitVec 4) (a : BitVec 6) (p : BitVec 6) (r : BitVec 1) (i : BitVec 8)   -- TLD, R291
  | tst (t : BitVec 4) (a : BitVec 6) (p : BitVec 6) (r : BitVec 1) (i : BitVec 8)   -- TST, R291
  | tldT (t : BitVec 4) (a : BitVec 6) (p : BitVec 6) (r : BitVec 1) (i : BitVec 8)   -- TLD_T, R292
  | tgath (t : BitVec 4) (a : BitVec 6) (x : BitVec 4) (r : BitVec 1) (i : BitVec 8)   -- TGATH, R293
  | tzero (d : BitVec 4) (e : BitVec 1) (m : BitVec 3)   -- TZERO, R294
  | tfill (d : BitVec 4) (a : BitVec 6) (e : BitVec 1) (m : BitVec 3)   -- TFILL, R294
  | tmov (d : BitVec 4) (a : BitVec 4)   -- TMOV, R294
  | tseqCol (d : BitVec 4) (e : BitVec 1) (m : BitVec 3)   -- TSEQ_COL, R296
  | tseqRow (d : BitVec 4) (e : BitVec 1) (m : BitVec 3)   -- TSEQ_ROW, R296
  | tseqLin (d : BitVec 4) (e : BitVec 1) (m : BitVec 3)   -- TSEQ_LIN, R296
  | tadd (d : BitVec 4) (a : BitVec 4) (b : BitVec 4) (y : BitVec 4) (e : BitVec 1) (m : BitVec 3)   -- TADD, R298
  | tsub (d : BitVec 4) (a : BitVec 4) (b : BitVec 4) (y : BitVec 4) (e : BitVec 1) (m : BitVec 3)   -- TSUB, R298
  | tmul (d : BitVec 4) (a : BitVec 4) (b : BitVec 4) (y : BitVec 4) (e : BitVec 1) (m : BitVec 3)   -- TMUL, R298
  | tmin (d : BitVec 4) (a : BitVec 4) (b : BitVec 4) (y : BitVec 4) (e : BitVec 1) (m : BitVec 3)   -- TMIN, R298
  | tmax (d : BitVec 4) (a : BitVec 4) (b : BitVec 4) (y : BitVec 4) (e : BitVec 1) (m : BitVec 3)   -- TMAX, R298
  | tabs (d : BitVec 4) (a : BitVec 4) (y : BitVec 4) (e : BitVec 1) (m : BitVec 3)   -- TABS, R298
  | tneg (d : BitVec 4) (a : BitVec 4) (y : BitVec 4) (e : BitVec 1) (m : BitVec 3)   -- TNEG, R298
  | tand (d : BitVec 4) (a : BitVec 4) (b : BitVec 4) (y : BitVec 4) (e : BitVec 1) (m : BitVec 3)   -- TAND, R298
  | tor (d : BitVec 4) (a : BitVec 4) (b : BitVec 4) (y : BitVec 4) (e : BitVec 1) (m : BitVec 3)   -- TOR, R298
  | txor (d : BitVec 4) (a : BitVec 4) (b : BitVec 4) (y : BitVec 4) (e : BitVec 1) (m : BitVec 3)   -- TXOR, R298
  | tsll (d : BitVec 4) (a : BitVec 4) (b : BitVec 4) (y : BitVec 4) (e : BitVec 1) (m : BitVec 3)   -- TSLL, R298
  | tsrl (d : BitVec 4) (a : BitVec 4) (b : BitVec 4) (y : BitVec 4) (e : BitVec 1) (m : BitVec 3)   -- TSRL, R298
  | tsra (d : BitVec 4) (a : BitVec 4) (b : BitVec 4) (y : BitVec 4) (e : BitVec 1) (m : BitVec 3)   -- TSRA, R298
  | tcmpEq (d : BitVec 3) (a : BitVec 4) (b : BitVec 4) (y : BitVec 4) (e : BitVec 1) (m : BitVec 3)   -- TCMP_EQ, R300
  | tcmpNe (d : BitVec 3) (a : BitVec 4) (b : BitVec 4) (y : BitVec 4) (e : BitVec 1) (m : BitVec 3)   -- TCMP_NE, R300
  | tcmpLt (d : BitVec 3) (a : BitVec 4) (b : BitVec 4) (y : BitVec 4) (e : BitVec 1) (m : BitVec 3)   -- TCMP_LT, R300
  | tcmpLe (d : BitVec 3) (a : BitVec 4) (b : BitVec 4) (y : BitVec 4) (e : BitVec 1) (m : BitVec 3)   -- TCMP_LE, R300
  | tsel (d : BitVec 4) (a : BitVec 4) (b : BitVec 4) (k : BitVec 3)   -- TSEL, R301
  | tfma (d : BitVec 4) (a : BitVec 4) (b : BitVec 4) (y : BitVec 4) (c : BitVec 4) (e : BitVec 1) (m : BitVec 3)   -- TFMA, R299
  | tfms (d : BitVec 4) (a : BitVec 4) (b : BitVec 4) (y : BitVec 4) (c : BitVec 4) (e : BitVec 1) (m : BitVec 3)   -- TFMS, R299
  | texp2 (d : BitVec 4) (a : BitVec 4) (y : BitVec 4) (e : BitVec 1) (m : BitVec 3)   -- TEXP2, R302
  | trcp (d : BitVec 4) (a : BitVec 4) (y : BitVec 4) (e : BitVec 1) (m : BitVec 3)   -- TRCP, R302
  | trsq (d : BitVec 4) (a : BitVec 4) (y : BitVec 4) (e : BitVec 1) (m : BitVec 3)   -- TRSQ, R302
  | trsum (d : BitVec 4) (a : BitVec 4) (y : BitVec 4) (e : BitVec 1) (m : BitVec 3)   -- TRSUM, R303
  | trmax (d : BitVec 4) (a : BitVec 4) (y : BitVec 4) (e : BitVec 1) (m : BitVec 3)   -- TRMAX, R303
  | trmin (d : BitVec 4) (a : BitVec 4) (y : BitVec 4) (e : BitVec 1) (m : BitVec 3)   -- TRMIN, R303
  | tcsum (d : BitVec 4) (a : BitVec 4) (y : BitVec 4) (e : BitVec 1) (m : BitVec 3)   -- TCSUM, R303
  | tcmax (d : BitVec 4) (a : BitVec 4) (y : BitVec 4) (e : BitVec 1) (m : BitVec 3)   -- TCMAX, R303
  | tcmin (d : BitVec 4) (a : BitVec 4) (y : BitVec 4) (e : BitVec 1) (m : BitVec 3)   -- TCMIN, R303
  | tbcastRow (d : BitVec 4) (a : BitVec 4) (e : BitVec 1) (m : BitVec 3)   -- TBCAST_ROW, R297
  | tbcastCol (d : BitVec 4) (a : BitVec 4) (e : BitVec 1) (m : BitVec 3)   -- TBCAST_COL, R297
  | tbcastOne (d : BitVec 4) (a : BitVec 4) (e : BitVec 1) (m : BitVec 3)   -- TBCAST_ONE, R297
  | trng (d : BitVec 4) (a : BitVec 4) (b : BitVec 4)   -- TRNG, R307
  | trngU (d : BitVec 4) (a : BitVec 4) (b : BitVec 4)   -- TRNG_U, R307
  | tcvt (d : BitVec 4) (a : BitVec 4) (y : BitVec 4)   -- TCVT, R304
  | tqnt (d : BitVec 4) (a : BitVec 4) (b : BitVec 4)   -- TQNT, R305
  | tdeq (d : BitVec 4) (a : BitVec 4) (y : BitVec 4)   -- TDEQ, R306
  | fixmerge (d : BitVec 4) (a : BitVec 4) (b : BitVec 4)   -- FIXMERGE, R309
  | fixnorm (d : BitVec 4) (a : BitVec 4)   -- FIXNORM, R309
  | mset (m : BitVec 3) (a : BitVec 6)   -- MSET, R310
  | msetZ (m : BitVec 3) (a : BitVec 6)   -- MSET_Z, R310
  | mand (m : BitVec 3) (x : BitVec 3) (y : BitVec 3)   -- MAND, R310
  | mor (m : BitVec 3) (x : BitVec 3) (y : BitVec 3)   -- MOR, R310
  | mnot (m : BitVec 3) (x : BitVec 3)   -- MNOT, R310
  | mcnt (d : BitVec 5) (x : BitVec 3)   -- MCNT, R310
  | mtestAny (d : BitVec 5) (x : BitVec 3)   -- MTEST_ANY, R310
  | mtestAll (d : BitVec 5) (x : BitVec 3)   -- MTEST_ALL, R310
  | mtestBit (d : BitVec 5) (x : BitVec 3) (a : BitVec 6)   -- MTEST_BIT, R310
  | tget (t : BitVec 4) (d : BitVec 5) (a : BitVec 6) (b : BitVec 6)   -- TGET, R295
  | tput (t : BitVec 4) (d : BitVec 5) (a : BitVec 6) (b : BitVec 6)   -- TPUT, R295
  | mma (c : BitVec 4) (x : BitVec 1) (a : BitVec 6) (y : BitVec 1) (b : BitVec 6)   -- MMA, R319
  | mmas (c : BitVec 4) (x : BitVec 1) (a : BitVec 6) (y : BitVec 1) (b : BitVec 6) (k : BitVec 2) (j : BitVec 2)   -- MMAS, R318
  | mmab (c : BitVec 4) (x : BitVec 1) (a : BitVec 6) (y : BitVec 1) (b : BitVec 6) (k : BitVec 2) (j : BitVec 2)   -- MMAB, R318
  | azero (c : BitVec 4)   -- AZERO, R321
  | ald (c : BitVec 4) (a : BitVec 6) (b : BitVec 6)   -- ALD, R321
  | ast (c : BitVec 4) (a : BitVec 6) (b : BitVec 6)   -- AST, R321
  | commit (d : BitVec 5)   -- COMMIT, R324
  | mmaw (a : BitVec 6) (k : BitVec 6)   -- MMAW, R324
  | swap (t : BitVec 4)   -- SWAP, R333
  | cpsetSrc (a : BitVec 6)   -- CPSET_SRC, R336
  | cpsetDst (a : BitVec 6)   -- CPSET_DST, R336
  | cpsetExt (a : BitVec 6)   -- CPSET_EXT, R336
  | cpsetSs (a : BitVec 6)   -- CPSET_SS, R336
  | cpsetDs (a : BitVec 6)   -- CPSET_DS, R336
  | cpsetAttr (a : BitVec 6)   -- CPSET_ATTR, R336
  | cpsetBar (a : BitVec 6)   -- CPSET_BAR, R336
  | cpsetMask (a : BitVec 6)   -- CPSET_MASK, R336
  | copy (d : BitVec 5)   -- COPY, R337
  | copym (d : BitVec 5)   -- COPYM, R342
  | barInit (a : BitVec 6) (b : BitVec 6)   -- BAR_INIT, R347
  | barExpect (a : BitVec 6) (b : BitVec 6)   -- BAR_EXPECT, R347
  | barArrive (d : BitVec 5) (a : BitVec 6)   -- BAR_ARRIVE, R347
  | barAck (a : BitVec 6)   -- BAR_ACK, R347
  | barWait (a : BitVec 6) (b : BitVec 6)   -- BAR_WAIT, R347
  | sound (d : BitVec 5) (a : BitVec 6) (b : BitVec 6) (i : BitVec 2) (f : BitVec 2) (q : BitVec 4)   -- SOUND, R348
  | sndfill (d : BitVec 5) (a : BitVec 6) (b : BitVec 6)   -- SNDFILL, R349
  | snddot (d : BitVec 5) (a : BitVec 6) (b : BitVec 6) (i : BitVec 2) (f : BitVec 2) (q : BitVec 4)   -- SNDDOT, R98
  | fenceX (s : BitVec 6) (d : BitVec 6)   -- FENCE_X, R143
  | chartLd (t : BitVec 4) (a : BitVec 6) (p : BitVec 6) (i : BitVec 8)   -- CHART_LD, R351
  | chartWin (d : BitVec 5) (a : BitVec 6)   -- CHART_WIN, R352
  | sysrd (d : BitVec 5) (n : BitVec 12)   -- SYSRD, R355
  | syswr (a : BitVec 6) (n : BitVec 12)   -- SYSWR, R355
  | trap (a : BitVec 6) (i : BitVec 14)   -- TRAP, R361
  | feat (d : BitVec 5) (a : BitVec 6) (i : BitVec 14)   -- FEAT, R363
  | mboxSend (d : BitVec 5) (a : BitVec 6) (b : BitVec 6)   -- MBOX_SEND, R365
  | mboxRecv (d : BitVec 5)   -- MBOX_RECV, R365
  | tlbinvPage (a : BitVec 6)   -- TLBINV_PAGE, R366
  | tlbinvRange (a : BitVec 6) (b : BitVec 6)   -- TLBINV_RANGE, R366
  | cachecfg (d : BitVec 5) (a : BitVec 6)   -- CACHECFG, R367
  | launch (d : BitVec 5) (a : BitVec 6)   -- LAUNCH, R368
  | tldx (t : BitVec 4) (a : BitVec 6) (p : BitVec 6) (i : BitVec 8)   -- TLDX, R369
  | mma8x (c : BitVec 4) (x : BitVec 1) (a : BitVec 6) (y : BitVec 1) (b : BitVec 6)   -- MMA8X, R370
  | hintLog (s : BitVec 24)   -- HINT_LOG, R274
  | hintImm (p : BitVec 22)   -- HINT_IMM, R228
  | hintSched (l : BitVec 1) (a : BitVec 2)   -- HINT_SCHED, R225
  | hintMod (r : BitVec 2)   -- HINT_MOD, R154
  | hintUnknown (p : BitVec 22)   -- HINT_UNKNOWN, R226
  | unassignedWord (w : IWord)   -- UNASSIGNED_WORD, R231
  | fieldsIllegal (w : IWord)   -- FIELDS_ILLEGAL, R232
  | ignoredHint (w : IWord)   -- IGNORED_HINT, R226
  | divideComplete (c : Nat) (r : Nat)   -- DIVIDE_COMPLETE, R242
  | logbookEntryFetch (cell : Nat) (slot : Nat)   -- LOGBOOK_ENTRY_FETCH, R275
  | matrixExecStart (cell : Nat)   -- MATRIX_EXEC_START, R323
  | matrixSegmentEnd (cell : Nat)   -- MATRIX_SEGMENT_END, R319
  | swapExchange (cell : Nat)   -- SWAP_EXCHANGE, R333
  | matrixFaultReply (cell : Nat) (reply : Word)   -- MATRIX_FAULT_REPLY, R329
  | copyStart (op : Nat)   -- COPY_START, R339
  | copyPiecePerformed (op : Nat) (k : Nat)   -- COPY_PIECE_PERFORMED, R339
  | copyFinish (op : Nat)   -- COPY_FINISH, R340
  | copyArbRound (cluster : Nat)   -- COPY_ARB_ROUND, R344
  | barAckAtBank (id : Nat)   -- BAR_ACK_AT_BANK, R347
  | barByteCount (id : Nat)   -- BAR_BYTE_COUNT, R347
  | soundStart (op : Nat)   -- SOUND_START, R83
  | qbcast (op : Nat) (k : Nat)   -- QBCAST, R83
  | scan (op : Nat) (k : Nat)   -- SCAN, R84
  | scanYield (op : Nat) (k : Nat)   -- SCAN_YIELD, R93
  | fixrd (op : Nat) (k : Nat)   -- FIXRD, R83
  | fixRecordWrite (op : Nat) (k : Nat)   -- FIX_RECORD_WRITE, R83
  | sndfillAtHome (op : Nat)   -- SNDFILL_AT_HOME, R89
  | fillw (op : Nat)   -- FILLW, R89
  | hbmRefresh (stack : Nat) (collides : Nat)   -- HBM_REFRESH, R95
  | retry (stack : Nat)   -- RETRY, R95
  | chartRefreshEnd (die : Nat) (bank : Nat)   -- CHART_REFRESH_END, R65
  | mboxArrival (id : Nat)   -- MBOX_ARRIVAL, R364
  | mboxSendStatus (id : Nat)   -- MBOX_SEND_STATUS, R365
  | tlbinvComplete (c : Nat)   -- TLBINV_COMPLETE, R34
  | cachecfgComplete (cluster : Nat)   -- CACHECFG_COMPLETE, R60
  | launchTokenComplete (id : Nat)   -- LAUNCH_TOKEN_COMPLETE, R368
  | trapEntry (c : Nat)   -- TRAP_ENTRY, R358
  | barrelCycle (core : Nat)   -- BARREL_CYCLE, R179
  | spadBankCycle (cluster : Nat) (bank : Nat)   -- SPAD_BANK_CYCLE, R53
  | storeAtHome (id : Nat)   -- STORE_AT_HOME, R45
  | storeOwned (id : Nat)   -- STORE_OWNED, R47
  | revoke (id : Nat)   -- REVOKE, R113
  | atomicAtHome (id : Nat)   -- ATOMIC_AT_HOME, R75
  | lineFill (core : Nat) (line : Nat)   -- LINE_FILL, R47
  | loadValueArrival (id : Nat)   -- LOAD_VALUE_ARRIVAL, R252
  | walkComplete (id : Nat)   -- WALK_COMPLETE, R29
  | faultReply (cell : Nat) (reply : Word)   -- FAULT_REPLY, R42
  | taskDispatch (core : Nat)   -- TASK_DISPATCH, R194
  | stealProbe (core : Nat)   -- STEAL_PROBE, R196
  | depDecRemote (id : Nat)   -- DEP_DEC_REMOTE, R195
  | hostLaunchRecord (vf : Nat) (q : Nat) (tag : Word)   -- HOST_LAUNCH_RECORD, R409
  | launchRecordStart (vf : Nat) (q : Nat)   -- LAUNCH_RECORD_START, R186
  | wake (cell : Nat)   -- WAKE, R186
  | cellPartEnd (cell : Nat)   -- CELL_PART_END, R190
  | hostApertureWrite (vf : Nat) (ap : Nat) (off : Nat) (bytes : List Byte)   -- HOST_APERTURE_WRITE, R131
  | hostApertureRead (vf : Nat) (ap : Nat) (off : Nat) (len : Nat)   -- HOST_APERTURE_READ, R131
  | hostAtomicop (vf : Nat) (ap : Nat) (off : Nat) (size : Nat) (op : HostAtomic) (p : Word) (cmp : Word)   -- HOST_ATOMICOP, R133
  | registerWrite (reg : HostReg) (v : Word)   -- REGISTER_WRITE, R16
  | extentRelease (base : Nat) (len : Nat)   -- EXTENT_RELEASE, R70
  | extentForcedRemoval (base : Nat) (len : Nat)   -- EXTENT_FORCED_REMOVAL, R71
  | extentAdd (base : Nat) (len : Nat)   -- EXTENT_ADD, R71
  | preemptRequest (launch : Nat)   -- PREEMPT_REQUEST, R371
  | timeSliceExpiry (vf : Nat)   -- TIME_SLICE_EXPIRY, R411
  | resume (launch : Nat) (place : List (Nat × Nat))   -- RESUME, R376
  | hardwareFault (u : FailUnit)   -- HARDWARE_FAULT, R378
  | flitCrcFail (link : Nat)   -- FLIT_CRC_FAIL, R126
  | retransmitLimit (link : Nat) (vfs : List Nat)   -- RETRANSMIT_LIMIT, R129
  | linkDown (link : Nat)   -- LINK_DOWN, R413
  | hostMarkRequest (pilot : Nat)   -- HOST_MARK_REQUEST, R398
  | markLatch (block : Nat)   -- MARK_LATCH, R398
  | hostResumeStop (launch : Nat)   -- HOST_RESUME_STOP, R401
  | hostDumpRead (cell : Nat)   -- HOST_DUMP_READ, R401
  | profileSessionOpen (vf : Nat) (events : List (Nat × List (Nat × Nat)))   -- PROFILE_SESSION_OPEN, R406, by block
  | binaryLoad (vf : Nat) (file : List Byte) (ch : LoadChoice)   -- BINARY_LOAD, R389
  | resourceMove (proc : Nat) (entry : Nat) (ch : LoadChoice)   -- RESOURCE_MOVE, R383
  | pageMigration (cell : Nat) (core : Nat) (va : Nat) (frame : Nat)   -- PAGE_MIGRATION, R419
  | errorInject (word : InjectAt) (hard : Nat)   -- ERROR_INJECT, R423
  | keySlotReplace (slot : Nat) (material : Nat)   -- KEY_SLOT_REPLACE, R74
  | pilotFirmwareReplace (fw : PilotImage)   -- PILOT_FIRMWARE_REPLACE, R414
  | clusterFence (cluster : Nat)   -- CLUSTER_FENCE, R414
  | pseudoChannelRecal (stack : Nat) (pch : Nat)   -- PSEUDO_CHANNEL_RECAL, R414
  | linkRecal (link : Nat)   -- LINK_RECAL, R414
  | chartBankRetire (die : Nat) (bank : Nat)   -- CHART_BANK_RETIRE, R66
  | powerOn (devno : Nat) (mscSize : Nat) (boot : BootSet)   -- POWER_ON, R416
  | powerLimit (exceeds : Bool)   -- POWER_LIMIT, R415
  | dieOvertemp (die : Nat)   -- DIE_OVERTEMP, R415
  | dieCriticalTemp (die : Nat)   -- DIE_CRITICAL_TEMP, R415
  | tileOpComplete (cell : Nat) (id : Nat)   -- TILE_OP_COMPLETE, R287
  | hbmWritebackAck (line : Nat)   -- HBM_WRITEBACK_ACK, R143
  | linkRecalEnd (link : Nat)   -- LINK_RECAL_END, R414
  | hwfaultRecovery (u : FailUnit)   -- HWFAULT_RECOVERY, R378
  | hostEndsLaunch (launch : Nat)   -- HOST_ENDS_LAUNCH, R404
  | retire   -- RETIRE, R268
  | fenceAcq   -- FENCE_ACQ, R108
  | fenceRel   -- FENCE_REL, R107
  | fenceSc   -- FENCE_SC, R108
  | eret   -- ERET, R359
  | halt   -- HALT, R362
  | mark   -- MARK, R362
  | tlbinvAll   -- TLBINV_ALL, R366
  | nop   -- NOP, R362
  | markInEdge   -- MARK_IN_EDGE, R398
deriving DecidableEq, Repr

end Sys2Proof
end

