-- ==== Sys2Proof/WellFormed.lean ====
section
/-! DEFINITION. Well-formed instructions: the decode limits of R232 on the fields of an encoded row, the opcode map of
R230, and the ranges of an event's arguments. A word whose fields break these limits decodes to FIELDS_ILLEGAL. -/

namespace Sys2Proof

/-- The device has the unit: 64 clusters with a slice each, 4 dies, 16 pilot cores, 12 stacks, 18 tether links, 6 bridges (R2). -/
def FailUnit.inDevice : FailUnit → Bool
  | .cluster g => decide (g < 64)
  | .slice g => decide (g < 64)
  | .die d => decide (d < 4)
  | .pilot p => decide (p < 16)
  | .stack k => decide (k < 12)
  | .link l => decide (l < 18)
  | .bridge b => decide (b < 6)

/-- The device's contexts, numbered cell x 33 + core x 11 + context (R2, R403). -/
def nContexts : Nat := 33792

/-- A tile field of kind T names t0 to t11 (R220). -/
def tileT (t : BitVec 4) : Bool := decide (t.toNat < 12)

/-- A field of kind AC names a0 to a3 (R220). -/
def accField (t : BitVec 4) : Bool := decide (12 ≤ t.toNat)

/-- ME = 0 demands a zero mask field (R221). -/
def maskOk (e : BitVec 1) (m : BitVec 3) : Bool := decide (e.toNat = 1 ∨ m.toNat = 0)

/-- A register pair names sn and sn+1 with n from 1 to 30 (R224, R348); bit 5 is the S bit. -/
def pairOk (a : BitVec 6) : Bool := decide (1 ≤ a.toNat % 32 ∧ a.toNat % 32 ≤ 30)

/-- An operand of format MX: a tile of kind T with the two high bits 0, or a register pair (R224). -/
def mxOk (x : BitVec 1) (a : BitVec 6) : Bool :=
  if x.toNat = 1 then pairOk a else decide (a.toNat < 12)

/-- The major opcodes that R230 assigns. -/
def opAssigned (op : Nat) : Bool :=
  decide ((1 ≤ op ∧ op ≤ 0x0D) ∨ (0x10 ≤ op ∧ op ≤ 0x20) ∨ (0x28 ≤ op ∧ op ≤ 0x39) ∨ (0x40 ≤ op ∧ op ≤ 0x54) ∨
    (0x58 ≤ op ∧ op ≤ 0x5D) ∨ (0x60 ≤ op ∧ op ≤ 0x69) ∨ (0x70 ≤ op ∧ op ≤ 0x7D) ∨ op = 0x7F)

/-- A word that R231 rejects before its fields are looked at: all zeros, all ones, or an unassigned opcode. -/
def wordUnassigned (w : IWord) : Bool :=
  decide (w.toNat = 0 ∨ w.toNat = 2 ^ 32 - 1 ∨ opAssigned (w.toNat / 2 ^ 25) = false)

/-- A `hint.sched` with a reserved payload bit, or a `hint.mod` with a MODKIND or a reserved bit (R226). -/
def hintIgnored (w : IWord) : Bool :=
  decide (w.toNat / 2 ^ 24 = 0xFE ∧ ((w.toNat / 2 ^ 22 % 4 = 1 ∧ w.toNat / 2 ^ 3 % 2 ^ 19 ≠ 0) ∨
    (w.toNat / 2 ^ 22 % 4 = 2 ∧ w.toNat / 2 ^ 2 % 2 ^ 20 ≠ 0)))

/-- A flat cell number (R3). -/
def isCell (n : Nat) : Bool := decide (n < 1024)

/-- A core number, cell x 3 + core. -/
def isCore (n : Nat) : Bool := decide (n < 3072)

/-- A global cluster number. -/
def isCluster (n : Nat) : Bool := decide (n < 64)

/-- The limits of an instruction's fields (R232) or of an event's arguments. -/
def Instr.wellFormed : Instr → Bool
  | .add _ _ _ => true
  | .sub _ _ _ => true
  | .mul _ _ _ => true
  | .mulhI _ _ _ => true
  | .mulhN _ _ _ => true
  | .divI _ _ _ => true
  | .divN _ _ _ => true
  | .remI _ _ _ => true
  | .remN _ _ _ => true
  | .and _ _ _ => true
  | .or _ _ _ => true
  | .xor _ _ _ => true
  | .sll _ _ _ => true
  | .srl _ _ _ => true
  | .sra _ _ _ => true
  | .rol _ _ _ => true
  | .ror _ _ _ => true
  | .minI _ _ _ => true
  | .maxI _ _ _ => true
  | .minN _ _ _ => true
  | .maxN _ _ _ => true
  | .divideComplete c r => decide (c < nContexts ∧ r < 32)
  | .clz _ _ => true
  | .ctz _ _ => true
  | .popc _ _ => true
  | .sext1 _ _ => true
  | .sext2 _ _ => true
  | .sext4 _ _ => true
  | .zext1 _ _ => true
  | .zext2 _ _ => true
  | .zext4 _ _ => true
  | .cmpEq _ _ _ => true
  | .cmpNe _ _ _ => true
  | .cmpLtI _ _ _ => true
  | .cmpGeI _ _ _ => true
  | .cmpLtN _ _ _ => true
  | .cmpGeN _ _ _ => true
  | .sel _ _ _ _ => true
  | .bfx _ _ p l => decide (p.toNat + l.toNat + 1 ≤ 64)
  | .bfi _ _ p l => decide (p.toNat + l.toNat + 1 ≤ 64)
  | .fadd _ _ _ => true
  | .fmul _ _ _ => true
  | .fcmpEq _ _ _ => true
  | .fcmpNe _ _ _ => true
  | .fcmpLt _ _ _ => true
  | .fcmpLe _ _ _ => true
  | .fcvtF32I64 _ _ => true
  | .fcvtF32N64 _ _ => true
  | .fcvtF32F16 _ _ => true
  | .fcvtF32Bf16 _ _ => true
  | .fcvtI64F32 _ _ => true
  | .fcvtN64F32 _ _ => true
  | .fcvtF16F32 _ _ => true
  | .fcvtBf16F32 _ _ => true
  | .ffma _ _ _ _ => true
  | .addi _ _ _ => true
  | .andi _ _ _ => true
  | .ori _ _ _ => true
  | .xori _ _ _ => true
  | .slli _ _ _ => true
  | .srli _ _ _ => true
  | .srai _ _ _ => true
  | .roli _ _ _ => true
  | .rori _ _ _ => true
  | .ld1 _ _ _ => true
  | .ld2 _ _ _ => true
  | .ld4 _ _ _ => true
  | .ld8 _ _ _ => true
  | .st1 _ _ _ => true
  | .st2 _ _ _ => true
  | .st4 _ _ _ => true
  | .st8 _ _ _ => true
  | .ldIndex _ _ _ _ => true
  | .stIndex _ _ _ _ => true
  | .ldRes _ _ _ _ => true
  | .stRes _ _ _ _ => true
  | .ldAcq _ _ _ => true
  | .stRel _ _ _ => true
  | .amoAdd _ _ _ _ => true
  | .amoAnd _ _ _ _ => true
  | .amoOr _ _ _ _ => true
  | .amoXor _ _ _ _ => true
  | .amoMinI _ _ _ _ => true
  | .amoMaxI _ _ _ _ => true
  | .amoMinN _ _ _ _ => true
  | .amoMaxN _ _ _ _ => true
  | .amoSwap _ _ _ _ => true
  | .famoAdd _ _ _ => true
  | .cas _ _ _ _ _ => true
  | .pref _ _ => true
  | .beqz _ _ => true
  | .bnez _ _ => true
  | .bltz _ _ => true
  | .bgez _ _ => true
  | .jal _ _ => true
  | .jr _ _ _ => true
  | .loop _ o => decide (1 ≤ o.toNat ∧ o.toNat < 2 ^ 18)
  | .bexpMaj _ _ => true
  | .bexpLast _ _ => true
  | .selxMaj _ _ _ _ => true
  | .selxLast _ _ _ _ => true
  | .unrx _ m c => decide (m.toNat ≤ 8 ∧ c.toNat ≤ 8)
  | .pfx _ _ _ => true
  | .logbookEntryFetch cell _ => isCell cell
  | .start _ _ _ => true
  | .retire => true
  | .spawn _ b => decide (1 ≤ b.toNat % 32 ∧ b.toNat % 32 ≤ 29)
  | .depSet _ _ => true
  | .depDec _ => true
  | .helpres _ _ _ => true
  | .semp _ => true
  | .semv _ => true
  | .mlock _ => true
  | .munlock _ => true
  | .tshape _ _ => true
  | .tld t _ _ _ _ => tileT t
  | .tst t _ _ _ _ => tileT t
  | .tldT t _ _ _ _ => tileT t
  | .tgath t _ x _ _ => tileT t && tileT x
  | .tzero _ e m => maskOk e m
  | .tfill _ _ e m => maskOk e m
  | .tmov _ _ => true
  | .tseqCol _ e m => maskOk e m
  | .tseqRow _ e m => maskOk e m
  | .tseqLin _ e m => maskOk e m
  | .tadd _ _ _ _ e m => maskOk e m
  | .tsub _ _ _ _ e m => maskOk e m
  | .tmul _ _ _ _ e m => maskOk e m
  | .tmin _ _ _ _ e m => maskOk e m
  | .tmax _ _ _ _ e m => maskOk e m
  | .tabs _ _ _ e m => maskOk e m
  | .tneg _ _ _ e m => maskOk e m
  | .tand _ _ _ _ e m => maskOk e m
  | .tor _ _ _ _ e m => maskOk e m
  | .txor _ _ _ _ e m => maskOk e m
  | .tsll _ _ _ _ e m => maskOk e m
  | .tsrl _ _ _ _ e m => maskOk e m
  | .tsra _ _ _ _ e m => maskOk e m
  | .tcmpEq _ _ _ _ e m => maskOk e m
  | .tcmpNe _ _ _ _ e m => maskOk e m
  | .tcmpLt _ _ _ _ e m => maskOk e m
  | .tcmpLe _ _ _ _ e m => maskOk e m
  | .tsel _ _ _ _ => true
  | .tfma _ _ _ _ _ e m => maskOk e m
  | .tfms _ _ _ _ _ e m => maskOk e m
  | .texp2 _ _ _ e m => maskOk e m
  | .trcp _ _ _ e m => maskOk e m
  | .trsq _ _ _ e m => maskOk e m
  | .trsum _ _ _ e m => maskOk e m
  | .trmax _ _ _ e m => maskOk e m
  | .trmin _ _ _ e m => maskOk e m
  | .tcsum _ _ _ e m => maskOk e m
  | .tcmax _ _ _ e m => maskOk e m
  | .tcmin _ _ _ e m => maskOk e m
  | .tbcastRow _ _ e m => maskOk e m
  | .tbcastCol _ _ e m => maskOk e m
  | .tbcastOne _ _ e m => maskOk e m
  | .trng d a b => tileT d && tileT a && tileT b
  | .trngU d a b => tileT d && tileT a && tileT b
  | .tcvt d a y => tileT d && tileT a && decide (1 ≤ y.toNat)
  | .tqnt d a b => tileT d && tileT a && tileT b
  | .tdeq d a y => tileT d && tileT a && decide (1 ≤ y.toNat)
  | .fixmerge d a b => tileT d && tileT a && tileT b
  | .fixnorm d a => tileT d && tileT a
  | .mset _ _ => true
  | .msetZ _ _ => true
  | .mand _ _ _ => true
  | .mor _ _ _ => true
  | .mnot _ _ => true
  | .mcnt _ _ => true
  | .mtestAny _ _ => true
  | .mtestAll _ _ => true
  | .mtestBit _ _ _ => true
  | .tget _ _ _ _ => true
  | .tput _ _ _ _ => true
  | .mma c x a y b => accField c && mxOk x a && mxOk y b
  | .mmas c x a y b _ _ => accField c && mxOk x a && mxOk y b
  | .mmab c x a y b _ _ => accField c && mxOk x a && mxOk y b
  | .azero c => accField c
  | .ald c _ _ => accField c
  | .ast c _ _ => accField c
  | .commit _ => true
  | .mmaw _ _ => true
  | .swap t => tileT t
  | .matrixExecStart cell => isCell cell
  | .matrixSegmentEnd cell => isCell cell
  | .swapExchange cell => isCell cell
  | .matrixFaultReply cell _ => isCell cell
  | .cpsetSrc _ => true
  | .cpsetDst _ => true
  | .cpsetExt _ => true
  | .cpsetSs _ => true
  | .cpsetDs _ => true
  | .cpsetAttr _ => true
  | .cpsetBar _ => true
  | .cpsetMask _ => true
  | .copy _ => true
  | .copym _ => true
  | .copyStart _ => true
  | .copyPiecePerformed _ _ => true
  | .copyFinish _ => true
  | .copyArbRound cluster => isCluster cluster
  | .barInit _ _ => true
  | .barExpect _ _ => true
  | .barArrive _ _ => true
  | .barAck _ => true
  | .barWait _ _ => true
  | .barAckAtBank _ => true
  | .barByteCount _ => true
  | .sound _ a _ i f q => tileT q && pairOk a && decide (i.toNat ≤ 2 ∧ f.toNat ≤ 2)
  | .sndfill _ _ _ => true
  | .snddot _ a _ i f q => tileT q && pairOk a && decide (i.toNat ≤ 2 ∧ f.toNat ≤ 2)
  | .soundStart _ => true
  | .qbcast _ _ => true
  | .scan _ _ => true
  | .scanYield _ _ => true
  | .fixrd _ _ => true
  | .fixRecordWrite _ _ => true
  | .sndfillAtHome _ => true
  | .fillw _ => true
  | .hbmRefresh stack _ => decide (stack < 12)
  | .retry stack => decide (stack < 12)
  | .fenceAcq => true
  | .fenceRel => true
  | .fenceSc => true
  | .fenceX _ _ => true
  | .chartLd t _ _ _ => tileT t
  | .chartWin _ _ => true
  | .chartRefreshEnd die bank => decide (die < 4 ∧ bank < 4096)
  | .sysrd _ _ => true
  | .syswr _ _ => true
  | .trap _ _ => true
  | .eret => true
  | .halt => true
  | .mark => true
  | .feat _ _ _ => true
  | .mboxSend _ _ _ => true
  | .mboxRecv _ => true
  | .mboxArrival _ => true
  | .mboxSendStatus _ => true
  | .tlbinvPage _ => true
  | .tlbinvRange _ _ => true
  | .tlbinvAll => true
  | .tlbinvComplete c => decide (c < nContexts)
  | .cachecfg _ _ => true
  | .cachecfgComplete cluster => isCluster cluster
  | .launch _ _ => true
  | .launchTokenComplete _ => true
  | .nop => true
  | .tldx t _ _ _ => tileT t
  | .mma8x c x a y b => accField c && mxOk x a && mxOk y b
  | .hintLog s => decide (s.toNat < 2 ^ 24 - 1)
  | .hintImm _ => true
  | .hintSched _ _ => true
  | .hintMod _ => true
  | .hintUnknown _ => true
  | .unassignedWord w => wordUnassigned w
  | .trapEntry c => decide (c < nContexts)
  | .barrelCycle core => isCore core
  | .spadBankCycle cluster bank => decide (cluster < 64 ∧ bank < 80)
  | .storeAtHome _ => true
  | .storeOwned _ => true
  | .revoke _ => true
  | .atomicAtHome _ => true
  | .lineFill core _ => isCore core
  | .loadValueArrival _ => true
  | .walkComplete _ => true
  | .faultReply cell _ => isCell cell
  | .taskDispatch core => isCore core
  | .stealProbe core => isCore core
  | .depDecRemote _ => true
  | .hostLaunchRecord vf q _ => decide (vf ≤ 32 ∧ q < 256)
  | .launchRecordStart vf q => decide (vf ≤ 32 ∧ q < 256)
  | .wake cell => isCell cell
  | .cellPartEnd cell => isCell cell
  | .hostApertureWrite vf ap _ _ => decide (vf ≤ 32 ∧ ap ≤ 16)
  | .hostApertureRead vf ap _ _ => decide (vf ≤ 32 ∧ ap < 20)
  | .hostAtomicop vf ap _ _ _ _ _ => decide (vf ≤ 32 ∧ ap < 16)
  | .registerWrite _ _ => true
  | .extentRelease _ _ => true
  | .extentForcedRemoval _ _ => true
  | .extentAdd _ _ => true
  | .preemptRequest _ => true
  | .timeSliceExpiry vf => decide (vf ≤ 32)
  | .resume _ _ => true
  | .hardwareFault u => u.inDevice
  | .flitCrcFail link => decide (link < 24)
  | .retransmitLimit link _ => decide (link < 24)
  | .linkDown link => decide (link < 18)
  | .markInEdge => true
  | .hostMarkRequest pilot => decide (pilot < 16)
  | .markLatch _ => true
  | .hostResumeStop _ => true
  | .hostDumpRead cell => isCell cell
  | .profileSessionOpen vf events => decide (vf ≤ 32) && events.all fun e => decide (e.1 < 1969 ∧ e.2.length ≤ 8)
  | .binaryLoad vf _ _ => decide (vf ≤ 32)
  | .resourceMove _ _ _ => true
  | .pageMigration cell core _ _ => decide (cell < 1024 ∧ core < 3)
  | .errorInject _ _ => true
  | .keySlotReplace slot _ => decide (slot < 64)
  | .pilotFirmwareReplace fw => decide (fw.pilot < 16)
  | .clusterFence cluster => isCluster cluster
  | .pseudoChannelRecal stack pch => decide (stack < 12 ∧ pch < 64)
  | .linkRecal link => decide (link < 18)
  | .chartBankRetire die bank => decide (die < 4 ∧ bank < 4096)
  | .powerOn devno mscSize _ => decide (devno < 32 ∧ mscSize ≤ 16)
  | .powerLimit _ => true
  | .dieOvertemp die => decide (die < 4)
  | .dieCriticalTemp die => decide (die < 4)
  | .fieldsIllegal w => decide (opAssigned (w.toNat / 2 ^ 25) = true ∧ w.toNat / 2 ^ 25 ≠ 0x7F)
  | .ignoredHint w => hintIgnored w
  | .tileOpComplete cell _ => isCell cell
  | .hbmWritebackAck _ => true
  | .linkRecalEnd link => decide (link < 18)
  | .hwfaultRecovery u => u.inDevice
  | .hostEndsLaunch _ => true

/-- The rows of the opcode table that are events: steps that no instruction word names. -/
def Instr.isEvent : Instr → Bool
  | .add _ _ _ => false
  | .sub _ _ _ => false
  | .mul _ _ _ => false
  | .mulhI _ _ _ => false
  | .mulhN _ _ _ => false
  | .divI _ _ _ => false
  | .divN _ _ _ => false
  | .remI _ _ _ => false
  | .remN _ _ _ => false
  | .and _ _ _ => false
  | .or _ _ _ => false
  | .xor _ _ _ => false
  | .sll _ _ _ => false
  | .srl _ _ _ => false
  | .sra _ _ _ => false
  | .rol _ _ _ => false
  | .ror _ _ _ => false
  | .minI _ _ _ => false
  | .maxI _ _ _ => false
  | .minN _ _ _ => false
  | .maxN _ _ _ => false
  | .divideComplete _ _ => true
  | .clz _ _ => false
  | .ctz _ _ => false
  | .popc _ _ => false
  | .sext1 _ _ => false
  | .sext2 _ _ => false
  | .sext4 _ _ => false
  | .zext1 _ _ => false
  | .zext2 _ _ => false
  | .zext4 _ _ => false
  | .cmpEq _ _ _ => false
  | .cmpNe _ _ _ => false
  | .cmpLtI _ _ _ => false
  | .cmpGeI _ _ _ => false
  | .cmpLtN _ _ _ => false
  | .cmpGeN _ _ _ => false
  | .sel _ _ _ _ => false
  | .bfx _ _ _ _ => false
  | .bfi _ _ _ _ => false
  | .fadd _ _ _ => false
  | .fmul _ _ _ => false
  | .fcmpEq _ _ _ => false
  | .fcmpNe _ _ _ => false
  | .fcmpLt _ _ _ => false
  | .fcmpLe _ _ _ => false
  | .fcvtF32I64 _ _ => false
  | .fcvtF32N64 _ _ => false
  | .fcvtF32F16 _ _ => false
  | .fcvtF32Bf16 _ _ => false
  | .fcvtI64F32 _ _ => false
  | .fcvtN64F32 _ _ => false
  | .fcvtF16F32 _ _ => false
  | .fcvtBf16F32 _ _ => false
  | .ffma _ _ _ _ => false
  | .addi _ _ _ => false
  | .andi _ _ _ => false
  | .ori _ _ _ => false
  | .xori _ _ _ => false
  | .slli _ _ _ => false
  | .srli _ _ _ => false
  | .srai _ _ _ => false
  | .roli _ _ _ => false
  | .rori _ _ _ => false
  | .ld1 _ _ _ => false
  | .ld2 _ _ _ => false
  | .ld4 _ _ _ => false
  | .ld8 _ _ _ => false
  | .st1 _ _ _ => false
  | .st2 _ _ _ => false
  | .st4 _ _ _ => false
  | .st8 _ _ _ => false
  | .ldIndex _ _ _ _ => false
  | .stIndex _ _ _ _ => false
  | .ldRes _ _ _ _ => false
  | .stRes _ _ _ _ => false
  | .ldAcq _ _ _ => false
  | .stRel _ _ _ => false
  | .amoAdd _ _ _ _ => false
  | .amoAnd _ _ _ _ => false
  | .amoOr _ _ _ _ => false
  | .amoXor _ _ _ _ => false
  | .amoMinI _ _ _ _ => false
  | .amoMaxI _ _ _ _ => false
  | .amoMinN _ _ _ _ => false
  | .amoMaxN _ _ _ _ => false
  | .amoSwap _ _ _ _ => false
  | .famoAdd _ _ _ => false
  | .cas _ _ _ _ _ => false
  | .pref _ _ => false
  | .beqz _ _ => false
  | .bnez _ _ => false
  | .bltz _ _ => false
  | .bgez _ _ => false
  | .jal _ _ => false
  | .jr _ _ _ => false
  | .loop _ _ => false
  | .bexpMaj _ _ => false
  | .bexpLast _ _ => false
  | .selxMaj _ _ _ _ => false
  | .selxLast _ _ _ _ => false
  | .unrx _ _ _ => false
  | .pfx _ _ _ => false
  | .logbookEntryFetch _ _ => true
  | .start _ _ _ => false
  | .retire => false
  | .spawn _ _ => false
  | .depSet _ _ => false
  | .depDec _ => false
  | .helpres _ _ _ => false
  | .semp _ => false
  | .semv _ => false
  | .mlock _ => false
  | .munlock _ => false
  | .tshape _ _ => false
  | .tld _ _ _ _ _ => false
  | .tst _ _ _ _ _ => false
  | .tldT _ _ _ _ _ => false
  | .tgath _ _ _ _ _ => false
  | .tzero _ _ _ => false
  | .tfill _ _ _ _ => false
  | .tmov _ _ => false
  | .tseqCol _ _ _ => false
  | .tseqRow _ _ _ => false
  | .tseqLin _ _ _ => false
  | .tadd _ _ _ _ _ _ => false
  | .tsub _ _ _ _ _ _ => false
  | .tmul _ _ _ _ _ _ => false
  | .tmin _ _ _ _ _ _ => false
  | .tmax _ _ _ _ _ _ => false
  | .tabs _ _ _ _ _ => false
  | .tneg _ _ _ _ _ => false
  | .tand _ _ _ _ _ _ => false
  | .tor _ _ _ _ _ _ => false
  | .txor _ _ _ _ _ _ => false
  | .tsll _ _ _ _ _ _ => false
  | .tsrl _ _ _ _ _ _ => false
  | .tsra _ _ _ _ _ _ => false
  | .tcmpEq _ _ _ _ _ _ => false
  | .tcmpNe _ _ _ _ _ _ => false
  | .tcmpLt _ _ _ _ _ _ => false
  | .tcmpLe _ _ _ _ _ _ => false
  | .tsel _ _ _ _ => false
  | .tfma _ _ _ _ _ _ _ => false
  | .tfms _ _ _ _ _ _ _ => false
  | .texp2 _ _ _ _ _ => false
  | .trcp _ _ _ _ _ => false
  | .trsq _ _ _ _ _ => false
  | .trsum _ _ _ _ _ => false
  | .trmax _ _ _ _ _ => false
  | .trmin _ _ _ _ _ => false
  | .tcsum _ _ _ _ _ => false
  | .tcmax _ _ _ _ _ => false
  | .tcmin _ _ _ _ _ => false
  | .tbcastRow _ _ _ _ => false
  | .tbcastCol _ _ _ _ => false
  | .tbcastOne _ _ _ _ => false
  | .trng _ _ _ => false
  | .trngU _ _ _ => false
  | .tcvt _ _ _ => false
  | .tqnt _ _ _ => false
  | .tdeq _ _ _ => false
  | .fixmerge _ _ _ => false
  | .fixnorm _ _ => false
  | .mset _ _ => false
  | .msetZ _ _ => false
  | .mand _ _ _ => false
  | .mor _ _ _ => false
  | .mnot _ _ => false
  | .mcnt _ _ => false
  | .mtestAny _ _ => false
  | .mtestAll _ _ => false
  | .mtestBit _ _ _ => false
  | .tget _ _ _ _ => false
  | .tput _ _ _ _ => false
  | .mma _ _ _ _ _ => false
  | .mmas _ _ _ _ _ _ _ => false
  | .mmab _ _ _ _ _ _ _ => false
  | .azero _ => false
  | .ald _ _ _ => false
  | .ast _ _ _ => false
  | .commit _ => false
  | .mmaw _ _ => false
  | .swap _ => false
  | .matrixExecStart _ => true
  | .matrixSegmentEnd _ => true
  | .swapExchange _ => true
  | .matrixFaultReply _ _ => true
  | .cpsetSrc _ => false
  | .cpsetDst _ => false
  | .cpsetExt _ => false
  | .cpsetSs _ => false
  | .cpsetDs _ => false
  | .cpsetAttr _ => false
  | .cpsetBar _ => false
  | .cpsetMask _ => false
  | .copy _ => false
  | .copym _ => false
  | .copyStart _ => true
  | .copyPiecePerformed _ _ => true
  | .copyFinish _ => true
  | .copyArbRound _ => true
  | .barInit _ _ => false
  | .barExpect _ _ => false
  | .barArrive _ _ => false
  | .barAck _ => false
  | .barWait _ _ => false
  | .barAckAtBank _ => true
  | .barByteCount _ => true
  | .sound _ _ _ _ _ _ => false
  | .sndfill _ _ _ => false
  | .snddot _ _ _ _ _ _ => false
  | .soundStart _ => true
  | .qbcast _ _ => true
  | .scan _ _ => true
  | .scanYield _ _ => true
  | .fixrd _ _ => true
  | .fixRecordWrite _ _ => true
  | .sndfillAtHome _ => true
  | .fillw _ => true
  | .hbmRefresh _ _ => true
  | .retry _ => true
  | .fenceAcq => false
  | .fenceRel => false
  | .fenceSc => false
  | .fenceX _ _ => false
  | .chartLd _ _ _ _ => false
  | .chartWin _ _ => false
  | .chartRefreshEnd _ _ => true
  | .sysrd _ _ => false
  | .syswr _ _ => false
  | .trap _ _ => false
  | .eret => false
  | .halt => false
  | .mark => false
  | .feat _ _ _ => false
  | .mboxSend _ _ _ => false
  | .mboxRecv _ => false
  | .mboxArrival _ => true
  | .mboxSendStatus _ => true
  | .tlbinvPage _ => false
  | .tlbinvRange _ _ => false
  | .tlbinvAll => false
  | .tlbinvComplete _ => true
  | .cachecfg _ _ => false
  | .cachecfgComplete _ => true
  | .launch _ _ => false
  | .launchTokenComplete _ => true
  | .nop => false
  | .tldx _ _ _ _ => false
  | .mma8x _ _ _ _ _ => false
  | .hintLog _ => false
  | .hintImm _ => false
  | .hintSched _ _ => false
  | .hintMod _ => false
  | .hintUnknown _ => false
  | .unassignedWord _ => false
  | .trapEntry _ => true
  | .barrelCycle _ => true
  | .spadBankCycle _ _ => true
  | .storeAtHome _ => true
  | .storeOwned _ => true
  | .revoke _ => true
  | .atomicAtHome _ => true
  | .lineFill _ _ => true
  | .loadValueArrival _ => true
  | .walkComplete _ => true
  | .faultReply _ _ => true
  | .taskDispatch _ => true
  | .stealProbe _ => true
  | .depDecRemote _ => true
  | .hostLaunchRecord _ _ _ => true
  | .launchRecordStart _ _ => true
  | .wake _ => true
  | .cellPartEnd _ => true
  | .hostApertureWrite _ _ _ _ => true
  | .hostApertureRead _ _ _ _ => true
  | .hostAtomicop _ _ _ _ _ _ _ => true
  | .registerWrite _ _ => true
  | .extentRelease _ _ => true
  | .extentForcedRemoval _ _ => true
  | .extentAdd _ _ => true
  | .preemptRequest _ => true
  | .timeSliceExpiry _ => true
  | .resume _ _ => true
  | .hardwareFault _ => true
  | .flitCrcFail _ => true
  | .retransmitLimit _ _ => true
  | .linkDown _ => true
  | .markInEdge => true
  | .hostMarkRequest _ => true
  | .markLatch _ => true
  | .hostResumeStop _ => true
  | .hostDumpRead _ => true
  | .profileSessionOpen _ _ => true
  | .binaryLoad _ _ _ => true
  | .resourceMove _ _ _ => true
  | .pageMigration _ _ _ _ => true
  | .errorInject _ _ => true
  | .keySlotReplace _ _ => true
  | .pilotFirmwareReplace _ => true
  | .clusterFence _ => true
  | .pseudoChannelRecal _ _ => true
  | .linkRecal _ => true
  | .chartBankRetire _ _ => true
  | .powerOn _ _ _ => true
  | .powerLimit _ => true
  | .dieOvertemp _ => true
  | .dieCriticalTemp _ => true
  | .fieldsIllegal _ => false
  | .ignoredHint _ => false
  | .tileOpComplete _ _ => true
  | .hbmWritebackAck _ => true
  | .linkRecalEnd _ => true
  | .hwfaultRecovery _ => true
  | .hostEndsLaunch _ => true

end Sys2Proof
end

