-- ==== Sys2Proof/Decode.lean ====
section
/-! DEFINITION. The decoder of instruction words (R224, R230 to R232), total on every word: a word that names no
instruction becomes UNASSIGNED_WORD, FIELDS_ILLEGAL or IGNORED_HINT. After it the encoder, written from the same
formats. Words are read as numbers, bit 0 the least significant; stored words are little-endian (R218). -/

namespace Sys2Proof

/-- Opcode 0x01 (R230). -/
def decodeOp01 (n : Nat) : Option Instr :=
  if n % 2 ^ 8 = 0 then some (.add (.ofNat 5 (n / 2 ^ 20)) (.ofNat 6 (n / 2 ^ 14)) (.ofNat 6 (n / 2 ^ 8)))
  else if n % 2 ^ 8 = 1 then some (.sub (.ofNat 5 (n / 2 ^ 20)) (.ofNat 6 (n / 2 ^ 14)) (.ofNat 6 (n / 2 ^ 8)))
  else if n % 2 ^ 8 = 2 then some (.mul (.ofNat 5 (n / 2 ^ 20)) (.ofNat 6 (n / 2 ^ 14)) (.ofNat 6 (n / 2 ^ 8)))
  else if n % 2 ^ 8 = 3 then some (.mulhI (.ofNat 5 (n / 2 ^ 20)) (.ofNat 6 (n / 2 ^ 14)) (.ofNat 6 (n / 2 ^ 8)))
  else if n % 2 ^ 8 = 4 then some (.mulhN (.ofNat 5 (n / 2 ^ 20)) (.ofNat 6 (n / 2 ^ 14)) (.ofNat 6 (n / 2 ^ 8)))
  else if n % 2 ^ 8 = 5 then some (.divI (.ofNat 5 (n / 2 ^ 20)) (.ofNat 6 (n / 2 ^ 14)) (.ofNat 6 (n / 2 ^ 8)))
  else if n % 2 ^ 8 = 6 then some (.divN (.ofNat 5 (n / 2 ^ 20)) (.ofNat 6 (n / 2 ^ 14)) (.ofNat 6 (n / 2 ^ 8)))
  else if n % 2 ^ 8 = 7 then some (.remI (.ofNat 5 (n / 2 ^ 20)) (.ofNat 6 (n / 2 ^ 14)) (.ofNat 6 (n / 2 ^ 8)))
  else if n % 2 ^ 8 = 8 then some (.remN (.ofNat 5 (n / 2 ^ 20)) (.ofNat 6 (n / 2 ^ 14)) (.ofNat 6 (n / 2 ^ 8)))
  else if n % 2 ^ 8 = 16 then some (.and (.ofNat 5 (n / 2 ^ 20)) (.ofNat 6 (n / 2 ^ 14)) (.ofNat 6 (n / 2 ^ 8)))
  else if n % 2 ^ 8 = 17 then some (.or (.ofNat 5 (n / 2 ^ 20)) (.ofNat 6 (n / 2 ^ 14)) (.ofNat 6 (n / 2 ^ 8)))
  else if n % 2 ^ 8 = 18 then some (.xor (.ofNat 5 (n / 2 ^ 20)) (.ofNat 6 (n / 2 ^ 14)) (.ofNat 6 (n / 2 ^ 8)))
  else if n % 2 ^ 8 = 24 then some (.sll (.ofNat 5 (n / 2 ^ 20)) (.ofNat 6 (n / 2 ^ 14)) (.ofNat 6 (n / 2 ^ 8)))
  else if n % 2 ^ 8 = 25 then some (.srl (.ofNat 5 (n / 2 ^ 20)) (.ofNat 6 (n / 2 ^ 14)) (.ofNat 6 (n / 2 ^ 8)))
  else if n % 2 ^ 8 = 26 then some (.sra (.ofNat 5 (n / 2 ^ 20)) (.ofNat 6 (n / 2 ^ 14)) (.ofNat 6 (n / 2 ^ 8)))
  else if n % 2 ^ 8 = 27 then some (.rol (.ofNat 5 (n / 2 ^ 20)) (.ofNat 6 (n / 2 ^ 14)) (.ofNat 6 (n / 2 ^ 8)))
  else if n % 2 ^ 8 = 28 then some (.ror (.ofNat 5 (n / 2 ^ 20)) (.ofNat 6 (n / 2 ^ 14)) (.ofNat 6 (n / 2 ^ 8)))
  else if n % 2 ^ 8 = 32 then some (.minI (.ofNat 5 (n / 2 ^ 20)) (.ofNat 6 (n / 2 ^ 14)) (.ofNat 6 (n / 2 ^ 8)))
  else if n % 2 ^ 8 = 33 then some (.maxI (.ofNat 5 (n / 2 ^ 20)) (.ofNat 6 (n / 2 ^ 14)) (.ofNat 6 (n / 2 ^ 8)))
  else if n % 2 ^ 8 = 34 then some (.minN (.ofNat 5 (n / 2 ^ 20)) (.ofNat 6 (n / 2 ^ 14)) (.ofNat 6 (n / 2 ^ 8)))
  else if n % 2 ^ 8 = 35 then some (.maxN (.ofNat 5 (n / 2 ^ 20)) (.ofNat 6 (n / 2 ^ 14)) (.ofNat 6 (n / 2 ^ 8)))
  else none

/-- Opcode 0x02 (R230). -/
def decodeOp02 (n : Nat) : Option Instr :=
  if n % 2 ^ 14 = 0 then some (.clz (.ofNat 5 (n / 2 ^ 20)) (.ofNat 6 (n / 2 ^ 14)))
  else if n % 2 ^ 14 = 1 then some (.ctz (.ofNat 5 (n / 2 ^ 20)) (.ofNat 6 (n / 2 ^ 14)))
  else if n % 2 ^ 14 = 2 then some (.popc (.ofNat 5 (n / 2 ^ 20)) (.ofNat 6 (n / 2 ^ 14)))
  else if n % 2 ^ 14 = 4 then some (.sext1 (.ofNat 5 (n / 2 ^ 20)) (.ofNat 6 (n / 2 ^ 14)))
  else if n % 2 ^ 14 = 5 then some (.sext2 (.ofNat 5 (n / 2 ^ 20)) (.ofNat 6 (n / 2 ^ 14)))
  else if n % 2 ^ 14 = 6 then some (.sext4 (.ofNat 5 (n / 2 ^ 20)) (.ofNat 6 (n / 2 ^ 14)))
  else if n % 2 ^ 14 = 8 then some (.zext1 (.ofNat 5 (n / 2 ^ 20)) (.ofNat 6 (n / 2 ^ 14)))
  else if n % 2 ^ 14 = 9 then some (.zext2 (.ofNat 5 (n / 2 ^ 20)) (.ofNat 6 (n / 2 ^ 14)))
  else if n % 2 ^ 14 = 10 then some (.zext4 (.ofNat 5 (n / 2 ^ 20)) (.ofNat 6 (n / 2 ^ 14)))
  else none

/-- Opcode 0x03 (R230). -/
def decodeOp03 (n : Nat) : Option Instr :=
  if n % 2 ^ 8 = 0 then some (.cmpEq (.ofNat 5 (n / 2 ^ 20)) (.ofNat 6 (n / 2 ^ 14)) (.ofNat 6 (n / 2 ^ 8)))
  else if n % 2 ^ 8 = 1 then some (.cmpNe (.ofNat 5 (n / 2 ^ 20)) (.ofNat 6 (n / 2 ^ 14)) (.ofNat 6 (n / 2 ^ 8)))
  else if n % 2 ^ 8 = 2 then some (.cmpLtI (.ofNat 5 (n / 2 ^ 20)) (.ofNat 6 (n / 2 ^ 14)) (.ofNat 6 (n / 2 ^ 8)))
  else if n % 2 ^ 8 = 3 then some (.cmpGeI (.ofNat 5 (n / 2 ^ 20)) (.ofNat 6 (n / 2 ^ 14)) (.ofNat 6 (n / 2 ^ 8)))
  else if n % 2 ^ 8 = 4 then some (.cmpLtN (.ofNat 5 (n / 2 ^ 20)) (.ofNat 6 (n / 2 ^ 14)) (.ofNat 6 (n / 2 ^ 8)))
  else if n % 2 ^ 8 = 5 then some (.cmpGeN (.ofNat 5 (n / 2 ^ 20)) (.ofNat 6 (n / 2 ^ 14)) (.ofNat 6 (n / 2 ^ 8)))
  else none

/-- Opcode 0x04 (R230). -/
def decodeOp04 (n : Nat) : Option Instr :=
  if n % 2 ^ 2 = 0 then some (.sel (.ofNat 5 (n / 2 ^ 20)) (.ofNat 6 (n / 2 ^ 14)) (.ofNat 6 (n / 2 ^ 8)) (.ofNat 6 (n / 2 ^ 2)))
  else none

/-- Opcode 0x05 (R230). -/
def decodeOp05 (n : Nat) : Option Instr :=
  if n % 2 ^ 2 = 0 then some (.bfx (.ofNat 5 (n / 2 ^ 20)) (.ofNat 6 (n / 2 ^ 14)) (.ofNat 6 (n / 2 ^ 8)) (.ofNat 6 (n / 2 ^ 2)))
  else none

/-- Opcode 0x06 (R230). -/
def decodeOp06 (n : Nat) : Option Instr :=
  if n % 2 ^ 2 = 0 then some (.bfi (.ofNat 5 (n / 2 ^ 20)) (.ofNat 6 (n / 2 ^ 14)) (.ofNat 6 (n / 2 ^ 8)) (.ofNat 6 (n / 2 ^ 2)))
  else none

/-- Opcode 0x07 (R230). -/
def decodeOp07 (n : Nat) : Option Instr :=
  if n % 2 ^ 8 = 0 then some (.fadd (.ofNat 5 (n / 2 ^ 20)) (.ofNat 6 (n / 2 ^ 14)) (.ofNat 6 (n / 2 ^ 8)))
  else if n % 2 ^ 8 = 1 then some (.fmul (.ofNat 5 (n / 2 ^ 20)) (.ofNat 6 (n / 2 ^ 14)) (.ofNat 6 (n / 2 ^ 8)))
  else if n % 2 ^ 8 = 8 then some (.fcmpEq (.ofNat 5 (n / 2 ^ 20)) (.ofNat 6 (n / 2 ^ 14)) (.ofNat 6 (n / 2 ^ 8)))
  else if n % 2 ^ 8 = 9 then some (.fcmpNe (.ofNat 5 (n / 2 ^ 20)) (.ofNat 6 (n / 2 ^ 14)) (.ofNat 6 (n / 2 ^ 8)))
  else if n % 2 ^ 8 = 10 then some (.fcmpLt (.ofNat 5 (n / 2 ^ 20)) (.ofNat 6 (n / 2 ^ 14)) (.ofNat 6 (n / 2 ^ 8)))
  else if n % 2 ^ 8 = 11 then some (.fcmpLe (.ofNat 5 (n / 2 ^ 20)) (.ofNat 6 (n / 2 ^ 14)) (.ofNat 6 (n / 2 ^ 8)))
  else if n % 2 ^ 14 = 16 then some (.fcvtF32I64 (.ofNat 5 (n / 2 ^ 20)) (.ofNat 6 (n / 2 ^ 14)))
  else if n % 2 ^ 14 = 17 then some (.fcvtF32N64 (.ofNat 5 (n / 2 ^ 20)) (.ofNat 6 (n / 2 ^ 14)))
  else if n % 2 ^ 14 = 18 then some (.fcvtF32F16 (.ofNat 5 (n / 2 ^ 20)) (.ofNat 6 (n / 2 ^ 14)))
  else if n % 2 ^ 14 = 19 then some (.fcvtF32Bf16 (.ofNat 5 (n / 2 ^ 20)) (.ofNat 6 (n / 2 ^ 14)))
  else if n % 2 ^ 14 = 24 then some (.fcvtI64F32 (.ofNat 5 (n / 2 ^ 20)) (.ofNat 6 (n / 2 ^ 14)))
  else if n % 2 ^ 14 = 25 then some (.fcvtN64F32 (.ofNat 5 (n / 2 ^ 20)) (.ofNat 6 (n / 2 ^ 14)))
  else if n % 2 ^ 14 = 26 then some (.fcvtF16F32 (.ofNat 5 (n / 2 ^ 20)) (.ofNat 6 (n / 2 ^ 14)))
  else if n % 2 ^ 14 = 27 then some (.fcvtBf16F32 (.ofNat 5 (n / 2 ^ 20)) (.ofNat 6 (n / 2 ^ 14)))
  else none

/-- Opcode 0x08 (R230). -/
def decodeOp08 (n : Nat) : Option Instr :=
  if n % 2 ^ 2 = 0 then some (.ffma (.ofNat 5 (n / 2 ^ 20)) (.ofNat 6 (n / 2 ^ 14)) (.ofNat 6 (n / 2 ^ 8)) (.ofNat 6 (n / 2 ^ 2)))
  else none

/-- Opcode 0x09 (R230). -/
def decodeOp09 (n : Nat) : Option Instr :=
  some (.addi (.ofNat 5 (n / 2 ^ 20)) (.ofNat 6 (n / 2 ^ 14)) (.ofNat 14 (n / 2 ^ 0)))

/-- Opcode 0x0A (R230). -/
def decodeOp0A (n : Nat) : Option Instr :=
  some (.andi (.ofNat 5 (n / 2 ^ 20)) (.ofNat 6 (n / 2 ^ 14)) (.ofNat 14 (n / 2 ^ 0)))

/-- Opcode 0x0B (R230). -/
def decodeOp0B (n : Nat) : Option Instr :=
  some (.ori (.ofNat 5 (n / 2 ^ 20)) (.ofNat 6 (n / 2 ^ 14)) (.ofNat 14 (n / 2 ^ 0)))

/-- Opcode 0x0C (R230). -/
def decodeOp0C (n : Nat) : Option Instr :=
  some (.xori (.ofNat 5 (n / 2 ^ 20)) (.ofNat 6 (n / 2 ^ 14)) (.ofNat 14 (n / 2 ^ 0)))

/-- Opcode 0x0D (R230). -/
def decodeOp0D (n : Nat) : Option Instr :=
  if n / 2 ^ 6 % 2 ^ 8 = 0 then some (.slli (.ofNat 5 (n / 2 ^ 20)) (.ofNat 6 (n / 2 ^ 14)) (.ofNat 6 (n / 2 ^ 0)))
  else if n / 2 ^ 6 % 2 ^ 8 = 32 then some (.srli (.ofNat 5 (n / 2 ^ 20)) (.ofNat 6 (n / 2 ^ 14)) (.ofNat 6 (n / 2 ^ 0)))
  else if n / 2 ^ 6 % 2 ^ 8 = 64 then some (.srai (.ofNat 5 (n / 2 ^ 20)) (.ofNat 6 (n / 2 ^ 14)) (.ofNat 6 (n / 2 ^ 0)))
  else if n / 2 ^ 6 % 2 ^ 8 = 96 then some (.roli (.ofNat 5 (n / 2 ^ 20)) (.ofNat 6 (n / 2 ^ 14)) (.ofNat 6 (n / 2 ^ 0)))
  else if n / 2 ^ 6 % 2 ^ 8 = 128 then some (.rori (.ofNat 5 (n / 2 ^ 20)) (.ofNat 6 (n / 2 ^ 14)) (.ofNat 6 (n / 2 ^ 0)))
  else none

/-- Opcode 0x10 (R230). -/
def decodeOp10 (n : Nat) : Option Instr :=
  some (.ld1 (.ofNat 5 (n / 2 ^ 20)) (.ofNat 6 (n / 2 ^ 14)) (.ofNat 14 (n / 2 ^ 0)))

/-- Opcode 0x11 (R230). -/
def decodeOp11 (n : Nat) : Option Instr :=
  some (.ld2 (.ofNat 5 (n / 2 ^ 20)) (.ofNat 6 (n / 2 ^ 14)) (.ofNat 14 (n / 2 ^ 0)))

/-- Opcode 0x12 (R230). -/
def decodeOp12 (n : Nat) : Option Instr :=
  some (.ld4 (.ofNat 5 (n / 2 ^ 20)) (.ofNat 6 (n / 2 ^ 14)) (.ofNat 14 (n / 2 ^ 0)))

/-- Opcode 0x13 (R230). -/
def decodeOp13 (n : Nat) : Option Instr :=
  some (.ld8 (.ofNat 5 (n / 2 ^ 20)) (.ofNat 6 (n / 2 ^ 14)) (.ofNat 14 (n / 2 ^ 0)))

/-- Opcode 0x14 (R230). -/
def decodeOp14 (n : Nat) : Option Instr :=
  some (.st1 (.ofNat 6 (n / 2 ^ 19)) (.ofNat 5 (n / 2 ^ 14)) (.ofNat 14 (n / 2 ^ 0)))

/-- Opcode 0x15 (R230). -/
def decodeOp15 (n : Nat) : Option Instr :=
  some (.st2 (.ofNat 6 (n / 2 ^ 19)) (.ofNat 5 (n / 2 ^ 14)) (.ofNat 14 (n / 2 ^ 0)))

/-- Opcode 0x16 (R230). -/
def decodeOp16 (n : Nat) : Option Instr :=
  some (.st4 (.ofNat 6 (n / 2 ^ 19)) (.ofNat 5 (n / 2 ^ 14)) (.ofNat 14 (n / 2 ^ 0)))

/-- Opcode 0x17 (R230). -/
def decodeOp17 (n : Nat) : Option Instr :=
  some (.st8 (.ofNat 6 (n / 2 ^ 19)) (.ofNat 5 (n / 2 ^ 14)) (.ofNat 14 (n / 2 ^ 0)))

/-- Opcode 0x18 (R230). -/
def decodeOp18 (n : Nat) : Option Instr :=
  if n / 2 ^ 2 % 2 ^ 6 = 0 then some (.ldIndex (.ofNat 5 (n / 2 ^ 20)) (.ofNat 6 (n / 2 ^ 14)) (.ofNat 6 (n / 2 ^ 8)) (.ofNat 2 (n / 2 ^ 0)))
  else none

/-- Opcode 0x19 (R230). -/
def decodeOp19 (n : Nat) : Option Instr :=
  if n / 2 ^ 2 % 2 ^ 5 = 0 then some (.stIndex (.ofNat 6 (n / 2 ^ 19)) (.ofNat 6 (n / 2 ^ 13)) (.ofNat 6 (n / 2 ^ 7)) (.ofNat 2 (n / 2 ^ 0)))
  else none

/-- Opcode 0x1A (R230). -/
def decodeOp1A (n : Nat) : Option Instr :=
  if n / 2 ^ 2 % 2 ^ 2 = 0 then some (.ldRes (.ofNat 5 (n / 2 ^ 20)) (.ofNat 6 (n / 2 ^ 14)) (.ofNat 10 (n / 2 ^ 4)) (.ofNat 2 (n / 2 ^ 0)))
  else none

/-- Opcode 0x1B (R230). -/
def decodeOp1B (n : Nat) : Option Instr :=
  if n / 2 ^ 2 % 2 ^ 1 = 0 then some (.stRes (.ofNat 6 (n / 2 ^ 19)) (.ofNat 6 (n / 2 ^ 13)) (.ofNat 10 (n / 2 ^ 3)) (.ofNat 2 (n / 2 ^ 0)))
  else none

/-- Opcode 0x1C (R230). -/
def decodeOp1C (n : Nat) : Option Instr :=
  some (.ldAcq (.ofNat 5 (n / 2 ^ 20)) (.ofNat 6 (n / 2 ^ 14)) (.ofNat 14 (n / 2 ^ 0)))

/-- Opcode 0x1D (R230). -/
def decodeOp1D (n : Nat) : Option Instr :=
  some (.stRel (.ofNat 6 (n / 2 ^ 19)) (.ofNat 5 (n / 2 ^ 14)) (.ofNat 14 (n / 2 ^ 0)))

/-- Opcode 0x1E (R230). -/
def decodeOp1E (n : Nat) : Option Instr :=
  if n % 2 ^ 4 = 0 ∧ n / 2 ^ 5 % 2 ^ 3 = 0 then some (.amoAdd (.ofNat 5 (n / 2 ^ 20)) (.ofNat 6 (n / 2 ^ 14)) (.ofNat 6 (n / 2 ^ 8)) (.ofNat 1 (n / 2 ^ 4)))
  else if n % 2 ^ 4 = 1 ∧ n / 2 ^ 5 % 2 ^ 3 = 0 then some (.amoAnd (.ofNat 5 (n / 2 ^ 20)) (.ofNat 6 (n / 2 ^ 14)) (.ofNat 6 (n / 2 ^ 8)) (.ofNat 1 (n / 2 ^ 4)))
  else if n % 2 ^ 4 = 2 ∧ n / 2 ^ 5 % 2 ^ 3 = 0 then some (.amoOr (.ofNat 5 (n / 2 ^ 20)) (.ofNat 6 (n / 2 ^ 14)) (.ofNat 6 (n / 2 ^ 8)) (.ofNat 1 (n / 2 ^ 4)))
  else if n % 2 ^ 4 = 3 ∧ n / 2 ^ 5 % 2 ^ 3 = 0 then some (.amoXor (.ofNat 5 (n / 2 ^ 20)) (.ofNat 6 (n / 2 ^ 14)) (.ofNat 6 (n / 2 ^ 8)) (.ofNat 1 (n / 2 ^ 4)))
  else if n % 2 ^ 4 = 4 ∧ n / 2 ^ 5 % 2 ^ 3 = 0 then some (.amoMinI (.ofNat 5 (n / 2 ^ 20)) (.ofNat 6 (n / 2 ^ 14)) (.ofNat 6 (n / 2 ^ 8)) (.ofNat 1 (n / 2 ^ 4)))
  else if n % 2 ^ 4 = 5 ∧ n / 2 ^ 5 % 2 ^ 3 = 0 then some (.amoMaxI (.ofNat 5 (n / 2 ^ 20)) (.ofNat 6 (n / 2 ^ 14)) (.ofNat 6 (n / 2 ^ 8)) (.ofNat 1 (n / 2 ^ 4)))
  else if n % 2 ^ 4 = 6 ∧ n / 2 ^ 5 % 2 ^ 3 = 0 then some (.amoMinN (.ofNat 5 (n / 2 ^ 20)) (.ofNat 6 (n / 2 ^ 14)) (.ofNat 6 (n / 2 ^ 8)) (.ofNat 1 (n / 2 ^ 4)))
  else if n % 2 ^ 4 = 7 ∧ n / 2 ^ 5 % 2 ^ 3 = 0 then some (.amoMaxN (.ofNat 5 (n / 2 ^ 20)) (.ofNat 6 (n / 2 ^ 14)) (.ofNat 6 (n / 2 ^ 8)) (.ofNat 1 (n / 2 ^ 4)))
  else if n % 2 ^ 4 = 8 ∧ n / 2 ^ 5 % 2 ^ 3 = 0 then some (.amoSwap (.ofNat 5 (n / 2 ^ 20)) (.ofNat 6 (n / 2 ^ 14)) (.ofNat 6 (n / 2 ^ 8)) (.ofNat 1 (n / 2 ^ 4)))
  else if n % 2 ^ 8 = 9 then some (.famoAdd (.ofNat 5 (n / 2 ^ 20)) (.ofNat 6 (n / 2 ^ 14)) (.ofNat 6 (n / 2 ^ 8)))
  else none

/-- Opcode 0x1F (R230). -/
def decodeOp1F (n : Nat) : Option Instr :=
  if n / 2 ^ 1 % 2 ^ 1 = 0 then some (.cas (.ofNat 5 (n / 2 ^ 20)) (.ofNat 6 (n / 2 ^ 14)) (.ofNat 6 (n / 2 ^ 8)) (.ofNat 6 (n / 2 ^ 2)) (.ofNat 1 (n / 2 ^ 0)))
  else none

/-- Opcode 0x20 (R230). -/
def decodeOp20 (n : Nat) : Option Instr :=
  if n / 2 ^ 20 % 2 ^ 5 = 0 then some (.pref (.ofNat 6 (n / 2 ^ 14)) (.ofNat 14 (n / 2 ^ 0)))
  else none

/-- Opcode 0x28 (R230). -/
def decodeOp28 (n : Nat) : Option Instr :=
  some (.beqz (.ofNat 6 (n / 2 ^ 19)) (.ofNat 19 (n / 2 ^ 0)))

/-- Opcode 0x29 (R230). -/
def decodeOp29 (n : Nat) : Option Instr :=
  some (.bnez (.ofNat 6 (n / 2 ^ 19)) (.ofNat 19 (n / 2 ^ 0)))

/-- Opcode 0x2A (R230). -/
def decodeOp2A (n : Nat) : Option Instr :=
  some (.bltz (.ofNat 6 (n / 2 ^ 19)) (.ofNat 19 (n / 2 ^ 0)))

/-- Opcode 0x2B (R230). -/
def decodeOp2B (n : Nat) : Option Instr :=
  some (.bgez (.ofNat 6 (n / 2 ^ 19)) (.ofNat 19 (n / 2 ^ 0)))

/-- Opcode 0x2C (R230). -/
def decodeOp2C (n : Nat) : Option Instr :=
  if n / 2 ^ 19 % 2 ^ 1 = 0 then some (.jal (.ofNat 5 (n / 2 ^ 20)) (.ofNat 19 (n / 2 ^ 0)))
  else none

/-- Opcode 0x2D (R230). -/
def decodeOp2D (n : Nat) : Option Instr :=
  some (.jr (.ofNat 5 (n / 2 ^ 20)) (.ofNat 6 (n / 2 ^ 14)) (.ofNat 14 (n / 2 ^ 0)))

/-- Opcode 0x2E (R230). -/
def decodeOp2E (n : Nat) : Option Instr :=
  some (.loop (.ofNat 6 (n / 2 ^ 19)) (.ofNat 19 (n / 2 ^ 0)))

/-- Opcode 0x2F (R230). -/
def decodeOp2F (n : Nat) : Option Instr :=
  if n / 2 ^ 19 % 2 ^ 5 = 0 then some (.bexpMaj (.ofNat 1 (n / 2 ^ 24)) (.ofNat 19 (n / 2 ^ 0)))
  else if n / 2 ^ 19 % 2 ^ 5 = 1 then some (.bexpLast (.ofNat 1 (n / 2 ^ 24)) (.ofNat 19 (n / 2 ^ 0)))
  else none

/-- Opcode 0x30 (R230). -/
def decodeOp30 (n : Nat) : Option Instr :=
  if n / 2 ^ 1 % 2 ^ 7 = 0 then some (.selxMaj (.ofNat 5 (n / 2 ^ 20)) (.ofNat 6 (n / 2 ^ 14)) (.ofNat 6 (n / 2 ^ 8)) (.ofNat 1 (n / 2 ^ 0)))
  else if n / 2 ^ 1 % 2 ^ 7 = 1 then some (.selxLast (.ofNat 5 (n / 2 ^ 20)) (.ofNat 6 (n / 2 ^ 14)) (.ofNat 6 (n / 2 ^ 8)) (.ofNat 1 (n / 2 ^ 0)))
  else none

/-- Opcode 0x31 (R230). -/
def decodeOp31 (n : Nat) : Option Instr :=
  if n / 2 ^ 8 % 2 ^ 12 = 0 then some (.unrx (.ofNat 5 (n / 2 ^ 20)) (.ofNat 4 (n / 2 ^ 4)) (.ofNat 4 (n / 2 ^ 0)))
  else none

/-- Opcode 0x32 (R230). -/
def decodeOp32 (n : Nat) : Option Instr :=
  if n / 2 ^ 12 % 2 ^ 8 = 0 then some (.pfx (.ofNat 5 (n / 2 ^ 20)) (.ofNat 6 (n / 2 ^ 6)) (.ofNat 6 (n / 2 ^ 0)))
  else none

/-- Opcode 0x33 (R230). -/
def decodeOp33 (n : Nat) : Option Instr :=
  if n % 2 ^ 8 = 0 then some (.start (.ofNat 5 (n / 2 ^ 20)) (.ofNat 6 (n / 2 ^ 14)) (.ofNat 6 (n / 2 ^ 8)))
  else none

/-- Opcode 0x34 (R230). -/
def decodeOp34 (n : Nat) : Option Instr :=
  if n % 2 ^ 25 = 0 then some (.retire)
  else none

/-- Opcode 0x35 (R230). -/
def decodeOp35 (n : Nat) : Option Instr :=
  if n % 2 ^ 8 = 0 ∧ n / 2 ^ 20 % 2 ^ 5 = 0 then some (.spawn (.ofNat 6 (n / 2 ^ 14)) (.ofNat 6 (n / 2 ^ 8)))
  else none

/-- Opcode 0x36 (R230). -/
def decodeOp36 (n : Nat) : Option Instr :=
  if n % 2 ^ 8 = 0 ∧ n / 2 ^ 20 % 2 ^ 5 = 0 then some (.depSet (.ofNat 6 (n / 2 ^ 14)) (.ofNat 6 (n / 2 ^ 8)))
  else if n % 2 ^ 14 = 1 ∧ n / 2 ^ 20 % 2 ^ 5 = 0 then some (.depDec (.ofNat 6 (n / 2 ^ 14)))
  else none

/-- Opcode 0x37 (R230). -/
def decodeOp37 (n : Nat) : Option Instr :=
  some (.helpres (.ofNat 5 (n / 2 ^ 20)) (.ofNat 6 (n / 2 ^ 14)) (.ofNat 14 (n / 2 ^ 0)))

/-- Opcode 0x38 (R230). -/
def decodeOp38 (n : Nat) : Option Instr :=
  if n / 2 ^ 4 % 2 ^ 21 = 0 then some (.semp (.ofNat 4 (n / 2 ^ 0)))
  else if n / 2 ^ 4 % 2 ^ 21 = 1 then some (.semv (.ofNat 4 (n / 2 ^ 0)))
  else none

/-- Opcode 0x39 (R230). -/
def decodeOp39 (n : Nat) : Option Instr :=
  if n / 2 ^ 3 % 2 ^ 22 = 0 then some (.mlock (.ofNat 3 (n / 2 ^ 0)))
  else if n / 2 ^ 3 % 2 ^ 22 = 1 then some (.munlock (.ofNat 3 (n / 2 ^ 0)))
  else none

/-- Opcode 0x40 (R230). -/
def decodeOp40 (n : Nat) : Option Instr :=
  if n % 2 ^ 15 = 0 then some (.tshape (.ofNat 4 (n / 2 ^ 21)) (.ofNat 6 (n / 2 ^ 15)))
  else none

/-- Opcode 0x41 (R230). -/
def decodeOp41 (n : Nat) : Option Instr :=
  some (.tld (.ofNat 4 (n / 2 ^ 21)) (.ofNat 6 (n / 2 ^ 15)) (.ofNat 6 (n / 2 ^ 9)) (.ofNat 1 (n / 2 ^ 8)) (.ofNat 8 (n / 2 ^ 0)))

/-- Opcode 0x42 (R230). -/
def decodeOp42 (n : Nat) : Option Instr :=
  some (.tst (.ofNat 4 (n / 2 ^ 21)) (.ofNat 6 (n / 2 ^ 15)) (.ofNat 6 (n / 2 ^ 9)) (.ofNat 1 (n / 2 ^ 8)) (.ofNat 8 (n / 2 ^ 0)))

/-- Opcode 0x43 (R230). -/
def decodeOp43 (n : Nat) : Option Instr :=
  some (.tldT (.ofNat 4 (n / 2 ^ 21)) (.ofNat 6 (n / 2 ^ 15)) (.ofNat 6 (n / 2 ^ 9)) (.ofNat 1 (n / 2 ^ 8)) (.ofNat 8 (n / 2 ^ 0)))

/-- Opcode 0x44 (R230). -/
def decodeOp44 (n : Nat) : Option Instr :=
  if n / 2 ^ 13 % 2 ^ 2 = 0 then some (.tgath (.ofNat 4 (n / 2 ^ 21)) (.ofNat 6 (n / 2 ^ 15)) (.ofNat 4 (n / 2 ^ 9)) (.ofNat 1 (n / 2 ^ 8)) (.ofNat 8 (n / 2 ^ 0)))
  else none

/-- Opcode 0x45 (R230). -/
def decodeOp45 (n : Nat) : Option Instr :=
  if n / 2 ^ 4 % 2 ^ 17 = 0 then some (.tzero (.ofNat 4 (n / 2 ^ 21)) (.ofNat 1 (n / 2 ^ 3)) (.ofNat 3 (n / 2 ^ 0)))
  else if n / 2 ^ 4 % 2 ^ 11 = 1 then some (.tfill (.ofNat 4 (n / 2 ^ 21)) (.ofNat 6 (n / 2 ^ 15)) (.ofNat 1 (n / 2 ^ 3)) (.ofNat 3 (n / 2 ^ 0)))
  else if n % 2 ^ 17 = 32 then some (.tmov (.ofNat 4 (n / 2 ^ 21)) (.ofNat 4 (n / 2 ^ 17)))
  else none

/-- Opcode 0x46 (R230). -/
def decodeOp46 (n : Nat) : Option Instr :=
  if n / 2 ^ 4 % 2 ^ 17 = 0 then some (.tseqCol (.ofNat 4 (n / 2 ^ 21)) (.ofNat 1 (n / 2 ^ 3)) (.ofNat 3 (n / 2 ^ 0)))
  else if n / 2 ^ 4 % 2 ^ 17 = 1 then some (.tseqRow (.ofNat 4 (n / 2 ^ 21)) (.ofNat 1 (n / 2 ^ 3)) (.ofNat 3 (n / 2 ^ 0)))
  else if n / 2 ^ 4 % 2 ^ 17 = 2 then some (.tseqLin (.ofNat 4 (n / 2 ^ 21)) (.ofNat 1 (n / 2 ^ 3)) (.ofNat 3 (n / 2 ^ 0)))
  else none

/-- Opcode 0x47 (R230). -/
def decodeOp47 (n : Nat) : Option Instr :=
  if n / 2 ^ 4 % 2 ^ 5 = 0 then some (.tadd (.ofNat 4 (n / 2 ^ 21)) (.ofNat 4 (n / 2 ^ 17)) (.ofNat 4 (n / 2 ^ 13)) (.ofNat 4 (n / 2 ^ 9)) (.ofNat 1 (n / 2 ^ 3)) (.ofNat 3 (n / 2 ^ 0)))
  else if n / 2 ^ 4 % 2 ^ 5 = 1 then some (.tsub (.ofNat 4 (n / 2 ^ 21)) (.ofNat 4 (n / 2 ^ 17)) (.ofNat 4 (n / 2 ^ 13)) (.ofNat 4 (n / 2 ^ 9)) (.ofNat 1 (n / 2 ^ 3)) (.ofNat 3 (n / 2 ^ 0)))
  else if n / 2 ^ 4 % 2 ^ 5 = 2 then some (.tmul (.ofNat 4 (n / 2 ^ 21)) (.ofNat 4 (n / 2 ^ 17)) (.ofNat 4 (n / 2 ^ 13)) (.ofNat 4 (n / 2 ^ 9)) (.ofNat 1 (n / 2 ^ 3)) (.ofNat 3 (n / 2 ^ 0)))
  else if n / 2 ^ 4 % 2 ^ 5 = 3 then some (.tmin (.ofNat 4 (n / 2 ^ 21)) (.ofNat 4 (n / 2 ^ 17)) (.ofNat 4 (n / 2 ^ 13)) (.ofNat 4 (n / 2 ^ 9)) (.ofNat 1 (n / 2 ^ 3)) (.ofNat 3 (n / 2 ^ 0)))
  else if n / 2 ^ 4 % 2 ^ 5 = 4 then some (.tmax (.ofNat 4 (n / 2 ^ 21)) (.ofNat 4 (n / 2 ^ 17)) (.ofNat 4 (n / 2 ^ 13)) (.ofNat 4 (n / 2 ^ 9)) (.ofNat 1 (n / 2 ^ 3)) (.ofNat 3 (n / 2 ^ 0)))
  else if n / 2 ^ 4 % 2 ^ 5 = 5 ∧ n / 2 ^ 13 % 2 ^ 4 = 0 then some (.tabs (.ofNat 4 (n / 2 ^ 21)) (.ofNat 4 (n / 2 ^ 17)) (.ofNat 4 (n / 2 ^ 9)) (.ofNat 1 (n / 2 ^ 3)) (.ofNat 3 (n / 2 ^ 0)))
  else if n / 2 ^ 4 % 2 ^ 5 = 6 ∧ n / 2 ^ 13 % 2 ^ 4 = 0 then some (.tneg (.ofNat 4 (n / 2 ^ 21)) (.ofNat 4 (n / 2 ^ 17)) (.ofNat 4 (n / 2 ^ 9)) (.ofNat 1 (n / 2 ^ 3)) (.ofNat 3 (n / 2 ^ 0)))
  else if n / 2 ^ 4 % 2 ^ 5 = 8 then some (.tand (.ofNat 4 (n / 2 ^ 21)) (.ofNat 4 (n / 2 ^ 17)) (.ofNat 4 (n / 2 ^ 13)) (.ofNat 4 (n / 2 ^ 9)) (.ofNat 1 (n / 2 ^ 3)) (.ofNat 3 (n / 2 ^ 0)))
  else if n / 2 ^ 4 % 2 ^ 5 = 9 then some (.tor (.ofNat 4 (n / 2 ^ 21)) (.ofNat 4 (n / 2 ^ 17)) (.ofNat 4 (n / 2 ^ 13)) (.ofNat 4 (n / 2 ^ 9)) (.ofNat 1 (n / 2 ^ 3)) (.ofNat 3 (n / 2 ^ 0)))
  else if n / 2 ^ 4 % 2 ^ 5 = 10 then some (.txor (.ofNat 4 (n / 2 ^ 21)) (.ofNat 4 (n / 2 ^ 17)) (.ofNat 4 (n / 2 ^ 13)) (.ofNat 4 (n / 2 ^ 9)) (.ofNat 1 (n / 2 ^ 3)) (.ofNat 3 (n / 2 ^ 0)))
  else if n / 2 ^ 4 % 2 ^ 5 = 11 then some (.tsll (.ofNat 4 (n / 2 ^ 21)) (.ofNat 4 (n / 2 ^ 17)) (.ofNat 4 (n / 2 ^ 13)) (.ofNat 4 (n / 2 ^ 9)) (.ofNat 1 (n / 2 ^ 3)) (.ofNat 3 (n / 2 ^ 0)))
  else if n / 2 ^ 4 % 2 ^ 5 = 12 then some (.tsrl (.ofNat 4 (n / 2 ^ 21)) (.ofNat 4 (n / 2 ^ 17)) (.ofNat 4 (n / 2 ^ 13)) (.ofNat 4 (n / 2 ^ 9)) (.ofNat 1 (n / 2 ^ 3)) (.ofNat 3 (n / 2 ^ 0)))
  else if n / 2 ^ 4 % 2 ^ 5 = 13 then some (.tsra (.ofNat 4 (n / 2 ^ 21)) (.ofNat 4 (n / 2 ^ 17)) (.ofNat 4 (n / 2 ^ 13)) (.ofNat 4 (n / 2 ^ 9)) (.ofNat 1 (n / 2 ^ 3)) (.ofNat 3 (n / 2 ^ 0)))
  else none

/-- Opcode 0x48 (R230). -/
def decodeOp48 (n : Nat) : Option Instr :=
  if n / 2 ^ 4 % 2 ^ 5 = 0 ∧ n / 2 ^ 24 % 2 ^ 1 = 0 then some (.tcmpEq (.ofNat 3 (n / 2 ^ 21)) (.ofNat 4 (n / 2 ^ 17)) (.ofNat 4 (n / 2 ^ 13)) (.ofNat 4 (n / 2 ^ 9)) (.ofNat 1 (n / 2 ^ 3)) (.ofNat 3 (n / 2 ^ 0)))
  else if n / 2 ^ 4 % 2 ^ 5 = 1 ∧ n / 2 ^ 24 % 2 ^ 1 = 0 then some (.tcmpNe (.ofNat 3 (n / 2 ^ 21)) (.ofNat 4 (n / 2 ^ 17)) (.ofNat 4 (n / 2 ^ 13)) (.ofNat 4 (n / 2 ^ 9)) (.ofNat 1 (n / 2 ^ 3)) (.ofNat 3 (n / 2 ^ 0)))
  else if n / 2 ^ 4 % 2 ^ 5 = 2 ∧ n / 2 ^ 24 % 2 ^ 1 = 0 then some (.tcmpLt (.ofNat 3 (n / 2 ^ 21)) (.ofNat 4 (n / 2 ^ 17)) (.ofNat 4 (n / 2 ^ 13)) (.ofNat 4 (n / 2 ^ 9)) (.ofNat 1 (n / 2 ^ 3)) (.ofNat 3 (n / 2 ^ 0)))
  else if n / 2 ^ 4 % 2 ^ 5 = 3 ∧ n / 2 ^ 24 % 2 ^ 1 = 0 then some (.tcmpLe (.ofNat 3 (n / 2 ^ 21)) (.ofNat 4 (n / 2 ^ 17)) (.ofNat 4 (n / 2 ^ 13)) (.ofNat 4 (n / 2 ^ 9)) (.ofNat 1 (n / 2 ^ 3)) (.ofNat 3 (n / 2 ^ 0)))
  else none

/-- Opcode 0x49 (R230). -/
def decodeOp49 (n : Nat) : Option Instr :=
  if n / 2 ^ 3 % 2 ^ 10 = 1 then some (.tsel (.ofNat 4 (n / 2 ^ 21)) (.ofNat 4 (n / 2 ^ 17)) (.ofNat 4 (n / 2 ^ 13)) (.ofNat 3 (n / 2 ^ 0)))
  else none

/-- Opcode 0x4A (R230). -/
def decodeOp4A (n : Nat) : Option Instr :=
  if n / 2 ^ 4 % 2 ^ 1 = 0 then some (.tfma (.ofNat 4 (n / 2 ^ 21)) (.ofNat 4 (n / 2 ^ 17)) (.ofNat 4 (n / 2 ^ 13)) (.ofNat 4 (n / 2 ^ 9)) (.ofNat 4 (n / 2 ^ 5)) (.ofNat 1 (n / 2 ^ 3)) (.ofNat 3 (n / 2 ^ 0)))
  else if n / 2 ^ 4 % 2 ^ 1 = 1 then some (.tfms (.ofNat 4 (n / 2 ^ 21)) (.ofNat 4 (n / 2 ^ 17)) (.ofNat 4 (n / 2 ^ 13)) (.ofNat 4 (n / 2 ^ 9)) (.ofNat 4 (n / 2 ^ 5)) (.ofNat 1 (n / 2 ^ 3)) (.ofNat 3 (n / 2 ^ 0)))
  else none

/-- Opcode 0x4B (R230). -/
def decodeOp4B (n : Nat) : Option Instr :=
  if n / 2 ^ 4 % 2 ^ 5 = 0 ∧ n / 2 ^ 13 % 2 ^ 4 = 0 then some (.texp2 (.ofNat 4 (n / 2 ^ 21)) (.ofNat 4 (n / 2 ^ 17)) (.ofNat 4 (n / 2 ^ 9)) (.ofNat 1 (n / 2 ^ 3)) (.ofNat 3 (n / 2 ^ 0)))
  else if n / 2 ^ 4 % 2 ^ 5 = 1 ∧ n / 2 ^ 13 % 2 ^ 4 = 0 then some (.trcp (.ofNat 4 (n / 2 ^ 21)) (.ofNat 4 (n / 2 ^ 17)) (.ofNat 4 (n / 2 ^ 9)) (.ofNat 1 (n / 2 ^ 3)) (.ofNat 3 (n / 2 ^ 0)))
  else if n / 2 ^ 4 % 2 ^ 5 = 2 ∧ n / 2 ^ 13 % 2 ^ 4 = 0 then some (.trsq (.ofNat 4 (n / 2 ^ 21)) (.ofNat 4 (n / 2 ^ 17)) (.ofNat 4 (n / 2 ^ 9)) (.ofNat 1 (n / 2 ^ 3)) (.ofNat 3 (n / 2 ^ 0)))
  else none

/-- Opcode 0x4C (R230). -/
def decodeOp4C (n : Nat) : Option Instr :=
  if n / 2 ^ 4 % 2 ^ 5 = 0 ∧ n / 2 ^ 13 % 2 ^ 4 = 0 then some (.trsum (.ofNat 4 (n / 2 ^ 21)) (.ofNat 4 (n / 2 ^ 17)) (.ofNat 4 (n / 2 ^ 9)) (.ofNat 1 (n / 2 ^ 3)) (.ofNat 3 (n / 2 ^ 0)))
  else if n / 2 ^ 4 % 2 ^ 5 = 1 ∧ n / 2 ^ 13 % 2 ^ 4 = 0 then some (.trmax (.ofNat 4 (n / 2 ^ 21)) (.ofNat 4 (n / 2 ^ 17)) (.ofNat 4 (n / 2 ^ 9)) (.ofNat 1 (n / 2 ^ 3)) (.ofNat 3 (n / 2 ^ 0)))
  else if n / 2 ^ 4 % 2 ^ 5 = 2 ∧ n / 2 ^ 13 % 2 ^ 4 = 0 then some (.trmin (.ofNat 4 (n / 2 ^ 21)) (.ofNat 4 (n / 2 ^ 17)) (.ofNat 4 (n / 2 ^ 9)) (.ofNat 1 (n / 2 ^ 3)) (.ofNat 3 (n / 2 ^ 0)))
  else if n / 2 ^ 4 % 2 ^ 5 = 4 ∧ n / 2 ^ 13 % 2 ^ 4 = 0 then some (.tcsum (.ofNat 4 (n / 2 ^ 21)) (.ofNat 4 (n / 2 ^ 17)) (.ofNat 4 (n / 2 ^ 9)) (.ofNat 1 (n / 2 ^ 3)) (.ofNat 3 (n / 2 ^ 0)))
  else if n / 2 ^ 4 % 2 ^ 5 = 5 ∧ n / 2 ^ 13 % 2 ^ 4 = 0 then some (.tcmax (.ofNat 4 (n / 2 ^ 21)) (.ofNat 4 (n / 2 ^ 17)) (.ofNat 4 (n / 2 ^ 9)) (.ofNat 1 (n / 2 ^ 3)) (.ofNat 3 (n / 2 ^ 0)))
  else if n / 2 ^ 4 % 2 ^ 5 = 6 ∧ n / 2 ^ 13 % 2 ^ 4 = 0 then some (.tcmin (.ofNat 4 (n / 2 ^ 21)) (.ofNat 4 (n / 2 ^ 17)) (.ofNat 4 (n / 2 ^ 9)) (.ofNat 1 (n / 2 ^ 3)) (.ofNat 3 (n / 2 ^ 0)))
  else none

/-- Opcode 0x4D (R230). -/
def decodeOp4D (n : Nat) : Option Instr :=
  if n / 2 ^ 4 % 2 ^ 13 = 0 then some (.tbcastRow (.ofNat 4 (n / 2 ^ 21)) (.ofNat 4 (n / 2 ^ 17)) (.ofNat 1 (n / 2 ^ 3)) (.ofNat 3 (n / 2 ^ 0)))
  else if n / 2 ^ 4 % 2 ^ 13 = 1 then some (.tbcastCol (.ofNat 4 (n / 2 ^ 21)) (.ofNat 4 (n / 2 ^ 17)) (.ofNat 1 (n / 2 ^ 3)) (.ofNat 3 (n / 2 ^ 0)))
  else if n / 2 ^ 4 % 2 ^ 13 = 2 then some (.tbcastOne (.ofNat 4 (n / 2 ^ 21)) (.ofNat 4 (n / 2 ^ 17)) (.ofNat 1 (n / 2 ^ 3)) (.ofNat 3 (n / 2 ^ 0)))
  else none

/-- Opcode 0x4E (R230). -/
def decodeOp4E (n : Nat) : Option Instr :=
  if n % 2 ^ 13 = 0 then some (.trng (.ofNat 4 (n / 2 ^ 21)) (.ofNat 4 (n / 2 ^ 17)) (.ofNat 4 (n / 2 ^ 13)))
  else if n % 2 ^ 13 = 16 then some (.trngU (.ofNat 4 (n / 2 ^ 21)) (.ofNat 4 (n / 2 ^ 17)) (.ofNat 4 (n / 2 ^ 13)))
  else none

/-- Opcode 0x4F (R230). -/
def decodeOp4F (n : Nat) : Option Instr :=
  if n % 2 ^ 9 = 0 ∧ n / 2 ^ 13 % 2 ^ 4 = 0 then some (.tcvt (.ofNat 4 (n / 2 ^ 21)) (.ofNat 4 (n / 2 ^ 17)) (.ofNat 4 (n / 2 ^ 9)))
  else none

/-- Opcode 0x50 (R230). -/
def decodeOp50 (n : Nat) : Option Instr :=
  if n % 2 ^ 13 = 0 then some (.tqnt (.ofNat 4 (n / 2 ^ 21)) (.ofNat 4 (n / 2 ^ 17)) (.ofNat 4 (n / 2 ^ 13)))
  else none

/-- Opcode 0x51 (R230). -/
def decodeOp51 (n : Nat) : Option Instr :=
  if n % 2 ^ 9 = 0 ∧ n / 2 ^ 13 % 2 ^ 4 = 0 then some (.tdeq (.ofNat 4 (n / 2 ^ 21)) (.ofNat 4 (n / 2 ^ 17)) (.ofNat 4 (n / 2 ^ 9)))
  else none

/-- Opcode 0x52 (R230). -/
def decodeOp52 (n : Nat) : Option Instr :=
  if n % 2 ^ 13 = 0 then some (.fixmerge (.ofNat 4 (n / 2 ^ 21)) (.ofNat 4 (n / 2 ^ 17)) (.ofNat 4 (n / 2 ^ 13)))
  else if n % 2 ^ 17 = 16 then some (.fixnorm (.ofNat 4 (n / 2 ^ 21)) (.ofNat 4 (n / 2 ^ 17)))
  else none

/-- Opcode 0x53 (R230). -/
def decodeOp53 (n : Nat) : Option Instr :=
  if n / 2 ^ 6 % 2 ^ 6 = 0 ∧ n / 2 ^ 15 % 2 ^ 10 = 0 then some (.mset (.ofNat 3 (n / 2 ^ 12)) (.ofNat 6 (n / 2 ^ 0)))
  else if n / 2 ^ 6 % 2 ^ 6 = 0 ∧ n / 2 ^ 15 % 2 ^ 10 = 32 then some (.msetZ (.ofNat 3 (n / 2 ^ 12)) (.ofNat 6 (n / 2 ^ 0)))
  else if n % 2 ^ 6 = 0 ∧ n / 2 ^ 15 % 2 ^ 10 = 64 then some (.mand (.ofNat 3 (n / 2 ^ 12)) (.ofNat 3 (n / 2 ^ 9)) (.ofNat 3 (n / 2 ^ 6)))
  else if n % 2 ^ 6 = 0 ∧ n / 2 ^ 15 % 2 ^ 10 = 96 then some (.mor (.ofNat 3 (n / 2 ^ 12)) (.ofNat 3 (n / 2 ^ 9)) (.ofNat 3 (n / 2 ^ 6)))
  else if n % 2 ^ 9 = 0 ∧ n / 2 ^ 15 % 2 ^ 10 = 128 then some (.mnot (.ofNat 3 (n / 2 ^ 12)) (.ofNat 3 (n / 2 ^ 9)))
  else if n % 2 ^ 9 = 0 ∧ n / 2 ^ 12 % 2 ^ 3 = 0 ∧ n / 2 ^ 20 % 2 ^ 5 = 5 then some (.mcnt (.ofNat 5 (n / 2 ^ 15)) (.ofNat 3 (n / 2 ^ 9)))
  else if n % 2 ^ 9 = 0 ∧ n / 2 ^ 12 % 2 ^ 3 = 0 ∧ n / 2 ^ 20 % 2 ^ 5 = 6 then some (.mtestAny (.ofNat 5 (n / 2 ^ 15)) (.ofNat 3 (n / 2 ^ 9)))
  else if n % 2 ^ 9 = 0 ∧ n / 2 ^ 12 % 2 ^ 3 = 0 ∧ n / 2 ^ 20 % 2 ^ 5 = 7 then some (.mtestAll (.ofNat 5 (n / 2 ^ 15)) (.ofNat 3 (n / 2 ^ 9)))
  else if n / 2 ^ 6 % 2 ^ 3 = 0 ∧ n / 2 ^ 12 % 2 ^ 3 = 0 ∧ n / 2 ^ 20 % 2 ^ 5 = 8 then some (.mtestBit (.ofNat 5 (n / 2 ^ 15)) (.ofNat 3 (n / 2 ^ 9)) (.ofNat 6 (n / 2 ^ 0)))
  else none

/-- Opcode 0x54 (R230). -/
def decodeOp54 (n : Nat) : Option Instr :=
  if n % 2 ^ 3 = 0 ∧ n / 2 ^ 24 % 2 ^ 1 = 0 then some (.tget (.ofNat 4 (n / 2 ^ 20)) (.ofNat 5 (n / 2 ^ 15)) (.ofNat 6 (n / 2 ^ 9)) (.ofNat 6 (n / 2 ^ 3)))
  else if n % 2 ^ 3 = 0 ∧ n / 2 ^ 24 % 2 ^ 1 = 1 then some (.tput (.ofNat 4 (n / 2 ^ 20)) (.ofNat 5 (n / 2 ^ 15)) (.ofNat 6 (n / 2 ^ 9)) (.ofNat 6 (n / 2 ^ 3)))
  else none

/-- Opcode 0x58 (R230). -/
def decodeOp58 (n : Nat) : Option Instr :=
  if n % 2 ^ 7 = 0 then some (.mma (.ofNat 4 (n / 2 ^ 21)) (.ofNat 1 (n / 2 ^ 20)) (.ofNat 6 (n / 2 ^ 14)) (.ofNat 1 (n / 2 ^ 13)) (.ofNat 6 (n / 2 ^ 7)))
  else none

/-- Opcode 0x59 (R230). -/
def decodeOp59 (n : Nat) : Option Instr :=
  if n % 2 ^ 3 = 0 then some (.mmas (.ofNat 4 (n / 2 ^ 21)) (.ofNat 1 (n / 2 ^ 20)) (.ofNat 6 (n / 2 ^ 14)) (.ofNat 1 (n / 2 ^ 13)) (.ofNat 6 (n / 2 ^ 7)) (.ofNat 2 (n / 2 ^ 5)) (.ofNat 2 (n / 2 ^ 3)))
  else none

/-- Opcode 0x5A (R230). -/
def decodeOp5A (n : Nat) : Option Instr :=
  if n % 2 ^ 3 = 0 then some (.mmab (.ofNat 4 (n / 2 ^ 21)) (.ofNat 1 (n / 2 ^ 20)) (.ofNat 6 (n / 2 ^ 14)) (.ofNat 1 (n / 2 ^ 13)) (.ofNat 6 (n / 2 ^ 7)) (.ofNat 2 (n / 2 ^ 5)) (.ofNat 2 (n / 2 ^ 3)))
  else none

/-- Opcode 0x5B (R230). -/
def decodeOp5B (n : Nat) : Option Instr :=
  if n % 2 ^ 21 = 0 then some (.azero (.ofNat 4 (n / 2 ^ 21)))
  else if n % 2 ^ 8 = 1 ∧ n / 2 ^ 20 % 2 ^ 1 = 0 then some (.ald (.ofNat 4 (n / 2 ^ 21)) (.ofNat 6 (n / 2 ^ 14)) (.ofNat 6 (n / 2 ^ 8)))
  else if n % 2 ^ 8 = 2 ∧ n / 2 ^ 20 % 2 ^ 1 = 0 then some (.ast (.ofNat 4 (n / 2 ^ 21)) (.ofNat 6 (n / 2 ^ 14)) (.ofNat 6 (n / 2 ^ 8)))
  else none

/-- Opcode 0x5C (R230). -/
def decodeOp5C (n : Nat) : Option Instr :=
  if n % 2 ^ 20 = 0 then some (.commit (.ofNat 5 (n / 2 ^ 20)))
  else if n % 2 ^ 8 = 1 ∧ n / 2 ^ 20 % 2 ^ 5 = 0 then some (.mmaw (.ofNat 6 (n / 2 ^ 14)) (.ofNat 6 (n / 2 ^ 8)))
  else none

/-- Opcode 0x5D (R230). -/
def decodeOp5D (n : Nat) : Option Instr :=
  if n % 2 ^ 21 = 0 then some (.swap (.ofNat 4 (n / 2 ^ 21)))
  else none

/-- Opcode 0x60 (R230). -/
def decodeOp60 (n : Nat) : Option Instr :=
  if n % 2 ^ 14 = 0 ∧ n / 2 ^ 20 % 2 ^ 5 = 0 then some (.cpsetSrc (.ofNat 6 (n / 2 ^ 14)))
  else if n % 2 ^ 14 = 1 ∧ n / 2 ^ 20 % 2 ^ 5 = 0 then some (.cpsetDst (.ofNat 6 (n / 2 ^ 14)))
  else if n % 2 ^ 14 = 2 ∧ n / 2 ^ 20 % 2 ^ 5 = 0 then some (.cpsetExt (.ofNat 6 (n / 2 ^ 14)))
  else if n % 2 ^ 14 = 3 ∧ n / 2 ^ 20 % 2 ^ 5 = 0 then some (.cpsetSs (.ofNat 6 (n / 2 ^ 14)))
  else if n % 2 ^ 14 = 4 ∧ n / 2 ^ 20 % 2 ^ 5 = 0 then some (.cpsetDs (.ofNat 6 (n / 2 ^ 14)))
  else if n % 2 ^ 14 = 5 ∧ n / 2 ^ 20 % 2 ^ 5 = 0 then some (.cpsetAttr (.ofNat 6 (n / 2 ^ 14)))
  else if n % 2 ^ 14 = 6 ∧ n / 2 ^ 20 % 2 ^ 5 = 0 then some (.cpsetBar (.ofNat 6 (n / 2 ^ 14)))
  else if n % 2 ^ 14 = 7 ∧ n / 2 ^ 20 % 2 ^ 5 = 0 then some (.cpsetMask (.ofNat 6 (n / 2 ^ 14)))
  else none

/-- Opcode 0x61 (R230). -/
def decodeOp61 (n : Nat) : Option Instr :=
  if n % 2 ^ 20 = 0 then some (.copy (.ofNat 5 (n / 2 ^ 20)))
  else none

/-- Opcode 0x62 (R230). -/
def decodeOp62 (n : Nat) : Option Instr :=
  if n % 2 ^ 20 = 0 then some (.copym (.ofNat 5 (n / 2 ^ 20)))
  else none

/-- Opcode 0x63 (R230). -/
def decodeOp63 (n : Nat) : Option Instr :=
  if n % 2 ^ 8 = 0 ∧ n / 2 ^ 20 % 2 ^ 5 = 0 then some (.barInit (.ofNat 6 (n / 2 ^ 14)) (.ofNat 6 (n / 2 ^ 8)))
  else if n % 2 ^ 8 = 1 ∧ n / 2 ^ 20 % 2 ^ 5 = 0 then some (.barExpect (.ofNat 6 (n / 2 ^ 14)) (.ofNat 6 (n / 2 ^ 8)))
  else if n % 2 ^ 14 = 2 then some (.barArrive (.ofNat 5 (n / 2 ^ 20)) (.ofNat 6 (n / 2 ^ 14)))
  else if n % 2 ^ 14 = 3 ∧ n / 2 ^ 20 % 2 ^ 5 = 0 then some (.barAck (.ofNat 6 (n / 2 ^ 14)))
  else if n % 2 ^ 8 = 4 ∧ n / 2 ^ 20 % 2 ^ 5 = 0 then some (.barWait (.ofNat 6 (n / 2 ^ 14)) (.ofNat 6 (n / 2 ^ 8)))
  else none

/-- Opcode 0x64 (R230). -/
def decodeOp64 (n : Nat) : Option Instr :=
  some (.sound (.ofNat 5 (n / 2 ^ 20)) (.ofNat 6 (n / 2 ^ 14)) (.ofNat 6 (n / 2 ^ 8)) (.ofNat 2 (n / 2 ^ 6)) (.ofNat 2 (n / 2 ^ 4)) (.ofNat 4 (n / 2 ^ 0)))

/-- Opcode 0x65 (R230). -/
def decodeOp65 (n : Nat) : Option Instr :=
  if n % 2 ^ 8 = 0 then some (.sndfill (.ofNat 5 (n / 2 ^ 20)) (.ofNat 6 (n / 2 ^ 14)) (.ofNat 6 (n / 2 ^ 8)))
  else none

/-- Opcode 0x66 (R230). -/
def decodeOp66 (n : Nat) : Option Instr :=
  some (.snddot (.ofNat 5 (n / 2 ^ 20)) (.ofNat 6 (n / 2 ^ 14)) (.ofNat 6 (n / 2 ^ 8)) (.ofNat 2 (n / 2 ^ 6)) (.ofNat 2 (n / 2 ^ 4)) (.ofNat 4 (n / 2 ^ 0)))

/-- Opcode 0x67 (R230). -/
def decodeOp67 (n : Nat) : Option Instr :=
  if n % 2 ^ 25 = 0 then some (.fenceAcq)
  else if n % 2 ^ 25 = 4194304 then some (.fenceRel)
  else if n % 2 ^ 25 = 8388608 then some (.fenceSc)
  else if n % 2 ^ 6 = 0 ∧ n / 2 ^ 18 % 2 ^ 7 = 48 then some (.fenceX (.ofNat 6 (n / 2 ^ 12)) (.ofNat 6 (n / 2 ^ 6)))
  else none

/-- Opcode 0x68 (R230). -/
def decodeOp68 (n : Nat) : Option Instr :=
  if n / 2 ^ 8 % 2 ^ 1 = 0 then some (.chartLd (.ofNat 4 (n / 2 ^ 21)) (.ofNat 6 (n / 2 ^ 15)) (.ofNat 6 (n / 2 ^ 9)) (.ofNat 8 (n / 2 ^ 0)))
  else none

/-- Opcode 0x69 (R230). -/
def decodeOp69 (n : Nat) : Option Instr :=
  if n % 2 ^ 14 = 0 then some (.chartWin (.ofNat 5 (n / 2 ^ 20)) (.ofNat 6 (n / 2 ^ 14)))
  else none

/-- Opcode 0x70 (R230). -/
def decodeOp70 (n : Nat) : Option Instr :=
  if n / 2 ^ 12 % 2 ^ 8 = 0 then some (.sysrd (.ofNat 5 (n / 2 ^ 20)) (.ofNat 12 (n / 2 ^ 0)))
  else none

/-- Opcode 0x71 (R230). -/
def decodeOp71 (n : Nat) : Option Instr :=
  if n / 2 ^ 12 % 2 ^ 2 = 0 ∧ n / 2 ^ 20 % 2 ^ 5 = 0 then some (.syswr (.ofNat 6 (n / 2 ^ 14)) (.ofNat 12 (n / 2 ^ 0)))
  else none

/-- Opcode 0x72 (R230). -/
def decodeOp72 (n : Nat) : Option Instr :=
  if n / 2 ^ 20 % 2 ^ 5 = 0 then some (.trap (.ofNat 6 (n / 2 ^ 14)) (.ofNat 14 (n / 2 ^ 0)))
  else none

/-- Opcode 0x73 (R230). -/
def decodeOp73 (n : Nat) : Option Instr :=
  if n % 2 ^ 25 = 0 then some (.eret)
  else none

/-- Opcode 0x74 (R230). -/
def decodeOp74 (n : Nat) : Option Instr :=
  if n % 2 ^ 25 = 0 then some (.halt)
  else none

/-- Opcode 0x75 (R230). -/
def decodeOp75 (n : Nat) : Option Instr :=
  if n % 2 ^ 25 = 0 then some (.mark)
  else none

/-- Opcode 0x76 (R230). -/
def decodeOp76 (n : Nat) : Option Instr :=
  some (.feat (.ofNat 5 (n / 2 ^ 20)) (.ofNat 6 (n / 2 ^ 14)) (.ofNat 14 (n / 2 ^ 0)))

/-- Opcode 0x77 (R230). -/
def decodeOp77 (n : Nat) : Option Instr :=
  if n % 2 ^ 8 = 0 then some (.mboxSend (.ofNat 5 (n / 2 ^ 20)) (.ofNat 6 (n / 2 ^ 14)) (.ofNat 6 (n / 2 ^ 8)))
  else if n % 2 ^ 20 = 1 then some (.mboxRecv (.ofNat 5 (n / 2 ^ 20)))
  else none

/-- Opcode 0x78 (R230). -/
def decodeOp78 (n : Nat) : Option Instr :=
  if n % 2 ^ 14 = 0 ∧ n / 2 ^ 20 % 2 ^ 5 = 0 then some (.tlbinvPage (.ofNat 6 (n / 2 ^ 14)))
  else if n % 2 ^ 8 = 1 ∧ n / 2 ^ 20 % 2 ^ 5 = 0 then some (.tlbinvRange (.ofNat 6 (n / 2 ^ 14)) (.ofNat 6 (n / 2 ^ 8)))
  else if n % 2 ^ 25 = 2 then some (.tlbinvAll)
  else none

/-- Opcode 0x79 (R230). -/
def decodeOp79 (n : Nat) : Option Instr :=
  if n % 2 ^ 14 = 0 then some (.cachecfg (.ofNat 5 (n / 2 ^ 20)) (.ofNat 6 (n / 2 ^ 14)))
  else none

/-- Opcode 0x7A (R230). -/
def decodeOp7A (n : Nat) : Option Instr :=
  if n % 2 ^ 14 = 0 then some (.launch (.ofNat 5 (n / 2 ^ 20)) (.ofNat 6 (n / 2 ^ 14)))
  else none

/-- Opcode 0x7B (R230). -/
def decodeOp7B (n : Nat) : Option Instr :=
  if n % 2 ^ 25 = 0 then some (.nop)
  else none

/-- Opcode 0x7C (R230). -/
def decodeOp7C (n : Nat) : Option Instr :=
  if n / 2 ^ 8 % 2 ^ 1 = 0 then some (.tldx (.ofNat 4 (n / 2 ^ 21)) (.ofNat 6 (n / 2 ^ 15)) (.ofNat 6 (n / 2 ^ 9)) (.ofNat 8 (n / 2 ^ 0)))
  else none

/-- Opcode 0x7D (R230). -/
def decodeOp7D (n : Nat) : Option Instr :=
  if n % 2 ^ 7 = 0 then some (.mma8x (.ofNat 4 (n / 2 ^ 21)) (.ofNat 1 (n / 2 ^ 20)) (.ofNat 6 (n / 2 ^ 14)) (.ofNat 1 (n / 2 ^ 13)) (.ofNat 6 (n / 2 ^ 7)))
  else none

/-- Opcode 0x7F, the hint words (R225, R226). -/
def decodeOp7F (n : Nat) : Instr :=
  if n / 2 ^ 24 % 2 = 1 then .hintLog (.ofNat 24 n)
  else if n / 2 ^ 22 % 4 = 0 then .hintImm (.ofNat 22 n)
  else if n / 2 ^ 22 % 4 = 1 then
    if n / 2 ^ 3 % 2 ^ 19 = 0 then .hintSched (.ofNat 1 (n / 2 ^ 2)) (.ofNat 2 n) else .ignoredHint (.ofNat 32 n)
  else if n / 2 ^ 22 % 4 = 2 then
    if n / 2 ^ 2 % 2 ^ 20 = 0 then .hintMod (.ofNat 2 n) else .ignoredHint (.ofNat 32 n)
  else .hintUnknown (.ofNat 22 n)

/-- The raw reading of a word by its major opcode: which row's fixed bits it shows (R224, R230). -/
def decodeRaw (n : Nat) : Option Instr :=
  let op := n / 2 ^ 25
  if op = 0x01 then decodeOp01 n
  else if op = 0x02 then decodeOp02 n
  else if op = 0x03 then decodeOp03 n
  else if op = 0x04 then decodeOp04 n
  else if op = 0x05 then decodeOp05 n
  else if op = 0x06 then decodeOp06 n
  else if op = 0x07 then decodeOp07 n
  else if op = 0x08 then decodeOp08 n
  else if op = 0x09 then decodeOp09 n
  else if op = 0x0A then decodeOp0A n
  else if op = 0x0B then decodeOp0B n
  else if op = 0x0C then decodeOp0C n
  else if op = 0x0D then decodeOp0D n
  else if op = 0x10 then decodeOp10 n
  else if op = 0x11 then decodeOp11 n
  else if op = 0x12 then decodeOp12 n
  else if op = 0x13 then decodeOp13 n
  else if op = 0x14 then decodeOp14 n
  else if op = 0x15 then decodeOp15 n
  else if op = 0x16 then decodeOp16 n
  else if op = 0x17 then decodeOp17 n
  else if op = 0x18 then decodeOp18 n
  else if op = 0x19 then decodeOp19 n
  else if op = 0x1A then decodeOp1A n
  else if op = 0x1B then decodeOp1B n
  else if op = 0x1C then decodeOp1C n
  else if op = 0x1D then decodeOp1D n
  else if op = 0x1E then decodeOp1E n
  else if op = 0x1F then decodeOp1F n
  else if op = 0x20 then decodeOp20 n
  else if op = 0x28 then decodeOp28 n
  else if op = 0x29 then decodeOp29 n
  else if op = 0x2A then decodeOp2A n
  else if op = 0x2B then decodeOp2B n
  else if op = 0x2C then decodeOp2C n
  else if op = 0x2D then decodeOp2D n
  else if op = 0x2E then decodeOp2E n
  else if op = 0x2F then decodeOp2F n
  else if op = 0x30 then decodeOp30 n
  else if op = 0x31 then decodeOp31 n
  else if op = 0x32 then decodeOp32 n
  else if op = 0x33 then decodeOp33 n
  else if op = 0x34 then decodeOp34 n
  else if op = 0x35 then decodeOp35 n
  else if op = 0x36 then decodeOp36 n
  else if op = 0x37 then decodeOp37 n
  else if op = 0x38 then decodeOp38 n
  else if op = 0x39 then decodeOp39 n
  else if op = 0x40 then decodeOp40 n
  else if op = 0x41 then decodeOp41 n
  else if op = 0x42 then decodeOp42 n
  else if op = 0x43 then decodeOp43 n
  else if op = 0x44 then decodeOp44 n
  else if op = 0x45 then decodeOp45 n
  else if op = 0x46 then decodeOp46 n
  else if op = 0x47 then decodeOp47 n
  else if op = 0x48 then decodeOp48 n
  else if op = 0x49 then decodeOp49 n
  else if op = 0x4A then decodeOp4A n
  else if op = 0x4B then decodeOp4B n
  else if op = 0x4C then decodeOp4C n
  else if op = 0x4D then decodeOp4D n
  else if op = 0x4E then decodeOp4E n
  else if op = 0x4F then decodeOp4F n
  else if op = 0x50 then decodeOp50 n
  else if op = 0x51 then decodeOp51 n
  else if op = 0x52 then decodeOp52 n
  else if op = 0x53 then decodeOp53 n
  else if op = 0x54 then decodeOp54 n
  else if op = 0x58 then decodeOp58 n
  else if op = 0x59 then decodeOp59 n
  else if op = 0x5A then decodeOp5A n
  else if op = 0x5B then decodeOp5B n
  else if op = 0x5C then decodeOp5C n
  else if op = 0x5D then decodeOp5D n
  else if op = 0x60 then decodeOp60 n
  else if op = 0x61 then decodeOp61 n
  else if op = 0x62 then decodeOp62 n
  else if op = 0x63 then decodeOp63 n
  else if op = 0x64 then decodeOp64 n
  else if op = 0x65 then decodeOp65 n
  else if op = 0x66 then decodeOp66 n
  else if op = 0x67 then decodeOp67 n
  else if op = 0x68 then decodeOp68 n
  else if op = 0x69 then decodeOp69 n
  else if op = 0x70 then decodeOp70 n
  else if op = 0x71 then decodeOp71 n
  else if op = 0x72 then decodeOp72 n
  else if op = 0x73 then decodeOp73 n
  else if op = 0x74 then decodeOp74 n
  else if op = 0x75 then decodeOp75 n
  else if op = 0x76 then decodeOp76 n
  else if op = 0x77 then decodeOp77 n
  else if op = 0x78 then decodeOp78 n
  else if op = 0x79 then decodeOp79 n
  else if op = 0x7A then decodeOp7A n
  else if op = 0x7B then decodeOp7B n
  else if op = 0x7C then decodeOp7C n
  else if op = 0x7D then decodeOp7D n
  else if op = 0x7F then some (decodeOp7F n)
  else none

/-- The instruction a word stands for, or its fate (R231, R232). Core ownership, hidden opcodes and fields of kind TA
depend on the context and are checked where the instruction runs. -/
def decode (w : IWord) : Instr :=
  if w.toNat = 0 ∨ w.toNat = 2 ^ 32 - 1 ∨ opAssigned (w.toNat / 2 ^ 25) = false then .unassignedWord w
  else
    match decodeRaw w.toNat with
    | none => .fieldsIllegal w
    | some i => if i.wellFormed then i else .fieldsIllegal w

/-- No well-formed instruction is read from the word's fields (R232). -/
def fieldsRejected (w : IWord) : Bool :=
  match decodeRaw w.toNat with
  | none => true
  | some i => !i.wellFormed

/-- Why bytes give no instruction word. -/
inductive DecodeReject where
  | tooShort   -- fewer than four bytes are left
deriving DecidableEq, Repr

/-- The word that four bytes hold, little-endian (R218). -/
def wordOfBytes (b0 b1 b2 b3 : Byte) : IWord :=
  .ofNat 32 (b0.toNat + 2 ^ 8 * b1.toNat + 2 ^ 16 * b2.toNat + 2 ^ 24 * b3.toNat)

/-- The four bytes of a word, the lowest address first (R218). -/
def bytesOfWord (w : IWord) : List Byte :=
  [.ofNat 8 w.toNat, .ofNat 8 (w.toNat / 2 ^ 8), .ofNat 8 (w.toNat / 2 ^ 16), .ofNat 8 (w.toNat / 2 ^ 24)]

/-- The decoder on bytes: the first instruction and the rest of the list. -/
def decodeBytes : List Byte → Except DecodeReject (Instr × List Byte)
  | b0 :: b1 :: b2 :: b3 :: rest => .ok (decode (wordOfBytes b0 b1 b2 b3), rest)
  | _ => .error .tooShort

/-- The host's question: the instruction the decoder reads from an opcode-table word of at most 32 bits. -/
def decodeTableWord (nbits w : Nat) : Option Instr :=
  if nbits ≤ 32 then
    match decodeBytes (bytesOfWord (.ofNat 32 w)) with
    | .ok (i, _) => some i
    | .error _ => none
  else none

/-- Puts a field's value at its place in a word (R224). -/
def put (base x lo : Nat) : Nat := base + x * 2 ^ lo

/-- The number an encoded instruction's word is; `none` for events, which no word names (R224, R230). -/
def encodeNat : Instr → Option Nat
  | .add d a b => some (put (put (put 0x02000000 d.toNat 20) a.toNat 14) b.toNat 8)
  | .sub d a b => some (put (put (put 0x02000001 d.toNat 20) a.toNat 14) b.toNat 8)
  | .mul d a b => some (put (put (put 0x02000002 d.toNat 20) a.toNat 14) b.toNat 8)
  | .mulhI d a b => some (put (put (put 0x02000003 d.toNat 20) a.toNat 14) b.toNat 8)
  | .mulhN d a b => some (put (put (put 0x02000004 d.toNat 20) a.toNat 14) b.toNat 8)
  | .divI d a b => some (put (put (put 0x02000005 d.toNat 20) a.toNat 14) b.toNat 8)
  | .divN d a b => some (put (put (put 0x02000006 d.toNat 20) a.toNat 14) b.toNat 8)
  | .remI d a b => some (put (put (put 0x02000007 d.toNat 20) a.toNat 14) b.toNat 8)
  | .remN d a b => some (put (put (put 0x02000008 d.toNat 20) a.toNat 14) b.toNat 8)
  | .and d a b => some (put (put (put 0x02000010 d.toNat 20) a.toNat 14) b.toNat 8)
  | .or d a b => some (put (put (put 0x02000011 d.toNat 20) a.toNat 14) b.toNat 8)
  | .xor d a b => some (put (put (put 0x02000012 d.toNat 20) a.toNat 14) b.toNat 8)
  | .sll d a b => some (put (put (put 0x02000018 d.toNat 20) a.toNat 14) b.toNat 8)
  | .srl d a b => some (put (put (put 0x02000019 d.toNat 20) a.toNat 14) b.toNat 8)
  | .sra d a b => some (put (put (put 0x0200001a d.toNat 20) a.toNat 14) b.toNat 8)
  | .rol d a b => some (put (put (put 0x0200001b d.toNat 20) a.toNat 14) b.toNat 8)
  | .ror d a b => some (put (put (put 0x0200001c d.toNat 20) a.toNat 14) b.toNat 8)
  | .minI d a b => some (put (put (put 0x02000020 d.toNat 20) a.toNat 14) b.toNat 8)
  | .maxI d a b => some (put (put (put 0x02000021 d.toNat 20) a.toNat 14) b.toNat 8)
  | .minN d a b => some (put (put (put 0x02000022 d.toNat 20) a.toNat 14) b.toNat 8)
  | .maxN d a b => some (put (put (put 0x02000023 d.toNat 20) a.toNat 14) b.toNat 8)
  | .divideComplete _ _ => none
  | .clz d a => some (put (put 0x04000000 d.toNat 20) a.toNat 14)
  | .ctz d a => some (put (put 0x04000001 d.toNat 20) a.toNat 14)
  | .popc d a => some (put (put 0x04000002 d.toNat 20) a.toNat 14)
  | .sext1 d a => some (put (put 0x04000004 d.toNat 20) a.toNat 14)
  | .sext2 d a => some (put (put 0x04000005 d.toNat 20) a.toNat 14)
  | .sext4 d a => some (put (put 0x04000006 d.toNat 20) a.toNat 14)
  | .zext1 d a => some (put (put 0x04000008 d.toNat 20) a.toNat 14)
  | .zext2 d a => some (put (put 0x04000009 d.toNat 20) a.toNat 14)
  | .zext4 d a => some (put (put 0x0400000a d.toNat 20) a.toNat 14)
  | .cmpEq d a b => some (put (put (put 0x06000000 d.toNat 20) a.toNat 14) b.toNat 8)
  | .cmpNe d a b => some (put (put (put 0x06000001 d.toNat 20) a.toNat 14) b.toNat 8)
  | .cmpLtI d a b => some (put (put (put 0x06000002 d.toNat 20) a.toNat 14) b.toNat 8)
  | .cmpGeI d a b => some (put (put (put 0x06000003 d.toNat 20) a.toNat 14) b.toNat 8)
  | .cmpLtN d a b => some (put (put (put 0x06000004 d.toNat 20) a.toNat 14) b.toNat 8)
  | .cmpGeN d a b => some (put (put (put 0x06000005 d.toNat 20) a.toNat 14) b.toNat 8)
  | .sel d a b c => some (put (put (put (put 0x08000000 d.toNat 20) a.toNat 14) b.toNat 8) c.toNat 2)
  | .bfx d a p l => some (put (put (put (put 0x0a000000 d.toNat 20) a.toNat 14) p.toNat 8) l.toNat 2)
  | .bfi d a p l => some (put (put (put (put 0x0c000000 d.toNat 20) a.toNat 14) p.toNat 8) l.toNat 2)
  | .fadd d a b => some (put (put (put 0x0e000000 d.toNat 20) a.toNat 14) b.toNat 8)
  | .fmul d a b => some (put (put (put 0x0e000001 d.toNat 20) a.toNat 14) b.toNat 8)
  | .fcmpEq d a b => some (put (put (put 0x0e000008 d.toNat 20) a.toNat 14) b.toNat 8)
  | .fcmpNe d a b => some (put (put (put 0x0e000009 d.toNat 20) a.toNat 14) b.toNat 8)
  | .fcmpLt d a b => some (put (put (put 0x0e00000a d.toNat 20) a.toNat 14) b.toNat 8)
  | .fcmpLe d a b => some (put (put (put 0x0e00000b d.toNat 20) a.toNat 14) b.toNat 8)
  | .fcvtF32I64 d a => some (put (put 0x0e000010 d.toNat 20) a.toNat 14)
  | .fcvtF32N64 d a => some (put (put 0x0e000011 d.toNat 20) a.toNat 14)
  | .fcvtF32F16 d a => some (put (put 0x0e000012 d.toNat 20) a.toNat 14)
  | .fcvtF32Bf16 d a => some (put (put 0x0e000013 d.toNat 20) a.toNat 14)
  | .fcvtI64F32 d a => some (put (put 0x0e000018 d.toNat 20) a.toNat 14)
  | .fcvtN64F32 d a => some (put (put 0x0e000019 d.toNat 20) a.toNat 14)
  | .fcvtF16F32 d a => some (put (put 0x0e00001a d.toNat 20) a.toNat 14)
  | .fcvtBf16F32 d a => some (put (put 0x0e00001b d.toNat 20) a.toNat 14)
  | .ffma d a b c => some (put (put (put (put 0x10000000 d.toNat 20) a.toNat 14) b.toNat 8) c.toNat 2)
  | .addi d a i => some (put (put (put 0x12000000 d.toNat 20) a.toNat 14) i.toNat 0)
  | .andi d a i => some (put (put (put 0x14000000 d.toNat 20) a.toNat 14) i.toNat 0)
  | .ori d a i => some (put (put (put 0x16000000 d.toNat 20) a.toNat 14) i.toNat 0)
  | .xori d a i => some (put (put (put 0x18000000 d.toNat 20) a.toNat 14) i.toNat 0)
  | .slli d a n => some (put (put (put 0x1a000000 d.toNat 20) a.toNat 14) n.toNat 0)
  | .srli d a n => some (put (put (put 0x1a000800 d.toNat 20) a.toNat 14) n.toNat 0)
  | .srai d a n => some (put (put (put 0x1a001000 d.toNat 20) a.toNat 14) n.toNat 0)
  | .roli d a n => some (put (put (put 0x1a001800 d.toNat 20) a.toNat 14) n.toNat 0)
  | .rori d a n => some (put (put (put 0x1a002000 d.toNat 20) a.toNat 14) n.toNat 0)
  | .ld1 d a i => some (put (put (put 0x20000000 d.toNat 20) a.toNat 14) i.toNat 0)
  | .ld2 d a i => some (put (put (put 0x22000000 d.toNat 20) a.toNat 14) i.toNat 0)
  | .ld4 d a i => some (put (put (put 0x24000000 d.toNat 20) a.toNat 14) i.toNat 0)
  | .ld8 d a i => some (put (put (put 0x26000000 d.toNat 20) a.toNat 14) i.toNat 0)
  | .st1 b a i => some (put (put (put 0x28000000 b.toNat 19) a.toNat 14) i.toNat 0)
  | .st2 b a i => some (put (put (put 0x2a000000 b.toNat 19) a.toNat 14) i.toNat 0)
  | .st4 b a i => some (put (put (put 0x2c000000 b.toNat 19) a.toNat 14) i.toNat 0)
  | .st8 b a i => some (put (put (put 0x2e000000 b.toNat 19) a.toNat 14) i.toNat 0)
  | .ldIndex d a b z => some (put (put (put (put 0x30000000 d.toNat 20) a.toNat 14) b.toNat 8) z.toNat 0)
  | .stIndex b a c z => some (put (put (put (put 0x32000000 b.toNat 19) a.toNat 13) c.toNat 7) z.toNat 0)
  | .ldRes d a n z => some (put (put (put (put 0x34000000 d.toNat 20) a.toNat 14) n.toNat 4) z.toNat 0)
  | .stRes b a n z => some (put (put (put (put 0x36000000 b.toNat 19) a.toNat 13) n.toNat 3) z.toNat 0)
  | .ldAcq d a i => some (put (put (put 0x38000000 d.toNat 20) a.toNat 14) i.toNat 0)
  | .stRel b a i => some (put (put (put 0x3a000000 b.toNat 19) a.toNat 14) i.toNat 0)
  | .amoAdd d a b z => some (put (put (put (put 0x3c000000 d.toNat 20) a.toNat 14) b.toNat 8) z.toNat 4)
  | .amoAnd d a b z => some (put (put (put (put 0x3c000001 d.toNat 20) a.toNat 14) b.toNat 8) z.toNat 4)
  | .amoOr d a b z => some (put (put (put (put 0x3c000002 d.toNat 20) a.toNat 14) b.toNat 8) z.toNat 4)
  | .amoXor d a b z => some (put (put (put (put 0x3c000003 d.toNat 20) a.toNat 14) b.toNat 8) z.toNat 4)
  | .amoMinI d a b z => some (put (put (put (put 0x3c000004 d.toNat 20) a.toNat 14) b.toNat 8) z.toNat 4)
  | .amoMaxI d a b z => some (put (put (put (put 0x3c000005 d.toNat 20) a.toNat 14) b.toNat 8) z.toNat 4)
  | .amoMinN d a b z => some (put (put (put (put 0x3c000006 d.toNat 20) a.toNat 14) b.toNat 8) z.toNat 4)
  | .amoMaxN d a b z => some (put (put (put (put 0x3c000007 d.toNat 20) a.toNat 14) b.toNat 8) z.toNat 4)
  | .amoSwap d a b z => some (put (put (put (put 0x3c000008 d.toNat 20) a.toNat 14) b.toNat 8) z.toNat 4)
  | .famoAdd d a b => some (put (put (put 0x3c000009 d.toNat 20) a.toNat 14) b.toNat 8)
  | .cas d a b c z => some (put (put (put (put (put 0x3e000000 d.toNat 20) a.toNat 14) b.toNat 8) c.toNat 2) z.toNat 0)
  | .pref a i => some (put (put 0x40000000 a.toNat 14) i.toNat 0)
  | .beqz a o => some (put (put 0x50000000 a.toNat 19) o.toNat 0)
  | .bnez a o => some (put (put 0x52000000 a.toNat 19) o.toNat 0)
  | .bltz a o => some (put (put 0x54000000 a.toNat 19) o.toNat 0)
  | .bgez a o => some (put (put 0x56000000 a.toNat 19) o.toNat 0)
  | .jal d o => some (put (put 0x58000000 d.toNat 20) o.toNat 0)
  | .jr d a i => some (put (put (put 0x5a000000 d.toNat 20) a.toNat 14) i.toNat 0)
  | .loop a o => some (put (put 0x5c000000 a.toNat 19) o.toNat 0)
  | .bexpMaj c o => some (put (put 0x5e000000 c.toNat 24) o.toNat 0)
  | .bexpLast c o => some (put (put 0x5e080000 c.toNat 24) o.toNat 0)
  | .selxMaj d a b c => some (put (put (put (put 0x60000000 d.toNat 20) a.toNat 14) b.toNat 8) c.toNat 0)
  | .selxLast d a b c => some (put (put (put (put 0x60000002 d.toNat 20) a.toNat 14) b.toNat 8) c.toNat 0)
  | .unrx d m c => some (put (put (put 0x62000000 d.toNat 20) m.toNat 4) c.toNat 0)
  | .pfx d m c => some (put (put (put 0x64000000 d.toNat 20) m.toNat 6) c.toNat 0)
  | .logbookEntryFetch _ _ => none
  | .start d a b => some (put (put (put 0x66000000 d.toNat 20) a.toNat 14) b.toNat 8)
  | .retire => some (0x68000000)
  | .spawn a b => some (put (put 0x6a000000 a.toNat 14) b.toNat 8)
  | .depSet a b => some (put (put 0x6c000000 a.toNat 14) b.toNat 8)
  | .depDec a => some (put 0x6c000001 a.toNat 14)
  | .helpres d a i => some (put (put (put 0x6e000000 d.toNat 20) a.toNat 14) i.toNat 0)
  | .semp k => some (put 0x70000000 k.toNat 0)
  | .semv k => some (put 0x70000010 k.toNat 0)
  | .mlock k => some (put 0x72000000 k.toNat 0)
  | .munlock k => some (put 0x72000008 k.toNat 0)
  | .tshape t a => some (put (put 0x80000000 t.toNat 21) a.toNat 15)
  | .tld t a p r i => some (put (put (put (put (put 0x82000000 t.toNat 21) a.toNat 15) p.toNat 9) r.toNat 8) i.toNat 0)
  | .tst t a p r i => some (put (put (put (put (put 0x84000000 t.toNat 21) a.toNat 15) p.toNat 9) r.toNat 8) i.toNat 0)
  | .tldT t a p r i => some (put (put (put (put (put 0x86000000 t.toNat 21) a.toNat 15) p.toNat 9) r.toNat 8) i.toNat 0)
  | .tgath t a x r i => some (put (put (put (put (put 0x88000000 t.toNat 21) a.toNat 15) x.toNat 9) r.toNat 8) i.toNat 0)
  | .tzero d e m => some (put (put (put 0x8a000000 d.toNat 21) e.toNat 3) m.toNat 0)
  | .tfill d a e m => some (put (put (put (put 0x8a000010 d.toNat 21) a.toNat 15) e.toNat 3) m.toNat 0)
  | .tmov d a => some (put (put 0x8a000020 d.toNat 21) a.toNat 17)
  | .tseqCol d e m => some (put (put (put 0x8c000000 d.toNat 21) e.toNat 3) m.toNat 0)
  | .tseqRow d e m => some (put (put (put 0x8c000010 d.toNat 21) e.toNat 3) m.toNat 0)
  | .tseqLin d e m => some (put (put (put 0x8c000020 d.toNat 21) e.toNat 3) m.toNat 0)
  | .tadd d a b y e m => some (put (put (put (put (put (put 0x8e000000 d.toNat 21) a.toNat 17) b.toNat 13) y.toNat 9) e.toNat 3) m.toNat 0)
  | .tsub d a b y e m => some (put (put (put (put (put (put 0x8e000010 d.toNat 21) a.toNat 17) b.toNat 13) y.toNat 9) e.toNat 3) m.toNat 0)
  | .tmul d a b y e m => some (put (put (put (put (put (put 0x8e000020 d.toNat 21) a.toNat 17) b.toNat 13) y.toNat 9) e.toNat 3) m.toNat 0)
  | .tmin d a b y e m => some (put (put (put (put (put (put 0x8e000030 d.toNat 21) a.toNat 17) b.toNat 13) y.toNat 9) e.toNat 3) m.toNat 0)
  | .tmax d a b y e m => some (put (put (put (put (put (put 0x8e000040 d.toNat 21) a.toNat 17) b.toNat 13) y.toNat 9) e.toNat 3) m.toNat 0)
  | .tabs d a y e m => some (put (put (put (put (put 0x8e000050 d.toNat 21) a.toNat 17) y.toNat 9) e.toNat 3) m.toNat 0)
  | .tneg d a y e m => some (put (put (put (put (put 0x8e000060 d.toNat 21) a.toNat 17) y.toNat 9) e.toNat 3) m.toNat 0)
  | .tand d a b y e m => some (put (put (put (put (put (put 0x8e000080 d.toNat 21) a.toNat 17) b.toNat 13) y.toNat 9) e.toNat 3) m.toNat 0)
  | .tor d a b y e m => some (put (put (put (put (put (put 0x8e000090 d.toNat 21) a.toNat 17) b.toNat 13) y.toNat 9) e.toNat 3) m.toNat 0)
  | .txor d a b y e m => some (put (put (put (put (put (put 0x8e0000a0 d.toNat 21) a.toNat 17) b.toNat 13) y.toNat 9) e.toNat 3) m.toNat 0)
  | .tsll d a b y e m => some (put (put (put (put (put (put 0x8e0000b0 d.toNat 21) a.toNat 17) b.toNat 13) y.toNat 9) e.toNat 3) m.toNat 0)
  | .tsrl d a b y e m => some (put (put (put (put (put (put 0x8e0000c0 d.toNat 21) a.toNat 17) b.toNat 13) y.toNat 9) e.toNat 3) m.toNat 0)
  | .tsra d a b y e m => some (put (put (put (put (put (put 0x8e0000d0 d.toNat 21) a.toNat 17) b.toNat 13) y.toNat 9) e.toNat 3) m.toNat 0)
  | .tcmpEq d a b y e m => some (put (put (put (put (put (put 0x90000000 d.toNat 21) a.toNat 17) b.toNat 13) y.toNat 9) e.toNat 3) m.toNat 0)
  | .tcmpNe d a b y e m => some (put (put (put (put (put (put 0x90000010 d.toNat 21) a.toNat 17) b.toNat 13) y.toNat 9) e.toNat 3) m.toNat 0)
  | .tcmpLt d a b y e m => some (put (put (put (put (put (put 0x90000020 d.toNat 21) a.toNat 17) b.toNat 13) y.toNat 9) e.toNat 3) m.toNat 0)
  | .tcmpLe d a b y e m => some (put (put (put (put (put (put 0x90000030 d.toNat 21) a.toNat 17) b.toNat 13) y.toNat 9) e.toNat 3) m.toNat 0)
  | .tsel d a b k => some (put (put (put (put 0x92000008 d.toNat 21) a.toNat 17) b.toNat 13) k.toNat 0)
  | .tfma d a b y c e m => some (put (put (put (put (put (put (put 0x94000000 d.toNat 21) a.toNat 17) b.toNat 13) y.toNat 9) c.toNat 5) e.toNat 3) m.toNat 0)
  | .tfms d a b y c e m => some (put (put (put (put (put (put (put 0x94000010 d.toNat 21) a.toNat 17) b.toNat 13) y.toNat 9) c.toNat 5) e.toNat 3) m.toNat 0)
  | .texp2 d a y e m => some (put (put (put (put (put 0x96000000 d.toNat 21) a.toNat 17) y.toNat 9) e.toNat 3) m.toNat 0)
  | .trcp d a y e m => some (put (put (put (put (put 0x96000010 d.toNat 21) a.toNat 17) y.toNat 9) e.toNat 3) m.toNat 0)
  | .trsq d a y e m => some (put (put (put (put (put 0x96000020 d.toNat 21) a.toNat 17) y.toNat 9) e.toNat 3) m.toNat 0)
  | .trsum d a y e m => some (put (put (put (put (put 0x98000000 d.toNat 21) a.toNat 17) y.toNat 9) e.toNat 3) m.toNat 0)
  | .trmax d a y e m => some (put (put (put (put (put 0x98000010 d.toNat 21) a.toNat 17) y.toNat 9) e.toNat 3) m.toNat 0)
  | .trmin d a y e m => some (put (put (put (put (put 0x98000020 d.toNat 21) a.toNat 17) y.toNat 9) e.toNat 3) m.toNat 0)
  | .tcsum d a y e m => some (put (put (put (put (put 0x98000040 d.toNat 21) a.toNat 17) y.toNat 9) e.toNat 3) m.toNat 0)
  | .tcmax d a y e m => some (put (put (put (put (put 0x98000050 d.toNat 21) a.toNat 17) y.toNat 9) e.toNat 3) m.toNat 0)
  | .tcmin d a y e m => some (put (put (put (put (put 0x98000060 d.toNat 21) a.toNat 17) y.toNat 9) e.toNat 3) m.toNat 0)
  | .tbcastRow d a e m => some (put (put (put (put 0x9a000000 d.toNat 21) a.toNat 17) e.toNat 3) m.toNat 0)
  | .tbcastCol d a e m => some (put (put (put (put 0x9a000010 d.toNat 21) a.toNat 17) e.toNat 3) m.toNat 0)
  | .tbcastOne d a e m => some (put (put (put (put 0x9a000020 d.toNat 21) a.toNat 17) e.toNat 3) m.toNat 0)
  | .trng d a b => some (put (put (put 0x9c000000 d.toNat 21) a.toNat 17) b.toNat 13)
  | .trngU d a b => some (put (put (put 0x9c000010 d.toNat 21) a.toNat 17) b.toNat 13)
  | .tcvt d a y => some (put (put (put 0x9e000000 d.toNat 21) a.toNat 17) y.toNat 9)
  | .tqnt d a b => some (put (put (put 0xa0000000 d.toNat 21) a.toNat 17) b.toNat 13)
  | .tdeq d a y => some (put (put (put 0xa2000000 d.toNat 21) a.toNat 17) y.toNat 9)
  | .fixmerge d a b => some (put (put (put 0xa4000000 d.toNat 21) a.toNat 17) b.toNat 13)
  | .fixnorm d a => some (put (put 0xa4000010 d.toNat 21) a.toNat 17)
  | .mset m a => some (put (put 0xa6000000 m.toNat 12) a.toNat 0)
  | .msetZ m a => some (put (put 0xa6100000 m.toNat 12) a.toNat 0)
  | .mand m x y => some (put (put (put 0xa6200000 m.toNat 12) x.toNat 9) y.toNat 6)
  | .mor m x y => some (put (put (put 0xa6300000 m.toNat 12) x.toNat 9) y.toNat 6)
  | .mnot m x => some (put (put 0xa6400000 m.toNat 12) x.toNat 9)
  | .mcnt d x => some (put (put 0xa6500000 d.toNat 15) x.toNat 9)
  | .mtestAny d x => some (put (put 0xa6600000 d.toNat 15) x.toNat 9)
  | .mtestAll d x => some (put (put 0xa6700000 d.toNat 15) x.toNat 9)
  | .mtestBit d x a => some (put (put (put 0xa6800000 d.toNat 15) x.toNat 9) a.toNat 0)
  | .tget t d a b => some (put (put (put (put 0xa8000000 t.toNat 20) d.toNat 15) a.toNat 9) b.toNat 3)
  | .tput t d a b => some (put (put (put (put 0xa9000000 t.toNat 20) d.toNat 15) a.toNat 9) b.toNat 3)
  | .mma c x a y b => some (put (put (put (put (put 0xb0000000 c.toNat 21) x.toNat 20) a.toNat 14) y.toNat 13) b.toNat 7)
  | .mmas c x a y b k j => some (put (put (put (put (put (put (put 0xb2000000 c.toNat 21) x.toNat 20) a.toNat 14) y.toNat 13) b.toNat 7) k.toNat 5) j.toNat 3)
  | .mmab c x a y b k j => some (put (put (put (put (put (put (put 0xb4000000 c.toNat 21) x.toNat 20) a.toNat 14) y.toNat 13) b.toNat 7) k.toNat 5) j.toNat 3)
  | .azero c => some (put 0xb6000000 c.toNat 21)
  | .ald c a b => some (put (put (put 0xb6000001 c.toNat 21) a.toNat 14) b.toNat 8)
  | .ast c a b => some (put (put (put 0xb6000002 c.toNat 21) a.toNat 14) b.toNat 8)
  | .commit d => some (put 0xb8000000 d.toNat 20)
  | .mmaw a k => some (put (put 0xb8000001 a.toNat 14) k.toNat 8)
  | .swap t => some (put 0xba000000 t.toNat 21)
  | .matrixExecStart _ => none
  | .matrixSegmentEnd _ => none
  | .swapExchange _ => none
  | .matrixFaultReply _ _ => none
  | .cpsetSrc a => some (put 0xc0000000 a.toNat 14)
  | .cpsetDst a => some (put 0xc0000001 a.toNat 14)
  | .cpsetExt a => some (put 0xc0000002 a.toNat 14)
  | .cpsetSs a => some (put 0xc0000003 a.toNat 14)
  | .cpsetDs a => some (put 0xc0000004 a.toNat 14)
  | .cpsetAttr a => some (put 0xc0000005 a.toNat 14)
  | .cpsetBar a => some (put 0xc0000006 a.toNat 14)
  | .cpsetMask a => some (put 0xc0000007 a.toNat 14)
  | .copy d => some (put 0xc2000000 d.toNat 20)
  | .copym d => some (put 0xc4000000 d.toNat 20)
  | .copyStart _ => none
  | .copyPiecePerformed _ _ => none
  | .copyFinish _ => none
  | .copyArbRound _ => none
  | .barInit a b => some (put (put 0xc6000000 a.toNat 14) b.toNat 8)
  | .barExpect a b => some (put (put 0xc6000001 a.toNat 14) b.toNat 8)
  | .barArrive d a => some (put (put 0xc6000002 d.toNat 20) a.toNat 14)
  | .barAck a => some (put 0xc6000003 a.toNat 14)
  | .barWait a b => some (put (put 0xc6000004 a.toNat 14) b.toNat 8)
  | .barAckAtBank _ => none
  | .barByteCount _ => none
  | .sound d a b i f q => some (put (put (put (put (put (put 0xc8000000 d.toNat 20) a.toNat 14) b.toNat 8) i.toNat 6) f.toNat 4) q.toNat 0)
  | .sndfill d a b => some (put (put (put 0xca000000 d.toNat 20) a.toNat 14) b.toNat 8)
  | .snddot d a b i f q => some (put (put (put (put (put (put 0xcc000000 d.toNat 20) a.toNat 14) b.toNat 8) i.toNat 6) f.toNat 4) q.toNat 0)
  | .soundStart _ => none
  | .qbcast _ _ => none
  | .scan _ _ => none
  | .scanYield _ _ => none
  | .fixrd _ _ => none
  | .fixRecordWrite _ _ => none
  | .sndfillAtHome _ => none
  | .fillw _ => none
  | .hbmRefresh _ _ => none
  | .retry _ => none
  | .fenceAcq => some (0xce000000)
  | .fenceRel => some (0xce400000)
  | .fenceSc => some (0xce800000)
  | .fenceX s d => some (put (put 0xcec00000 s.toNat 12) d.toNat 6)
  | .chartLd t a p i => some (put (put (put (put 0xd0000000 t.toNat 21) a.toNat 15) p.toNat 9) i.toNat 0)
  | .chartWin d a => some (put (put 0xd2000000 d.toNat 20) a.toNat 14)
  | .chartRefreshEnd _ _ => none
  | .sysrd d n => some (put (put 0xe0000000 d.toNat 20) n.toNat 0)
  | .syswr a n => some (put (put 0xe2000000 a.toNat 14) n.toNat 0)
  | .trap a i => some (put (put 0xe4000000 a.toNat 14) i.toNat 0)
  | .eret => some (0xe6000000)
  | .halt => some (0xe8000000)
  | .mark => some (0xea000000)
  | .feat d a i => some (put (put (put 0xec000000 d.toNat 20) a.toNat 14) i.toNat 0)
  | .mboxSend d a b => some (put (put (put 0xee000000 d.toNat 20) a.toNat 14) b.toNat 8)
  | .mboxRecv d => some (put 0xee000001 d.toNat 20)
  | .mboxArrival _ => none
  | .mboxSendStatus _ => none
  | .tlbinvPage a => some (put 0xf0000000 a.toNat 14)
  | .tlbinvRange a b => some (put (put 0xf0000001 a.toNat 14) b.toNat 8)
  | .tlbinvAll => some (0xf0000002)
  | .tlbinvComplete _ => none
  | .cachecfg d a => some (put (put 0xf2000000 d.toNat 20) a.toNat 14)
  | .cachecfgComplete _ => none
  | .launch d a => some (put (put 0xf4000000 d.toNat 20) a.toNat 14)
  | .launchTokenComplete _ => none
  | .nop => some (0xf6000000)
  | .tldx t a p i => some (put (put (put (put 0xf8000000 t.toNat 21) a.toNat 15) p.toNat 9) i.toNat 0)
  | .mma8x c x a y b => some (put (put (put (put (put 0xfa000000 c.toNat 21) x.toNat 20) a.toNat 14) y.toNat 13) b.toNat 7)
  | .hintLog s => some (put 0xff000000 s.toNat 0)
  | .hintImm p => some (put 0xfe000000 p.toNat 0)
  | .hintSched l a => some (put (put 0xfe400000 l.toNat 2) a.toNat 0)
  | .hintMod r => some (put 0xfe800000 r.toNat 0)
  | .hintUnknown p => some (put 0xfec00000 p.toNat 0)
  | .unassignedWord w => some w.toNat
  | .trapEntry _ => none
  | .barrelCycle _ => none
  | .spadBankCycle _ _ => none
  | .storeAtHome _ => none
  | .storeOwned _ => none
  | .revoke _ => none
  | .atomicAtHome _ => none
  | .lineFill _ _ => none
  | .loadValueArrival _ => none
  | .walkComplete _ => none
  | .faultReply _ _ => none
  | .taskDispatch _ => none
  | .stealProbe _ => none
  | .depDecRemote _ => none
  | .hostLaunchRecord _ _ _ => none
  | .launchRecordStart _ _ => none
  | .wake _ => none
  | .cellPartEnd _ => none
  | .hostApertureWrite _ _ _ _ => none
  | .hostApertureRead _ _ _ _ => none
  | .hostAtomicop _ _ _ _ _ _ _ => none
  | .registerWrite _ _ => none
  | .extentRelease _ _ => none
  | .extentForcedRemoval _ _ => none
  | .extentAdd _ _ => none
  | .preemptRequest _ => none
  | .timeSliceExpiry _ => none
  | .resume _ _ => none
  | .hardwareFault _ => none
  | .flitCrcFail _ => none
  | .retransmitLimit _ _ => none
  | .linkDown _ => none
  | .markInEdge => none
  | .hostMarkRequest _ => none
  | .markLatch _ => none
  | .hostResumeStop _ => none
  | .hostDumpRead _ => none
  | .profileSessionOpen _ _ => none
  | .binaryLoad _ _ _ => none
  | .resourceMove _ _ _ => none
  | .pageMigration _ _ _ _ => none
  | .errorInject _ _ => none
  | .keySlotReplace _ _ => none
  | .pilotFirmwareReplace _ => none
  | .clusterFence _ => none
  | .pseudoChannelRecal _ _ => none
  | .linkRecal _ => none
  | .chartBankRetire _ _ => none
  | .powerOn _ _ _ => none
  | .powerLimit _ => none
  | .dieOvertemp _ => none
  | .dieCriticalTemp _ => none
  | .fieldsIllegal w => some w.toNat
  | .ignoredHint w => some w.toNat
  | .tileOpComplete _ _ => none
  | .hbmWritebackAck _ => none
  | .linkRecalEnd _ => none
  | .hwfaultRecovery _ => none
  | .hostEndsLaunch _ => none

/-- The word of an encoded instruction. -/
def encode (i : Instr) : Option IWord := (encodeNat i).map (BitVec.ofNat 32)

end Sys2Proof
end

