-- ==== Sys2Proof/Config.lean ====
section
/-! DEFINITION. What an implementation fixes and what the manual leaves open. A free value is an opaque constant with no
body: nothing can evaluate it, so a claim holds whatever it is. -/

namespace Sys2Proof.Config

/-- The bytes that a wrong key makes of a stored word: key material of the read, of the last write, the word's address
and its stored value (R73). (DESIGN CHOICE, log 4.) -/
opaque cipher : Nat → Nat → Nat → Word → Word

/-- What an unordered read of a location that a write races with returns: true for the new value (R92, R116, R149,
R327). The arguments are a fresh number and the location. -/
opaque raceNew : Nat → Nat → Bool

/-- Which of several racing writes stands (R116): true for the later one. -/
opaque raceWins : Nat → Nat → Bool

/-- The bytes that a poisoned host read carries (R134). -/
opaque poisonedByte : Nat → Nat → Byte

/-- How far a die's trace timebase runs ahead of die 0's (R395); used modulo 5. -/
opaque dieSkew : Nat → Nat

/-- The reset moment of a die's chart timebase against module time (R65, R395). -/
opaque chartOffset : Nat → Nat

/-- The cycles between a load's issue and the arrival of its value, as the logbook sees them (R274). -/
opaque loadLatency : Nat → Nat

/-- Which cell a full logbook cache evicts first (R275): an index below 32 after reduction. -/
opaque logVictim : Nat → Nat

/-- The bytes that a discarded write leaves (R378): a fresh number and the byte's address. -/
opaque lostByte : Nat → Nat → Byte

/-- The layout that a region of an image has where the manual gives its contents and not how they lie: the region, its contents in the
manual's order, and the offset of a byte (R373, R375). -/
opaque imageByte : Nat → List Nat → Nat → Byte

/-- What a word of memory that nothing has written since boot reads as under a key: the key and the word's address (R426). -/
opaque bootWord : Nat → Nat → Word

/-- How many records a slice's ownership registry holds (R47); at least one. (DESIGN CHOICE, log 85.) -/
opaque registrySize : Nat

/-- Which line a full set of a core cache, a slice or the memory-side cache gives up (R46, R55, R69), and which entry a full set
of a TLB (R31): a number, reduced to the choices that there are. -/
opaque victim : Nat → Nat

/-- What a home on another device answers to a request's checks (R25): the function, the physical address and the moment;
0 passes, 1 BAD_PHYS, 2 STAGE2, 3 EXTENT_GONE, after reduction modulo 4. -/
opaque remoteReply : Nat → Nat → Nat → Nat

/-- How far back an engine's read goes among the writes of a word that nothing orders before it (R138): a fresh number and the
location's key, reduced to the values that there are. -/
opaque raceBack : Nat → Nat → Nat

/-- The words that firmware's copies have left in chart store (R64, R341): the moment of the last of them, and die x 2^28 + offset. -/
opaque chartWord : Nat → Nat → Word

/-- How many units a tile instruction transfers before a pre-emption that finds it running stops it (R214, R371): a fresh number. -/
opaque stopUnit : Nat → Nat

end Sys2Proof.Config
end

