-- ==== Sys2Proof/Machine/State.lean ====
section
/-! DEFINITION. The state of the machine as plain data, why a step can stop, and the state right after reset. -/

namespace Sys2Proof.Machine

/-- Why the machine stops. -/
inductive Fault where
  /-- Raised by a step of a module whose power a critical die temperature has cut (R415); only POWER_ON goes on from
  there. Safe: the hardware executes nothing either. -/
  | powerCut
deriving DecidableEq, Repr

/-- Why a step gives no meaning. -/
inductive Refusal where
  /-- An instruction of the opcode table that the model does not give a meaning yet, by its mnemonic. Safe. -/
  | notModelled (mnemonic : String)
  /-- Raised by a step whose agenda begins with something that is no well-formed event: the schedule is no schedule of
  this machine (DESIGN CHOICE, log 1). Safe. -/
  | illFormedEvent
deriving DecidableEq, Repr

/-- Everything the spec gives the machine, with the model's own control fields: whose turn runs, the turns granted, the
agenda of scheduled events, the cycle count and a counter for identifiers and free values (DESIGN CHOICE, log 1, log 4). -/
structure State where
  cur      : Nat
  turns    : List Nat
  agenda   : List Instr
  time     : Nat
  fresh    : Nat
  ctxs     : Map Ctx
  cores    : Map CoreSt
  cells    : Map CellSt
  clusters : Map ClusterSt
  mem      : MemSt
  accs     : List Acc
  posts    : List BarPost
  ops      : List EngOp
  walks    : List WalkRec
  mboxes   : List MboxMsg
  reqs     : List LaunchReq
  depMsgs  : List DepMsg
  faults   : List FaultMsg
  dev      : DevSt
  host     : HostSt
deriving DecidableEq, Repr

/-- A context before any launch: FREE, every register 0, every full bit set (R176, R178; DESIGN CHOICE, log 2). -/
def Ctx.reset : Ctx :=
  { stat := .free, park := .none, parkNum := 0, parkSeq := 0, pc := 0, regs := Vector.replicate 32 0,
    full := BitVec.allOnes 32, clears := [], exits := [], busy := 0, tokens := [], filled := [], waypt := 0, loopPc := 0, loopCnt := 0, loopSl := 0, trCause := 0,
    trPc := 0, trVa := 0, trWay := 0, trLoop := 0, trVec := 0, trScr := 0, mbatch := 0, cp := Vector.replicate 8 0,
    mbox := [], mbFrom := 0, hints := [], ignoring := false, arrived := false, faultWait := none, pendTrap := [],
    pendStop := none, failed := [], task := none, seen := [], divs := [], spadReq := none, walkErr := none, block := .none, ticket := none,
    midStop := false, bkSkip := false, bkHit := false, held := false, tell := false, run := 0 }

/-- A core at reset: PTR 10, every LAST -6, RESV 0, caches and TLBs empty (R179, R197). -/
def CoreSt.reset : CoreSt :=
  { ptr := 10, last := Vector.replicate 11 (-6), cyc := 0, resv := 0, dcache := [], icache := [], itlb := [], dtlb := [],
    mcache := [], fills := [], prefs := [], dispAt := 0, probeAt := 0, probe := 4, fails := [], knows := [], saw := [] }

/-- A tile, accumulator or mask register of zeros (R202). -/
def TileReg.zero : TileReg := { tag := 0, data := [] }

/-- A cell at reset. CPWGT resets to WA 2, WC 1, WM 8 (R344). -/
def CellSt.reset : CellSt :=
  { tiles := [], pend := [], sems := [], mtx := [], deps := [], depUnf := 0, deque := [], spawned := 0, log := [], logQ := [], late := [],
    lbDet := false, lbClash := 0, lbDrop := 0, mq := [], mxFault := none, swaps := 0, faultSeq := 0, tokSeq := 0,
    parkSeq := 0, cellNo := 0, lpos := 0, ptRoot := 0, winLen := 0, logPa := 0, manPa := 0, codeBase := 0, codeSize := 0,
    cpWgt := 0x218, depOps := [], depClk := [], semClk := [], mtxClk := [], engAt := 0, depAt := 0, probeAt := 0, probePtr := 0, launch := none, last := none, wakes := [] }

/-- A scratchpad bank with empty queues; the first queue service goes to the forfeit queue (R53). -/
def Bank.reset : Bank := { forfeit := [], engine := [], present := [], ptr := 0, servedForfeit := false }

/-- A cluster at reset: CONV, EPOCH and BUSY 0 (R59). -/
def ClusterSt.reset : ClusterSt :=
  { spad := [], spoison := [], banks := [], waiters := [], counted := [], barClk := [], conv := 0, convBy := none, epoch := 0, busy := false, cfgNew := 0, cfgOld := 0,
    cfgCtx := none, cfgWait := [], tlb := [], engErrs := [], defc := [], lastVf := none, fenced := false, fencing := false }

/-- Memory with nothing listed. -/
def MemSt.reset : MemSt :=
  { ram := [], written := [], keyed := [], slines := [], msc := [], hist := [], pubs := [], rels := [], owner := [], first := [], poison := [],
    softErr := [], chart := 0, cpoison := [], extents := [] }

/-- A launch queue with QSTAT and QCFG 0 (R408). -/
def Queue.reset : Queue :=
  { proc := none, qcfg := 0, rhead := 0, dropped := 0, cseq := 0, slot := Vector.replicate 8 0, recs := [] }

/-- Device registers at reset: MSCCFG 0, SLSUB and FEATMASK all ones (as what their maps read when unlisted), S2SEG and
S2KEYS 0 (R35, R56, R68, R97, R237). -/
def DevSt.reset : DevSt :=
  { devno := 0, mscSize := 0, slsub := [], sndcnt := [], sidAct := [], s2seg := [], s2keys := [], featmask := [], keys := [],
    keyMiss := [], ceCount := [], hvpilot := 0, routes := [], recal := [], retired := [], markSeq := 0, marking := [],
    snaps := [], bkpt := [], power := false, hot := [], failed := [], ready := false, refresh := [], off := false, fwKeys := [], ttb0 := 0 }

/-- The host's side at reset. -/
def HostSt.reset : HostSt :=
  { procs := [], queues := [], launches := [], images := [], out := [], errs := [], fkey := [], trace := [], logs := [],
    lastLog := [], replay := [], diverge := 0, replayed := [], events := [], counters := [], classes := [], shareLb := [], lastQ := [], saves := [], signKeys := [], signAny := false, migrates := [], injects := [], moves := [],
    shares := [], weights := [], sliceRun := [], brought := [], clocks := [] }

/-- The machine right after reset. An unlisted context, core, cell or cluster is at its own reset. -/
def State.reset : State :=
  { cur := 0, turns := [], agenda := [], time := 0, fresh := 0, ctxs := [], cores := [], cells := [], clusters := [],
    mem := MemSt.reset, accs := [], posts := [], ops := [], walks := [], mboxes := [], reqs := [], depMsgs := [], faults := [],
    dev := DevSt.reset, host := HostSt.reset }

end Sys2Proof.Machine
end

