-- ==== Sys2Proof/Machine/Access.lean ====
section
/-! DEFINITION. Reading and updating the parts of the state: contexts, cores, cells, clusters, registers and full bits.
Every meaning goes through these accessors. Where special behaviour of a register lives (s0, the full bits, an ended token
binding), it lives here. -/

namespace Sys2Proof.Machine

/-! ### Numbers of contexts, cores and cells (R3, R403) -/

/-- The flat cell of a context (its physical place). -/
def cellOf (c : Nat) : Nat := c / 33

/-- The core number of a context, cell x 3 + core. -/
def coreOf (c : Nat) : Nat := c / 11

/-- A context's number on its core, 0 to 10. -/
def slotOf (c : Nat) : Nat := c % 11

/-- The core kind of core number k. -/
def kindOfCore (k : Nat) : CoreKind := if k % 3 = 0 then .a else if k % 3 = 1 then .c else .m

/-- Core codes: 0 A, 1 C, 2 M (R177). -/
def CoreKind.code : CoreKind → Nat
  | .a => 0 | .c => 1 | .m => 2

/-- The kind of the core of a context. -/
def kindOf (c : Nat) : CoreKind := kindOfCore (coreOf c)

/-- The global cluster of a cell: die x 16 + cluster (R3). -/
def clusterOfCell (cell : Nat) : Nat := cell / 16

/-- The die of a cluster. -/
def dieOfCluster (g : Nat) : Nat := g / 16

/-- The pilot core of the quadrant that holds a cell (R3). -/
def pilotOfCell (cell : Nat) : Nat :=
  let k := cell / 16 % 16
  cell / 256 * 4 + (2 * (k / 4 / 2) + k % 4 / 2)

/-- The contexts of a cell. -/
def ctxsOfCell (cell : Nat) : List Nat := (List.range 33).map (33 * cell + ·)

/-- The contexts of a core. -/
def ctxsOfCore (k : Nat) : List Nat := (List.range 11).map (11 * k + ·)

/-! ### Components -/

/-- Context c. -/
def State.ctx (s : State) (c : Nat) : Ctx := Map.at s.ctxs c Ctx.reset

/-- Puts context c back. -/
def State.setCtx (s : State) (c : Nat) (x : Ctx) : State := { s with ctxs := Map.put s.ctxs c x }

/-- Changes context c. -/
def State.modCtx (s : State) (c : Nat) (f : Ctx → Ctx) : State := s.setCtx c (f (s.ctx c))

/-- Core k. -/
def State.core (s : State) (k : Nat) : CoreSt := Map.at s.cores k CoreSt.reset

/-- Puts core k back. -/
def State.setCore (s : State) (k : Nat) (x : CoreSt) : State := { s with cores := Map.put s.cores k x }

/-- Changes core k. -/
def State.modCore (s : State) (k : Nat) (f : CoreSt → CoreSt) : State := s.setCore k (f (s.core k))

/-- Cell n. -/
def State.cell (s : State) (n : Nat) : CellSt := Map.at s.cells n CellSt.reset

/-- Puts cell n back. -/
def State.setCell (s : State) (n : Nat) (x : CellSt) : State := { s with cells := Map.put s.cells n x }

/-- Changes cell n. -/
def State.modCell (s : State) (n : Nat) (f : CellSt → CellSt) : State := s.setCell n (f (s.cell n))

/-- Cluster g. -/
def State.cluster (s : State) (g : Nat) : ClusterSt := Map.at s.clusters g ClusterSt.reset

/-- Puts cluster g back. -/
def State.setCluster (s : State) (g : Nat) (x : ClusterSt) : State := { s with clusters := Map.put s.clusters g x }

/-- Changes cluster g. -/
def State.modCluster (s : State) (g : Nat) (f : ClusterSt → ClusterSt) : State := s.setCluster g (f (s.cluster g))

/-- Changes memory. -/
def State.modMem (s : State) (f : MemSt → MemSt) : State := { s with mem := f s.mem }

/-- Changes the device registers. -/
def State.modDev (s : State) (f : DevSt → DevSt) : State := { s with dev := f s.dev }

/-- Changes the host's side. -/
def State.modHost (s : State) (f : HostSt → HostSt) : State := { s with host := f s.host }

/-- A thing the outside sees. -/
def State.emit (s : State) (o : HostOut) : State := s.modHost fun h => { h with out := o :: h.out }

/-- A fresh number, for identifiers and free values. -/
def State.bump (s : State) : State := { s with fresh := s.fresh + 1 }

/-- The context whose turn runs. -/
def State.me (s : State) : Ctx := s.ctx s.cur

/-- Changes the context whose turn runs. -/
def State.modMe (s : State) (f : Ctx → Ctx) : State := s.modCtx s.cur f

/-- The cell of the running context. -/
def State.myCell (s : State) : CellSt := s.cell (cellOf s.cur)

/-- Changes the cell of the running context. -/
def State.modMyCell (s : State) (f : CellSt → CellSt) : State := s.modCell (cellOf s.cur) f

/-- The core of the running context. -/
def State.myCore (s : State) : CoreSt := s.core (coreOf s.cur)

/-- Changes the core of the running context. -/
def State.modMyCore (s : State) (f : CoreSt → CoreSt) : State := s.modCore (coreOf s.cur) f

/-! ### Scalar registers and full bits (R8, R219, R238) -/

/-- S(n): the value of sn; S(0) is 0 (R8). -/
def Ctx.reg (x : Ctx) (n : Nat) : Word := if n = 0 then 0 else x.regs.getD n 0

/-- The full bit of sn; that of s0 is always set (R219). -/
def Ctx.isFull (x : Ctx) (n : Nat) : Bool := n == 0 || x.full.getLsbD n

/-- Whether an outstanding result will write sn (R105). -/
def Ctx.isBusy (x : Ctx) (n : Nat) : Bool := n != 0 && x.busy.getLsbD n

/-- Sets or clears one bit of a word. -/
def setBit {w : Nat} (v : BitVec w) (n : Nat) (b : Bool) : BitVec w :=
  if b then v ||| (1#w <<< n) else v &&& ~~~(1#w <<< n)

/-- The raw write of a register's value; no effect on s0. -/
def Ctx.putReg (x : Ctx) (n : Nat) (v : Word) : Ctx :=
  if n = 0 then x else { x with regs := x.regs.setIfInBounds n v }

/-- A write of sn by the context or for it: an instruction that issued before it no longer clears its full bit (R219). (DEDUCED, log 10.) -/
def dropClear (l : List (ClearBy × BitVec 32)) (n : Nat) : List (ClearBy × BitVec 32) := l.map fun e => (e.1, setBit e.2 n false)

/-- SetS (R8): the value and the full bit; no effect on s0. A write ends a token binding (R334). -/
def Ctx.setS (x : Ctx) (n : Nat) (v : Word) : Ctx :=
  if n = 0 then x
  else { x with regs := x.regs.setIfInBounds n v, full := setBit x.full n true, tokens := x.tokens.filter (·.1 != n),
                filled := x.filled.filter (·.1 != n), clears := dropClear x.clears n }

/-- Marks sn as the destination of an outstanding result (R105); a later write by the context ends a binding (R334). -/
def Ctx.setBusy (x : Ctx) (n : Nat) : Ctx :=
  if n = 0 then x
  else { x with busy := setBit x.busy n true, tokens := x.tokens.filter (·.1 != n), filled := x.filled.filter (·.1 != n) }

/-- The outstanding result arrives: SetS, and the register is no longer awaited (R252). -/
def Ctx.arrive (x : Ctx) (n : Nat) (v : Word) : Ctx :=
  if n = 0 then x
  else { x with regs := x.regs.setIfInBounds n v, full := setBit x.full n true, busy := setBit x.busy n false,
                clears := dropClear x.clears n }

/-- An outstanding access ends with an error: the old value stays, with its full bit set (R76). -/
def Ctx.arriveErr (x : Ctx) (n : Nat) : Ctx :=
  if n = 0 then x
  else { x with full := setBit x.full n true, busy := setBit x.busy n false, clears := dropClear x.clears n }

/-- Clears the full bits of synchronised reads (R219). -/
def Ctx.clearS (x : Ctx) (m : BitVec 32) : Ctx :=
  { x with full := x.full &&& ~~~m, filled := x.filled.filter fun e => !m.getLsbD e.1 }

/-- An instruction that completes later keeps the full bits of its synchronised reads until then (R219). -/
def Ctx.hold (x : Ctx) (by_ : ClearBy) (m : BitVec 32) : Ctx := if m = 0 then x else { x with clears := (by_, m) :: x.clears }

/-- It completes: the full bits are cleared (R219). -/
def Ctx.completes (x : Ctx) (by_ : ClearBy) : Ctx :=
  match x.clears.find? (·.1 == by_) with
  | none => x
  | some e => { x.clearS e.2 with clears := x.clears.filter (·.1 != by_) }

/-- It ends with an error: they stay set (R76, R219). -/
def Ctx.abandons (x : Ctx) (by_ : ClearBy) : Ctx := { x with clears := x.clears.filter (·.1 != by_) }

/-- The completion of an instruction that is still to come ends a loop, whose exit event belongs to it (R275). -/
def Ctx.owes (x : Ctx) (by_ : ClearBy) : Option (Nat × Nat) → Ctx
  | none => x
  | some e => { x with exits := (by_, e) :: x.exits }

/-- The exit event that belongs to an instruction's completion. -/
def Ctx.owed (x : Ctx) (by_ : ClearBy) : Option (Nat × Nat) := (x.exits.find? (·.1 == by_)).map (·.2)

/-- Binds a token (R334): the identifier is written, the full bit cleared, the binding made. -/
def Ctx.bindToken (x : Ctx) (n : Nat) (ident : Word) (op : Nat) : Ctx :=
  if n = 0 then x
  else { x with regs := x.regs.setIfInBounds n ident, full := setBit x.full n false,
                tokens := (n, op) :: x.tokens.filter (·.1 != n), filled := x.filled.filter (·.1 != n),
                clears := dropClear x.clears n }

/-- A status reaches the register that is still bound to the operation (R334). -/
def Ctx.completeToken (x : Ctx) (op : Nat) (status : Word) : Ctx :=
  match x.tokens.find? (·.2 == op) with
  | none => x
  | some (n, _) =>
    { x with regs := x.regs.setIfInBounds n status, full := setBit x.full n true,
             tokens := x.tokens.filter (·.2 != op), filled := (n, op) :: x.filled.filter (·.1 != n) }

/-! ### Bit fields of registers -/

/-- The unsigned field of w bits at lo (R7). -/
def fieldN (v : Word) (lo w : Nat) : Nat := bitsAt v.toNat lo w

/-- Writes a field of w bits at lo. -/
def setField (v : Word) (lo w x : Nat) : Word :=
  .ofNat 64 (v.toNat - fieldN v lo w * 2 ^ lo + (x % 2 ^ w) * 2 ^ lo)

/-! ### Waking -/

/-- A parked context becomes ELIGIBLE (R182). -/
def Ctx.wake (x : Ctx) : Ctx :=
  if x.stat = .parked then { x with stat := .eligible, park := .none, parkNum := 0 } else x

end Sys2Proof.Machine
end

