-- ==== Sys2Proof/Machine/Num.lean ====
section
/-! DEFINITION. Number formats and exact arithmetic (08): IEEE formats, the tapered formats T8 and T6, E8 scales, the
rounding modes, conversions and the correctly rounded functions. Values are exact dyadic numbers; each result is rounded
once. -/

namespace Sys2Proof.Machine

/-- An exact value: NaN (or NaR), an infinity, or (-1)^neg x m x 2^e, where m = 0 is a signed zero. -/
inductive FVal where
  | nan | inf (neg : Bool) | fin (neg : Bool) (m : Nat) (e : Int)
deriving DecidableEq, Repr

/-- Rounding modes (R154). -/
inductive RMode where
  | rne | rtz | rup | rdn
deriving DecidableEq, Repr

/-- The mode of a two-bit code (R154). -/
def RMode.ofCode (n : Nat) : RMode := if n = 0 then .rne else if n = 1 then .rtz else if n = 2 then .rup else .rdn

/-- An IEEE binary format by its exponent and fraction widths (R153). -/
structure FFmt where
  eb : Nat
  fb : Nat
deriving DecidableEq, Repr

/-- F32 (R153). -/
def f32 : FFmt := ⟨8, 23⟩
/-- F16 (R153). -/
def f16 : FFmt := ⟨5, 10⟩
/-- BF16 (R153). -/
def bf16 : FFmt := ⟨8, 7⟩

/-- The exponent bias. -/
def FFmt.bias (f : FFmt) : Nat := 2 ^ (f.eb - 1) - 1

/-- The bits of the canonical NaN (R153). -/
def FFmt.nanBits (f : FFmt) : Nat := (2 ^ f.eb - 1) * 2 ^ f.fb + 2 ^ (f.fb - 1)

/-- The bits of an infinity. -/
def FFmt.infBits (f : FFmt) (neg : Bool) : Nat :=
  (2 ^ f.eb - 1) * 2 ^ f.fb + if neg then 2 ^ (f.eb + f.fb) else 0

/-- The bits of the largest finite value of a sign. -/
def FFmt.maxBits (f : FFmt) (neg : Bool) : Nat :=
  (2 ^ f.eb - 1) * 2 ^ f.fb - 1 + if neg then 2 ^ (f.eb + f.fb) else 0

/-- The exact value of a pattern (R153); subnormals at their value. -/
def FFmt.decode (f : FFmt) (b : Nat) : FVal :=
  let s := bitsAt b (f.eb + f.fb) 1 == 1
  let x := bitsAt b f.fb f.eb
  let fr := b % 2 ^ f.fb
  if x = 2 ^ f.eb - 1 then (if fr = 0 then .inf s else .nan)
  else if x = 0 then .fin s fr (1 - f.bias - f.fb)
  else .fin s (2 ^ f.fb + fr) (x - f.bias - f.fb)

/-- Rounds m x 2^(-sh) to an integer: the quotient and whether the mode steps away from zero (R154). -/
def roundShift (mode : RMode) (neg : Bool) (m sh : Nat) : Nat :=
  let q := m / 2 ^ sh
  let r := m % 2 ^ sh
  let up : Bool :=
    match mode with
    | .rne => decide (2 * r > 2 ^ sh) || (decide (2 * r = 2 ^ sh) && q % 2 == 1)
    | .rtz => false
    | .rup => !neg && r != 0
    | .rdn => neg && r != 0
  if up then q + 1 else q

/-- `Round(x, F, mode)` for an IEEE format (R153, R154, R156): the pattern. -/
def FFmt.round (f : FFmt) (mode : RMode) (v : FVal) : Nat :=
  match v with
  | .nan => f.nanBits
  | .inf s => f.infBits s
  | .fin s m e =>
    let sign := if s then 2 ^ (f.eb + f.fb) else 0
    if m = 0 then sign
    else
      let top : Int := e + (Nat.log2 m : Int)
      let emin : Int := 1 - (f.bias : Int)
      let q : Int := max top emin - (f.fb : Int)
      let sig := if q ≤ e then m * 2 ^ (e - q).toNat else roundShift mode s m (q - e).toNat
      let b := (q - emin + (f.fb : Int)).toNat * 2 ^ f.fb + sig
      if b ≥ (2 ^ f.eb - 1) * 2 ^ f.fb then
        match mode with
        | .rne => f.infBits s
        | .rtz => f.maxBits s
        | .rup => if s then f.maxBits s else f.infBits s
        | .rdn => if s then f.infBits s else f.maxBits s
      else sign + b

/-- Negation of a value. -/
def FVal.neg : FVal → FVal
  | .nan => .nan | .inf s => .inf (!s) | .fin s m e => .fin (!s) m e

/-- The value of a signed integer mantissa, positive zero for 0. -/
def FVal.ofInt (x : Int) (e : Int) : FVal := .fin (decide (x < 0)) x.natAbs e

/-- The signed mantissa. -/
def signedM (s : Bool) (m : Nat) : Int := if s then -(m : Int) else m

/-- The exact sum, with the sign of an exact zero by R154. -/
def FVal.add (mode : RMode) : FVal → FVal → FVal
  | .nan, _ => .nan
  | _, .nan => .nan
  | .inf s, .inf t => if s = t then .inf s else .nan
  | .inf s, _ => .inf s
  | _, .inf t => .inf t
  | .fin s m e, .fin t n k =>
    let lo := min e k
    let x := signedM s m * 2 ^ (e - lo).toNat + signedM t n * 2 ^ (k - lo).toNat
    if x = 0 then (if s = t then .fin s 0 lo else .fin (decide (mode = .rdn)) 0 lo)
    else FVal.ofInt x lo

/-- The exact product (R154): infinity times zero is NaN. -/
def FVal.mul : FVal → FVal → FVal
  | .nan, _ => .nan
  | _, .nan => .nan
  | .inf s, .inf t => .inf (s != t)
  | .inf s, .fin t n _ => if n = 0 then .nan else .inf (s != t)
  | .fin s m _, .inf t => if m = 0 then .nan else .inf (s != t)
  | .fin s m e, .fin t n k => .fin (s != t) (m * n) (e + k)

/-- Multiplication by a power of two. -/
def FVal.scale (v : FVal) (k : Int) : FVal :=
  match v with
  | .fin s m e => .fin s m (e + k)
  | x => x

/-- Whether x < y; false when either is NaN (R156). Zeros compare equal. -/
def FVal.lt : FVal → FVal → Bool
  | .nan, _ => false
  | _, .nan => false
  | .inf s, .inf t => s && !t
  | .inf s, _ => s
  | _, .inf t => !t
  | .fin s m e, .fin t n k =>
    let lo := min e k
    decide (signedM s m * 2 ^ (e - lo).toNat < signedM t n * 2 ^ (k - lo).toNat)

/-- Whether x = y; false when either is NaN (R156). -/
def FVal.eq : FVal → FVal → Bool
  | .nan, _ => false
  | _, .nan => false
  | .inf s, .inf t => s == t
  | .inf _, _ => false
  | _, .inf _ => false
  | .fin s m e, .fin t n k =>
    let lo := min e k
    decide (signedM s m * 2 ^ (e - lo).toNat = signedM t n * 2 ^ (k - lo).toNat)

/-- The lesser for minima and maxima: -0 below +0 (R172, R298). -/
def FVal.ltz (x y : FVal) : Bool :=
  FVal.lt x y ||
    (match x, y with
     | .fin s 0 _, .fin t 0 _ => s && !t
     | _, _ => false)

/-- Whether a value is NaN. -/
def FVal.isNan : FVal → Bool
  | .nan => true | _ => false

/-- `Round` of a real to an integer by the mode (R157). -/
def roundInt (mode : RMode) (s : Bool) (m : Nat) (e : Int) : Int :=
  if 0 ≤ e then signedM s (m * 2 ^ e.toNat) else signedM s (roundShift mode s m (-e).toNat)

/-- `Round(x, F, mode)` for an integer format: rounded, then saturated; NaN goes to 0 (R157). -/
def FVal.toInt (mode : RMode) (lo hi : Int) : FVal → Int
  | .nan => 0
  | .inf s => if s then lo else hi
  | .fin s m e => satI (roundInt mode s m e) lo hi

/-! ### Tapered formats (R158 to R161) -/

/-- The run length of equal leading bits in the k-bit pattern p. -/
def runLen (p b : Nat) : Nat → Nat
  | 0 => 0
  | k + 1 => if bitsAt p k 1 = b then 1 + runLen p b k else 0

/-- `DecodeT(w, n)` (R158); NaR is NaN. -/
def decodeT (n w : Nat) : FVal :=
  let k := n - 1
  let s := bitsAt w k 1 == 1
  let p := w % 2 ^ k
  if p = 0 then (if s then .nan else .fin false 0 0)
  else
    let b := bitsAt p (k - 1) 1
    let m := runLen p b k
    let rg : Int := if b = 1 then (m : Int) - 1 else -(m : Int)
    let rest := k - m - 1
    if 1 ≤ rest then
      let e := bitsAt p (rest - 1) 1
      let nf := rest - 1
      .fin s (2 ^ nf + p % 2 ^ nf) (2 * rg + e - nf)
    else .fin s 1 (2 * rg)

/-- `RoundT(x, n)` (R161). -/
def roundT (n : Nat) (v : FVal) : Nat :=
  let k := n - 1
  match v with
  | .nan => 2 ^ k
  | .inf _ => 2 ^ k
  | .fin s m e =>
    if m = 0 then 0
    else
      let lf := Nat.log2 m
      let top : Int := e + (lf : Int)
      let rg := top.fdiv 2
      let eb := (top.fmod 2).toNat
      let rlen := if 0 ≤ rg then rg.toNat + 2 else (-rg).toNat + 1
      let rbits := if 0 ≤ rg then 2 ^ (rg.toNat + 2) - 2 else 1
      let all := (rbits * 2 + eb) * 2 ^ lf + (m - 2 ^ lf)
      let len := rlen + 1 + lf
      let p := if k ≤ len then roundShift .rne false all (len - k) else all * 2 ^ (k - len)
      let p := if p ≥ 2 ^ k then 2 ^ k - 1 else p
      let p := if p = 0 then 1 else p
      (if s then 2 ^ k else 0) + p

/-- The exponent of an E8 scale; `none` for NaN (R163). -/
def e8Exp (x : Nat) : Option Int := if x % 256 = 255 then none else some ((x % 256 : Nat) - 127)

/-- A value scaled by an E8 byte (R163, R164). -/
def FVal.scaleE8 (v : FVal) (x : Nat) : FVal :=
  match e8Exp x with
  | none => .nan
  | some k => v.scale k

/-- The least z with 2^z ≥ m x 2^e, for m > 0. -/
def ceilLog2 (m : Nat) (e : Int) : Int :=
  if m = 2 ^ Nat.log2 m then e + (Nat.log2 m : Int) else e + (Nat.log2 m : Int) + 1

/-- `ScaleOf(a, F)` (R168); `i8` tells whether F is I8. The least z with 127 x 2^z ≥ a is one of three candidates. -/
def scaleOf (i8 : Bool) : FVal → Nat
  | .nan => 255
  | .inf _ => 255
  | .fin _ m e =>
    if m = 0 then 127
    else if i8 then
      let z := ceilLog2 m e - 7
      let ge (k : Int) : Bool :=
        let lo := min k e
        decide (m * 2 ^ (e - lo).toNat ≤ 127 * 2 ^ (k - lo).toNat)
      let z := if ge (z - 1) then z - 1 else if ge z then z else z + 1
      (satI (z + 127) 0 254).toNat
    else (satI (ceilLog2 m e - 2 + 127) 0 254).toNat

/-! ### Correctly rounded functions (R173) -/

/-- Newton steps towards the integer square root from above. -/
def isqrtStep (n : Nat) : Nat → Nat → Nat
  | 0, r => r
  | k + 1, r =>
    let t := (r + n / r) / 2
    if t < r then isqrtStep n k t else r

/-- The integer square root. -/
def isqrt (n : Nat) : Nat := if n = 0 then 0 else isqrtStep n (Nat.log2 n + 2) (2 ^ (Nat.log2 n / 2 + 1))

/-- A positive dyadic number with a sticky half unit: m x 2^e when exact, else a number just above it. -/
def sticky (s : Bool) (m : Nat) (e : Int) (exact : Bool) : FVal :=
  if exact then .fin s m e else .fin s (2 * m + 1) (e - 1)

/-- 1 ÷ x to more bits than any format holds, with a sticky bit (R173). -/
def FVal.rcp : FVal → FVal
  | .nan => .nan
  | .inf s => .fin s 0 0
  | .fin s m e =>
    if m = 0 then .inf s
    else
      let k := Nat.log2 m + 64
      sticky s (2 ^ k / m) (-(k : Int) - e) (decide (2 ^ k % m = 0))

/-- x ÷ y likewise (R88). -/
def FVal.div : FVal → FVal → FVal
  | .nan, _ => .nan
  | _, .nan => .nan
  | .inf _, .inf _ => .nan
  | .inf s, .fin t _ _ => .inf (s != t)
  | .fin s _ _, .inf t => .fin (s != t) 0 0
  | .fin s m e, .fin t n k =>
    if n = 0 then (if m = 0 then .nan else .inf (s != t))
    else
      let j := Nat.log2 n + 64
      sticky (s != t) (m * 2 ^ j / n) (e - k - (j : Int)) (decide (m * 2 ^ j % n = 0))

/-- 1 ÷ √x likewise (R173). -/
def FVal.rsqrt : FVal → FVal
  | .nan => .nan
  | .inf s => if s then .nan else .fin false 0 0
  | .fin s m e =>
    if m = 0 then .inf s
    else if s then .nan
    else
      let m := if e.fmod 2 = 0 then m else 2 * m
      let e := if e.fmod 2 = 0 then e else e - 1
      let k := Nat.log2 m + 64
      let r := isqrt (2 ^ (2 * k) / m)
      sticky false r (-(k : Int) - e / 2) (decide (r * r * m = 2 ^ (2 * k)))

/-- The precision of the constants of `exp2`. -/
def exp2Prec : Nat := 320

/-- The product of the constants 2^(2^-j) over the set bits of the fraction `f`, most significant first; `c` is the
constant of the previous bit. All at precision `exp2Prec`. -/
def exp2Frac (f : Nat) : Nat → Nat → Nat → Nat
  | 0, _, y => y
  | k + 1, c, y =>
    let c := isqrt (c * 2 ^ exp2Prec)
    exp2Frac f k c (if bitsAt f k 1 = 1 then y * c / 2 ^ exp2Prec else y)

/-- 2^x of an exact x (R87, R173): exact for integers, otherwise irrational and given with a sticky bit. -/
def FVal.exp2 : FVal → FVal
  | .nan => .nan
  | .inf s => if s then .fin false 0 0 else .inf false
  | .fin s m e =>
    let x : Int := signedM s m
    if 0 ≤ e then
      if m * 2 ^ e.toNat ≥ 2 ^ 14 then (if m = 0 then .fin false 1 0 else .fin false 3 (if s then -20000 else 20000))
      else .fin false 1 (x * 2 ^ e.toNat)
    else
      let den := (-e).toNat
      let i := x.fdiv (2 ^ den : Nat)
      let f := (x.fmod (2 ^ den : Nat)).toNat
      if i.natAbs ≥ 2 ^ 14 then .fin false 3 (if s then -20000 else 20000)
      else if f = 0 then .fin false 1 i
      else sticky false (exp2Frac f den (2 * 2 ^ exp2Prec) (2 ^ exp2Prec)) (i - exp2Prec) false

end Sys2Proof.Machine
end

