-- ==== Sys2Proof/Machine/Home.lean ====
section
/-! DEFINITION. The homes of memory: physical layout, keys and encryption, the words of HBM, LPDDR, CXL memory, scratchpad
and chart store, poison, what HBM holds behind the slices, one step on one word (atomics and barrier objects), and the core
data caches with their owned bits. -/

namespace Sys2Proof.Machine

/-! ### Physical addresses (R23, R24, R78) -/

/-- KEY, bits [55:50] of a physical address. -/
def paKey (pa : Nat) : Nat := pa / 2 ^ 50 % 64
/-- HOME and LOCAL, bits [49:0]: strictly the physical address. -/
def paAddr (pa : Nat) : Nat := pa % 2 ^ 50
/-- HOME, bits [49:45]. -/
def paHome (pa : Nat) : Nat := pa / 2 ^ 45 % 32
/-- LOCAL, bits [44:0]. -/
def paLocal (pa : Nat) : Nat := pa % 2 ^ 45

/-- The populated top of HBM: 960 GB less the memory-side cache carve-out (R24, R68). -/
def hbmTop (s : State) : Nat := 960 * 10 ^ 9 - s.dev.mscSize * 8 * 10 ^ 9

/-- LOCAL lies in HBM's range (R24). -/
def isHbm (s : State) (loc : Nat) : Bool := decide (loc < hbmTop s)

/-- LOCAL lies in CXL memory (R24). -/
def isCxl (loc : Nat) : Bool := decide (0x040000000000 ≤ loc ∧ loc < 0x080000000000)

/-- LOCAL lies in second-tier LPDDR (R24). -/
def isLpddr (loc : Nat) : Bool := decide (0x010000000000 ≤ loc ∧ loc < 0x020000000000)

/-- A LOCAL that a leaf may map (R25). -/
def isMappable (s : State) (loc : Nat) : Bool := isHbm s loc || isLpddr loc || isCxl loc

/-- The bank number across the device and the granule slot of an HBM LOCAL address (R78). -/
def hbmBank (a : Nat) : Nat × Nat := (a / 2 ^ 16 % 61440, a / 2 ^ 16 / 61440)

/-- Stack, pseudo-channel, SID and bank of a bank number (R78). -/
def bankParts (i : Nat) : Nat × Nat × Nat × Nat :=
  let q := i / 12
  (i % 12, q % 64, q / 64 / 16, q / 64 % 16)

/-- The slice that homes a line under HASH placement in subset k (R56): the (h mod n)-th set bit of the mask. -/
def hashSlice (s : State) (a k : Nat) : Nat :=
  let h := bitsAt a 6 12 ^^^ bitsAt a 18 12 ^^^ bitsAt a 30 12 ^^^ bitsAt a 42 3
  let m := (Map.at s.dev.slsub k (BitVec.allOnes 64)).toNat
  let m := if m = 0 then 2 ^ 64 - 1 else m
  let l := (List.range 64).filter fun g => m.testBit g
  l.getD (h % l.length) 0

/-- The home slice of a line of a page with placement mode and argument (R30, R56 to R58). -/
def homeSlice (s : State) (a mode arg : Nat) : Nat :=
  if mode = 0 then hashSlice s a (arg % 16)
  else if mode = 1 then (if (s.cluster (arg % 64)).fenced then hashSlice s a 0 else arg % 64)
  else (Map.at s.mem.first (a / 64) (hashSlice s a 0))

/-- The memory controller of an address: HBM's are numbered stack x 64 + pseudo-channel; those of LPDDR count
as one, 768, and the two root ports are 769 and 770. (DESIGN CHOICE, log 88.) -/
def controllerOf (s : State) (a : Nat) : Nat :=
  let loc := a % 2 ^ 45
  if isHbm s loc then (let (st, ch, _, _) := bankParts (hbmBank loc).1; st * 64 + ch)
  else if isLpddr loc then 768
  else if loc < 0x060000000000 then 769 else 770

/-! ### Words behind keys (R73, R426) -/

/-- The key material in a slot (R73). -/
def keyMat (s : State) (k : Nat) : Option Nat := Map.find s.dev.keys k

/-- The aligned word that its memory controller reads under a key: zeros for an empty slot, bytes that nothing specifies where
nothing has written since boot, unrelated bytes when the line was last written under other material (R73, R426). -/
def mediaWord (s : State) (key a : Nat) : Word :=
  match keyMat s key with
  | none => 0
  | some k =>
    if s.mem.written.has a = false then Config.bootWord k a
    else match Map.find s.mem.keyed (a / 64) with
      | none => s.mem.ram.word a
      | some j => if j = k then s.mem.ram.word a else Config.cipher k j a (s.mem.ram.word a)

/-- The memory-side cache stands before an address: it caches this device's LPDDR and CXL memory unless its size is 0 (R69). -/
def mscOn (s : State) (a : Nat) : Bool :=
  s.dev.mscSize != 0 && a / 2 ^ 45 == s.dev.devno && (isLpddr (a % 2 ^ 45) || isCxl (a % 2 ^ 45))

/-- A word of a line. -/
def SLine.word (l : SLine) (pa : Nat) : Word := l.words.getD (pa / 8 % 8) 0

/-- The word behind the slices: the memory-side cache's, or the memory controller's (R44, R69). -/
def backWord (s : State) (pa : Nat) : Word :=
  match (if mscOn s (paAddr pa) then Map.find s.mem.msc (pa / 64) else none) with
  | some l => l.word pa
  | none => mediaWord s (paKey pa) (paAddr pa)

/-- The aligned word at a physical address, as its home reads it: the slice's copy of the line, or what lies behind (R44, R45). -/
def readMem (s : State) (pa : Nat) : Word :=
  match Map.find s.mem.slines (pa / 64) with
  | some l => l.word pa
  | none => backWord s pa

/-- A request under a key slot that holds no key counts in its controller's KEYMISS (R73). -/
def noteKey (s : State) (pa : Nat) : State :=
  match keyMat s (paKey pa) with
  | none => s.modDev fun d =>
      let n := controllerOf s (paAddr pa)
      { d with keyMiss := Map.put d.keyMiss n (Map.at d.keyMiss n 0 + 1) }
  | some _ => s

/-- Merges the bytes that a mask selects. -/
def mergeBytes (old v : Word) (bm : BitVec 8) : Word :=
  .ofNat 64 (leNat ((List.range 8).map fun i => .ofNat 8 (if bm.getLsbD i then v.toNat / 256 ^ i else old.toNat / 256 ^ i)))

/-- The written words of a line whose key material changes become what the new key makes of them (R73). (DEDUCED, log 71.) -/
def rekeyLine (s : State) (k a : Nat) : Memory :=
  match Map.find s.mem.keyed (a / 64) with
  | none => s.mem.ram
  | some j =>
    if j = k then s.mem.ram
    else (List.range 8).foldl (fun m i =>
      let b := a / 64 * 64 + 8 * i
      if s.mem.written.has b then Memory.setWord m b (Config.cipher k j b (m.word b)) else m) s.mem.ram

/-- A memory controller writes a word under a key; an empty slot drops it (R73). -/
def mediaPut (s : State) (pa : Nat) (v : Word) : State :=
  let a := paAddr pa
  match keyMat s (paKey pa) with
  | none => s
  | some k => s.modMem fun m =>
      { m with ram := (rekeyLine s k a).setWord a v, keyed := Map.put m.keyed (a / 64) k, written := m.written.add a (a + 8) }

/-- A memory controller reads a line from HBM: each armed error event in it is corrected, counted and spent (R76, R423). -/
def spendLine (s : State) (pa : Nat) : State :=
  let hit (e : Nat) : Bool := e / 64 == paAddr pa / 64
  let n := (s.mem.softErr.filter hit).length
  if n = 0 then s
  else
    let ctl := controllerOf s (paAddr pa)
    (s.modMem fun m => { m with softErr := m.softErr.filter fun e => !hit e }).modDev fun d =>
      { d with ceCount := Map.put d.ceCount ctl (Map.at d.ceCount ctl 0 + n) }

/-! ### Lines of the slices and of the memory-side cache (R55, R60, R69) -/

/-- The first way below n that no line of a set holds. -/
def freeWay (l : List SLine) (n : Nat) : Option Nat := (List.range n).find? fun w => !l.any fun e => e.way == w

/-- The lines of a set with their tags. -/
def linesOf (m : Map SLine) (slice set : Nat) : Map SLine := m.filter fun e => e.2.slice == slice && e.2.set == set

/-- The words that a line's dirty bits select, with their addresses. -/
def SLine.dirtyWords (l : SLine) (tag : Nat) : List (Nat × Word) :=
  ((List.range 8).filter fun i => l.dirty.getLsbD i).map fun i => (tag * 64 + 8 * i, l.words.getD i 0)

/-- A word put into a line, which is then newer than what lies behind. -/
def SLine.put (l : SLine) (pa : Nat) (v : Word) (who : Nat × Nat) : SLine :=
  { l with words := l.words.setIfInBounds (pa / 8 % 8) v, dirty := setBit l.dirty (pa / 8 % 8) true,
           writers := who :: l.writers.filter (· != who) }

/-- The ways of a slice that may hold lines: those neither converted nor being converted, nor on their way back (R60, R61). -/
def sliceWays (s : State) (g : Nat) : Nat :=
  let k := s.cluster g
  16 - (if k.busy then max k.cfgOld k.cfgNew else k.conv)

/-- The sets of the memory-side cache: four ways of 64-byte lines in SIZE x 8 GB (R68, R69). -/
def mscSets (s : State) : Nat := s.dev.mscSize * 31250000

/-- A line of the memory-side cache leaves it: its dirty words go to memory. -/
def mscEvict (s : State) (tag : Nat) : State :=
  match Map.find s.mem.msc tag with
  | none => s
  | some l =>
    ((l.dirtyWords tag).foldl (fun s e => mediaPut s e.1 e.2) s).modMem fun m => { m with msc := Map.drop m.msc tag }

/-- Brings a line into the memory-side cache; a full set gives up a line of the device's choice (R69). The set is that of the line's
number in LOCAL modulo the sets. (DESIGN CHOICE, log 88.) -/
def mscFill (s : State) (pa : Nat) : State :=
  let tag := pa / 64
  if mscOn s (paAddr pa) = false ∨ (Map.find s.mem.msc tag).isSome ∨ keyMat s (paKey pa) = none then s
  else
    let set := paLocal pa / 64 % mscSets s
    let put (s : State) (w : Nat) : State :=
      let l : SLine := { slice := 0, set := set, way := w, dirty := 0, writers := [],
                         words := Vector.ofFn fun i => mediaWord s (paKey pa) (paAddr pa / 64 * 64 + 8 * i.val) }
      s.modMem fun m => { m with msc := Map.put m.msc tag l }
    let old := linesOf s.mem.msc 0 set
    match freeWay (old.map (·.2)) 4 with
    | some w => put s w
    | none => match old[Config.victim s.fresh % max old.length 1]? with
      | none => s
      | some v => put (mscEvict s.bump v.1) v.2.way

/-- Writes a word behind the slices: into the memory-side cache, or to memory (R69). -/
def backPut (s : State) (pa : Nat) (v : Word) : State :=
  let s := mscFill s pa
  match (if mscOn s (paAddr pa) then Map.find s.mem.msc (pa / 64) else none) with
  | some l => s.modMem fun m => { m with msc := Map.put m.msc (pa / 64) { l.put pa v (0, 0) with writers := [] } }
  | none => mediaPut s pa v

/-- The words of a line that wait for the FILLW of a `sndfill`: HBM gets them by that command alone (R89, R91). -/
def heldWords (s : State) (tag : Nat) : BitVec 8 :=
  s.ops.foldl (fun b o => if o.hdrNew.isSome ∧ o.hdrPa / 64 = tag then setBit b (o.hdrPa / 8 % 8) true else b) 0

/-- A slice writes a line back: its dirty words go behind it, and it stays valid and clean (R143). -/
def writeBackLine (s : State) (tag : Nat) : State :=
  match Map.find s.mem.slines tag with
  | none => s
  | some l =>
    let held := l.dirty &&& heldWords s tag
    let go : SLine := { l with dirty := l.dirty &&& ~~~held }
    ((go.dirtyWords tag).foldl (fun s e => backPut s e.1 e.2) s).modMem fun m =>
      { m with slines := Map.put m.slines tag { l with dirty := held, writers := if held = 0 then [] else l.writers } }

/-- A slice gives a line up: written back when dirty, then dropped; one with a word that waits for its FILLW stays. -/
def dropLine (s : State) (tag : Nat) : State :=
  let t := writeBackLine s tag
  if heldWords s tag ≠ 0 then t else t.modMem fun m => { m with slines := Map.drop m.slines tag }

/-- Drops, written back, every line of the slices that a test names. -/
def dropLines (s : State) (p : Nat → SLine → Bool) : State :=
  (s.mem.slines.filter fun e => p e.1 e.2).foldl (fun s e => dropLine s e.1) s

/-- Brings a line into its home slice; a full set gives up a line of the device's choice (R55). A slice with no way left serves
without allocating (R60). -/
def sliceFill (s : State) (pa slice : Nat) : State :=
  let tag := pa / 64
  if (Map.find s.mem.slines tag).isSome ∨ paHome pa ≠ s.dev.devno ∨ keyMat s (paKey pa) = none then s
  else
    let set := paLocal pa / 64 % 4096
    let n := sliceWays s slice
    let put (s : State) (w : Nat) : State :=
      let l : SLine := { slice := slice, set := set, way := w, dirty := 0, writers := [],
                         words := Vector.ofFn fun i => backWord s (tag * 64 + 8 * i.val) }
      s.modMem fun m => { m with slines := Map.put m.slines tag l }
    let old := (linesOf s.mem.slines slice set).filter fun e => decide (e.2.way < n) && heldWords s e.1 == 0
    match freeWay ((linesOf s.mem.slines slice set).map (·.2)) n with
    | some w => put s w
    | none => match old[Config.victim s.fresh % max old.length 1]? with
      | none => s
      | some v => put (dropLine s.bump v.1) v.2.way

/-- Writes a whole word at its home; `who` is the engine class and the writer. The slice's copy takes it, or without one what
lies behind (R45, R48). An empty key slot drops it (R73). A whole new word clears poison (R76). -/
def writeMem (s : State) (pa : Nat) (v : Word) (whole : Bool) (who : Nat × Nat) : State :=
  if keyMat s (paKey pa) = none then s
  else
    let s := if whole then s.modMem fun m => { m with poison := m.poison.filter (· != paAddr pa) } else s
    match Map.find s.mem.slines (pa / 64) with
    | some l => s.modMem fun m => { m with slines := Map.put m.slines (pa / 64) (l.put pa v who) }
    | none => backPut s pa v

/-- The placement record of a line of a FIRST page (R57): the first request to reach it writes in the slice of its cluster. -/
def noteFirst (s : State) (pa pl g : Nat) : State :=
  if pl / 256 = 2 ∧ Map.find s.mem.first (paAddr pa / 64) = none then
    let g := if paHome pa = s.dev.devno then g else hashSlice s (paAddr pa) 0
    s.modMem fun m => { m with first := Map.put m.first (paAddr pa / 64) g }
  else s

/-- The home slice of a word of a page of a placement. -/
def sliceOf (s : State) (pa pl : Nat) : Nat := homeSlice s (paAddr pa) (pl / 256) (pl % 256)

/-- A request of cluster g reaches the home of a word (R44, R48, R57, R73, R423): the placement record is consulted; a slice that
holds no copy of the line has it read from behind, and allocates it unless the page is uncached. -/
def touchMem (s : State) (pa pl g : Nat) (uc : Bool) : State :=
  let s := noteFirst s pa pl g
  if (Map.find s.mem.slines (pa / 64)).isSome then s
  else
    let s := noteKey s pa
    let s := if mscOn s (paAddr pa) then mscFill s pa else spendLine s pa
    if uc then s else sliceFill s pa (sliceOf s pa pl)

/-- The placement by which a request that names no page reaches a line's home: its placement record, the slice that holds it, or else HASH with
subset 0 (R56, R57, R131; DESIGN CHOICE, log 58). -/
def homePl (s : State) (pa : Nat) : Nat :=
  if (Map.find s.mem.first (paAddr pa / 64)).isSome then 512
  else match Map.find s.mem.slines (pa / 64) with
    | some l => 256 + l.slice
    | none => 0

/-- A read of cluster g that names no page reaches the home of a word. -/
def plainTouch (s : State) (pa g : Nat) : State := touchMem s pa (homePl s pa) g false

/-- A pilot core reads a word at its home (R73, R423). -/
def pilotRead (s : State) (pa : Nat) : State × Word :=
  let s := plainTouch s pa 0
  (s, readMem s pa)

/-! ### Locations (R45, R101) -/

/-- The key of a location in caches and registries. -/
def Loc.key : Loc → Nat
  | .mem pa => pa
  | .chart d o => 2 ^ 57 + d * 2 ^ 28 + o
  | .spad g p => 2 ^ 58 + g * 2 ^ 23 + p

/-- The word at a location. -/
def readLoc (s : State) : Loc → Word
  | .mem pa => readMem s pa
  | .spad g p => (s.cluster g).spad.word p
  | .chart d o => Config.chartWord s.mem.chart (d * 2 ^ 28 + o)

/-- A request of cluster g reaches the home of a location. -/
def touchHome (s : State) (l : Loc) (pl g : Nat) (uc : Bool) : State :=
  match l with
  | .mem pa => touchMem s pa pl g uc
  | _ => s

/-- Whether the word at a location is poisoned (R76). -/
def poisoned (s : State) : Loc → Bool
  | .mem pa => s.mem.poison.contains (paAddr pa)
  | .spad g p => (s.cluster g).spoison.contains p
  | .chart d o => s.mem.cpoison.contains (d * 2 ^ 28 + o)

/-! ### Names and clocks (R101, R132, R376) -/

/-- The name of a context, which stays with its launch wherever that is placed: the launch, the cell's number in it, the context's number. -/
def threadOf (s : State) (c : Nat) : Nat :=
  let x := s.cell (cellOf c)
  (match x.launch with | some i => i + 1 | none => 0) * 2 ^ 16 + x.cellNo * 33 + c % 33

/-- The name of a host party: a function's requests to one pilot core (R132). Name 0 is that of the pilot cores' firmware. -/
def hostName (vf pilot : Nat) : Nat := 34000 + vf * 16 + pilot % 16

/-- The name of all the contexts of a launch together. -/
def launchName (id : Nat) : Nat := (id + 1) * 2 ^ 16 + 65535

/-- The key under which what a function's completion reports bring to each of its host parties is kept (R135). -/
def reportName (vf : Nat) : Nat := 33900 + vf

/-- What happens before a host party's next request (R132, R135). -/
def partyClock (s : State) (vf pilot : Nat) : Clock :=
  joinClock (Map.at s.host.clocks (hostName vf pilot) []) (Map.at s.host.clocks (reportName vf) [])

/-- What a host party's release brings (R132). -/
def partyRelease (s : State) (vf pilot : Nat) : Clock := joinClock (partyClock s vf pilot) [(hostName vf pilot, s.fresh)]

/-- A host party, or every party of a function, acquires (R132, R135). -/
def partyLearns (s : State) (name : Nat) (k : Clock) : State :=
  if k = [] then s else s.modHost fun h => { h with clocks := Map.put h.clocks name (joinClock (Map.at h.clocks name []) k) }

/-- What happens before what a context does next. -/
def clockOf (s : State) (c : Nat) : Clock := Map.at (s.core (coreOf c)).knows (threadOf s c) []

/-- What a release of a context brings to the acquire that it synchronises with: all that happens before it, and what the context itself has
done (R101). -/
def releaseClock (s : State) (c : Nat) : Clock := joinClock (clockOf s c) [(threadOf s c, s.fresh)]

/-- A context acquires: what the release had before it now happens before what the context does next (R101). -/
def learn (s : State) (c : Nat) (k : Clock) : State :=
  if k = [] then s
  else s.modCore (coreOf c) fun x => { x with knows := Map.put x.knows (threadOf s c) (joinClock (clockOf s c) k) }

/-- What the present value of a location brings to an acquire that reads it (R101). -/
def relNow (s : State) (l : Loc) : Clock := (Map.at s.mem.rels l.key ([], [])).1

/-- A release writes a location: its value brings the release's clock, that of an atomic also what every earlier release there brings (R101). -/
def noteRel (s : State) (l : Loc) (rmw : Bool) (k : Clock) : State :=
  s.modMem fun m =>
    let all := joinClock (Map.at m.rels l.key ([], [])).2 k
    { m with rels := Map.put m.rels l.key (if rmw then all else k, all) }

/-- The value that a plain write leaves brings nothing. -/
def dropRel (s : State) (l : Loc) : State :=
  if relNow s l = [] then s
  else s.modMem fun m => { m with rels := Map.put m.rels l.key ([], (Map.at m.rels l.key ([], [])).2) }

/-- Keeps the value that a write replaces (R138), and takes from the location what its value would bring to an acquire. A host write with no
launch on the device is seen by every later one (R145, R188). -/
def noteOld (s : State) (l : Loc) (who : Nat × Nat) : State :=
  let k := relNow s l
  let s := dropRel s l
  if who.1 = 6 ∧ s.host.launches = [] then s.modMem fun m => { m with hist := Map.drop m.hist l.key }
  else s.modMem fun m =>
    { m with hist := Map.put m.hist l.key
              ({ old := readLoc s l, cls := who.1, who := who.2, at_ := s.fresh, before := [], brings := k } :: Map.at m.hist l.key []) }

/-- Writes the word at a location at its home. Chart store is never written by an access (R64). -/
def writeLoc (s : State) (l : Loc) (v : Word) (whole : Bool) (who : Nat × Nat) : State :=
  match l with
  | .mem pa => writeMem (noteOld s l who) pa v whole who
  | .spad g p => (noteOld s l who).modCluster g fun c =>
      { c with spad := c.spad.setWord p v, spoison := if whole then c.spoison.filter (· != p) else c.spoison }
  | .chart _ _ => s

/-- Who reads: the class, the name of the context that issued the read and when, what happened before that, the start of its launch, and
the `sndfill`s that a scan has seen. -/
structure Reader where
  cls    : Nat
  who    : Nat
  at_    : Nat
  clock  : Clock
  floor  : Nat
  pubs   : List (Nat × Nat) := []

/-- The start of the launch of a context's cell (R188). -/
def launchFloor (s : State) (c : Nat) : Nat :=
  match (s.cell (cellOf c)).launch.bind (Map.find s.host.launches) with
  | some l => l.start
  | none => 0

/-- What the context or party of name c did at moment t happens before a read was issued: it is the reader's own context, or the reader's has
acquired since from a release that follows it (R101). -/
def Reader.after (r : Reader) (t c : Nat) : Bool :=
  if c = r.who then decide (t < r.at_) else decide (t < max (Map.at r.clock c 0) (Map.at r.clock (c / 2 ^ 16 * 2 ^ 16 + 65535) 0))

/-- A context observed operation `op` complete, and that happens before a read was issued (R137). -/
def Reader.finds (r : Reader) (s : State) (op : Nat) : Bool :=
  s.cores.any fun k => k.2.saw.any fun (o, t, c) => o == op && r.after t c

/-- A write is ordered before a read of class LS at a home: a store, an atomic or a host write, as the home has performed it (R109, R122, R132);
what was there before the launch started (R120); what the context has read already, or a value after it (R103); or a write of an operation,
other than a matrix batch, that a context had observed complete (R144, item 2). -/
def OldVal.beforeLoad (e : OldVal) (s : State) (r : Reader) : Bool :=
  e.cls == 0 || e.cls == 6 || decide (e.at_ < r.floor) || e.seen.contains r.who || (e.cls != 2 && r.finds s e.who)

/-- A write is ordered before a read (R137, R144, R145): a context had fenced it for the reader's class before the read issued; a scan saw a
`sndfill` which that context issued after the fence (R90); it was performed by an operation of the reader's class that a context had observed
complete; the host made it; each where that happens before the read; or what binds a read of class LS. (DESIGN CHOICE, log 78.) -/
def OldVal.ordered (e : OldVal) (s : State) (r : Reader) : Bool :=
  (e.before.any fun (cls, t, c) =>
    cls == r.cls && (r.after t c || r.pubs.any fun p => p.1 == c && decide (t < p.2))) ||
  (e.cls == r.cls && r.finds s e.who) || (e.cls == 6 && r.after e.at_ e.who) || (r.cls == 0 && e.beforeLoad s r)

/-- The values that an engine's read may return besides the newest: one before each write that nothing orders before the read (R138). -/
def olderVals (s : State) (r : Reader) : List OldVal → List Word
  | [] => []
  | e :: l => if e.ordered s r then [] else e.old :: olderVals s r l

/-- What an engine reads of a word at its home (R138): the newest value, or an older one that nothing orders before the read. One seed
gives one choice for a word. (DESIGN CHOICE, log 78.) -/
def engValue (s : State) (l : Loc) (r : Reader) (seed : Nat) : Word :=
  let olds := olderVals s r (Map.at s.mem.hist l.key [])
  (readLoc s l :: olds).getD (if olds = [] then 0 else Config.raceBack seed l.key % (olds.length + 1)) (readLoc s l)

/-- An engine reads a word with a choice of its own. -/
def engRead (s : State) (l : Loc) (r : Reader) : State × Word := (s.bump, engValue s l r s.fresh)

/-- A read that a context issues now. -/
def Reader.now (s : State) (c cls : Nat) : Reader :=
  { cls := cls, who := threadOf s c, at_ := s.fresh, clock := clockOf s c, floor := launchFloor s c }

/-- A read of an operation of the copy engines. -/
def EngOp.reader (o : EngOp) (s : State) (cls : Nat) : Reader :=
  { cls := cls, who := threadOf s o.ctx, at_ := o.id, clock := o.clock, floor := launchFloor s o.ctx }

/-- A read of the matrix engine. -/
def MxOp.reader (o : MxOp) (s : State) : Reader :=
  { cls := 2, who := threadOf s o.ctx, at_ := o.id, clock := o.clock, floor := launchFloor s o.ctx }

/-- A context observes operations complete: in their own class, what comes after finds their writes (R137). -/
def noteSeen (s : State) (c : Nat) (ops : List Nat) : State :=
  if ops = [] then s
  else (s.modCore (coreOf c) fun x => { x with saw := ops.map (fun o => (o, s.fresh, threadOf s c)) ++ x.saw }).bump

/-- A context has read a value of a word by an access of class LS: the newest, or the one before the k newest writes (R103). -/
def noteRead (s : State) (l : Loc) (k c : Nat) : State :=
  s.modMem fun m =>
    let h := Map.at m.hist l.key []
    match h[k]? with
    | none => m
    | some e => { m with hist := Map.put m.hist l.key (h.set k { e with seen := threadOf s c :: e.seen }) }

/-- The older values that a load of context c may find at the home of a word, for the writes of the engines that nothing orders before it; a
scratchpad's bank gives the latest (R125, R138, R144). -/
def loadOlds (s : State) (l : Loc) (c : Nat) : List Word :=
  match l with
  | .mem pa => olderVals s (Reader.now s c 0) (Map.at s.mem.hist pa [])
  | _ => []

/-- A load of context c takes the newest value of a word, from its core's cache or by an atomic. -/
def readNewest (s : State) (l : Loc) (c : Nat) : State := if loadOlds s l c = [] then s else noteRead s l 0 c

/-- What a load of context c finds at the home of a word, and what the value brings to an acquire (R101, R109, R122, R138). (DESIGN CHOICE,
log 78.) -/
def loadRead (s : State) (l : Loc) (c : Nat) : State × Word × Clock :=
  let olds := loadOlds s l c
  if olds = [] then (s, readLoc s l, relNow s l)
  else
    let k := Config.raceBack s.fresh l.key % (olds.length + 1)
    let brings := match k with
      | 0 => relNow s l
      | j + 1 => (((Map.at s.mem.hist l.key [])[j]?).map (·.brings)).getD []
    ((noteRead s l k c).bump, (readLoc s l :: olds).getD k (readLoc s l), brings)

/-! ### One step on one word (R256 to R258, R347) -/

/-- The new value of an AMO from the old value and the operand, both of n bytes (R256, R257). -/
def amoNew (op : AmoOp) (n o p cmp : Nat) (mode : RMode) : Nat :=
  let w := 8 * n
  match op with
  | .add => (o + p) % 2 ^ w
  | .and => o &&& p
  | .or => o ||| p
  | .xor => o ^^^ p
  | .minI => if signedN o w ≤ signedN p w then o else p
  | .maxI => if signedN o w ≤ signedN p w then p else o
  | .minN => min o p
  | .maxN => max o p
  | .swap => p
  | .fadd => f32.round mode (FVal.add mode (f32.decode o) (f32.decode p))
  | .cas => if o = cmp then p else o

/-- Barrier object fields (R345): PHASE. -/
def barPhase (w : Word) : Nat := fieldN w 63 1
/-- ARR. -/
def barArr (w : Word) : Nat := fieldN w 24 16
/-- INIT. -/
def barInitF (w : Word) : Nat := fieldN w 40 16
/-- EXPB. -/
def barExpb (w : Word) : Nat := fieldN w 0 24

/-- `Settle` (R347): the word after the phase check. -/
def barSettle (w : Word) : Word :=
  if barExpb w = 0 ∧ barArr w = 0 then setField (setField w 63 1 (1 - barPhase w)) 24 16 (barInitF w) else w

/-- One step of a word at its home: the new word, the word found, and whether the step is refused (a trap of R345, or a
count that must wait). -/
def WordOp.apply (op : WordOp) (w : Word) : Word × Word × Bool :=
  match op with
  | .read => (w, w, false)
  | .write v bm => (mergeBytes w v bm, w, false)
  | .amo o n off p cmp mode =>
    let x := bitsAt w.toNat (8 * off) (8 * n)
    let y := amoNew o n x (p.toNat % 2 ^ (8 * n)) (cmp.toNat % 2 ^ (8 * n)) (RMode.ofCode mode)
    (setField w (8 * off) (8 * n) y, w, false)
  | .barInit v => (setField (setField (setField 0 40 16 (fieldN v 40 16)) 24 16 (fieldN v 40 16)) 0 24 (fieldN v 0 24), w, false)
  | .barExpect v =>
    let e := signedN (barExpb w) 24 + v.toInt
    if e < -(2 ^ 23) ∨ e > 2 ^ 23 - 1 then (w, w, true)
    else (barSettle (setField w 0 24 (e % 2 ^ 24).toNat), w, false)
  | .barArrive => if barArr w = 0 then (w, w, true) else (barSettle (setField w 24 16 (barArr w - 1)), w, false)
  | .barAck => if barArr w = 0 then (setField w 62 1 1, w, false)
               else (barSettle (setField w 24 16 (barArr w - 1)), w, false)
  | .barWait _ => (w, w, false)
  | .barAdd n => if barArr w + n > 65535 then (w, w, true) else (barSettle (setField w 24 16 (barArr w + n)), w, false)
  | .barCount n =>
    let e := signedN (barExpb w) 24 - (n : Int)
    if e < -(2 ^ 23) then (w, w, true) else (barSettle (setField w 0 24 (e % 2 ^ 24).toNat), w, false)

/-- Whether a step writes its word. A failed `cas` writes nothing (R258). -/
def WordOp.writes (op : WordOp) (w : Word) : Bool :=
  match op with
  | .read => false
  | .barWait _ => false
  | .amo .cas n off _ cmp _ => bitsAt w.toNat (8 * off) (8 * n) == cmp.toNat % 2 ^ (8 * n)
  | .write _ _ | .amo _ _ _ _ _ _ | .barInit _ => true
  | _ => decide ((op.apply w).1 ≠ w)

/-- A write that covers the whole word clears its poison (R76). -/
def WordOp.whole : WordOp → Bool
  | .write _ bm => bm == 255
  | .barInit _ => true
  | _ => false

/-! ### Core data caches (R46 to R48, R102, R108) -/

/-- The word of a present location in core k's data cache. -/
def cacheWord (s : State) (k : Nat) (l : Loc) : Option Word :=
  match Map.find (s.core k).dcache (l.key / 64) with
  | none => none
  | some c => let i := l.key / 8 % 8
              if c.valid.getLsbD i then some (c.words.getD i 0) else none

/-- Whether the line of a location is present (R47). -/
def linePresent (s : State) (k : Nat) (l : Loc) : Bool :=
  (Map.find (s.core k).dcache (l.key / 64)).isSome

/-- Changes a line of core k's data cache; an absent line stays absent (R47). -/
def modLine (s : State) (k : Nat) (l : Loc) (f : Nat → CLine → CLine) : State :=
  match Map.find (s.core k).dcache (l.key / 64) with
  | none => s
  | some c => s.modCore k fun x => { x with dcache := Map.put x.dcache (l.key / 64) (f (l.key / 8 % 8) c) }

/-- Puts a whole word into a present line (R47). -/
def cacheStore (s : State) (k : Nat) (l : Loc) (v : Word) : State :=
  modLine s k l fun i c => { c with words := c.words.setIfInBounds i v, valid := setBit c.valid i true }

/-- Sets or clears the owned bit of a present word (R47, R113). -/
def cacheOwn (s : State) (k : Nat) (l : Loc) (b : Bool) : State :=
  modLine s k l fun i c => { c with owned := setBit c.owned i (b && c.valid.getLsbD i) }

/-- A word of a present line becomes invalid. -/
def cacheForget (s : State) (k : Nat) (l : Loc) : State :=
  modLine s k l fun i c => { c with valid := setBit c.valid i false, owned := setBit c.owned i false }

/-- A line enters a core cache's set of four ways: a full set gives up one of its lines that may leave, of the device's choice (R46);
with none the line stays out. -/
def cacheRoom (m : Map CLine) (line pick : Nat) (c : CLine) (stays : Nat → Bool) : Map CLine :=
  let set := m.filter fun e => e.1 % 128 == line % 128 && e.1 != line
  let out := set.filter fun e => !stays e.1
  if set.length < 4 then Map.put m line c
  else match out[pick % max out.length 1]? with
    | none => m
    | some v => Map.put (Map.drop m v.1) line c

/-- A store of core k to a line is on its way to its home (R102). -/
def storeToLine (s : State) (k line : Nat) : Bool :=
  s.accs.any fun a => coreOf a.ctx == k && a.loc.key / 64 == line && a.phase != .performed &&
    (match a.op with | .write _ _ => true | _ => false)

/-- Allocates a line in core k's data cache; a line to which a store of the core is on its way is not evicted (R46, R47, R102). -/
def cacheAlloc (s : State) (k line : Nat) (c : CLine) : State :=
  (s.modCore k fun x => { x with dcache := cacheRoom x.dcache line (Config.victim s.fresh) c (storeToLine s k) }).bump

/-- Drops a line from core k's data cache (R75). -/
def cacheDrop (s : State) (k : Nat) (l : Loc) : State :=
  s.modCore k fun x => { x with dcache := Map.drop x.dcache (l.key / 64) }

/-- `SelfInvalidate` (R8): every word that the core does not own becomes invalid. -/
def selfInvalidate (s : State) (k : Nat) : State :=
  s.modCore k fun x =>
    let kept := x.dcache.map fun e => (e.1, { e.2 with valid := e.2.valid &&& e.2.owned })
    { x with dcache := kept.filter fun e => e.2.valid != 0 }

/-! ### The ownership registry (R47, R113) -/

/-- The core that owns a word. -/
def ownerOf (s : State) (l : Loc) : Option Nat := (s.mem.owner.find? (·.key == l.key)).map (·.core)

/-- The word's record names core k, and was not made for a release of the core that is still to be owned, whose word enters the cache by its own
acknowledgement alone (R111, R112). -/
def recordOf (s : State) (l : Loc) (k : Nat) : Bool :=
  s.mem.owner.any fun r => r.key == l.key && r.core == k && !(s.accs.any fun a => a.id == r.id && a.rel)

/-- Drops a word's record. -/
def dropOwner (s : State) (l : Loc) : State := s.modMem fun m => { m with owner := m.owner.filter (·.key != l.key) }

/-- Another party's write takes a word over at once: the former owner's bit is cleared and its record goes (R113). (DEDUCED, log 24.) -/
def takeOver (s : State) (l : Loc) (by_ : Option Nat) : State :=
  match ownerOf s l with
  | none => s
  | some o => if by_ = some o then s else dropOwner (cacheOwn s o l false) l

/-- The location whose key is given. -/
def locOfKey (a : Nat) : Loc :=
  if a < 2 ^ 57 then .mem a else if a < 2 ^ 58 then .chart ((a - 2 ^ 57) / 2 ^ 28) ((a - 2 ^ 57) % 2 ^ 28)
  else .spad ((a - 2 ^ 58) / 2 ^ 23) ((a - 2 ^ 58) % 2 ^ 23)

/-- A slice whose registry is full revokes its oldest record (R47); how many records it holds is not stated (DESIGN CHOICE, log 85). -/
def registryRoom (s : State) (slice : Nat) : State :=
  let recs := s.mem.owner.filter (·.slice == slice)
  match recs with
  | [] => s
  | e :: _ => if recs.length < max Config.registrySize 1 then s else dropOwner (cacheOwn s e.core (locOfKey e.key) false) (locOfKey e.key)

/-- The home slice records core k as the owner of a word, for the store `id` (R47). -/
def recordOwner (s : State) (l : Loc) (k slice id : Nat) : State :=
  (registryRoom (dropOwner s l) slice).modMem fun m =>
    { m with owner := m.owner ++ [{ key := l.key, core := k, slice := slice, id := id }] }

/-- A word that is written through while `sndfill`s of it wait for their FILLW: HBM has it at once, and their FILLWs, which the home placed
before it, leave it there (R89, R145). -/
def passHeld (s : State) (a : Nat) : State :=
  if (heldWords s (a / 64)).getLsbD (a / 8 % 8) then
    let w := readMem s a
    let s := mediaPut s a w
    { s with ops := s.ops.map fun o => if o.hdrNew.isSome ∧ o.hdrPa / 8 = a / 8 then { o with hdrNew := some w } else o }
  else s

/-- A write of an engine, a pilot core or a merge at the home of a word: performed and owned in one step (R45, R136). A pilot core's
and a sounder's words in HBM are written through (R89, R137, R145). -/
def engineWrite (s : State) (l : Loc) (v : Word) (whole : Bool) (who : Nat × Nat) : State :=
  let s := takeOver (writeLoc s l v whole who) l none
  if who.1 = 5 ∨ who.1 = 6 then writeBackLine (passHeld s l.key) (l.key / 64) else s

/-- A pilot core writes a whole word at its home (R73, R145). -/
def pilotWrite (s : State) (pa : Nat) (v : Word) (who : Nat × Nat) : State := engineWrite (noteKey s pa) (.mem pa) v true who

/-- The word that core k's own plain stores leave at a location: the home's, with those not yet performed merged over it in the order of
their issue (R102). A release or an atomic enters no cache before it is owned (R112). -/
def expectWord (s : State) (k : Nat) (l : Loc) : Word :=
  s.accs.foldl (fun w a =>
    if coreOf a.ctx = k ∧ a.loc = l ∧ a.rel = false ∧ a.phase ≠ .performed then
      (match a.op with | .write v bm => mergeBytes w v bm | _ => w)
    else w) (readLoc s l)

/-- A cached word that is no longer what the home and the core's own stores make of the location becomes invalid, so that no later load
goes back (R103). -/
def dropOlder (s : State) (k : Nat) (l : Loc) : State :=
  match cacheWord s k l with
  | none => s
  | some v => if v = expectWord s k l then s else cacheForget s k l

/-- The eight locations of a location's line. -/
def lineLocs (line : Nat) : List Loc :=
  (List.range 8).map fun i =>
    let a := line * 64 + 8 * i
    if a < 2 ^ 57 then .mem a else .chart ((a - 2 ^ 57) / 2 ^ 28) ((a - 2 ^ 57) % 2 ^ 28)

end Sys2Proof.Machine
end

