-- ==== Sys2Proof/Machine/Translate.lean ====
section
/-! DEFINITION. Translation (02): the windows, the page walk, the second stage, TLBs, resource-relative addresses, and the
posting of a fault message. -/

namespace Sys2Proof.Machine

/-- Fault codes (R39). -/
def fcAddrRange : Nat := 0x01
def fcNotMapped : Nat := 0x02
def fcPerm : Nat := 0x03
def fcBadPte : Nat := 0x04
def fcWalkErr : Nat := 0x05
def fcBadPhys : Nat := 0x06
def fcStage2 : Nat := 0x07
def fcResIndex : Nat := 0x08
def fcResPerm : Nat := 0x09
def fcResBound : Nat := 0x0A
def fcExtentGone : Nat := 0x0B

/-- The KIND code of an access (R41). -/
def AccessKind.code : AccessKind → Nat
  | .read => 0 | .write => 1 | .atomic => 2 | .exec => 3

/-- What decided a fault (R41). -/
structure FaultInfo where
  cause : Nat
  level : Nat
  kind  : Nat
  va    : Word
  entry : Word
  aux   : Word
deriving DecidableEq, Repr

/-- A translation of the aligned word that holds an address: its location, whether the page is uncached, its placement, and for a
page its leaf, the leaf's level and the address that the leaf gives (R41). -/
structure Xlat where
  loc   : Loc
  uc    : Bool
  pl    : Nat
  entry : Word := 0
  level : Nat := 0
  ga    : Word := 0
deriving DecidableEq, Repr

/-- The answer of `Translate` (R8): a location, a miss that a walk must settle (R32), or a fault. -/
inductive TrRes where
  | ok (x : Xlat) | miss | fault (f : FaultInfo)
deriving DecidableEq, Repr

/-! ### The launch of a cell and its coverage (R184, R376) -/

/-- The launch whose part a cell runs. -/
def launchOf (s : State) (cell : Nat) : Option Launch :=
  match (s.cell cell).launch with
  | none => none
  | some i => Map.find s.host.launches i

/-- The numbers of the cells that the launch of a cell covers. -/
def coveredCells (s : State) (cell : Nat) : List Nat :=
  match launchOf s cell with
  | none => []
  | some l => l.cells

/-- Whether that launch covers a cluster. -/
def coversCluster (s : State) (cell g : Nat) : Bool := (coveredCells s cell).any fun n => n / 16 == g

/-- Whether that launch covers a cluster of a die. -/
def coversDie (s : State) (cell d : Nat) : Bool := (coveredCells s cell).any fun n => n / 256 == d

/-- The cluster that now holds what the launch numbers g (R376). -/
def placeCluster (s : State) (cell g : Nat) : Nat :=
  match launchOf s cell with
  | none => g
  | some l => match l.place.find? (·.1 == g) with
    | some (_, h) => h
    | none => g

/-- Where a launch's cell number n is placed (R376). -/
def Launch.placeOf (l : Launch) (n : Nat) : Nat :=
  (match l.place.find? (·.1 == n / 16) with
   | some (_, h) => h
   | none => n / 16) * 16 + n % 16

/-- Where the cell number n of a launch is, which need not be that of the asking cell (R376). -/
def placeIn (s : State) (launch : Option Nat) (n : Nat) : Nat :=
  match launch.bind (Map.find s.host.launches) with
  | some l => l.placeOf n
  | none => n

/-- The cell that now holds what the launch numbers n (R376). -/
def placeCell (s : State) (cell n : Nat) : Nat := placeCluster s cell (n / 16) * 16 + n % 16

/-! ### PTROOT and leaf fields (R26, R27) -/

/-- PTROOT.VF. -/
def ptVf (w : Word) : Nat := fieldN w 6 6
/-- PTROOT.ASID. -/
def ptAsid (w : Word) : Nat := fieldN w 48 16
/-- PTROOT.PTKEY. -/
def ptKey (w : Word) : Nat := fieldN w 0 6
/-- The LOCAL address of the level-1 table. -/
def ptRootAddr (w : Word) : Nat := fieldN w 17 28 * 2 ^ 17

/-- The second-stage comparator (R36): the system address, or none for STAGE2. `pa` is HOME and LOCAL. -/
def stage2 (s : State) (vf pa key : Nat) : Option Nat :=
  if vf = 0 then some pa
  else
    let seg := Map.at s.dev.s2seg vf 0
    if fieldN seg 63 1 = 0 ∨ ¬ (Map.at s.dev.s2keys vf 0).getLsbD key then none
    else if pa / 2 ^ 45 ≠ s.dev.devno then (if fieldN seg 62 1 = 0 then none else some pa)
    else
      let g := pa % 2 ^ 45
      if g ≥ fieldN seg 32 12 * 2 ^ 29 then none
      else
        let spa := fieldN seg 0 11 * 2 ^ 29 + g
        if spa ≥ hbmTop s then none else some (s.dev.devno * 2 ^ 45 + spa)

/-- A well-formed leaf at a level (R28, R30). -/
def leafOk (w : Word) (level : Nat) : Bool :=
  fieldN w 6 5 == 0 && !(w.getLsbD 3 && !w.getLsbD 2) && fieldN w 54 2 != 3 &&
  (if fieldN w 54 2 = 0 then decide (fieldN w 56 8 < 16) else if fieldN w 54 2 = 1 then decide (fieldN w 56 8 < 64)
   else fieldN w 56 8 == 0) &&
  (level == 3 || fieldN w 11 13 == 0)

/-- The index of a level (R26). -/
def walkIndex (va level : Nat) : Nat :=
  if level = 1 then bitsAt va 42 14 else if level = 2 then bitsAt va 29 13 else bitsAt va 16 13

/-- The page walk (R29) from a level downwards: a leaf with its level, or the fault it ends in. Every fault carries the KIND of the access that
asked for the walk, also one of the second stage on a table read. (DESIGN CHOICE, log 87.) -/
def walkFrom (s : State) (root : Word) (va : Word) (kind : Nat) : Nat → Nat → Except FaultInfo (Word × Nat)
  | 0, _ => .error ⟨fcBadPte, 3, kind, va, 0, 0⟩
  | n + 1, tbl =>
    let level := 3 - n
    let ga := s.dev.devno * 2 ^ 45 + (tbl + 8 * walkIndex va.toNat level) % 2 ^ 45
    match stage2 s (ptVf root) ga (ptKey root) with
    | none => .error ⟨fcStage2, level, kind, va, 0, .ofNat 64 ga⟩
    | some sa =>
      let pa := ptKey root * 2 ^ 50 + sa
      if poisoned s (.mem pa) then .error ⟨fcWalkErr, level, kind, va, 0, 0⟩
      else
        let w := readMem s pa
        if ¬ w.getLsbD 0 then .error ⟨fcNotMapped, level, kind, va, w, 0⟩
        else if ¬ w.getLsbD 1 then
          if level = 3 ∨ fieldN w 40 24 ≠ 0 ∨ fieldN w 2 9 ≠ 0 then .error ⟨fcBadPte, level, kind, va, w, 0⟩
          else walkFrom s root va kind n (fieldN w 11 29 * 2 ^ 16)
        else if level = 1 ∨ leafOk w level = false then .error ⟨fcBadPte, level, kind, va, w, 0⟩
        else .ok (w, level)

/-- The page walk (R29). (DESIGN CHOICE, log 7.) -/
def walk (s : State) (root : Word) (va : Word) (kind : Nat) : Except FaultInfo (Word × Nat) :=
  walkFrom s root va kind 3 (ptRootAddr root)

/-! ### TLBs (R31, R32) -/

/-- The page size in bits of a leaf's level (R26). -/
def pageBits (level : Nat) : Nat := if level = 2 then 29 else 16

/-- A TLB entry that translates an address of a process. -/
def TlbEnt.hits (e : TlbEnt) (vf asid va : Nat) : Bool :=
  e.vf == vf && e.asid == asid && e.vpn == va % 2 ^ 56 / 2 ^ pageBits e.level

/-- The entry for an address. -/
def tlbFind (t : List TlbEnt) (root : Word) (va : Word) : Option TlbEnt :=
  t.find? fun e => e.hits (ptVf root) (ptAsid root) va.toNat

/-- Two entries have one tag (R31). -/
def TlbEnt.sameTag (e f : TlbEnt) : Bool := e.vf == f.vf && e.asid == f.asid && e.vpn == f.vpn && e.level == f.level

/-- Puts an entry into the part of a TLB that holds n entries: those that `inSet` names. A full part gives up the entry that `pick`
names (R31: victims are the device's choice). (DEDUCED, log 43.) -/
def tlbPut (t : List TlbEnt) (n pick : Nat) (inSet : TlbEnt → Bool) (e : TlbEnt) : List TlbEnt :=
  let t := t.filter fun f => !f.sameTag e
  let set := t.filter inSet
  if set.length < n then e :: t
  else match set[pick % max set.length 1]? with
    | none => t
    | some v => e :: t.filter (· != v)

/-- Puts an entry in a core's instruction TLB of 64 entries or data TLB of 128 (R31). -/
def putCoreTlb (s : State) (core : Nat) (ex : Bool) (e : TlbEnt) : State :=
  let v := Config.victim s.fresh
  s.bump.modCore core fun k =>
    if ex then { k with itlb := tlbPut k.itlb 64 v (fun _ => true) e } else { k with dtlb := tlbPut k.dtlb 128 v (fun _ => true) e }

/-- Puts an entry in a cluster's TLB of 8 ways and 512 sets (R31). (DEDUCED, log 43.) -/
def putClusterTlb (s : State) (g : Nat) (e : TlbEnt) : State :=
  let v := Config.victim s.fresh
  s.bump.modCluster g fun x => { x with tlb := tlbPut x.tlb 8 v (fun f => f.vpn % 512 == e.vpn % 512) e }

/-- The entry that a walk's leaf makes. -/
def tlbEnt (root va leaf : Word) (level : Nat) : TlbEnt :=
  { vf := ptVf root, asid := ptAsid root, vpn := va.toNat % 2 ^ 56 / 2 ^ pageBits level, level := level, leaf := leaf }

/-! ### Translate (R8, R20, R21, R25, R39) -/

/-- The leaf allows the kind (R39). -/
def leafAllows (w : Word) : AccessKind → Bool
  | .read => w.getLsbD 2
  | .write => w.getLsbD 3
  | .atomic => w.getLsbD 2 && w.getLsbD 3
  | .exec => w.getLsbD 4

/-- The extent of CXL memory that holds a LOCAL address is present (R25, R70). -/
def extentOk (s : State) (loc : Nat) : Bool :=
  !isCxl loc || s.mem.extents.any fun e => e.present && decide (e.base ≤ loc ∧ loc < e.base + e.len)

/-- A location whose extent is gone: an access that its home accepted before a release still finds it there (R70, R71). -/
def extentGone (s : State) (l : Loc) : Bool :=
  match l with
  | .mem pa => paHome pa == s.dev.devno && isCxl (paLocal pa) && !s.mem.extents.any fun e =>
      (e.present || e.releasing) && decide (e.base ≤ paLocal pa ∧ paLocal pa < e.base + e.len)
  | _ => false

/-- A device to which the route table gives a link (R25, R413). (DEDUCED, log 47.) -/
def routed (s : State) (dev : Nat) : Bool := Map.at s.dev.routes dev 0 != 0

/-- The rest of a translation once the leaf is known: permission, the second stage, BAD_PHYS (R25, R39). -/
def finishLeaf (s : State) (root : Word) (k : AccessKind) (va : Word) (leaf : Word) (level : Nat) : TrRes :=
  if leafAllows leaf k = false then .fault ⟨fcPerm, level, k.code, va, leaf, 0⟩
  else
    let key := fieldN leaf 48 6
    let off := va.toNat % 2 ^ pageBits level
    let g := fieldN leaf 43 5 * 2 ^ 45 + fieldN leaf 11 29 * 2 ^ 16 + off
    match stage2 s (ptVf root) g key with
    | none => .fault ⟨fcStage2, level, k.code, va, leaf, .ofNat 64 g⟩
    | some pa =>
      let bad := if pa / 2 ^ 45 = s.dev.devno then !isMappable s (pa % 2 ^ 45) else !routed s (pa / 2 ^ 45)
      if bad then .fault ⟨fcBadPhys, level, k.code, va, leaf, .ofNat 64 g⟩
      else .ok { loc := .mem (key * 2 ^ 50 + pa / 8 * 8), uc := leaf.getLsbD 5,
                 pl := fieldN leaf 54 2 * 256 + fieldN leaf 56 8, entry := leaf, level := level, ga := .ofNat 64 g }

/-- A chart bank that was retired before the launch of a cell started: its window faults from then on, and a launch that runs already keeps it
(R66, R414). -/
def bankRetired (s : State) (cell bank : Nat) : Bool :=
  match Map.find s.dev.retired bank, launchOf s cell with
  | none, _ => false
  | some _, none => true
  | some m, some l => decide (m < l.start)

/-- The window decoder (R20, R21), for addresses from 0xF0_0000_0000_0000. -/
def window (s : State) (c : Nat) (k : AccessKind) (va : Word) : TrRes :=
  let cell := cellOf c
  let w := va.toNat / 2 ^ 48
  let o := va.toNat % 2 ^ 48
  let nm : TrRes := .fault ⟨fcNotMapped, 0, k.code, va, 0, 0⟩
  let pm : TrRes := .fault ⟨fcPerm, 0, k.code, va, 0, 0⟩
  let spad (g : Nat) (p : Nat) : TrRes :=
    if p ≥ 0x400000 + (s.cluster g).conv * 0x40000 then nm
    else if k = .exec then pm else .ok { loc := .spad g (p / 8 * 8), uc := true, pl := 0 }
  if w = 0xF0 then (if o ≥ 0x800000 then nm else spad (clusterOfCell cell) o)
  else if w = 0xF1 then
    if o ≥ 0x20000000 then nm
    else if ¬ coversCluster s cell (o / 0x800000) then nm
    else spad (placeCluster s cell (o / 0x800000)) (o % 0x800000)
  else if w = 0xF2 then
    if o ≥ 0x40000000 then nm
    else if ¬ coversDie s cell (o / 2 ^ 28) ∨ bankRetired s cell (o / 2 ^ 16) then nm
    else if k ≠ .read then pm
    else .ok { loc := .chart (o / 2 ^ 28) (o % 2 ^ 28 / 8 * 8), uc := false, pl := 0 }
  else if w = 0xF3 then
    if o ≥ 8 * fieldN (s.cell cell).winLen 32 27 then nm
    else if k ≠ .read then pm
    else .ok { loc := .mem ((s.cell cell).logPa + o / 8 * 8), uc := false, pl := 0 }
  else
    if o ≥ 64 * fieldN (s.cell cell).winLen 0 11 then nm
    else if k ≠ .read then pm
    else .ok { loc := .mem ((s.cell cell).manPa + o / 8 * 8), uc := false, pl := 0 }

/-- The TLBs that an access of a kind looks up: its core's, then the cluster's (R32). -/
def tlbOf (s : State) (c : Nat) (k : AccessKind) : List TlbEnt :=
  (if k = .exec then (s.core (coreOf c)).itlb else (s.core (coreOf c)).dtlb) ++ (s.cluster (clusterOfCell (cellOf c))).tlb

/-- `Translate` for context c through the given TLB entries: ADDR_RANGE, window or page. -/
def translateBy (s : State) (c : Nat) (k : AccessKind) (va : Word) (t : List TlbEnt) : TrRes :=
  if va.toNat ≥ 0xF5 * 2 ^ 48 then .fault ⟨fcAddrRange, 0, k.code, va, 0, 0⟩
  else if va.toNat ≥ 0xF0 * 2 ^ 48 then window s c k va
  else
    let root := (s.cell (cellOf c)).ptRoot
    match tlbFind t root va with
    | some e => finishLeaf s root k va e.leaf e.level
    | none => .miss

/-- What a translation would give if its walk were done now; nothing is read for it (R227, R91). -/
def peekBy (s : State) (c : Nat) (k : AccessKind) (va : Word) (t : List TlbEnt) : TrRes :=
  let root := (s.cell (cellOf c)).ptRoot
  match translateBy s c k va t with
  | .miss => (match walk s root va k.code with
    | .error f => .fault f
    | .ok (w, level) => finishLeaf s root k va w level)
  | r => r

/-- The home's own checks of a request for context c (R25, R70): the cause of its negative reply, or none when it passes. What
another device's checks find is open (DESIGN CHOICE, log 79). -/
def homeCheck (s : State) (c : Nat) (l : Loc) : Option Nat :=
  match l with
  | .mem pa =>
    if paHome pa = s.dev.devno then (if extentOk s (paLocal pa) then none else some fcExtentGone)
    else
      let r := Config.remoteReply (ptVf (s.cell (cellOf c)).ptRoot) (paAddr pa) s.fresh % 4
      if r = 1 then some fcBadPhys else if r = 2 then some fcStage2 else if r = 3 then some fcExtentGone else none
  | _ => none

/-- A fault that the home's reply names, as though found here, with LEVEL 0 (R25, R41). -/
def homeFault (k : AccessKind) (va : Word) (x : Xlat) (cause : Nat) : FaultInfo :=
  { cause := cause, level := 0, kind := k.code, va := va, entry := if cause = fcExtentGone then 0 else x.entry,
    aux := if cause = fcExtentGone then 0 else x.ga }

/-- `Translate` for a context's own access (R32): a fault that a walk found for this page is reported here. -/
def translate (s : State) (c : Nat) (k : AccessKind) (va : Word) : TrRes :=
  match translateBy s c k va (tlbOf s c k) with
  | .miss =>
    match (s.ctx c).walkErr with
    | some e => if e.page = va.toNat / 2 ^ 16 then .fault ⟨e.cause, e.level, k.code, va, e.entry, e.aux⟩ else .miss
    | none => .miss
  | r => r

/-- Installs in the core's TLB an entry that the cluster TLB held (R32). -/
def fillCoreTlb (s : State) (c : Nat) (k : AccessKind) (va : Word) : State :=
  let root := (s.cell (cellOf c)).ptRoot
  match tlbFind (s.cluster (clusterOfCell (cellOf c))).tlb root va with
  | none => s
  | some e =>
    if k = .exec then
      (if (tlbFind (s.core (coreOf c)).itlb root va).isSome then s else putCoreTlb s (coreOf c) true e)
    else
      (if (tlbFind (s.core (coreOf c)).dtlb root va).isSome then s else putCoreTlb s (coreOf c) false e)

/-- Starts a walk for a miss, or joins the walk of the same page (R32); a `pref` does not wait for it (R43). Until a walk has found its leaf the
page's size is not known: it counts as the walk of one 64 KiB page. (DESIGN CHOICE, log 87.) -/
def askWalk (s : State) (c : Nat) (va : Word) (add : WalkRec → WalkRec) : State :=
  let g := clusterOfCell (cellOf c)
  let root := (s.cell (cellOf c)).ptRoot
  let page := va.toNat / 2 ^ 16
  let same (w : WalkRec) : Bool := w.cluster == g && w.page == page && w.root == root && !w.discard
  if s.walks.any same then { s with walks := s.walks.map fun w => if same w then add w else w }
  else
    let w : WalkRec := { id := s.fresh, cluster := g, vf := ptVf root, asid := ptAsid root, root := root, page := page,
                         va := va, waiters := [], prefs := [], engs := [], discard := false }
    { s.bump with walks := s.walks ++ [add w] }

/-- A context waits for a walk. -/
def startWalk (s : State) (c : Nat) (k : AccessKind) (va : Word) : State :=
  let me := (c, decide (k = .exec))
  askWalk s c va fun w => if w.waiters.contains me then w else { w with waiters := w.waiters ++ [me] }

/-- A `pref` asks for a walk. -/
def prefWalk (s : State) (c : Nat) (va : Word) : State :=
  askWalk s c va fun w => { w with prefs := w.prefs ++ [(c, va)] }

/-- The walks that a cluster's four walkers work on: the earliest of those asked for (R32). -/
def walking (s : State) (g : Nat) : List WalkRec := (s.walks.filter (·.cluster == g)).take 4

/-- An engine's operation asks for a walk, as any miss does: it joins the page's walk or takes its place in arrival order (R32). -/
def engWalk (s : State) (c id : Nat) (va : Word) : State :=
  askWalk s c va fun w => if w.engs.contains id then w else { w with engs := w.engs ++ [id] }

/-- The number under which a context's gather asks for walks; an operation asks under its own. -/
def gatherId (c : Nat) : Nat := 2 ^ 64 + c

/-- What a walk told an operation has been used. -/
def dropEngErrs (s : State) (c id : Nat) : State :=
  s.modCluster (clusterOfCell (cellOf c)) fun k => { k with engErrs := k.engErrs.filter (·.1 != id) }

/-- What walks told some operations concerns nobody any more: they have ended otherwise, or are lost (R32, R378). -/
def forgetEngErrs (s : State) (g : Nat) (gone : Nat → Bool) : State :=
  s.modCluster g fun k => { k with engErrs := k.engErrs.filter fun e => !gone e.1 }

/-- A leaf is installed for a page: what an earlier walk of it told contexts and operations of the cluster is void, since a later miss
is a miss of its own, with a walk of its own (R32). -/
def forgetFaults (s : State) (g : Nat) (e : TlbEnt) : State :=
  let within (r : WalkErr) : Bool := e.vpn == r.page * 2 ^ 16 / 2 ^ pageBits e.level
  let s := s.ctxs.foldl (fun s n =>
    if clusterOfCell (cellOf n.1) = g ∧ n.2.walkErr.any within then s.modCtx n.1 fun x => { x with walkErr := none } else s) s
  s.modCluster g fun k => { k with engErrs := k.engErrs.filter fun r => !within r.2 }

/-- What a walk told an operation of a page: an operation keeps it at its cluster, a gather at its context (R32). -/
def engErr (s : State) (c id page : Nat) : Option WalkErr :=
  if id ≥ 2 ^ 64 then (s.ctx c).walkErr.filter (·.page == page)
  else (((s.cluster (clusterOfCell (cellOf c))).engErrs.find? fun e => e.1 == id && e.2.page == page)).map (·.2)

/-- It is told once: the next miss of the page has a walk of its own (R32). -/
def takeEngErr (s : State) (c id page : Nat) : State :=
  if id ≥ 2 ^ 64 then s.modCtx c fun x => { x with walkErr := none }
  else s.modCluster (clusterOfCell (cellOf c)) fun k =>
    { k with engErrs := k.engErrs.filter fun e => !(e.1 == id && e.2.page == page) }

/-- The physical addresses that a walk reads, in order (R29). -/
def walkPath (s : State) (root : Word) (va : Word) : Nat → Nat → List Nat
  | 0, _ => []
  | n + 1, tbl =>
    match stage2 s (ptVf root) (s.dev.devno * 2 ^ 45 + (tbl + 8 * walkIndex va.toNat (3 - n)) % 2 ^ 45) (ptKey root) with
    | none => []
    | some sa =>
      let pa := ptKey root * 2 ^ 50 + sa
      let w := readMem s pa
      pa :: (if w.getLsbD 0 && !w.getLsbD 1 then walkPath s root va n (fieldN w 11 29 * 2 ^ 16) else [])

/-- A walk's reads reach the home slices of their entries (R33). (DESIGN CHOICE, log 80.) -/
def touchWalk (s : State) (g : Nat) (root va : Word) : State :=
  (walkPath s root va 3 (ptRootAddr root)).foldl (fun s pa => plainTouch s pa g) s

/-- The leaves that walks found for an operation that has not started, or for a matrix instruction: it goes on however many pages it needs
(R32, R83). -/
def keptFor (s : State) (c id : Nat) : List TlbEnt :=
  match s.ops.find? (·.id == id), (s.cell (cellOf c)).mq.find? (·.id == id) with
  | some o, _ => o.kept
  | none, some o => o.kept
  | none, none => []

/-- Engines translate through the cluster TLB and the leaves kept for an operation `id` (R32). A miss asks for a walk and waits for it; the fault that a walk
found for this operation's page is reported here, once. -/
def translateEng (s : State) (c id : Nat) (k : AccessKind) (va : Word) : State × TrRes :=
  let g := s.cluster (clusterOfCell (cellOf c))
  match translateBy s c k va (g.tlb ++ keptFor s c id) with
  | .miss =>
    (match engErr s c id (va.toNat / 2 ^ 16) with
     | some e => (takeEngErr s c id (va.toNat / 2 ^ 16), .fault ⟨e.cause, e.level, k.code, va, e.entry, e.aux⟩)
     | none => (engWalk s c id va, .miss))
  | r => (s, r)

/-- An engine's translation with the home's checks added (R25, R72). -/
def engAccess (s : State) (c id : Nat) (k : AccessKind) (va : Word) : State × TrRes :=
  let (s, r) := translateEng s c id k va
  match r with
  | .ok x => (match homeCheck s c x.loc with
    | some f => (s, .fault (homeFault k va x f))
    | none => (s, r))
  | _ => (s, r)

/-! ### The manifest (R37, R38, R381) -/

/-- Manifest entry n as the MANIFEST window reads it: BASE, LENGTH and attribute word (R37). What the resource checks do with an entry
whose words have an uncorrectable error is not stated: they use the words as they stand (DESIGN CHOICE, log 97). -/
def manifestEntry (s : State) (c n : Nat) : Word × Word × Word :=
  let p := (s.cell (cellOf c)).manPa + 64 * n
  match Map.find (s.core (coreOf c)).mcache n with
  | some e => e
  | none => (readMem s p, readMem s (p + 8), readMem s (p + 16))

/-- Keeps an entry that was read in the core's cache of 16 (R38). Which entry a full cache gives up is not stated: the 16 lowest-numbered
stay (DESIGN CHOICE, log 96). -/
def fillManifest (s : State) (c n : Nat) : State :=
  let e := manifestEntry s c n
  let s := if (Map.find (s.core (coreOf c)).mcache n).isSome then s
    else plainTouch s ((s.cell (cellOf c)).manPa + 64 * n) (clusterOfCell (cellOf c))
  s.modCore (coreOf c) fun x => { x with mcache := (Map.put (Map.drop x.mcache n) n e).take 16 }

/-- The resource checks of `ResAddr` (R37): the address, or the fault. -/
def resAddr (s : State) (c n : Nat) (off : Word) (bytes : Nat) (k : AccessKind) : Except FaultInfo Word :=
  if n ≥ fieldN (s.cell (cellOf c)).winLen 0 11 then .error ⟨fcResIndex, 0, k.code, off, 0, .ofNat 64 n⟩
  else
    let (base, len, att) := manifestEntry s c n
    let va := base + off
    if (k ≠ .read ∧ att.getLsbD 1 = false) ∨ (k ≠ .write ∧ att.getLsbD 0 = false) then
      .error ⟨fcResPerm, 0, k.code, va, 0, .ofNat 64 n⟩
    else if off.toNat + bytes > len.toNat then .error ⟨fcResBound, 0, k.code, va, 0, .ofNat 64 n⟩
    else .ok va

/-! ### Profiling counters (R405, R406) -/

/-- FEATMASK of a virtual function hides a bit of a leaf (R237). -/
def State.featHides (s : State) (vf leaf bit : Nat) : Bool :=
  vf != 0 && !((Map.at s.dev.featmask (vf * 64 + leaf) (BitVec.allOnes 64)).getLsbD bit)

/-- Counts an event of a function at a block (R398) where the function's session selects it; the count saturates, and it stands still while
FEATMASK hides the event (R406). -/
def State.countAt (s : State) (vf block leaf idx n : Nat) : State :=
  let k := vf * 2048 + block
  if s.featHides vf leaf idx then s
  else match Map.find s.host.events k with
  | none => s
  | some l =>
    match l.findIdx? (· == (leaf, idx)) with
    | none => s
    | some j => s.modHost fun h =>
        { h with counters := Map.put h.counters (k * 8 + j) (satN (Map.at h.counters (k * 8 + j) 0 + n) (2 ^ 48 - 1)) }

/-- Counts an event of a cell for the partition that the cell serves. Which block counts an event that a cell's contexts cause outside its
copy engine and its sounders is not stated: the cell (DESIGN CHOICE, log 60). -/
def State.count (s : State) (cell leaf idx n : Nat) : State := s.countAt (ptVf (s.cell cell).ptRoot) cell leaf idx n

/-- The blocks of a cluster's copy engine and of a stack, in the order of R398. -/
def copyBlock (g : Nat) : Nat := 1024 + g

/-- The block of a stack. -/
def stackBlock (k : Nat) : Nat := 1923 + k

/-- Time goes on; the cells that run a launch count its cycles (R405). -/
def State.moveTime (s : State) (t : Nat) : State :=
  s.host.events.foldl (fun s e =>
    let b := e.1 % 2048
    if b < 1024 ∧ (s.cell b).launch.isSome ∧ ptVf (s.cell b).ptRoot = e.1 / 2048 then s.count b 16 0 (t - s.time) else s) s
    |> fun u => { u with time := t }

/-! ### Parking and waiting (R181, R182) -/

/-- The context parks for a cause. -/
def parkFor (s : State) (c : Nat) (cause : ParkCause) (num : Nat) : State :=
  let seq := (s.cell (cellOf c)).parkSeq
  let s := s.modCell (cellOf c) fun x => { x with parkSeq := x.parkSeq + 1 }
  (s.modCtx c fun x => { x with stat := .parked, park := cause, parkNum := num, parkSeq := seq }).count (cellOf c) 16 3 1

/-! ### The request send queue (R199) -/

/-- The entries of a core's request send queue that are in use: its loads, stores and atomics that their homes have not performed,
its matrix instructions, engine operations, mailbox words and launch requests (R199, R317, R337, R374; DEDUCED, log 11). -/
def sendUsed (s : State) (k : Nat) : Nat :=
  (s.accs.filter fun a => coreOf a.ctx == k && a.phase != .performed).length +
    ((s.cell (k / 3)).mq.filter fun o => coreOf o.ctx == k).length + (s.mboxes.filter fun m => coreOf m.sender == k).length +
    (s.reqs.filter fun r => coreOf r.ctx == k).length + (s.ops.filter fun o => coreOf o.ctx == k).length

/-! ### Lanes (R126) -/

/-- The lane of a message that concerns an address (R126). -/
def lane (a : Nat) : Nat := bitsAt a 6 4 ^^^ bitsAt a 10 4 ^^^ bitsAt a 14 4 ^^^ bitsAt a 18 4

/-- The pilot core that serves the queue of the launch that issued a request (R368, R407). -/
def LaunchReq.pilot (r : LaunchReq) (s : State) : Option Nat := (Map.find s.host.launches r.launch).map fun l => l.q % 16

/-- The pilot core that a mailbox word names (R365). -/
def MboxMsg.pilot (m : MboxMsg) : Option Nat := if m.target.getLsbD 16 then some (fieldN m.target 0 4) else none

/-- An earlier `launch` or mailbox request of a core to a pilot core in a lane is still on its way or, where `all`, its reply is: mailbox and
fault messages travel in lane 0 (R126, R199). The core knows a launch record's virtual address alone, and its lane is taken of that. (DESIGN
CHOICE, log 86.) -/
def pilotBehind (s : State) (core pilot id ln : Nat) (all : Bool) : Bool :=
  (s.reqs.any fun e => decide (e.id < id) && coreOf e.ctx == core && e.pilot s == some pilot && lane e.va.toNat == ln &&
    (all || e.status.isNone)) ||
  ln == 0 && s.mboxes.any fun m => decide (m.id < id) && coreOf m.sender == core && m.pilot == some pilot && (all || m.status.isNone)

/-- An earlier fault message of the core to the pilot core waits its turn (R126). -/
def faultAhead (s : State) (core pilot id : Nat) : Bool :=
  s.faults.any fun f => decide (f.id ≤ id) && f.core == core && f.pilot == pilot

/-- The fault messages that wait and have nothing left before them arrive (R126). -/
def flushFaults (s : State) : State :=
  s.faults.foldl (fun s f =>
    if pilotBehind s f.core f.pilot f.id 0 false then { s with faults := s.faults ++ [f] } else s.emit (.faultMsg f.pilot f.words))
    { s with faults := [] }

/-! ### The fault message (R40, R41) -/

/-- The PC of a unit: its group's first hint, or the instruction's own (R229). -/
def Ctx.groupPc (x : Ctx) : Word :=
  if x.ignoring then x.pc
  else match x.hints with
    | [] => x.pc
    | h :: _ => h.pc

/-- The eight words of the message (R41). -/
def faultWords (s : State) (c : Nat) (f : FaultInfo) (pc way : Word) (tile : Bool) (seq : Nat) : List Word :=
  let cell := s.cell (cellOf c)
  let w0 := (if tile then 2 ^ 50 else 0) + ptAsid cell.ptRoot * 2 ^ 34 + ptVf cell.ptRoot * 2 ^ 28 + cell.cellNo % 1024 * 2 ^ 18
    + slotOf c * 2 ^ 14 + (kindOf c).code * 2 ^ 12 + f.level % 4 * 2 ^ 10 + f.kind % 4 * 2 ^ 8 + f.cause % 256
  [.ofNat 64 w0, f.va, pc, way, f.entry, f.aux, .ofNat 64 seq, 0]

/-- The pilot core that a fault goes to (R39). -/
def faultPilot (s : State) (c : Nat) (f : FaultInfo) : Nat :=
  if f.cause = fcStage2 then s.dev.hvpilot else pilotOfCell (cellOf c)

/-- Sends the message of a fault and counts the cell's sequence number (R41). It arrives behind the core's earlier requests to that pilot core
in lane 0 (R126). (DESIGN CHOICE, log 17.) -/
def sendFault (s : State) (c : Nat) (f : FaultInfo) (pc way : Word) (tile : Bool) : State × Nat :=
  let seq := ((s.cell (cellOf c)).faultSeq + 1) % 2 ^ 32
  let s := s.modCell (cellOf c) fun x => { x with faultSeq := seq }
  let p := faultPilot s c f
  let ws := faultWords s c f pc way tile seq
  if pilotBehind s (coreOf c) p s.fresh 0 false then
    ({ s with faults := s.faults ++ [{ id := s.fresh, core := coreOf c, pilot := p, cell := cellOf c, seq := seq, words := ws }] }, seq)
  else (s.emit (.faultMsg p ws), seq)

/-- `Fault` (R40): posts the message and parks the context until the reply; re-execution starts at the group. A run of hints that
was entered in its middle stays ignored (R13, R227). The message needs an entry of the core's send queue: with none free the context parks
for one, and issues its instruction again (R182, R199; DEDUCED, log 11). -/
def postFault (s : State) (c : Nat) (f : FaultInfo) (report : Bool) : State :=
  if sendUsed s (coreOf c) ≥ 16 then parkFor s c .sendQueue 0
  else
  let x := s.ctx c
  let pc := x.groupPc
  let tile := fieldN x.waypt 60 4 != 0
  let (s, seq) := sendFault s c f pc (if tile then x.waypt else 0) tile
  (s.count (cellOf c) 16 3 1).modCtx c fun x =>
    { x with stat := .parked, park := .mailbox, parkNum := 0, pc := pc, hints := [],
             arrived := x.arrived && x.hints.isEmpty, walkErr := none,
             faultWait := some { seq := seq, cause := f.cause, va := f.va, kind := f.kind, pc := pc, report := report, id := s.fresh } }

end Sys2Proof.Machine
end

