-- ==== Sys2Proof/Machine/Ops.lean ====
section
/-! DEFINITION. The shared operations of a turn: completing an instruction with the loop-back step, parking, waiting,
taking a trap and returning from one, halting, the waits of a release and the steps of an acquire, and the gate that every
instruction passes (R219, R231, R358 to R360, R106 to R108). -/

namespace Sys2Proof.Machine

/-! ### Trap codes (R353) -/

def tcIllegalOp : Nat := 0x01
def tcIllegalEngine : Nat := 0x02
def tcFormat : Nat := 0x03
def tcHazard : Nat := 0x04
def tcMisalign : Nat := 0x05
def tcMemerr : Nat := 0x06
def tcMemfault : Nat := 0x07
def tcTaskArg : Nat := 0x08
def tcSemOvf : Nat := 0x09
def tcMtxErr : Nat := 0x0A
def tcMatArg : Nat := 0x0B
def tcBarArg : Nat := 0x0C
def tcBarOvf : Nat := 0x0D
def tcSysArg : Nat := 0x0E
def tcUser : Nat := 0x0F

/-! ### The logbook's loop exit is recorded through the cell (R266, R274) -/

/-- The slot word's fields (R273). -/
def slotOfWord (w : Word) : SlotVal :=
  let k := fieldN w 60 4
  if k = 1 then { kind := 1, x := fieldN w 32 24, y := fieldN w 8 24, h := fieldN w 0 8, mx := 0, av := 0 }
  else if k = 2 then { kind := 2, x := fieldN w 36 24, y := fieldN w 12 24, h := fieldN w 0 12, mx := 0, av := 0 }
  else if k = 3 then { kind := 3, x := 0, y := 0, h := fieldN w 40 20, mx := fieldN w 20 20, av := fieldN w 0 20 }
  else { kind := k, x := 0, y := 0, h := 0, mx := 0, av := 0 }

/-- The word of a slot's fields (R273). -/
def wordOfSlot (v : SlotVal) : Word :=
  if v.kind = 1 then .ofNat 64 (2 ^ 60 + v.x * 2 ^ 32 + v.y * 2 ^ 8 + v.h)
  else if v.kind = 2 then .ofNat 64 (2 * 2 ^ 60 + v.x * 2 ^ 36 + v.y * 2 ^ 12 + v.h)
  else if v.kind = 3 then .ofNat 64 (3 * 2 ^ 60 + v.h * 2 ^ 40 + v.mx * 2 ^ 20 + v.av)
  else 0

/-- A cold value (R273). -/
def SlotVal.cold : SlotVal := { kind := 0, x := 0, y := 0, h := 0, mx := 0, av := 0 }

/-- The view of a slot (R277). -/
def LogEntry.view (e : LogEntry) : SlotVal :=
  { kind := if e.home.kind = 0 then (if e.ev > 0 then e.delta.kind else 0) else e.home.kind,
    x := satN (e.home.x + e.delta.x) (2 ^ 24 - 1), y := satN (e.home.y + e.delta.y) (2 ^ 24 - 1),
    h := if e.ev > 0 then e.delta.h else e.home.h, mx := if e.ev > 0 then e.delta.mx else e.home.mx,
    av := if e.ev > 0 then e.delta.av else e.home.av }

/-- The KIND of an event (R274). -/
def LogEvent.kind : LogEvent → Nat
  | .branch _ => 1 | .load _ _ => 2 | .loop _ => 3

/-- An event applied to an entry's delta (R274, R275). -/
def LogEntry.applyEvent (e : LogEntry) (ev : LogEvent) : LogEntry :=
  let v := e.view
  let d := e.delta
  let d : SlotVal :=
    match ev with
    | .branch t => { d with kind := 1, x := d.x + (if t then 1 else 0), y := d.y + (if t then 0 else 1),
                            h := (2 * v.h + (if t then 1 else 0)) % 256 }
    | .load hit lat =>
      let lat := satN lat 4095
      { d with kind := 2, x := d.x + (if hit then 1 else 0), y := d.y + (if hit then 0 else 1),
               h := if v.x + v.y = 0 then lat else (v.h + ((lat : Int) - v.h).fdiv 8 : Int).toNat }
    | .loop trip =>
      let tr := min trip (2 ^ 20 - 1)
      { d with kind := 3, h := tr, mx := max v.mx tr,
               av := if v.kind = 0 then tr else (v.av + ((tr : Int) - v.av).fdiv 8 : Int).toNat }
  { e with delta := d, ev := e.ev + 1 }

/-- The physical word of slot n of a cell's image (R425). -/
def slotPa (s : State) (cell n : Nat) : Nat := (s.cell cell).logPa + 8 * n

/-- What a logbook instruction makes of a view: `Decide` (R281, R282), an unroll factor or a prefetch distance (R283). -/
def decideView (v : SlotVal) (last : Bool) (cd : Bool) : Bool :=
  if v.kind ≠ 1 then cd
  else if last then (if v.x + v.y = 0 then cd else v.h % 2 == 1)
  else if v.x > v.y then true
  else if v.x < v.y then false
  else cd

/-- The result of an instruction that reads the logbook (R281 to R283). -/
def LogRead.value (r : LogRead) (v : SlotVal) : Word :=
  match r with
  | .selx last cd a b => if decideView v last cd then a else b
  | .unrx m c => .ofNat 64 (2 ^ (if v.kind ≠ 3 ∨ v.av = 0 then min c m else min (Nat.log2 v.av) m))
  | .pfx m c => .ofNat 64 (if v.kind ≠ 2 ∨ v.x + v.y = 0 then min c m else min m (ceilDiv (v.h * v.y) (32 * (v.x + v.y))))

/-- `MergeSlot` (R276): one atomic operation at the home of the slot word. Answers the state and the entry after it. A clash of KIND drops
the entry's events (R276, R405). The class and writer of the write are not stated: a class-LS write of the cell's first context (DESIGN
CHOICE, log 100). -/
def mergeEntry (s : State) (cell : Nat) (e : LogEntry) : State × LogEntry :=
  let s := plainTouch s (slotPa s cell e.slot) (clusterOfCell cell)
  let h := slotOfWord (readMem s (slotPa s cell e.slot))
  let cleared (v : SlotVal) : LogEntry := { e with home := v, delta := SlotVal.cold, ev := 0 }
  if h.kind ≠ 0 ∧ h.kind ≠ e.delta.kind then
    ((s.modCell cell fun x => { x with lbClash := satN (x.lbClash + 1) 65535 }).count cell 17 7 e.ev, cleared h)
  else
    let v : SlotVal :=
      { kind := e.delta.kind, x := satN (h.x + e.delta.x) (2 ^ 24 - 1), y := satN (h.y + e.delta.y) (2 ^ 24 - 1),
        h := e.delta.h, mx := max h.mx e.delta.mx, av := e.delta.av }
    let s := engineWrite s (.mem (slotPa s cell e.slot)) (wordOfSlot v) true (0, threadOf s (33 * cell))
    (s.count cell 17 6 1, cleared v)

/-- Replaces the entry of a slot. -/
def putEntry (s : State) (cell : Nat) (e : LogEntry) : State :=
  s.modCell cell fun x => { x with log := x.log.map fun f => if f.slot = e.slot then e else f }

/-- Merges every entry that holds events (R268, R276). -/
def mergeAll (s : State) (cell : Nat) : State :=
  (s.cell cell).log.foldl (fun s e =>
    if e.ev > 0 && !e.fetching then (let (s, e) := mergeEntry s cell e; putEntry s cell e) else s) s

/-- An event meets its entry (R275, R276): a KIND clash drops it; the 4096th event merges. -/
def applyToEntry (s : State) (cell : Nat) (e : LogEntry) (ev : LogEvent) : State :=
  if (e.ev > 0 ∧ e.delta.kind ≠ ev.kind) ∨ (e.home.kind ≠ 0 ∧ e.home.kind ≠ ev.kind) then
    (s.modCell cell fun x => { x with lbClash := satN (x.lbClash + 1) 65535 }).count cell 17 7 1
  else
    let e := e.applyEvent ev
    if e.ev ≥ 4096 then (let (s, e) := mergeEntry s cell e; putEntry s cell e) else putEntry s cell e

/-- Makes room in a full logbook cache: an entry of the cell's choice leaves, merged when it holds events (R275). -/
def evictLog (s : State) (cell : Nat) : State :=
  let l := (s.cell cell).log
  if l.length < 32 then s
  else
    let free := l.filter fun e => !e.fetching
    match free[Config.logVictim s.fresh % max free.length 1]? with
    | none => s
    | some v =>
      let s := if v.ev > 0 then (mergeEntry s cell v).1 else s
      { s.modCell cell fun x => { x with log := x.log.filter fun e => e.slot != v.slot } with fresh := s.fresh + 1 }

/-- The entry of a slot, allocated with a fetch of HOME when it is absent (R275). -/
def findLog (s : State) (cell slot : Nat) : State × Option LogEntry :=
  match (s.cell cell).log.find? (·.slot == slot) with
  | some e => (s, some e)
  | none =>
    let s := evictLog s cell
    let e : LogEntry := { slot := slot, fetching := true, home := SlotVal.cold, delta := SlotVal.cold, ev := 0, waiting := [] }
    if (s.cell cell).log.length < 32 then (s.modCell cell fun x => { x with log := x.log ++ [e] }, some e) else (s, none)

/-- An event or a read reaches the logbook cache (R275): while HOME is being fetched it waits in order, and while every entry is
being fetched it waits for room; at an entry whose HOME is known it is served. -/
def logReach (s : State) (cell slot : Nat) (w : LogWait) (serve : State → LogEntry → State) : State :=
  let queue (s : State) : State := s.modCell cell fun x => { x with logQ := x.logQ ++ [(slot, w)] }
  if (s.cell cell).logQ.any (·.1 == slot) then queue s
  else
    let (s, r) := findLog s cell slot
    match r with
    | none => queue s
    | some e => if e.fetching then putEntry s cell { e with waiting := e.waiting ++ [w] } else serve s e

/-- An event reaches the logbook cache, for a slot below LBSLOTS (R274). -/
def logEvent (s : State) (cell slot : Nat) (ev : LogEvent) : State :=
  if slot ≥ fieldN (s.cell cell).winLen 32 27 then s else logReach s cell slot (.event ev) fun s e => applyToEntry s cell e ev

/-- Every event of the cell has met its entry: nothing waits for a fetch (R276, R279). -/
def logSettled (s : State) (cell : Nat) : Bool := (s.cell cell).logQ.isEmpty && !(s.cell cell).log.any (·.fetching)

/-- An event takes its place in the order of cycles and, in one cycle, of the A, C and M cores; one core's keep their order (R275). -/
def insertLate (e : LateEv) : List LateEv → List LateEv
  | [] => [e]
  | f :: r => if e.cyc < f.cyc ∨ (e.cyc = f.cyc ∧ e.core < f.core) then e :: f :: r else f :: insertLate e r

/-- The cycle of an event that comes to a core now: the present one, or the next where a later core of the cell has already acted. -/
def lateCycle (s : State) (core : Nat) : Nat :=
  if (List.range 3).any fun i => decide (core < core / 3 * 3 + i) && decide ((s.core (core / 3 * 3 + i)).cyc ≥ s.time) then s.time + 1 else s.time

/-- An instruction of a context completes outside its turns: its event reaches the cache in its core's place in the cycle (R275).
(DEDUCED, log 106.) -/
def logLate (s : State) (c slot : Nat) (ev : LogEvent) : State :=
  s.modCell (cellOf c) fun x =>
    { x with late := insertLate { cyc := lateCycle s (coreOf c), core := coreOf c, slot := slot, ev := ev } x.late }

/-- The events that came outside the cores' turns reach the cache, up to core k's place in the present cycle, or all of them (R275). -/
def flushLate (s : State) (cell : Nat) (k : Option Nat) : State :=
  let due (e : LateEv) : Bool := match k with
    | none => true
    | some k => decide (e.cyc < s.time) || (e.cyc == s.time && decide (e.core ≤ k))
  match (s.cell cell).late.filter due with
  | [] => s
  | l => l.foldl (fun s e => logEvent s cell e.slot e.ev) (s.modCell cell fun x => { x with late := x.late.filter fun e => !due e })

/-! ### Completing an instruction -/

/-- Where the PC goes when an instruction completes. -/
inductive NextPc where
  | fall                    -- the following word, with the loop-back step (R266)
  | fallLater               -- the same, when an access in flight carries the exit event of the loop that ends here (R275)
  | fallOwing (by_ : ClearBy)   -- the same, when the completion is still to come and the context keeps that event for it (R275)
  | jump (target : Word)    -- a taken branch, a jump or a return

/-- The word offset of an address from the kernel's code base (R265). -/
def wordOff (s : State) (c : Nat) (pc : Word) : Nat := (pc.toNat + 2 ^ 64 - (s.cell (cellOf c)).codeBase) % 2 ^ 64 / 4

/-- The address of a word offset. -/
def codeAddr (s : State) (c : Nat) (off : Nat) : Word := .ofNat 64 ((s.cell (cellOf c)).codeBase + 4 * off)

/-- The exit event of the loop that the completion of the context's instruction ends: its slot and trip (R266, R275). -/
def loopExit (s : State) (c : Nat) : Option (Nat × Nat) :=
  let x := s.ctx c
  if fieldN x.loopSl 25 1 = 1 ∧ wordOff s c x.pc = fieldN x.loopPc 32 32 ∧ fieldN x.loopCnt 0 32 ≤ 1 ∧ fieldN x.loopSl 24 1 = 1 then
    some (fieldN x.loopSl 0 24, fieldN x.loopCnt 32 32)
  else none

/-- Records a loop's exit. -/
def logExit (s : State) (cell : Nat) : Option (Nat × Nat) → State
  | none => s
  | some (slot, trip) => logEvent s cell slot (.loop trip)

/-- Records the exit of a loop whose last instruction completes outside its context's turns. -/
def exitLate (s : State) (c : Nat) : Option (Nat × Nat) → State
  | none => s
  | some (slot, trip) => logLate s c slot (.loop trip)

/-- `LoopBack` and fall-through (R266) for a context whose instruction at `pc` has completed. -/
def stepPc (s : State) (c : Nat) : State :=
  let x := s.ctx c
  if fieldN x.loopSl 25 1 = 1 ∧ wordOff s c x.pc = fieldN x.loopPc 32 32 then
    if fieldN x.loopCnt 0 32 > 1 then
      s.setCtx c { x with loopCnt := setField (setField x.loopCnt 0 32 (fieldN x.loopCnt 0 32 - 1)) 32 32 (fieldN x.loopCnt 32 32 + 1),
                          pc := codeAddr s c (fieldN x.loopPc 0 32) }
    else s.setCtx c { x with loopCnt := setField x.loopCnt 0 32 0, loopSl := setField x.loopSl 25 1 0, pc := x.pc + 4 }
  else s.setCtx c { x with pc := x.pc + 4 }

/-- Fall-through with the exit event of a loop that ends here (R266). -/
def fallThrough (s : State) (c : Nat) : State := logExit (stepPc s c) (cellOf c) (loopExit s c)

/-- The S bits of source fields as a set of registers (R219); s0 is never waited for and never cleared. -/
def sMask : List Nat → BitVec 32
  | [] => 0
  | a :: r => (if a ≥ 32 ∧ a % 32 ≠ 0 then 1#32 <<< (a % 32) else 0) ||| sMask r

/-- The hint latch is discarded (R229). -/
def Ctx.dropHints (x : Ctx) : Ctx := { x with hints := [], ignoring := false }

/-- An issued instruction consumes ARM (R216). -/
def Ctx.consumeArm (x : Ctx) : Ctx := { x with waypt := setField x.waypt 59 1 0 }

/-- An instruction of context c completes: full bits of its synchronised reads are cleared, then its register writes are
made, the latch is discarded, ARM is consumed and the PC moves (R216, R219, R229, R266). -/
def finish (s : State) (c : Nat) (m : BitVec 32) (f : Ctx → Ctx) (n : NextPc) : State :=
  let x := f ((s.ctx c).clearS m).consumeArm
  let x := { x.dropHints with arrived := false, bkSkip := false, ticket := none, midStop := false, walkErr := none }
  let s := s.count (cellOf c) 16 1 1
  match n with
  | .fall => fallThrough (s.setCtx c x) c
  | .fallLater => stepPc (s.setCtx c x) c
  | .fallOwing b => stepPc (s.setCtx c (x.owes b (loopExit (s.setCtx c x) c))) c
  | .jump t => s.setCtx c { x with pc := t, arrived := true }

/-- A context parked on a full bit that is now set becomes ELIGIBLE (R182). -/
def wakeRead (s : State) (c : Nat) : State :=
  let x := s.ctx c
  if x.stat = .parked ∧ x.park = .syncRead ∧ x.isFull x.parkNum then s.modCtx c Ctx.wake else s

/-- An instruction whose completion was still to come completes: the full bits that it held are cleared, its result is written, a read
that waits for it wakes, and the exit event of the loop that it ends is recorded (R182, R219, R275). -/
def lateDone (s : State) (c : Nat) (by_ : ClearBy) (f : Ctx → Ctx) : State :=
  let ev := (s.ctx c).owed by_
  let s := s.modCtx c fun x => let x := f (x.completes by_); { x with exits := x.exits.filter (·.1 != by_) }
  exitLate (wakeRead s c) c ev

/-- It ends with an error instead: the full bits stay set (R76, R219). -/
def lateAbandon (s : State) (c : Nat) (by_ : ClearBy) : State :=
  let ev := (s.ctx c).owed by_
  exitLate (s.modCtx c fun x => let x := x.abandons by_; { x with exits := x.exits.filter (·.1 != by_) }) c ev

/-- A read of the logbook gets its result: the register is written and the instruction completes (R219, R281). -/
def readView (s : State) (c d : Nat) (v : SlotVal) (r : LogRead) : State :=
  lateDone s c (.view d) fun x => if x.isBusy d then x.arrive d (r.value v) else x

/-- An event or a read meets an entry whose HOME is known. -/
def serveLog (s : State) (cell : Nat) (e : LogEntry) : LogWait → State
  | .event ev => applyToEntry s cell e ev
  | .read c d r => readView s c d e.view r

/-- What has waited at a slot reaches the cache. -/
def logAgain (s : State) (cell slot : Nat) (w : LogWait) : State := logReach s cell slot w fun s e => serveLog s cell e w

/-! ### Ordering (R106 to R108) -/

/-- A context's own accesses, tile writes included, have all ended (the waits of R107 apart from failed stores). -/
def drained (s : State) (c : Nat) : Bool :=
  !(s.accs.any (·.ctx == c)) && !((s.cell (cellOf c)).pend.any (·.ctx == c))

/-- An acquire of the context has not yet read its word; later accesses are held (R108). -/
def acqPending (s : State) (c : Nat) : Bool := s.accs.any fun a => a.ctx == c && a.acq

/-- `AcquireDone` on a core (R108). -/
def acquireDone (s : State) (core : Nat) : State := selfInvalidate s core

/-- A context acquires from a release: what that had before it now happens before what the context does next (R101, R108). -/
def acquireFrom (s : State) (c : Nat) (k : Clock) : State := acquireDone (learn s c k) (coreOf c)

/-- The waiting instruction reports its oldest failed store, as though the requester had found its fault (R25, R72). -/
def reportFailed (s : State) (c : Nat) (f : FailedStore) : State :=
  postFault s c ⟨f.cause, 0, 1, f.va, f.entry, f.aux⟩ true

/-- `ReleaseWait` (R107) at a turn: passes the turn while an access is outstanding, reports a failed store (R72), and
otherwise goes on. (DEDUCED, log 22.) -/
def releaseThen (s : State) (c : Nat) (k : State → State) : State :=
  if ¬ drained s c then s
  else match (s.ctx c).failed with
    | f :: _ => reportFailed s c f
    | [] => k s

/-! ### Halting and traps (R358 to R361) -/

/-- The first failure of a launch is what its report names: the context that failed first, by its trap or its STOP reply (R410). -/
def noteFailure (s : State) (c code fcause : Nat) : State :=
  match launchOf s (cellOf c) with
  | none => s
  | some l =>
    if l.fail.isSome then s
    else s.modHost fun h =>
      { h with launches := Map.put h.launches l.id { l with fail := some (code, fcause, (s.cell (cellOf c)).cellNo) } }

/-- A context that has halted with a failure is reported with its PC, cell, core and number (R360). -/
def tellFailure (s : State) (c code fcause : Nat) (pc : Word) : State :=
  match launchOf s (cellOf c) with
  | none => s
  | some l => s.emit (.failed l.id code fcause pc (s.cell (cellOf c)).cellNo (kindOf c).code (slotOf c))

/-- A pending halt takes place once `ReleaseWait` has ended (R42, R360). -/
def tryHalt (s : State) (c : Nat) : State :=
  match (s.ctx c).pendStop with
  | none => s
  | some r =>
    releaseThen s c fun s =>
      let s := match r with
        | .trapHalt code pc => tellFailure s c code 0 pc
        | .faultStop fc => tellFailure s c tcMemfault fc (s.ctx c).pc
      s.modCtx c fun x => { x with stat := .halted, pendStop := none, held := false }

/-- The TRCAUSE word of a trap (R356). -/
def causeWord (t : TrapReq) : Word :=
  .ofNat 64 (2 ^ 40 + (if t.late then 2 ^ 39 else 0) + t.reg % 32 * 2 ^ 34 + t.kind % 4 * 2 ^ 32 + t.fcause % 256 * 2 ^ 24
    + t.arg % 2 ^ 16 * 2 ^ 8 + t.code % 256)

/-- `TrapEntry` (R358) with the PC it reports: the trap registers, WAYPT and LOOPSL.ACTIVE, the latch, the handler; or
`TrapHalt` (R360). -/
def trapEntry (s : State) (c : Nat) (t : TrapReq) (pc : Word) : State :=
  let x := s.ctx c
  if fieldN x.trCause 40 1 = 1 ∨ x.trVec = 0 then
    tryHalt ((noteFailure s c t.code 0).setCtx c
      { x.dropHints with pc := pc, arrived := false, walkErr := none, pendStop := some (.trapHalt t.code pc) }) c
  else
    s.setCtx c { x.dropHints with
      trCause := causeWord t, trPc := pc, trVa := t.va, trWay := x.waypt, waypt := 0, trLoop := x.loopSl,
      loopSl := setField x.loopSl 25 1 0, pc := .ofNat 64 (x.trVec.toNat / 4 * 4), arrived := true, bkSkip := false, ticket := none, midStop := false,
      walkErr := none }

/-- A trap that the running instruction raises: taken at once, with the PC of its unit (R229). (DEDUCED, log 5.) (DEDUCED, log 75.) -/
def trapNow (s : State) (c code : Nat) (va : Word) (kind : Nat) : State :=
  trapEntry s c { code := code, pc := none, va := va, kind := kind, fcause := 0, arg := 0, late := false, reg := 0 }
    (s.ctx c).groupPc

/-- A trap before any effect that leaves WAYPT as it stands (R209, R231). -/
def trapPlain (s : State) (c code : Nat) : State := trapNow s c code 0 0

/-- A trap of an issued instruction, which has consumed ARM (R216) and counts as issued (R405). -/
def trapIssued (s : State) (c code : Nat) (va : Word) (kind : Nat) : State :=
  trapNow ((s.count (cellOf c) 16 1 1).modCtx c Ctx.consumeArm) c code va kind

/-- What WAYPT holds of a word written to it: KIND, ARM and POS; reserved bits read 0 (R16, R212). -/
def wayptOf (w : Word) : Word := setField w 16 43 0

/-- What LOOPSL holds of a word written to it: reserved bits read 0 (R16, R265). -/
def loopSlOf (w : Word) : Word := setField w 26 38 0

/-- `eret` (R359). -/
def trapReturn (s : State) (c : Nat) : State :=
  let x := s.ctx c
  if fieldN x.trCause 40 1 = 0 then trapIssued s c tcSysArg 0 0
  else (s.count (cellOf c) 16 1 1).setCtx c { x.dropHints with
    waypt := wayptOf x.trWay, loopSl := loopSlOf x.trLoop, trCause := setField x.trCause 40 1 0, pc := .ofNat 64 (x.trPc.toNat / 4 * 4),
    arrived := true, bkSkip := false, walkErr := none }

/-- A fault of the running instruction (R40): posted, with ARM consumed. -/
def faultNow (s : State) (c : Nat) (f : FaultInfo) : State := postFault (s.modCtx c Ctx.consumeArm) c f false

/-! ### The gate (R219, R231, R232, R237, R238) -/

/-- What an instruction asks of its context before it executes: its opcode, the core that owns it, whether a TA field
names an accumulator, whether its fields are legal, its source fields (bit 5 the S bit), and the registers it reads or
writes plainly. -/
structure Gate where
  op    : Nat
  owner : Option CoreKind
  ta    : Bool
  legal : Bool
  srcs  : List Nat
  plain : List Nat

/-- `FeatHidden` (R237): a virtual function's mask hides the opcode. The bits of ERET, NOP and HINT have no effect. -/
def featHidden (s : State) (c op : Nat) : Bool :=
  let vf := ptVf (s.cell (cellOf c)).ptRoot
  op != 0x73 && op != 0x7B && op != 0x7F && s.featHides vf (2 + op / 64) (op % 64)

/-- What the gate decides. -/
inductive GateRes where
  | trap (code : Nat) | wait | park (reg : Nat) | pass
deriving DecidableEq, Repr

/-- The checks of `Decode` in their order (R231), then the waits on registers (R105, R219). (DEDUCED, log 15.) -/
def gateRes (s : State) (c : Nat) (g : Gate) : GateRes :=
  let x := s.ctx c
  if featHidden s c g.op then .trap tcIllegalOp
  else if g.owner ≠ none ∧ g.owner ≠ some (kindOf c) then .trap tcIllegalEngine
  else if g.ta ∧ kindOf c ≠ .a then .trap tcIllegalEngine
  else if ¬ g.legal then .trap tcIllegalOp
  else match g.srcs.find? fun a => a ≥ 32 && !x.isFull (a % 32) with
    | some a => .park (a % 32)
    | none => if g.srcs.any (fun a => x.isBusy (a % 32)) || g.plain.any (fun r => x.isBusy r) then .wait else .pass

/-- A synchronised read of a token register that an operation filled observes it complete and acquires (R106, R139). -/
def observe (s : State) (c : Nat) (m : BitVec 32) : State :=
  let x := s.ctx c
  let ops := (x.filled.filter fun e => m.getLsbD e.1).map (·.2)
  if ops = [] then s
  else acquireDone ((noteSeen s c ops).setCtx c { x with seen := ops ++ x.seen.filter (fun o => !ops.contains o) }) (coreOf c)

/-- The gate: a trap, a wait that passes the turn, a park, or the instruction's own effect. -/
def gated (s : State) (g : Gate) (k : State → State) : State :=
  match gateRes s s.cur g with
  | .trap code => trapPlain s s.cur code
  | .wait => s
  | .park r => parkFor s s.cur .syncRead r
  | .pass => k (observe s s.cur (sMask g.srcs))

/-! ### Waking parked contexts (R182) -/

/-- The context of a cell that parked first for a cause and number (R114, R115). -/
def firstParked (s : State) (cell : Nat) (cause : ParkCause) (num : Nat) : Option Nat :=
  (ctxsOfCell cell).foldl (fun best c =>
    let x := s.ctx c
    if x.stat = .parked ∧ x.park = cause ∧ x.parkNum = num then
      match best with
      | none => some c
      | some b => if x.parkSeq < (s.ctx b).parkSeq then some c else some b
    else best) none

/-- Those of some contexts that are parked for a cause and number become ELIGIBLE and issue their instruction again. -/
def wakeAll (s : State) (l : List Nat) (cause : ParkCause) (num : Nat) : State :=
  l.foldl (fun s c => if (s.ctx c).park = cause ∧ (s.ctx c).parkNum = num then s.modCtx c Ctx.wake else s) s

/-- The instruction at which a context parked completes: the context is ELIGIBLE after it. (DESIGN CHOICE, log 72.) -/
def completeParked (s : State) (c : Nat) (m : BitVec 32 := 0) : State := finish (s.modCtx c Ctx.wake) c m id .fall

/-! ### The request send queue (R182, R199) -/

/-- Goes on when an entry of the context's send queue is free, else parks (R182). -/
def withEntry (s : State) (k : State → State) : State :=
  if sendUsed s (coreOf s.cur) ≥ 16 then parkFor s s.cur .sendQueue 0 else k s

/-- An entry of a core's send queue frees: the contexts of that core that wait for one look again (R182). -/
def entryFrees (s : State) (core : Nat) : State := wakeAll s (ctxsOfCore core) .sendQueue 0

end Sys2Proof.Machine
end

