-- ==== Sys2Proof/Machine/Operands.lean ====
section
/-! DEFINITION. Operand forms: source fields, immediates widened by a hint group, the rounding mode and log slot of the
group, and the memory operands of R239 and R224. -/

namespace Sys2Proof.Machine

/-! ### Source fields (R219) -/

/-- The number of a source field: bit 5 is the S bit. -/
def fieldOf (a : BitVec 6) : Nat := a.toNat

/-- The value of a source field. -/
def Ctx.src (x : Ctx) (a : BitVec 6) : Word := x.reg (a.toNat % 32)

/-- The value of a plain register field. -/
def Ctx.plain (x : Ctx) (a : BitVec 5) : Word := x.reg a.toNat

/-- The two values of a register pair (R224, R348). -/
def Ctx.pair (x : Ctx) (a : BitVec 6) : Word × Word := (x.reg (a.toNat % 32), x.reg (a.toNat % 32 + 1))

/-! ### What a hint group supplies (R154, R155, R226 to R228, R274) -/

/-- The payloads of the group's `hint.imm` words, most significant first. -/
def immHints : List HintRec → List (BitVec 22)
  | [] => []
  | h :: r => match h.hint with
    | .imm p => p :: immHints r
    | _ => immHints r

/-- The concatenation of payloads. -/
def catHints (acc : Nat) : List (BitVec 22) → Nat
  | [] => acc
  | p :: r => catHints (acc * 2 ^ 22 + p.toNat) r

/-- The immediate of a field f of width w (R228), as an integer before scaling. -/
def Ctx.imm {w : Nat} (x : Ctx) (f : BitVec w) : Int :=
  let ps := immHints x.hints
  let n := 22 * ps.length + w
  let v := catHints 0 ps * 2 ^ w + f.toNat
  if n ≤ 64 then signedN v n else ((v % 2 ^ 64 : Nat) : Int)

/-- The rounding mode that the group's last `hint.mod` names, or RNE (R154, R155). -/
def roundMode : List HintRec → RMode
  | [] => .rne
  | h :: r =>
    match h.hint with
    | .mod m => if r.any (fun g => match g.hint with | .mod _ => true | _ => false) then roundMode r else .ofCode m
    | _ => roundMode r

/-- The code of a rounding mode (R154). -/
def RMode.code : RMode → Nat
  | .rne => 0 | .rtz => 1 | .rup => 2 | .rdn => 3

/-- The group's rounding mode. -/
def Ctx.rmode (x : Ctx) : RMode := roundMode x.hints

/-- The slot of the group's last `hint.log`. -/
def lastLog (o : Option Nat) : List HintRec → Option Nat
  | [] => o
  | h :: r => match h.hint with
    | .log n => lastLog (some n) r
    | _ => lastLog o r

/-- ALLOC of the group's last `hint.sched` (R225, R227). -/
def lastAlloc (o : Nat) : List HintRec → Nat
  | [] => o
  | h :: r => match h.hint with
    | .sched a => lastAlloc a r
    | _ => lastAlloc o r

/-- The log slot that the instruction binds, below WINLEN.LBSLOTS (R226, R274). -/
def logSlot (s : State) (c : Nat) : Option Nat :=
  match lastLog none (s.ctx c).hints with
  | some n => if n < fieldN (s.cell (cellOf c)).winLen 32 27 then some n else none
  | none => none

/-! ### Addresses (R222, R224, R239) -/

/-- `[sA + off]`: the immediate is scaled by the access size (R222). -/
def Ctx.addrImm (x : Ctx) (base : Word) (i : BitVec 14) (n : Nat) : Word := base + wordOfInt (x.imm i * n)

/-- The size in bytes of a size code z (R251). -/
def sizeOf4 (z : Nat) : Nat := 2 ^ (z % 4)

/-- A memory operand whose resource checks have been made: an address, or the fault of the checks (R37, R239). -/
abbrev MemOperand := Except FaultInfo Word

/-- The alignment check, after the resource checks and before the others (R239). -/
def withAddr (s : State) (m : MemOperand) (n : Nat) (kind : AccessKind) (k : Word → State) : State :=
  match m with
  | .error f => faultNow s s.cur f
  | .ok va => if va.toNat % n ≠ 0 then trapIssued s s.cur tcMisalign va kind.code else k va

/-- The base or first address of a TM operand (R224): a scaled base, or an offset within a manifest entry; `n` is the size
that the resource checks use. -/
def tmOperand (s : State) (a : BitVec 6) (r : BitVec 1) (i : BitVec 8) (off : Word) (bytes : Nat) (k : AccessKind) : MemOperand :=
  let x := s.me
  if r.toNat = 0 then .ok (x.src a + wordOfInt (x.imm i * 64) + off)
  else resAddr s s.cur i.toNat (x.src a + off) bytes k

end Sys2Proof.Machine
end

