-- ==== Sys2Proof/Machine/Flags.lean ====
section
/-! DEFINITION. The machine has no condition flags (R246, R263): a comparison writes 0 or 1 into a register, and a branch
tests one register. This file holds those relations and the bits that a context keeps about its registers: the full bits
and the outstanding destinations (R105, R219). -/

namespace Sys2Proof.Machine

/-- The relations of CMP (R246). -/
inductive Rel where
  | eq | ne | ltI | geI | ltN | geN
deriving DecidableEq, Repr

/-- Whether a relation holds between two words (R246). -/
def Rel.holds (r : Rel) (x y : Word) : Bool :=
  match r with
  | .eq => x == y
  | .ne => x != y
  | .ltI => decide (x.toInt < y.toInt)
  | .geI => decide (y.toInt ≤ x.toInt)
  | .ltN => decide (x.toNat < y.toNat)
  | .geN => decide (y.toNat ≤ x.toNat)

/-- A truth value as a register word. -/
def boolWord (b : Bool) : Word := if b then 1 else 0

/-- The relations of FCMP (R249). -/
inductive FRel where
  | eq | ne | lt | le
deriving DecidableEq, Repr

/-- Whether an F32 relation holds (R156): with a NaN only `ne` holds, and zeros are equal. -/
def FRel.holds (r : FRel) (x y : FVal) : Bool :=
  match r with
  | .eq => FVal.eq x y
  | .ne => !FVal.eq x y
  | .lt => FVal.lt x y
  | .le => FVal.lt x y || FVal.eq x y

/-- The conditions of the branches on one register (R263). -/
inductive Cond where
  | eqz | nez | ltz | gez
deriving DecidableEq, Repr

/-- Whether a condition holds (R263). -/
def Cond.holds (k : Cond) (x : Word) : Bool :=
  match k with
  | .eqz => x == 0
  | .nez => x != 0
  | .ltz => decide (x.toInt < 0)
  | .gez => decide (0 ≤ x.toInt)

end Sys2Proof.Machine
end

