-- ==== Sys2Proof/Machine/ScalarAlu.lean ====
section
/-! DEFINITION. The scalar integer instructions (R241 to R248): OPR, ADDI to XORI, SHI, UNARY, CMP, SEL, BFX and BFI. -/

namespace Sys2Proof.Machine

/-! ### Results (R242 to R248) -/

/-- `TDiv` (R242): the quotient rounded towards zero. -/
def tdivI (p q : Int) : Int :=
  let t : Int := ((p.natAbs / q.natAbs : Nat) : Int)
  if (decide (p < 0)) != (decide (q < 0)) then -t else t

/-- Signed quotient (R242). -/
def divISem (x y : Word) : Word := if y = 0 then wordOfInt (-1) else wordOfInt (tdivI x.toInt y.toInt)

/-- Signed remainder (R242). -/
def remISem (x y : Word) : Word := if y = 0 then x else wordOfInt (x.toInt - tdivI x.toInt y.toInt * y.toInt)

/-- Unsigned quotient (R242). -/
def divNSem (x y : Word) : Word := if y = 0 then BitVec.allOnes 64 else .ofNat 64 (x.toNat / y.toNat)

/-- Unsigned remainder (R242). -/
def remNSem (x y : Word) : Word := if y = 0 then x else .ofNat 64 (x.toNat % y.toNat)

/-- The upper half of the signed product (R242). -/
def mulhISem (x y : Word) : Word := wordOfInt ((x.toInt * y.toInt).fdiv (2 ^ 64))

/-- The upper half of the unsigned product (R242). -/
def mulhNSem (x y : Word) : Word := .ofNat 64 (x.toNat * y.toNat / 2 ^ 64)

/-- Shift and rotate amounts are taken modulo 64 (R242). -/
def shlSem (x : Word) (k : Nat) : Word := .ofNat 64 (x.toNat * 2 ^ (k % 64))
/-- `srl` (R242). -/
def shrSem (x : Word) (k : Nat) : Word := .ofNat 64 (x.toNat / 2 ^ (k % 64))
/-- `sra` (R242). -/
def sarSem (x : Word) (k : Nat) : Word := wordOfInt (x.toInt.fdiv ((2 ^ (k % 64) : Nat) : Int))
/-- `rol` (R242). -/
def rolSem (x : Word) (k : Nat) : Word := .ofNat 64 (x.toNat * 2 ^ (k % 64) + x.toNat / 2 ^ (64 - k % 64))
/-- `ror` (R242). -/
def rorSem (x : Word) (k : Nat) : Word := .ofNat 64 (x.toNat / 2 ^ (k % 64) + x.toNat * 2 ^ (64 - k % 64))

/-- Signed minimum. -/
def minISem (x y : Word) : Word := if x.toInt ≤ y.toInt then x else y
/-- Signed maximum. -/
def maxISem (x y : Word) : Word := if x.toInt ≤ y.toInt then y else x
/-- Unsigned minimum. -/
def minNSem (x y : Word) : Word := if x.toNat ≤ y.toNat then x else y
/-- Unsigned maximum. -/
def maxNSem (x y : Word) : Word := if x.toNat ≤ y.toNat then y else x

/-- The length of a number in bits. -/
def bitLen (n : Nat) : Nat := if n = 0 then 0 else Nat.log2 n + 1

/-- Leading zero bits (R245). -/
def clzSem (x : Word) : Word := .ofNat 64 (64 - bitLen x.toNat)

/-- The number of low zero bits, at most `fuel`. -/
def lowZeros (n : Nat) : Nat → Nat
  | 0 => 0
  | k + 1 => if n % 2 = 1 then 0 else 1 + lowZeros (n / 2) k

/-- Trailing zero bits (R245). -/
def ctzSem (x : Word) : Word := .ofNat 64 (lowZeros x.toNat 64)

/-- The number of set bits among the low `fuel`. -/
def countOnes (n : Nat) : Nat → Nat
  | 0 => 0
  | k + 1 => n % 2 + countOnes (n / 2) k

/-- Set bits (R245). -/
def popcSem (x : Word) : Word := .ofNat 64 (countOnes x.toNat 64)

/-- `Signed(x, 8n)` (R245). -/
def sextSem (n : Nat) (x : Word) : Word := wordOfInt (signedN x.toNat (8 * n))
/-- `Wrap(x, 8n)` (R245). -/
def zextSem (n : Nat) (x : Word) : Word := .ofNat 64 (wrapN x.toNat (8 * n))

/-! ### Shared shapes -/

/-- A gate that any core passes, with source fields and the destination (R219, R230). -/
def anyGate (op : Nat) (legal : Bool) (srcs : List Nat) (plain : List Nat) : Gate :=
  { op := op, owner := none, ta := false, legal := legal, srcs := srcs, plain := plain }

/-- Completes with a result in d (R238). -/
def finishReg (s : State) (m : BitVec 32) (d : BitVec 5) (v : Word) : State :=
  finish s s.cur m (fun x => x.setS d.toNat v) .fall

/-- A two-source register instruction. -/
def opRR (op : Nat) (d : BitVec 5) (a b : BitVec 6) (f : Word → Word → Word) (s : State) : State :=
  let g := anyGate op true [fieldOf a, fieldOf b] [d.toNat]
  gated s g fun s => finishReg s (sMask g.srcs) d (f (s.me.src a) (s.me.src b))

/-- A one-source register instruction. -/
def opR (op : Nat) (d : BitVec 5) (a : BitVec 6) (f : Word → Word) (s : State) : State :=
  let g := anyGate op true [fieldOf a] [d.toNat]
  gated s g fun s => finishReg s (sMask g.srcs) d (f (s.me.src a))

/-- A register and immediate instruction; the hint group may widen the immediate (R228, R243). -/
def opRI (op : Nat) (d : BitVec 5) (a : BitVec 6) (i : BitVec 14) (f : Word → Word → Word) (s : State) : State :=
  let g := anyGate op true [fieldOf a] [d.toNat]
  gated s g fun s => finishReg s (sMask g.srcs) d (f (s.me.src a) (wordOfInt (s.me.imm i)))

/-- A division in progress (R242): DIVIDE_COMPLETE writes its result; one to s0 has none to write. -/
def opDiv (d : BitVec 5) (a b : BitVec 6) (f : Word → Word → Word) (s : State) : State :=
  let g := anyGate 0x01 true [fieldOf a, fieldOf b] [d.toNat]
  gated s g fun s =>
    let v := f (s.me.src a) (s.me.src b)
    finish s s.cur (if d = 0 then sMask g.srcs else 0)
      (fun x => if d = 0 then x
        else { (x.setBusy d.toNat).hold (.div d.toNat) (sMask g.srcs) with divs := (d.toNat, v) :: x.divs })
      (if d = 0 then .fall else .fallOwing (.div d.toNat))

/-! ### Meanings -/

/-- ADD: x + y (R242). -/
def execAdd (d : BitVec 5) (a b : BitVec 6) (s : State) : Host.Outcome State Fault Refusal :=
  .next (opRR 0x01 d a b (fun x y => x + y) s)

/-- SUB: x - y (R242). -/
def execSub (d : BitVec 5) (a b : BitVec 6) (s : State) : Host.Outcome State Fault Refusal :=
  .next (opRR 0x01 d a b (fun x y => x - y) s)

/-- MUL: the low 64 bits of x × y (R242). -/
def execMul (d : BitVec 5) (a b : BitVec 6) (s : State) : Host.Outcome State Fault Refusal :=
  .next (opRR 0x01 d a b (fun x y => x * y) s)

/-- MULH_I: (Signed(x) × Signed(y)) div 2^64 (R242). -/
def execMulhI (d : BitVec 5) (a b : BitVec 6) (s : State) : Host.Outcome State Fault Refusal :=
  .next (opRR 0x01 d a b mulhISem s)

/-- MULH_N: (x × y) div 2^64 (R242). -/
def execMulhN (d : BitVec 5) (a b : BitVec 6) (s : State) : Host.Outcome State Fault Refusal :=
  .next (opRR 0x01 d a b mulhNSem s)

/-- DIV_I: the signed quotient (R242). -/
def execDivI (d : BitVec 5) (a b : BitVec 6) (s : State) : Host.Outcome State Fault Refusal :=
  .next (opDiv d a b divISem s)

/-- DIV_N: the unsigned quotient (R242). -/
def execDivN (d : BitVec 5) (a b : BitVec 6) (s : State) : Host.Outcome State Fault Refusal :=
  .next (opDiv d a b divNSem s)

/-- REM_I: the signed remainder (R242). -/
def execRemI (d : BitVec 5) (a b : BitVec 6) (s : State) : Host.Outcome State Fault Refusal :=
  .next (opDiv d a b remISem s)

/-- REM_N: the unsigned remainder (R242). -/
def execRemN (d : BitVec 5) (a b : BitVec 6) (s : State) : Host.Outcome State Fault Refusal :=
  .next (opDiv d a b remNSem s)

/-- AND (R242). -/
def execAnd (d : BitVec 5) (a b : BitVec 6) (s : State) : Host.Outcome State Fault Refusal :=
  .next (opRR 0x01 d a b (fun x y => x &&& y) s)

/-- OR (R242). -/
def execOr (d : BitVec 5) (a b : BitVec 6) (s : State) : Host.Outcome State Fault Refusal :=
  .next (opRR 0x01 d a b (fun x y => x ||| y) s)

/-- XOR (R242). -/
def execXor (d : BitVec 5) (a b : BitVec 6) (s : State) : Host.Outcome State Fault Refusal :=
  .next (opRR 0x01 d a b (fun x y => x ^^^ y) s)

/-- SLL: x × 2^(y mod 64) (R242). -/
def execSll (d : BitVec 5) (a b : BitVec 6) (s : State) : Host.Outcome State Fault Refusal :=
  .next (opRR 0x01 d a b (fun x y => shlSem x y.toNat) s)

/-- SRL: x div 2^(y mod 64) (R242). -/
def execSrl (d : BitVec 5) (a b : BitVec 6) (s : State) : Host.Outcome State Fault Refusal :=
  .next (opRR 0x01 d a b (fun x y => shrSem x y.toNat) s)

/-- SRA: Signed(x) div 2^(y mod 64) (R242). -/
def execSra (d : BitVec 5) (a b : BitVec 6) (s : State) : Host.Outcome State Fault Refusal :=
  .next (opRR 0x01 d a b (fun x y => sarSem x y.toNat) s)

/-- ROL (R242). -/
def execRol (d : BitVec 5) (a b : BitVec 6) (s : State) : Host.Outcome State Fault Refusal :=
  .next (opRR 0x01 d a b (fun x y => rolSem x y.toNat) s)

/-- ROR (R242). -/
def execRor (d : BitVec 5) (a b : BitVec 6) (s : State) : Host.Outcome State Fault Refusal :=
  .next (opRR 0x01 d a b (fun x y => rorSem x y.toNat) s)

/-- MIN_I (R242). -/
def execMinI (d : BitVec 5) (a b : BitVec 6) (s : State) : Host.Outcome State Fault Refusal :=
  .next (opRR 0x01 d a b minISem s)

/-- MAX_I (R242). -/
def execMaxI (d : BitVec 5) (a b : BitVec 6) (s : State) : Host.Outcome State Fault Refusal :=
  .next (opRR 0x01 d a b maxISem s)

/-- MIN_N (R242). -/
def execMinN (d : BitVec 5) (a b : BitVec 6) (s : State) : Host.Outcome State Fault Refusal :=
  .next (opRR 0x01 d a b minNSem s)

/-- MAX_N (R242). -/
def execMaxN (d : BitVec 5) (a b : BitVec 6) (s : State) : Host.Outcome State Fault Refusal :=
  .next (opRR 0x01 d a b maxNSem s)

/-- DIVIDE_COMPLETE: a division of context c ends and writes its result (R242, R275). -/
def execDivideComplete (c r : Nat) (s : State) : Host.Outcome State Fault Refusal :=
  .next (match (s.ctx c).divs.find? (·.1 == r) with
    | none => s
    | some (_, v) => lateDone s c (.div r) fun x => { x.arrive r v with divs := x.divs.filter (·.1 != r) })

/-- CLZ (R245). -/
def execClz (d : BitVec 5) (a : BitVec 6) (s : State) : Host.Outcome State Fault Refusal :=
  .next (opR 0x02 d a clzSem s)

/-- CTZ (R245). -/
def execCtz (d : BitVec 5) (a : BitVec 6) (s : State) : Host.Outcome State Fault Refusal :=
  .next (opR 0x02 d a ctzSem s)

/-- POPC (R245). -/
def execPopc (d : BitVec 5) (a : BitVec 6) (s : State) : Host.Outcome State Fault Refusal :=
  .next (opR 0x02 d a popcSem s)

/-- SEXT_1 (R245). -/
def execSext1 (d : BitVec 5) (a : BitVec 6) (s : State) : Host.Outcome State Fault Refusal :=
  .next (opR 0x02 d a (sextSem 1) s)

/-- SEXT_2 (R245). -/
def execSext2 (d : BitVec 5) (a : BitVec 6) (s : State) : Host.Outcome State Fault Refusal :=
  .next (opR 0x02 d a (sextSem 2) s)

/-- SEXT_4 (R245). -/
def execSext4 (d : BitVec 5) (a : BitVec 6) (s : State) : Host.Outcome State Fault Refusal :=
  .next (opR 0x02 d a (sextSem 4) s)

/-- ZEXT_1 (R245). -/
def execZext1 (d : BitVec 5) (a : BitVec 6) (s : State) : Host.Outcome State Fault Refusal :=
  .next (opR 0x02 d a (zextSem 1) s)

/-- ZEXT_2 (R245). -/
def execZext2 (d : BitVec 5) (a : BitVec 6) (s : State) : Host.Outcome State Fault Refusal :=
  .next (opR 0x02 d a (zextSem 2) s)

/-- ZEXT_4 (R245). -/
def execZext4 (d : BitVec 5) (a : BitVec 6) (s : State) : Host.Outcome State Fault Refusal :=
  .next (opR 0x02 d a (zextSem 4) s)

/-- CmpEq: 1 when the relation holds, else 0 (R246). -/
def execCmpEq (d : BitVec 5) (a b : BitVec 6) (s : State) : Host.Outcome State Fault Refusal :=
  .next (opRR 0x03 d a b (fun x y => boolWord (Rel.holds .eq x y)) s)

/-- CmpNe: 1 when the relation holds, else 0 (R246). -/
def execCmpNe (d : BitVec 5) (a b : BitVec 6) (s : State) : Host.Outcome State Fault Refusal :=
  .next (opRR 0x03 d a b (fun x y => boolWord (Rel.holds .ne x y)) s)

/-- CmpLtI: 1 when the relation holds, else 0 (R246). -/
def execCmpLtI (d : BitVec 5) (a b : BitVec 6) (s : State) : Host.Outcome State Fault Refusal :=
  .next (opRR 0x03 d a b (fun x y => boolWord (Rel.holds .ltI x y)) s)

/-- CmpGeI: 1 when the relation holds, else 0 (R246). -/
def execCmpGeI (d : BitVec 5) (a b : BitVec 6) (s : State) : Host.Outcome State Fault Refusal :=
  .next (opRR 0x03 d a b (fun x y => boolWord (Rel.holds .geI x y)) s)

/-- CmpLtN: 1 when the relation holds, else 0 (R246). -/
def execCmpLtN (d : BitVec 5) (a b : BitVec 6) (s : State) : Host.Outcome State Fault Refusal :=
  .next (opRR 0x03 d a b (fun x y => boolWord (Rel.holds .ltN x y)) s)

/-- CmpGeN: 1 when the relation holds, else 0 (R246). -/
def execCmpGeN (d : BitVec 5) (a b : BitVec 6) (s : State) : Host.Outcome State Fault Refusal :=
  .next (opRR 0x03 d a b (fun x y => boolWord (Rel.holds .geN x y)) s)

/-- SEL: all three sources are read; S(c) chooses (R247). -/
def execSel (d : BitVec 5) (a b c : BitVec 6) (s : State) : Host.Outcome State Fault Refusal :=
  let g := anyGate 0x04 true [fieldOf a, fieldOf b, fieldOf c] [d.toNat]
  .next (gated s g fun s =>
    finishReg s (sMask g.srcs) d (if s.me.src c = 0 then s.me.src b else s.me.src a))

/-- BFX: S(a)[pos+w-1:pos], zero-extended (R248). -/
def execBfx (d : BitVec 5) (a p l : BitVec 6) (s : State) : Host.Outcome State Fault Refusal :=
  let g := anyGate 0x05 (decide (p.toNat + l.toNat + 1 ≤ 64)) [fieldOf a] [d.toNat]
  .next (gated s g fun s =>
    finishReg s (sMask g.srcs) d (.ofNat 64 (fieldN (s.me.src a) p.toNat (l.toNat + 1))))

/-- BFI: the bits of d at pos are replaced by S(a)[w-1:0]; d is read plainly (R248). -/
def execBfi (d : BitVec 5) (a p l : BitVec 6) (s : State) : Host.Outcome State Fault Refusal :=
  let g := anyGate 0x06 (decide (p.toNat + l.toNat + 1 ≤ 64)) [fieldOf a] [d.toNat]
  .next (gated s g fun s =>
    finishReg s (sMask g.srcs) d (setField (s.me.plain d) p.toNat (l.toNat + 1) (s.me.src a).toNat))

/-- ADDI: the immediate is sign-extended, or the wide immediate of the hint group (R228, R243). -/
def execAddi (d : BitVec 5) (a : BitVec 6) (i : BitVec 14) (s : State) : Host.Outcome State Fault Refusal :=
  .next (opRI 0x09 d a i (fun x y => x + y) s)

/-- ANDI: the immediate is sign-extended, or the wide immediate of the hint group (R228, R243). -/
def execAndi (d : BitVec 5) (a : BitVec 6) (i : BitVec 14) (s : State) : Host.Outcome State Fault Refusal :=
  .next (opRI 0x0A d a i (fun x y => x &&& y) s)

/-- ORI: the immediate is sign-extended, or the wide immediate of the hint group (R228, R243). -/
def execOri (d : BitVec 5) (a : BitVec 6) (i : BitVec 14) (s : State) : Host.Outcome State Fault Refusal :=
  .next (opRI 0x0B d a i (fun x y => x ||| y) s)

/-- XORI: the immediate is sign-extended, or the wide immediate of the hint group (R228, R243). -/
def execXori (d : BitVec 5) (a : BitVec 6) (i : BitVec 14) (s : State) : Host.Outcome State Fault Refusal :=
  .next (opRI 0x0C d a i (fun x y => x ^^^ y) s)

/-- SLLI: the amount stands in the word (R244). -/
def execSlli (d : BitVec 5) (a n : BitVec 6) (s : State) : Host.Outcome State Fault Refusal :=
  .next (opR 0x0D d a (fun x => shlSem x n.toNat) s)

/-- SRLI: the amount stands in the word (R244). -/
def execSrli (d : BitVec 5) (a n : BitVec 6) (s : State) : Host.Outcome State Fault Refusal :=
  .next (opR 0x0D d a (fun x => shrSem x n.toNat) s)

/-- SRAI: the amount stands in the word (R244). -/
def execSrai (d : BitVec 5) (a n : BitVec 6) (s : State) : Host.Outcome State Fault Refusal :=
  .next (opR 0x0D d a (fun x => sarSem x n.toNat) s)

/-- ROLI: the amount stands in the word (R244). -/
def execRoli (d : BitVec 5) (a n : BitVec 6) (s : State) : Host.Outcome State Fault Refusal :=
  .next (opR 0x0D d a (fun x => rolSem x n.toNat) s)

/-- RORI: the amount stands in the word (R244). -/
def execRori (d : BitVec 5) (a n : BitVec 6) (s : State) : Host.Outcome State Fault Refusal :=
  .next (opR 0x0D d a (fun x => rorSem x n.toNat) s)

end Sys2Proof.Machine
end

