-- ==== Sys2Proof/Machine/ScalarFloat.lean ====
section
/-! DEFINITION. The scalar F32 instructions (R249, R250): exact arithmetic rounded once in the hint group's mode. -/

namespace Sys2Proof.Machine

/-- `AsF32(x)` (R238): the value of the F32 pattern in bits [31:0]. -/
def asF32 (x : Word) : FVal := f32.decode (x.toNat % 2 ^ 32)

/-- Rounds a value into a format, zero-extended to 64 bits (R238, R249). -/
def roundWord (f : FFmt) (mode : RMode) (v : FVal) : Word := .ofNat 64 (f.round mode v)

/-- Round(AsF32(x) + AsF32(y), F32, mode). -/
def faddSem (mode : RMode) (x y : Word) : Word := roundWord f32 mode (FVal.add mode (asF32 x) (asF32 y))

/-- Round(AsF32(x) × AsF32(y), F32, mode). -/
def fmulSem (mode : RMode) (x y : Word) : Word := roundWord f32 mode (FVal.mul (asF32 x) (asF32 y))

/-- Round(AsF32(x) × AsF32(y) + AsF32(z), F32, mode), with one rounding (R172, R250). -/
def ffmaSem (mode : RMode) (x y z : Word) : Word :=
  roundWord f32 mode (FVal.add mode (FVal.mul (asF32 x) (asF32 y)) (asF32 z))

/-- A two-source F32 instruction in the group's rounding mode (R155). -/
def opFF (d : BitVec 5) (a b : BitVec 6) (f : RMode → Word → Word → Word) (s : State) : State :=
  let g := anyGate 0x07 true [fieldOf a, fieldOf b] [d.toNat]
  gated s g fun s => finishReg s (sMask g.srcs) d (f s.me.rmode (s.me.src a) (s.me.src b))

/-- A conversion in the group's rounding mode (R155). -/
def opF (d : BitVec 5) (a : BitVec 6) (f : RMode → Word → Word) (s : State) : State :=
  let g := anyGate 0x07 true [fieldOf a] [d.toNat]
  gated s g fun s => finishReg s (sMask g.srcs) d (f s.me.rmode (s.me.src a))

/-- FADD (R249). -/
def execFadd (d : BitVec 5) (a b : BitVec 6) (s : State) : Host.Outcome State Fault Refusal :=
  .next (opFF d a b faddSem s)

/-- FMUL (R249). -/
def execFmul (d : BitVec 5) (a b : BitVec 6) (s : State) : Host.Outcome State Fault Refusal :=
  .next (opFF d a b fmulSem s)

/-- FcmpEq: 1 when the F32 relation holds, else 0 (R156, R249). -/
def execFcmpEq (d : BitVec 5) (a b : BitVec 6) (s : State) : Host.Outcome State Fault Refusal :=
  .next (opFF d a b (fun _ x y => boolWord (FRel.holds .eq (asF32 x) (asF32 y))) s)

/-- FcmpNe: 1 when the F32 relation holds, else 0 (R156, R249). -/
def execFcmpNe (d : BitVec 5) (a b : BitVec 6) (s : State) : Host.Outcome State Fault Refusal :=
  .next (opFF d a b (fun _ x y => boolWord (FRel.holds .ne (asF32 x) (asF32 y))) s)

/-- FcmpLt: 1 when the F32 relation holds, else 0 (R156, R249). -/
def execFcmpLt (d : BitVec 5) (a b : BitVec 6) (s : State) : Host.Outcome State Fault Refusal :=
  .next (opFF d a b (fun _ x y => boolWord (FRel.holds .lt (asF32 x) (asF32 y))) s)

/-- FcmpLe: 1 when the F32 relation holds, else 0 (R156, R249). -/
def execFcmpLe (d : BitVec 5) (a b : BitVec 6) (s : State) : Host.Outcome State Fault Refusal :=
  .next (opFF d a b (fun _ x y => boolWord (FRel.holds .le (asF32 x) (asF32 y))) s)

/-- FcvtF32I64: Round(Signed(S(a), 64), F32, mode) (R157, R249). -/
def execFcvtF32I64 (d : BitVec 5) (a : BitVec 6) (s : State) : Host.Outcome State Fault Refusal :=
  .next (opF d a (fun m x => roundWord f32 m (FVal.ofInt x.toInt 0)) s)

/-- FcvtF32N64: Round(S(a), F32, mode) (R157, R249). -/
def execFcvtF32N64 (d : BitVec 5) (a : BitVec 6) (s : State) : Host.Outcome State Fault Refusal :=
  .next (opF d a (fun m x => roundWord f32 m (.fin false x.toNat 0)) s)

/-- FcvtF32F16: the F16 value of S(a)[15:0], exact (R157, R249). -/
def execFcvtF32F16 (d : BitVec 5) (a : BitVec 6) (s : State) : Host.Outcome State Fault Refusal :=
  .next (opF d a (fun m x => roundWord f32 m (f16.decode (x.toNat % 2 ^ 16))) s)

/-- FcvtF32Bf16: the BF16 value of S(a)[15:0], exact (R157, R249). -/
def execFcvtF32Bf16 (d : BitVec 5) (a : BitVec 6) (s : State) : Host.Outcome State Fault Refusal :=
  .next (opF d a (fun m x => roundWord f32 m (bf16.decode (x.toNat % 2 ^ 16))) s)

/-- FcvtI64F32: Round(AsF32(a), I64, mode), saturated, NaN to 0 (R157, R249). -/
def execFcvtI64F32 (d : BitVec 5) (a : BitVec 6) (s : State) : Host.Outcome State Fault Refusal :=
  .next (opF d a (fun m x => wordOfInt (FVal.toInt m (-(2 ^ 63)) (2 ^ 63 - 1) (asF32 x))) s)

/-- FcvtN64F32: Round(AsF32(a), N64, mode), saturated, NaN to 0 (R157, R249). -/
def execFcvtN64F32 (d : BitVec 5) (a : BitVec 6) (s : State) : Host.Outcome State Fault Refusal :=
  .next (opF d a (fun m x => wordOfInt (FVal.toInt m 0 (2 ^ 64 - 1) (asF32 x))) s)

/-- FcvtF16F32: Round(AsF32(a), F16, mode) (R157, R249). -/
def execFcvtF16F32 (d : BitVec 5) (a : BitVec 6) (s : State) : Host.Outcome State Fault Refusal :=
  .next (opF d a (fun m x => roundWord f16 m (asF32 x)) s)

/-- FcvtBf16F32: Round(AsF32(a), BF16, mode) (R157, R249). -/
def execFcvtBf16F32 (d : BitVec 5) (a : BitVec 6) (s : State) : Host.Outcome State Fault Refusal :=
  .next (opF d a (fun m x => roundWord bf16 m (asF32 x)) s)

/-- FFMA: one rounding of the exact value (R250). -/
def execFfma (d : BitVec 5) (a b c : BitVec 6) (s : State) : Host.Outcome State Fault Refusal :=
  let g := anyGate 0x08 true [fieldOf a, fieldOf b, fieldOf c] [d.toNat]
  .next (gated s g fun s =>
    finishReg s (sMask g.srcs) d (ffmaSem s.me.rmode (s.me.src a) (s.me.src b) (s.me.src c)))

end Sys2Proof.Machine
end

