-- ==== Sys2Proof/Machine/ScalarMem.lean ====
section
/-! DEFINITION. The scalar memory instructions (R251 to R261): loads, stores, atomics and prefetch in every operand form,
and the shared access operation that sends them to their homes. -/

namespace Sys2Proof.Machine

/-! ### The shared access -/

/-- A location of the running context's own cluster scratchpad, whose accesses the bank arbitrates at issue (R53). -/
def ownSpad (s : State) : Loc → Bool
  | .spad g _ => g == clusterOfCell (cellOf s.cur)
  | _ => false

/-- The bank of a physical scratchpad offset: 0 to 63, or 64 to 79 in the converted region (R50). -/
def bankOf (p : Nat) : Nat := if p < 0x400000 then bitsAt p 6 6 else 64 + bitsAt p 6 4

/-- Changes a bank. -/
def State.modBank (s : State) (g b : Nat) (f : Bank → Bank) : State :=
  s.modCluster g fun c => { c with banks := Map.put c.banks b (f (Map.at c.banks b Bank.reset)) }

/-- A word that a tile store of the core sent to a location of the own cluster's scratchpad still waits in its bank's engine queue. -/
def sentAhead (s : State) (l : Loc) : Bool := s.accs.any fun a => coreOf a.ctx == coreOf s.cur && a.loc == l

/-- Presents an access at its bank (R53), behind the words that the core has sent to the same location (R102, R127; DEDUCED, log 86); the
context waits at this instruction until the bank has performed it (R54). -/
def presentSpad (s : State) (l : Loc) (op : WordOp) : State :=
  match l with
  | .spad g p =>
    if sentAhead s l then s
    else (s.modBank g (bankOf p) fun b => { b with present := b.present ++ [{ ctx := s.cur, phys := p, op := op }] }).modMe fun x =>
      { x with spadReq := some { cluster := g, phys := p, op := op, result := none } }
  | _ => s

/-- Sends an access on its way to its home; one to another cluster's scratchpad joins that bank's engine queue, where one context's
accesses stand in issue order (R53; DESIGN CHOICE, log 81). -/
def sendAcc (s : State) (va : Word) (x : Xlat) (op : WordOp) (dest size off : Nat) (acq rel : Bool) (sbits : BitVec 32)
    (slot : Option Nat) (exitEv : Option (Nat × Nat) := none) : State :=
  let a : Acc := { id := s.fresh, ctx := s.cur, loc := x.loc, va := va, op := op, uc := x.uc, pl := x.pl, dest := dest,
                   size := size, off := off, acq := acq, rel := rel, sbits := sbits, slot := slot, exitEv := exitEv,
                   issued := s.time, phase := .sent, entry := x.entry, ga := x.ga,
                   clock := if rel then releaseClock s s.cur else [] }
  let s := { s.bump with accs := s.accs ++ [a] }
  match x.loc with
  | .spad g p => s.modBank g (bankOf p) fun b => { b with engine := b.engine ++ [a.id] }
  | _ => s

/-- An access from another engine, or a posted step, takes its place in a bank's engine queue (R53). -/
def queueAt (s : State) (g p id : Nat) : State := s.modBank g (bankOf p) fun b => { b with engine := b.engine ++ [id] }

/-- The accesses that an engine makes to scratchpads, one for each 64 bytes, take their places in the engine queues of their banks under
one number (R50, R53). -/
def queueLocs (s : State) (id : Nat) (l : List Loc) : State :=
  ((l.filterMap fun
    | .spad g p => some (g, p / 64)
    | _ => none).eraseDups).foldl (fun s e => queueAt s e.1 (e.2 * 64) id) s

/-- Some access of a number still waits in the engine queue of a bank. -/
def State.atBank (s : State) (id : Nat) : Bool := s.clusters.any fun g => g.2.banks.any fun b => b.2.engine.contains id

/-- The bytes of an access inside its word, zero-extended (R252). -/
def takeBytes (w : Word) (off n : Nat) : Word := .ofNat 64 (fieldN w (8 * off) (8 * n))

/-- The byte mask of an access. -/
def byteMask (off n : Nat) : BitVec 8 := .ofNat 8 ((2 ^ n - 1) * 2 ^ off)

/-- A late MEMERR (R76): the destination keeps its value with its full bit set, and the S bits stay as they were; the trap is taken
at the context's next turn, after those already pending, with the first unit not yet issued. -/
def lateMemerr (s : State) (c d : Nat) (by_ : ClearBy) (va : Word) (kind : AccessKind) : State :=
  let t : TrapReq := { code := tcMemerr, pc := none, va := va, kind := kind.code, fcause := 0, arg := 0, late := true, reg := d }
  wakeRead (s.modCtx c fun x => { (x.arriveErr d).abandons by_ with pendTrap := x.pendTrap ++ [t] }) c

/-- Records a load's event when its value arrives (R261, R274); the latency is open (DESIGN CHOICE, log 12). -/
def logLoad (s : State) (c : Nat) (slot : Option Nat) (hit : Bool) : State :=
  match slot with
  | none => s
  | some n => logEvent s.bump (cellOf c) n (.load hit (Config.loadLatency s.fresh))

/-- The same for a load whose value arrives outside its context's turns. -/
def loadLate (s : State) (c : Nat) : Option Nat → State
  | none => s
  | some n => logLate s.bump c n (.load false (Config.loadLatency s.fresh))

/-- A scalar access of the own cluster's scratchpad that met an uncorrectable error ends, with no effect (R76). -/
def spadError (s : State) (d : Nat) (va : Word) (kind : AccessKind) : State :=
  lateMemerr (finish s s.cur 0 id .fall) s.cur d (.acc s.fresh) va kind

/-- An access in flight meets an uncorrectable error: a late MEMERR, and the exit event of the loop that it ends (R76, R275, R279). -/
def accFails (s : State) (a : Acc) (kind : AccessKind) : State :=
  exitLate (lateMemerr s a.ctx a.dest (.acc a.id) a.va kind) a.ctx a.exitEv

/-- The common part of a scalar memory access (R239): resource checks and alignment are made; a pending acquire holds the
access (R108); an access of the own cluster's scratchpad that its bank has performed completes; translation follows. -/
def memAccess (s : State) (m : MemOperand) (n : Nat) (k : AccessKind) (done : State → Word → Word → Bool → State)
    (go : State → Word → Xlat → State) : State :=
  withAddr s m n k fun va =>
    if acqPending s s.cur then s
    else match s.me.spadReq with
      | some r =>
        (match r.result with
         | none => s
         | some (w, _, bad) => done (s.modMe fun x => { x with spadReq := none }) va w bad)
      | none =>
        match translate s s.cur k va with
        | .miss => startWalk s s.cur k va
        | .fault f => faultNow s s.cur f
        | .ok x => go (fillCoreTlb s s.cur k va) va x

/-- A resource-relative operand, with its entry kept in the manifest cache (R37, R38). -/
def withRes (s : State) (n : Nat) (off : Word) (bytes : Nat) (k : AccessKind) (f : State → MemOperand → State) : State :=
  if n ≥ fieldN s.myCell.winLen 0 11 then f s (resAddr s s.cur n off bytes k)
  else f (fillManifest s s.cur n) (resAddr s s.cur n off bytes k)

/-! ### Loads (R252, R254) -/

/-- A chart bank is refreshing now (R65). (DESIGN CHOICE, log 42.) -/
def chartRefreshing (s : State) (die off : Nat) : Bool :=
  let t : Nat := s.time + Config.chartOffset die + 40000 * 125 - 320 * (off / 2 ^ 16 % 125)
  decide (t % 40000 < 320)

/-- A location that cannot be read at this moment: a refreshing chart bank (R65). -/
def locBusy (s : State) : Loc → Bool
  | .chart d o => chartRefreshing s d o
  | _ => false

/-- An access that is sent to a refreshing chart bank waits there, and that is counted (R65, R405). -/
def countRefresh (s : State) (c n : Nat) : State := if n = 0 then s else s.count (cellOf c) 17 5 n

/-- The context's own accesses to the location stand between it and its core's cache: a release or an atomic, whose word enters the
cache only once owned, or a load that is not yet performed. The load goes to the home behind them (R102, R103, R112). -/
def behindOwn (s : State) (l : Loc) : Bool :=
  s.accs.any fun a => a.ctx == s.cur && a.loc == l && (a.rel || a.op == .read)

/-- Some store of core k to the location that gives only some bytes of the word is not yet performed. -/
def splitPending (s : State) (k : Nat) (l : Loc) : Bool :=
  s.accs.any fun a => coreOf a.ctx == k && a.loc == l && a.rel == false && a.phase != .performed &&
    (match a.op with | .write _ bm => bm != 255 | _ => false)

/-- The cached word that a load of the running context hits (R44, R47). One that would join bytes of a store on its way with bytes that the
home has replaced since is no value of the word (R120, R121): the load goes to the home. (DEDUCED, log 86.) -/
def loadHit (s : State) (l : Loc) : Option Word :=
  if behindOwn s l then none
  else match cacheWord s (coreOf s.cur) l with
    | none => none
    | some w => if splitPending s (coreOf s.cur) l && w != expectWord s (coreOf s.cur) l then none else some w

/-- A fill of a line is asked for; a `pref`'s own leaves no trace where the line cannot be read whole (R47, R260). -/
def askFill (s : State) (k line pl : Nat) (pref : Bool) : State :=
  s.modCore k fun x =>
    if (Map.find x.fills line).isSome then (if pref then x else { x with prefs := x.prefs.filter (· != line) })
    else { x with fills := Map.put x.fills line pl, prefs := if pref then line :: x.prefs else x.prefs }

/-- An access of the own cluster's scratchpad that its bank has performed acquires what the value found brings (R101, R108). -/
def acquireGot (s : State) (got : Clock) : State := acquireFrom s s.cur got

/-- What an access that a bank has performed found with its value. -/
def spadGot (s : State) : Clock := match s.me.spadReq with
  | some r => r.got
  | none => []

/-- `Load` with the destination d and n bytes; `acq` for `ld.acq`, which reads the home and acquires. `hint.sched` with ALLOC 1 leaves
the line unallocated (R255). -/
def loadMem (s : State) (sb : BitVec 32) (m : MemOperand) (n d : Nat) (acq : Bool) : State :=
  let slot := logSlot s s.cur
  let keep := acq || lastAlloc 0 s.me.hints == 1
  let got := spadGot s
  memAccess s m n .read
    (fun s va w bad =>
      if bad then spadError s d va .read
      else
        let t := finish (logLoad s s.cur slot false) s.cur sb (fun x => x.setS d (takeBytes w (va.toNat % 8) n)) .fall
        if acq then acquireGot t got else t)
    (fun s va x =>
      let off := va.toNat % 8
      let win := decide (va.toNat ≥ 0xF0 * 2 ^ 48)
      if ownSpad s x.loc then presentSpad s x.loc .read
      else match if acq || x.uc then none else loadHit s x.loc with
      | some w =>
        (finish (logLoad (readNewest s x.loc s.cur) s.cur slot (!win)) s.cur sb (fun y => y.setS d (takeBytes w off n)) .fall).count
          (cellOf s.cur) 16 4 1
      | none =>
        match homeCheck s s.cur x.loc with
        | some f => faultNow s s.cur (homeFault .read va x f)
        | none =>
          withEntry s fun s =>
            let id := s.fresh
            let t := sendAcc (countRefresh s s.cur (if locBusy s x.loc then 1 else 0)) va x .read d n off acq false sb slot (loopExit s s.cur)
            let t := finish t s.cur 0 (fun y => (y.setBusy d).hold (.acc id) sb) .fallLater
            if keep || x.uc then t
            else (askFill t (coreOf s.cur) (x.loc.key / 64) x.pl false).count (cellOf s.cur) 16 5 1)

/-- A load with a base and a scaled immediate. -/
def loadImm (op n : Nat) (d : BitVec 5) (a : BitVec 6) (i : BitVec 14) (acq : Bool) (s : State) : State :=
  let g := anyGate op true [fieldOf a] [d.toNat]
  gated s g fun s => loadMem s (sMask g.srcs) (.ok (s.me.addrImm (s.me.src a) i n)) n d.toNat acq

/-! ### Stores (R253, R254) -/

/-- The effect of a store on a present line of the core's data cache (R47): its bytes enter the word at once; a word that the line does not
hold becomes known only by a whole store. -/
def storeCache (s : State) (x : Xlat) (w : Word) (bm : BitVec 8) : State :=
  let k := coreOf s.cur
  if x.uc then s
  else if bm = 255 then cacheStore s k x.loc w
  else match cacheWord s k x.loc with
    | none => s
    | some o => cacheStore s k x.loc (mergeBytes o w bm)

/-- `Store` of n bytes; `rel` for `st.rel`, whose word enters the cache only once owned (R112). The full bits of its synchronised reads are
cleared when it is owned (R255). -/
def storeMem (s : State) (sb : BitVec 32) (m : MemOperand) (n : Nat) (v : Word) (rel : Bool) : State :=
  memAccess s m n .write
    (fun s _ _ _ => finish s s.cur sb id .fall)
    (fun s va x =>
      let off := va.toNat % 8
      let w : Word := .ofNat 64 (v.toNat % 2 ^ (8 * n) * 2 ^ (8 * off))
      let op : WordOp := .write w (byteMask off n)
      if ownSpad s x.loc then
        (presentSpad s x.loc op).modMe fun y => { y with spadReq := y.spadReq.map fun r => { r with rel := rel } }
      else withEntry s fun s =>
        let id := s.fresh
        let s := sendAcc s va x op 0 n off false rel sb none (loopExit s s.cur)
        finish (if rel then s else storeCache s x w (byteMask off n)) s.cur 0 (fun y => y.hold (.acc id) sb) .fallLater)

/-- A store with a base and a scaled immediate; the data field carries the S bit. -/
def storeImm (op n : Nat) (b : BitVec 6) (a : BitVec 5) (i : BitVec 14) (s : State) : State :=
  let g := anyGate op true [fieldOf b, a.toNat] []
  gated s g fun s => storeMem s (sMask g.srcs) (.ok (s.me.addrImm (s.me.plain a) i n)) n (s.me.src b) false

/-! ### Atomics (R256 to R259) -/

/-- An atomic of n bytes at S(a): translated, then `ReleaseWait`, then one step at the home, then `AcquireDone` (R256). -/
def atomicMem (s : State) (sb : BitVec 32) (a : BitVec 6) (n d : Nat) (op : AmoOp) (p cmp : Word) (mode : RMode) : State :=
  let got := spadGot s
  memAccess s (.ok (s.me.src a)) n .atomic
    (fun s va w bad =>
      if bad then spadError s d va .atomic
      else acquireGot (finish s s.cur sb (fun x => x.setS d (takeBytes w (va.toNat % 8) n)) .fall) got)
    (fun s va x =>
      releaseThen s s.cur fun s =>
        match homeCheck s s.cur x.loc with
        | some f => faultNow s s.cur (homeFault .atomic va x f)
        | none =>
          let off := va.toNat % 8
          let w : WordOp := .amo op n off p cmp mode.code
          if ownSpad s x.loc then presentSpad s x.loc w
          else withEntry s fun s =>
            let id := s.fresh
            let s := sendAcc s va x w d n off true true sb none (loopExit s s.cur)
            finish s s.cur 0 (fun y => (y.setBusy d).hold (.acc id) sb) .fallLater)

/-- The AMO format: operation and size. -/
def amoMem (op : AmoOp) (d : BitVec 5) (a b : BitVec 6) (n : Nat) (s : State) : State :=
  let g := anyGate 0x1E true [fieldOf a, fieldOf b] [d.toNat]
  gated s g fun s => atomicMem s (sMask g.srcs) a n d.toNat op (s.me.src b) 0 s.me.rmode

/-- The size of an atomic: 4 or 8 bytes (R256). -/
def amoSize (z : BitVec 1) : Nat := if z = 0 then 4 else 8

/-! ### Prefetch (R260) -/

/-- A `pref` with its translation starts a fill of an absent line of a write-back page (R260). -/
def prefFill (s : State) (c : Nat) (va : Word) (x : Xlat) : State :=
  if x.uc || decide (va.toNat ≥ 0xF0 * 2 ^ 48) || linePresent s (coreOf c) x.loc || homeCheck s c x.loc != none then s
  else askFill s (coreOf c) (x.loc.key / 64) x.pl true

/-- `pref`: it never faults, and nothing waits for it: a TLB miss is walked meanwhile (R43, R260). -/
def prefMem (s : State) (sb : BitVec 32) (va : Word) : State :=
  let s' := match translateBy s s.cur .read va (tlbOf s s.cur .read) with
    | .miss => prefWalk s s.cur va
    | .ok x => prefFill (fillCoreTlb s s.cur .read va) s.cur va x
    | .fault _ => s
  finish s' s.cur sb id .fall

/-! ### Meanings -/

/-- LD_1: a load of 1 byte(s), zero-extended (R251, R252). -/
def execLd1 (d : BitVec 5) (a : BitVec 6) (i : BitVec 14) (s : State) : Host.Outcome State Fault Refusal :=
  .next (loadImm 0x10 1 d a i false s)

/-- LD_2: a load of 2 byte(s), zero-extended (R251, R252). -/
def execLd2 (d : BitVec 5) (a : BitVec 6) (i : BitVec 14) (s : State) : Host.Outcome State Fault Refusal :=
  .next (loadImm 0x11 2 d a i false s)

/-- LD_4: a load of 4 byte(s), zero-extended (R251, R252). -/
def execLd4 (d : BitVec 5) (a : BitVec 6) (i : BitVec 14) (s : State) : Host.Outcome State Fault Refusal :=
  .next (loadImm 0x12 4 d a i false s)

/-- LD_8: a load of 8 byte(s), zero-extended (R251, R252). -/
def execLd8 (d : BitVec 5) (a : BitVec 6) (i : BitVec 14) (s : State) : Host.Outcome State Fault Refusal :=
  .next (loadImm 0x13 8 d a i false s)

/-- ST_1: a store of 1 byte(s) (R251, R253). -/
def execSt1 (b : BitVec 6) (a : BitVec 5) (i : BitVec 14) (s : State) : Host.Outcome State Fault Refusal :=
  .next (storeImm 0x14 1 b a i s)

/-- ST_2: a store of 2 byte(s) (R251, R253). -/
def execSt2 (b : BitVec 6) (a : BitVec 5) (i : BitVec 14) (s : State) : Host.Outcome State Fault Refusal :=
  .next (storeImm 0x15 2 b a i s)

/-- ST_4: a store of 4 byte(s) (R251, R253). -/
def execSt4 (b : BitVec 6) (a : BitVec 5) (i : BitVec 14) (s : State) : Host.Outcome State Fault Refusal :=
  .next (storeImm 0x16 4 b a i s)

/-- ST_8: a store of 8 byte(s) (R251, R253). -/
def execSt8 (b : BitVec 6) (a : BitVec 5) (i : BitVec 14) (s : State) : Host.Outcome State Fault Refusal :=
  .next (storeImm 0x17 8 b a i s)

/-- LD_INDEX: base plus unscaled index (R239, R251). -/
def execLdIndex (d : BitVec 5) (a b : BitVec 6) (z : BitVec 2) (s : State) : Host.Outcome State Fault Refusal :=
  let g := anyGate 0x18 true [fieldOf a, fieldOf b] [d.toNat]
  .next (gated s g fun s =>
    loadMem s (sMask g.srcs) (.ok (s.me.src a + s.me.src b)) (sizeOf4 z.toNat) d.toNat false)

/-- ST_INDEX: base plus unscaled index (R239, R251). -/
def execStIndex (b a c : BitVec 6) (z : BitVec 2) (s : State) : Host.Outcome State Fault Refusal :=
  let g := anyGate 0x19 true [fieldOf b, fieldOf a, fieldOf c] []
  .next (gated s g fun s =>
    storeMem s (sMask g.srcs) (.ok (s.me.src a + s.me.src c)) (sizeOf4 z.toNat) (s.me.src b) false)

/-- LD_RES: relative to manifest entry n (R37, R251). -/
def execLdRes (d : BitVec 5) (a : BitVec 6) (n : BitVec 10) (z : BitVec 2) (s : State) : Host.Outcome State Fault Refusal :=
  let g := anyGate 0x1A true [fieldOf a] [d.toNat]
  .next (gated s g fun s =>
    withRes s n.toNat (s.me.src a) (sizeOf4 z.toNat) .read fun s m =>
      loadMem s (sMask g.srcs) m (sizeOf4 z.toNat) d.toNat false)

/-- ST_RES: relative to manifest entry n (R37, R251). -/
def execStRes (b a : BitVec 6) (n : BitVec 10) (z : BitVec 2) (s : State) : Host.Outcome State Fault Refusal :=
  let g := anyGate 0x1B true [fieldOf b, fieldOf a] []
  .next (gated s g fun s =>
    withRes s n.toNat (s.me.src a) (sizeOf4 z.toNat) .write fun s m =>
      storeMem s (sMask g.srcs) m (sizeOf4 z.toNat) (s.me.src b) false)

/-- LD_ACQ: 8 bytes read at the home, then `AcquireDone` (R254). -/
def execLdAcq (d : BitVec 5) (a : BitVec 6) (i : BitVec 14) (s : State) : Host.Outcome State Fault Refusal :=
  .next (loadImm 0x1C 8 d a i true s)

/-- ST_REL: `ReleaseWait`, then a store of 8 bytes (R254). A store that its bank holds has waited already. -/
def execStRel (b : BitVec 6) (a : BitVec 5) (i : BitVec 14) (s : State) : Host.Outcome State Fault Refusal :=
  let g := anyGate 0x1D true [fieldOf b, a.toNat] []
  .next (gated s g fun s =>
    let k (s : State) := storeMem s (sMask g.srcs) (.ok (s.me.addrImm (s.me.plain a) i 8)) 8 (s.me.src b) true
    if s.me.spadReq.isSome then k s else releaseThen s s.cur k)

/-- AmoAdd (R256). -/
def execAmoAdd (d : BitVec 5) (a b : BitVec 6) (z : BitVec 1) (s : State) : Host.Outcome State Fault Refusal :=
  .next (amoMem .add d a b (amoSize z) s)

/-- AmoAnd (R256). -/
def execAmoAnd (d : BitVec 5) (a b : BitVec 6) (z : BitVec 1) (s : State) : Host.Outcome State Fault Refusal :=
  .next (amoMem .and d a b (amoSize z) s)

/-- AmoOr (R256). -/
def execAmoOr (d : BitVec 5) (a b : BitVec 6) (z : BitVec 1) (s : State) : Host.Outcome State Fault Refusal :=
  .next (amoMem .or d a b (amoSize z) s)

/-- AmoXor (R256). -/
def execAmoXor (d : BitVec 5) (a b : BitVec 6) (z : BitVec 1) (s : State) : Host.Outcome State Fault Refusal :=
  .next (amoMem .xor d a b (amoSize z) s)

/-- AmoMinI (R256). -/
def execAmoMinI (d : BitVec 5) (a b : BitVec 6) (z : BitVec 1) (s : State) : Host.Outcome State Fault Refusal :=
  .next (amoMem .minI d a b (amoSize z) s)

/-- AmoMaxI (R256). -/
def execAmoMaxI (d : BitVec 5) (a b : BitVec 6) (z : BitVec 1) (s : State) : Host.Outcome State Fault Refusal :=
  .next (amoMem .maxI d a b (amoSize z) s)

/-- AmoMinN (R256). -/
def execAmoMinN (d : BitVec 5) (a b : BitVec 6) (z : BitVec 1) (s : State) : Host.Outcome State Fault Refusal :=
  .next (amoMem .minN d a b (amoSize z) s)

/-- AmoMaxN (R256). -/
def execAmoMaxN (d : BitVec 5) (a b : BitVec 6) (z : BitVec 1) (s : State) : Host.Outcome State Fault Refusal :=
  .next (amoMem .maxN d a b (amoSize z) s)

/-- AmoSwap (R256). -/
def execAmoSwap (d : BitVec 5) (a b : BitVec 6) (z : BitVec 1) (s : State) : Host.Outcome State Fault Refusal :=
  .next (amoMem .swap d a b (amoSize z) s)

/-- FAMO_ADD: an F32 sum at the home in the group's rounding mode (R257). -/
def execFamoAdd (d : BitVec 5) (a b : BitVec 6) (s : State) : Host.Outcome State Fault Refusal :=
  .next (amoMem .fadd d a b 4 s)

/-- CAS: the word becomes S(c) where it equals S(b) (R258). -/
def execCas (d : BitVec 5) (a b c : BitVec 6) (z : BitVec 1) (s : State) : Host.Outcome State Fault Refusal :=
  let g := anyGate 0x1F true [fieldOf a, fieldOf b, fieldOf c] [d.toNat]
  .next (gated s g fun s =>
    atomicMem s (sMask g.srcs) a (amoSize z) d.toNat .cas (s.me.src c) (s.me.src b) .rne)

/-- PREF: the address is S(a) + imm × 64 (R260). (DEDUCED, log 19.) -/
def execPref (a : BitVec 6) (i : BitVec 14) (s : State) : Host.Outcome State Fault Refusal :=
  let g := anyGate 0x20 true [fieldOf a] []
  .next (gated s g fun s => prefMem s (sMask g.srcs) (s.me.addrImm (s.me.src a) i 64))

end Sys2Proof.Machine
end

