-- ==== Sys2Proof/Machine/Control.lean ====
section
/-! DEFINITION. Control (R263 to R266) and the instructions that read the logbook (R281 to R283). -/

namespace Sys2Proof.Machine

/-! ### Branches and jumps (R223, R263, R264) -/

/-- A branch target: PC + 4 × Signed(off, 19) (R223). -/
def branchTarget (pc : Word) (o : BitVec 19) : Word := pc + wordOfInt (4 * o.toInt)

/-- Records a branch outcome in the slot that the group binds (R274). -/
def logBranch (s : State) (c : Nat) (slot : Option Nat) (taken : Bool) : State :=
  match slot with
  | none => s
  | some n => logEvent s (cellOf c) n (.branch taken)

/-- A conditional branch on one register (R263). The event of the branch precedes a loop's exit event (R275). -/
def branchIf (op : Nat) (k : Cond) (a : BitVec 6) (o : BitVec 19) (s : State) : State :=
  let g := anyGate op true [fieldOf a] []
  gated s g fun s =>
    let taken := k.holds (s.me.src a)
    let t := logBranch s s.cur (logSlot s s.cur) taken
    finish t s.cur (sMask g.srcs) id (if taken then .jump (branchTarget s.me.pc o) else .fall)

/-- BEQZ (R263). -/
def execBeqz (a : BitVec 6) (o : BitVec 19) (s : State) : Host.Outcome State Fault Refusal := .next (branchIf 0x28 .eqz a o s)

/-- BNEZ (R263). -/
def execBnez (a : BitVec 6) (o : BitVec 19) (s : State) : Host.Outcome State Fault Refusal := .next (branchIf 0x29 .nez a o s)

/-- BLTZ (R263). -/
def execBltz (a : BitVec 6) (o : BitVec 19) (s : State) : Host.Outcome State Fault Refusal := .next (branchIf 0x2A .ltz a o s)

/-- BGEZ (R263). -/
def execBgez (a : BitVec 6) (o : BitVec 19) (s : State) : Host.Outcome State Fault Refusal := .next (branchIf 0x2B .gez a o s)

/-- JAL: d := PC + 4, then the jump (R264). -/
def execJal (d : BitVec 5) (o : BitVec 19) (s : State) : Host.Outcome State Fault Refusal :=
  let g := anyGate 0x2C true [] [d.toNat]
  .next (gated s g fun s =>
    finish s s.cur 0 (fun x => x.setS d.toNat (s.me.pc + 4)) (.jump (branchTarget s.me.pc o)))

/-- JR: the target is S(a) + 4 × imm with bits [1:0] taken as 0, read before d is written (R264). -/
def execJr (d : BitVec 5) (a : BitVec 6) (i : BitVec 14) (s : State) : Host.Outcome State Fault Refusal :=
  let g := anyGate 0x2D true [fieldOf a] [d.toNat]
  .next (gated s g fun s =>
    let t := s.me.src a + wordOfInt (4 * s.me.imm i)
    finish s s.cur (sMask g.srcs) (fun x => x.setS d.toNat (s.me.pc + 4)) (.jump (.ofNat 64 (t.toNat / 4 * 4))))

/-! ### The hardware loop (R265, R266) -/

/-- The loop registers that `loop` sets, with `off` words to the body's last word. (DEDUCED, log 73.) -/
def loopSetup (s : State) (c : Nat) (off n : Nat) (x : Ctx) : Ctx :=
  let w := wordOff s c (s.ctx c).pc
  let slot := logSlot s c
  { x with loopPc := .ofNat 64 ((w + off) % 2 ^ 32 * 2 ^ 32 + (w + 1) % 2 ^ 32),
           loopSl := .ofNat 64 ((if n = 0 then 0 else 2 ^ 25) + (match slot with | some k => 2 ^ 24 + k | none => 0)),
           loopCnt := if n = 0 then 0 else .ofNat 64 (2 ^ 32 + n) }

/-- LOOP (R266): a count of 0 leaves at once, and its exit event records trip 0. -/
def execLoop (a : BitVec 6) (o : BitVec 19) (s : State) : Host.Outcome State Fault Refusal :=
  let g := anyGate 0x2E (decide (1 ≤ o.toInt)) [fieldOf a] []
  .next (gated s g fun s =>
    let n := min (s.me.src a).toNat (2 ^ 32 - 1)
    let off := o.toInt.toNat
    if n = 0 then
      let t := match logSlot s s.cur with
        | some k => logEvent s (cellOf s.cur) k (.loop 0)
        | none => s
      finish t s.cur (sMask g.srcs) (loopSetup s s.cur off 0)
        (.jump (codeAddr s s.cur ((wordOff s s.cur s.me.pc + off) % 2 ^ 32 + 1)))
    else
      let t := finish s s.cur (sMask g.srcs) id (.jump (s.me.pc + 4))
      t.modMe fun x => { loopSetup s s.cur off n x with arrived := false })

/-! ### Reading the logbook (R277, R280, R281) -/

/-- The entry of a slot in a state in which it has been asked for, when its HOME is known and nothing waits before it (R275). -/
def knownEntry (s : State) (cell n : Nat) : State × Option LogEntry :=
  if (s.cell cell).logQ.any (·.1 == n) then (s, none)
  else
    let (s, e) := findLog s cell n
    (s, e.filter fun e => !e.fetching)

/-- The view of the slot that the group names, when it is known: 0 with no slot, the snapshot's word in a DETERMINISTIC launch, and
otherwise the cell's view (R277, R280, R281). -/
def logView (s : State) (c : Nat) : State × Option SlotVal :=
  match logSlot s c with
  | none => (s, some SlotVal.cold)
  | some n =>
    if (s.cell (cellOf c)).lbDet then
      (s, some (slotOfWord (match launchOf s (cellOf c) with
        | some l => Map.at l.snap n 0
        | none => 0)))
    else
      let (s, e) := knownEntry s (cellOf c) n
      (s, e.map LogEntry.view)

/-- An instruction whose result a view decides: while the entry is being fetched it goes on, and its result arrives later, as a
load's does (R281). -/
def readLog (g : Gate) (d : BitVec 5) (r : State → LogRead) (s : State) : State :=
  gated s g fun s =>
    match logView s s.cur with
    | (t, some v) => finishReg t (sMask g.srcs) d ((r s).value v)
    | (t, none) =>
      if d = 0 then finish t s.cur (sMask g.srcs) id .fall
      else
        let t := finish t s.cur 0 (fun x => (x.setBusy d.toNat).hold (.view d.toNat) (sMask g.srcs)) (.fallOwing (.view d.toNat))
        logAgain t (cellOf s.cur) ((logSlot s s.cur).getD 0) (.read s.cur d.toNat (r s))

/-- A branch that the logbook decides; its turn passes while the entry is being fetched (R281, R282). -/
def bexp (last : Bool) (c : BitVec 1) (o : BitVec 19) (s : State) : State :=
  gated s (anyGate 0x2F true [] []) fun s =>
    match logView s s.cur with
    | (t, none) => t
    | (t, some v) => finish t s.cur 0 id (if decideView v last (c = 1) then .jump (branchTarget s.me.pc o) else .fall)

/-- BEXP_MAJ (R282). -/
def execBexpMaj (c : BitVec 1) (o : BitVec 19) (s : State) : Host.Outcome State Fault Refusal := .next (bexp false c o s)

/-- BEXP_LAST (R282). -/
def execBexpLast (c : BitVec 1) (o : BitVec 19) (s : State) : Host.Outcome State Fault Refusal := .next (bexp true c o s)

/-- A selection that the logbook decides (R282). -/
def selx (last : Bool) (d : BitVec 5) (a b : BitVec 6) (c : BitVec 1) (s : State) : State :=
  readLog (anyGate 0x30 true [fieldOf a, fieldOf b] [d.toNat]) d (fun s => .selx last (c = 1) (s.me.src a) (s.me.src b)) s

/-- SELX_MAJ (R282). -/
def execSelxMaj (d : BitVec 5) (a b : BitVec 6) (c : BitVec 1) (s : State) : Host.Outcome State Fault Refusal :=
  .next (selx false d a b c s)

/-- SELX_LAST (R282). -/
def execSelxLast (d : BitVec 5) (a b : BitVec 6) (c : BitVec 1) (s : State) : Host.Outcome State Fault Refusal :=
  .next (selx true d a b c s)

/-- UNRX: an unroll factor (R283). -/
def execUnrx (d : BitVec 5) (m c : BitVec 4) (s : State) : Host.Outcome State Fault Refusal :=
  .next (readLog (anyGate 0x31 (decide (m.toNat ≤ 8 ∧ c.toNat ≤ 8)) [] [d.toNat]) d (fun _ => .unrx m.toNat c.toNat) s)

/-- PFX: a prefetch distance (R283). -/
def execPfx (d : BitVec 5) (m c : BitVec 6) (s : State) : Host.Outcome State Fault Refusal :=
  .next (readLog (anyGate 0x32 true [] [d.toNat]) d (fun _ => .pfx m.toNat c.toNat) s)

end Sys2Proof.Machine
end

