-- ==== Sys2Proof/Machine/Tasks.lean ====
section
/-! DEFINITION. Helpers, tasks, dependence counters, semaphores and mutexes (R191 to R197, R267 to R272, R114, R115), and the
events that dispatch, steal and decrement. -/

namespace Sys2Proof.Machine

/-! ### Contexts stopped at a breakpoint -/

/-- A context that a breakpoint has stopped, or that stands parked while one stops its launch: its queued commands stay queued (R401). -/
def stoppedAt (s : State) (c : Nat) : Bool := (s.ctx c).bkHit && ((s.ctx c).stat == .halted || (s.ctx c).stat == .parked)

/-! ### Time stamps (R395) -/

/-- The trace timebase of a die, from the module's reset: dies may differ by up to four cycles (R395). (DESIGN CHOICE, log 12.) -/
def State.ttb (s : State) (die : Nat) : Nat := (s.time - s.dev.ttb0 + Config.dieSkew die % 5) % 2 ^ 64

/-- The timebase at a cell. -/
def State.ttbCell (s : State) (cell : Nat) : Nat := s.ttb (cell / 256)

/-! ### Cycles (R179, R180, R193, R194, R196) -/

/-- A core with an ELIGIBLE context acts in every cycle (R180). -/
def coreActive (s : State) (k : Nat) : Bool := (ctxsOfCore k).any fun c => (s.ctx c).stat == .eligible

/-- The cores with an ELIGIBLE context. -/
def activeCores (s : State) : List Nat := ((s.ctxs.filter fun e => e.2.stat == .eligible).map fun e => coreOf e.1).eraseDups

/-- A core behind core k in the order of a cycle has already acted in the present one. -/
def passedOver (s : State) (k : Nat) : Bool := s.cores.any fun e => decide (k < e.1) && e.2.cyc == s.time

/-- The cycle in which a core acts next: a cell whose counters an engine or the port has changed in a cycle acts in a later one, and so does
a core that became active only after its place in the order of the cycle (R192, R193). A context that a core with a lower number, or an event
before the core's place, releases in a cycle may take a turn in that same cycle: R182 names no cycle, and in its example the releasing core has
the higher number (DESIGN CHOICE, log 101). -/
def nextCycle (s : State) (k : Nat) : Nat :=
  max (max ((s.core k).cyc + 1) (if passedOver s k then s.time + 1 else s.time)) (max (s.cell (k / 3)).engAt (s.cell (k / 3)).depAt)

/-- A core acts now: every other core with an ELIGIBLE context acts in a later cycle, or later in this one, cells and their A, C and M
cores in the order of their numbers (R180, R192, R193). -/
def coreDue (s : State) (k : Nat) : Bool :=
  (activeCores s).all fun j => j == k || decide (nextCycle s k < nextCycle s j) ||
    (decide (nextCycle s k = nextCycle s j) && decide (k < j))

/-- The cores of a cell have acted in the present cycle, so that what follows them in it may happen (R193). -/
def cellActed (s : State) (cell : Nat) : Bool :=
  (List.range 3).all fun i => !coreActive s (3 * cell + i) || decide ((s.core (3 * cell + i)).cyc ≥ s.time)

/-! ### Dependence counters (R193) -/

/-- The value of a counter. -/
def depVal (s : State) (cell n : Nat) : Nat := Map.at (s.cell cell).deps n 0

/-- Tasks that wait on a counter note when it last became 0 (R402). -/
def noteReady (s : State) (cell n : Nat) : State :=
  let z := depVal s cell n == 0
  let now := s.ttbCell cell
  s.modCell cell fun x =>
    { x with deque := x.deque.map fun t =>
        if fieldN t.w0 26 6 = n then
          { t with rdy := if z then (match t.rdy with | some r => some r | none => some now) else none }
        else t }

/-- Writes a counter. -/
def setDep (s : State) (cell n v : Nat) : State :=
  noteReady (s.modCell cell fun x => { x with deps := Map.put x.deps n v }) cell n

/-- What a decrement brings to the tasks of its counter (R117). -/
def noteDec (s : State) (cell n : Nat) (k : Clock) : State :=
  s.modCell cell fun x => { x with depClk := Map.put x.depClk n (joinClock (Map.at x.depClk n []) k) }

/-- A decrement: one that finds 0 sets the counter's bit in DEPUNF (R193). -/
def decDep (s : State) (cell n : Nat) : State :=
  let v := depVal s cell n
  if v = 0 then s.modCell cell fun x => { x with depUnf := setBit x.depUnf n true }
  else setDep s cell n (v - 1)

/-- A decrement that the completion of copy `op` makes: a task that the counter readies begins as though it had observed the copy
complete (R139, R340). -/
def decDepOp (s : State) (cell n op : Nat) : State :=
  decDep (s.modCell cell fun x => { x with depOps := Map.put x.depOps n (op :: Map.at x.depOps n []), engAt := s.time + 1 }) cell n

/-! ### Beginning a context (R176, R178) -/

/-- A context that begins to run: every other register 0 and full, its loop, trap, waypoint, batch, mailbox and copy
registers 0 (R178, R265, R322, R335, R357, R364). -/
def beginCtx (s : State) (c : Nat) (pc : Word) (args : List Word) (task : Option TaskInfo) : State :=
  let x : Ctx := { Ctx.reset with stat := .eligible, pc := pc, arrived := true, task := task, run := s.fresh }
  s.bump.setCtx c ((List.range args.length).foldl (fun x i => x.setS (i + 1) (args.getD i 0)) x)

/-- The free helpers of a core, lowest first. -/
def freeHelpers (s : State) (k : Nat) : List Nat :=
  ((List.range 10).map fun i => 11 * k + i + 1).filter fun c => (s.ctx c).stat == .free

/-- The helper that work may take: a PRODUCER task any free one, other work only while more than RESV are free (R197). -/
def takeHelper (s : State) (k : Nat) (producer : Bool) : Option Nat :=
  let l := freeHelpers s k
  if producer ∨ l.length > (s.core k).resv then l.head? else none

/-! ### START, HELPRES (R267, R271) -/

/-- CTXID (R177). -/
def ctxId (c : Nat) : Word := .ofNat 64 ((kindOf c).code * 16 + slotOf c)

/-- START (R267): never parks; writes the helper's number or 0. -/
def execStart (d : BitVec 5) (a b : BitVec 6) (s : State) : Host.Outcome State Fault Refusal :=
  let g := anyGate 0x33 true [fieldOf a, fieldOf b] [d.toNat]
  .next (gated s g fun s =>
    if (s.me.src a).toNat ≥ 2 ^ 32 then trapIssued s s.cur tcTaskArg 0 0
    else releaseThen s s.cur fun s =>
      match takeHelper s (coreOf s.cur) false with
      | none => finishReg s (sMask g.srcs) d 0
      | some h =>
        let t := beginCtx s h (codeAddr s s.cur (s.me.src a).toNat) [s.me.src b, ctxId s.cur] none
        let t := acquireFrom t h (releaseClock s s.cur)
        finishReg t (sMask g.srcs) d (.ofNat 64 (slotOf h)))

/-- HELPRES (R271): v = S(a) + imm from 0 to 10. -/
def execHelpres (d : BitVec 5) (a : BitVec 6) (i : BitVec 14) (s : State) : Host.Outcome State Fault Refusal :=
  let g := anyGate 0x37 true [fieldOf a] [d.toNat]
  .next (gated s g fun s =>
    let v : Int := (s.me.src a).toNat + s.me.imm i
    if v < 0 ∨ v > 10 then trapIssued s s.cur tcTaskArg 0 0
    else
      let old := s.myCore.resv
      finishReg (s.modMyCore fun k => { k with resv := v.toNat }) (sMask g.srcs) d (.ofNat 64 old))

/-! ### RETIRE (R268, R195, R402) -/

/-- Batch b is committed (R322). -/
def batchCommitted (w : Word) (b : Nat) : Bool :=
  let k := (fieldN w 0 32 + 2 ^ 32 - b % 2 ^ 32) % 2 ^ 32
  decide (1 ≤ k ∧ k ≤ 2 ^ 31)

/-- Batch b is complete (R322). -/
def batchComplete (w : Word) (b : Nat) : Bool :=
  let k := (fieldN w 32 32 + 2 ^ 32 - b % 2 ^ 32) % 2 ^ 32
  decide (1 ≤ k ∧ k ≤ 2 ^ 31)

/-- Every engine operation and committed batch of the context has completed (R268). -/
def engineIdle (s : State) (c : Nat) : Bool :=
  !(s.ops.any fun o => o.ctx == c) && fieldN (s.ctx c).mbatch 0 32 == fieldN (s.ctx c).mbatch 32 32

/-- Frees mutex k, or hands it to the context that parked first (R115). -/
def freeMutex (s : State) (cell k : Nat) : State :=
  match firstParked s cell .mutex k with
  | none => s.modCell cell fun x => { x with mtx := Map.drop x.mtx k }
  | some w =>
    let s := s.modCell cell fun x => { x with mtx := Map.put x.mtx k (w % 33) }
    completeParked (acquireFrom s w (Map.at (s.cell cell).mtxClk k [])) w

/-- A context gives a mutex up: what it has done before synchronises with the next `mlock` of it (R115). -/
def unlock (s : State) (c k : Nat) : State :=
  freeMutex (s.modCell (cellOf c) fun x => { x with mtxClk := Map.put x.mtxClk k (releaseClock s c) }) (cellOf c) k

/-- Frees every mutex that a context holds (R268). -/
def freeHeld (s : State) (c : Nat) : State :=
  (List.range 8).foldl (fun s k => if Map.find (s.cell (cellOf c)).mtx k = some (c % 33) then unlock s c k else s) s

/-- The two words of a name (R396): queue, command number, engine and task. -/
def taskName (s : State) (cell eng tser : Nat) : List Word :=
  match launchOf s cell with
  | none => [0, .ofNat 64 (eng * 2 ^ 32 + tser)]
  | some l => [.ofNat 64 (l.q * 2 ^ 56 + l.cseq % 2 ^ 32), .ofNat 64 (eng * 2 ^ 32 + tser)]

/-- ENG of a context (R397). -/
def engOfCtx (s : State) (c : Nat) : Nat := (s.cell (cellOf c)).cellNo * 256 + (kindOf c).code * 16 + slotOf c

/-- ENG of a cell's matrix engine, a cluster's copy engine, a sounder, a slice and a pilot core (R397). -/
def engMatrix (cell : Nat) : Nat := 2 ^ 28 + cell * 256
def engCopy (cluster : Nat) : Nat := 2 * 2 ^ 28 + cluster
def engSounder (bank : Nat) : Nat := let (st, ch, sid, b) := bankParts bank; 3 * 2 ^ 28 + st * 2 ^ 13 + ch * 2 ^ 7 + sid * 2 ^ 4 + b
def engSlice (cluster : Nat) : Nat := 4 * 2 ^ 28 + cluster
def engPilot (p : Nat) : Nat := 5 * 2 ^ 28 + p

/-- The serial number of a context's task; 0 for one that a launch or `start` began (R396). -/
def serialOf (s : State) (c : Nat) : Nat := match (s.ctx c).task with
  | some t => t.serial
  | none => 0

/-- The name of a context's task, under an engine of its own or the context's (R396). -/
def ctxNameAs (s : State) (c eng : Nat) : List Word := taskName s (cellOf c) eng (serialOf s c)
def ctxName (s : State) (c : Nat) : List Word := ctxNameAs s c (engOfCtx s c)

/-- The names of an engine operation: its issuer's, under the copy engine or the sounders that work on it (R396, R397).
Until a sounding or a `sndfill` has its banks it is named under the copy engine (DEDUCED, log 105). -/
def opNames (s : State) (o : EngOp) : List (List Word) :=
  let atCopy := ctxNameAs s o.ctx (engCopy ((s.cell (cellOf o.ctx)).cellNo / 16))
  match o.kind with
  | .copy | .copym => [atCopy]
  | .sndfill => if o.hdrNew.isSome then [ctxNameAs s o.ctx (engSounder (hbmBank (paLocal o.hdrPa)).1)] else [atCopy]
  | .sound | .snddot => if o.banks = [] then [atCopy] else o.banks.map fun b => ctxNameAs s o.ctx (engSounder b.bank)

/-- The records of n bytes that a ring has room for: those not yet collected stay (R402). -/
def Ring.room (r : Ring) (n : Nat) : Nat := r.size / n - (r.tail - r.head)

/-- Where record i of a ring lies. -/
def Ring.slot (r : Ring) (n i : Nat) : Nat := r.base + i * n % r.size

/-- Appends a record of n bytes to a ring in memory, or counts it as dropped (R402). -/
def ringPush (s : State) (r : Ring) (n : Nat) (e : List Word) : State × Ring :=
  if r.room n = 0 then (s, { r with dropped := r.dropped + 1 })
  else
    (((List.range e.length).zip e).foldl (fun s x => pilotWrite s (r.slot n r.tail + 8 * x.1) x.2 (6, 0)) s, { r with tail := r.tail + 1 })

/-- Writes the record of a task that retires, while tracing is enabled (R402). -/
def traceTask (s : State) (c : Nat) (t : TaskInfo) : State :=
  let cell := cellOf c
  let vf := ptVf (s.cell cell).ptRoot
  match Map.find s.host.trace vf with
  | none => s
  | some r =>
    let e := taskName s cell (engOfCtx s c) t.serial ++
      [.ofNat 64 t.enq, .ofNat 64 t.rdy, .ofNat 64 t.deq, .ofNat 64 (s.ttbCell cell),
       .ofNat 64 (t.fails % 65536 * 2 ^ 48 + t.spawner % 1024 * 2 ^ 38 + (if t.stolen then 2 ^ 37 else 0)), 0]
    let (s, r) := ringPush s r 64 e
    s.modHost fun h => { h with trace := Map.put h.trace vf r }

/-- The cell that spawned a context's task, where it is now; the launch of that cell need not be the one that ran the task (R195, R376). -/
def taskHome (s : State) (t : TaskInfo) : Nat := placeIn s t.launch t.spawner

/-- The end of a task: DONE is decremented in the spawning cell, through the neighbour port for a stolen task (R195). -/
def endTask (s : State) (c : Nat) : State :=
  match (s.ctx c).task with
  | none => s
  | some t =>
    let s := traceTask s c t
    if ¬ t.doneEn then s
    else
      let home := taskHome s t
      let k := releaseClock s c
      if home = cellOf c then decDep (noteDec s home t.done k) home t.done
      else { s.bump with depMsgs := s.depMsgs ++ [{ id := s.fresh, cell := t.spawner, dep := t.done, launch := t.launch, clock := k }] }

/-- What a retiring context leaves behind: its divisions and logbook reads write nothing any more, nor do the statuses of its mailbox words,
and the exit events that it still owes are recorded (R268, R279, R281). -/
def dropLate (s : State) (c : Nat) : State :=
  let mine : LogWait → Bool
    | .read k _ _ => k == c
    | .event _ => false
  let s := (s.ctx c).exits.foldl (fun s e => logExit s (cellOf c) e.2) s
  let s := s.modCell (cellOf c) fun x =>
    { x with log := x.log.map fun e => { e with waiting := e.waiting.filter (!mine ·) }, logQ := x.logQ.filter fun e => !mine e.2 }
  { s.modCtx c fun x => { x with exits := [], divs := [] } with
    mboxes := s.mboxes.map fun m => if m.sender = c then { m with dest := 0, sbits := 0 } else m }

/-- RETIRE (R268): keeps its turns until the context's engine work has completed; then `ReleaseWait`, mutexes, logbook
merges, DONE, and the context is FREE or, as context 0, HALTED. -/
def execRetire (s : State) : Host.Outcome State Fault Refusal :=
  .next (gated s (anyGate 0x34 true [] []) fun s =>
    if engineIdle s s.cur = false then s
    else releaseThen s s.cur fun s =>
      let c := s.cur
      let s := s.count (cellOf c) 16 1 1
      let s := endTask (mergeAll (dropLate (freeHeld s c) c) (cellOf c)) c
      s.modCtx c fun x => { x.dropHints with stat := if slotOf c = 0 then .halted else .free, task := none })

/-! ### SPAWN, DEP (R192, R269, R270) -/

/-- SPAWN (R269): the record of R191 joins the cell's deque; a full deque parks (R192). -/
def execSpawn (a b : BitVec 6) (s : State) : Host.Outcome State Fault Refusal :=
  let n := b.toNat % 32
  let g := anyGate 0x35 (decide (1 ≤ n ∧ n ≤ 29)) [fieldOf a, fieldOf b] [n + 1, n + 2]
  .next (gated s g fun s =>
    let w := s.me.src a
    if fieldN w 17 2 = 3 ∨ fieldN w 0 15 ≠ 0 then trapIssued s s.cur tcTaskArg 0 0
    else releaseThen s s.cur fun s =>
      let cell := cellOf s.cur
      if (s.cell cell).deque.length ≥ 64 then parkFor s s.cur .sendQueue 1
      else
        let now := s.ttbCell cell
        let t : TaskRec := { w0 := w, arg1 := s.me.reg n, arg2 := s.me.reg (n + 1), arg3 := s.me.reg (n + 2),
                             spawner := (s.cell cell).cellNo, serial := (s.cell cell).spawned + 1, enq := now,
                             rdy := if depVal s cell (fieldN w 26 6) = 0 then some now else none, caught := false,
                             clock := releaseClock s s.cur }
        let s := s.modCell cell fun x => { x with deque := x.deque ++ [t], spawned := x.spawned + 1 }
        finish s s.cur (sMask g.srcs) id .fall)

/-- DEP_SET (R270). -/
def execDepSet (a b : BitVec 6) (s : State) : Host.Outcome State Fault Refusal :=
  let g := anyGate 0x36 true [fieldOf a, fieldOf b] []
  .next (gated s g fun s =>
    if (s.me.src a).toNat ≥ 64 ∨ (s.me.src b).toNat > 65535 then trapIssued s s.cur tcTaskArg 0 0
    else
      let s' := s.modMyCell fun x => { x with depOps := Map.drop x.depOps (s.me.src a).toNat,
                                                depClk := Map.drop x.depClk (s.me.src a).toNat }
      finish (setDep s' (cellOf s.cur) (s.me.src a).toNat (s.me.src b).toNat) s.cur (sMask g.srcs) id .fall)

/-- DEP_DEC (R270): a release, then one decrement. -/
def execDepDec (a : BitVec 6) (s : State) : Host.Outcome State Fault Refusal :=
  let g := anyGate 0x36 true [fieldOf a] []
  .next (gated s g fun s =>
    if (s.me.src a).toNat ≥ 64 then trapIssued s s.cur tcTaskArg 0 0
    else releaseThen s s.cur fun s =>
      finish (decDep (noteDec s (cellOf s.cur) (s.me.src a).toNat (releaseClock s s.cur)) (cellOf s.cur) (s.me.src a).toNat) s.cur (sMask g.srcs) id .fall)

/-! ### Semaphores and mutexes (R114, R115, R272) -/

/-- The count of a semaphore. -/
def semVal (s : State) (cell k : Nat) : Nat := Map.at (s.cell cell).sems k 0

/-- SEMP: parks while the count is 0, else subtracts 1 and acquires (R114). -/
def execSemp (k : BitVec 4) (s : State) : Host.Outcome State Fault Refusal :=
  .next (gated s (anyGate 0x38 true [] []) fun s =>
    let cell := cellOf s.cur
    let n := semVal s cell k.toNat
    if n = 0 then parkFor s s.cur .semaphore k.toNat
    else
      let s := s.modCell cell fun x => { x with sems := Map.put x.sems k.toNat (n - 1) }
      finish (acquireFrom s s.cur (Map.at (s.cell cell).semClk k.toNat [])) s.cur 0 id .fall)

/-- SEMV: a release; the count goes to the context that parked first, or grows; SEMOVF at 65,535 (R114, R272). -/
def execSemv (k : BitVec 4) (s : State) : Host.Outcome State Fault Refusal :=
  .next (gated s (anyGate 0x38 true [] []) fun s =>
    releaseThen s s.cur fun s =>
      let cell := cellOf s.cur
      let n := semVal s cell k.toNat
      if n ≥ 65535 then trapIssued s s.cur tcSemOvf 0 0
      else
        let s := s.modCell cell fun x =>
          { x with semClk := Map.put x.semClk k.toNat (joinClock (Map.at x.semClk k.toNat []) (releaseClock s s.cur)) }
        match (if n = 0 then firstParked s cell .semaphore k.toNat else none) with
        | some w => finish (completeParked (acquireFrom s w (Map.at (s.cell cell).semClk k.toNat [])) w) s.cur 0 id .fall
        | none =>
          finish (s.modCell cell fun x => { x with sems := Map.put x.sems k.toNat (n + 1) }) s.cur 0 id .fall)

/-- MLOCK: parks while another context holds the mutex; MTXERR for its holder (R115, R272). -/
def execMlock (k : BitVec 3) (s : State) : Host.Outcome State Fault Refusal :=
  .next (gated s (anyGate 0x39 true [] []) fun s =>
    let cell := cellOf s.cur
    match Map.find (s.cell cell).mtx k.toNat with
    | none =>
      let s := s.modCell cell fun x => { x with mtx := Map.put x.mtx k.toNat (s.cur % 33) }
      finish (acquireFrom s s.cur (Map.at (s.cell cell).mtxClk k.toNat [])) s.cur 0 id .fall
    | some h =>
      if h = s.cur % 33 then trapIssued s s.cur tcMtxErr 0 0 else parkFor s s.cur .mutex k.toNat)

/-- MUNLOCK: a release; the mutex is handed over or freed; MTXERR for a context that does not hold it (R115, R272). -/
def execMunlock (k : BitVec 3) (s : State) : Host.Outcome State Fault Refusal :=
  .next (gated s (anyGate 0x39 true [] []) fun s =>
    if Map.find s.myCell.mtx k.toNat ≠ some (s.cur % 33) then trapIssued s s.cur tcMtxErr 0 0
    else releaseThen s s.cur fun s => finish (unlock s s.cur k.toNat) s.cur 0 id .fall)

/-! ### Dispatch and stealing (R194 to R196) -/

/-- Whether a task of a cell's deque may start in core k: ready, for its kind of core, and a helper can take it. -/
def canTake (s : State) (owner k : Nat) (t : TaskRec) : Bool :=
  depVal s owner (fieldN t.w0 26 6) == 0 && fieldN t.w0 17 2 == (kindOfCore k).code &&
    (takeHelper s k (fieldN t.w0 16 1 == 1)).isSome

/-- A core's steal has failed at a moment of its trace timebase. -/
def addFail (l : List (Nat × Nat)) (t : Nat) : List (Nat × Nat) :=
  match l with
  | (a, b) :: r => if b + 1 = t then (a, t) :: r else (t, t) :: l
  | [] => [(t, t)]

/-- The failed steals from one moment to before another (R402). -/
def failsIn (l : List (Nat × Nat)) (lo hi : Nat) : Nat := (l.map fun e => min (e.2 + 1) hi - max e.1 lo).sum

/-- Starts the task at position i of the owner's deque on core k (R178, R194). -/
def startTask (s : State) (owner k i : Nat) (t : TaskRec) : State :=
  match takeHelper s k (fieldN t.w0 16 1 == 1) with
  | none => s
  | some h =>
    let cell := k / 3
    let now := s.ttbCell cell
    let stolen := owner != cell
    let info : TaskInfo :=
      { serial := t.serial, spawner := t.spawner, done := fieldN t.w0 20 6, doneEn := fieldN t.w0 19 1 == 1, enq := t.enq,
        rdy := t.rdy.getD t.enq, deq := now,
        fails := if t.caught then 65535 else satN (failsIn (s.core k).fails (t.rdy.getD t.enq) now) 65535, stolen := stolen,
        launch := (s.cell owner).launch }
    let s := s.modCell owner fun x => { x with deque := x.deque.eraseIdx i }
    let s := beginCtx s h (codeAddr s h (fieldN t.w0 32 32)) [t.arg1, t.arg2, t.arg3, .ofNat 64 t.spawner] (some info)
    let n := fieldN t.w0 26 6
    let ops := Map.at (s.cell owner).depOps n []
    let s := (noteSeen s h ops).modCtx h fun x => { x with seen := ops }
    let s := (wakeAll (acquireFrom s h (joinClock t.clock (Map.at (s.cell owner).depClk n []))) (ctxsOfCell owner) .sendQueue 1).count cell 16 9 1
    if stolen then s.count cell 16 10 1 else s

/-- A core of a cell whose part of a launch runs. -/
def coreRuns (s : State) (k : Nat) : Bool := (s.cell (k / 3)).launch.isSome

/-- The launch of a cell stands at a breakpoint with ALLSTOP: the cell starts nothing new until the host resumes it (R401). -/
def allStopped (s : State) (cell : Nat) : Bool :=
  match launchOf s cell with
  | some l => l.allStop
  | none => false

/-- The queued commands of a context stay queued: it is stopped, or its whole launch is (R401). -/
def queueHeld (s : State) (c : Nat) : Bool := stoppedAt s c || allStopped s (cellOf c)

/-- The place of the task that a core's own dispatcher would start: the oldest ready one that fits (R194). -/
def ownTask (s : State) (core : Nat) : Option Nat :=
  if allStopped s (core / 3) then none else (s.cell (core / 3)).deque.findIdx? (canTake s (core / 3) core)

/-- The grid neighbour of a cell in direction 0 north, 1 east, 2 south, 3 west (R196). -/
def neighbour (cell dir : Nat) : Option Nat :=
  let r := cell % 16 / 4
  let q := cell % 4
  if dir = 0 then (if r = 0 then none else some (cell - 4))
  else if dir = 1 then (if q = 3 then none else some (cell + 1))
  else if dir = 2 then (if r = 3 then none else some (cell + 4))
  else (if q = 0 then none else some (cell - 1))

/-- The next direction that exists, after the one of the last probe (R196). -/
def nextProbe (cell last : Nat) : Nat :=
  let l := (List.range 4).map fun i => (if last = 4 then i else (last + 1 + i) % 4)
  (l.find? fun d => (neighbour cell d).isSome).getD 0

/-- A core of a cell whose part runs is idle: a helper of it could take a task, and its own deque holds no ready task for it (R196). -/
def coreIdle (s : State) (core : Nat) : Bool :=
  coreRuns s core && !allStopped s (core / 3) && (takeHelper s core true).isSome && !((s.cell (core / 3)).deque.any fun t =>
    depVal s (core / 3) (fieldN t.w0 26 6) == 0 && fieldN t.w0 17 2 == (kindOfCore core).code)

/-- The cores of a cell's neighbour in a direction that would probe its deque in this cycle. -/
def probers (s : State) (cell dir : Nat) : List Nat :=
  match neighbour cell dir with
  | none => []
  | some n => ((List.range 3).map (3 * n + ·)).filter fun k =>
      coreIdle s k && decide ((s.core k).probeAt ≤ s.time) && neighbour n (nextProbe n (s.core k).probe) == some cell

/-- The direction, from a deque's cell, of the neighbour whose probe it serves next among those that probe it: round-robin (R196). -/
def probeTurn (s : State) (cell : Nat) : Option Nat :=
  ((List.range 4).map fun i => ((s.cell cell).probePtr + i) % 4).find? fun d => !(probers s cell d).isEmpty

/-- The place of the entry that a probe of core k takes from a deque: the oldest that is ready, fits and may be stolen (R196). -/
def stealable (s : State) (owner k : Nat) : Option Nat :=
  (s.cell owner).deque.findIdx? fun t => fieldN t.w0 15 1 == 0 && canTake s owner k t

/-- A deque whose own dispatchers still have a choice to make in the present cycle (R196). -/
def dispatchFirst (s : State) (o : Nat) : Bool :=
  (List.range 3).any fun i => coreRuns s (3 * o + i) && decide ((s.core (3 * o + i)).dispAt ≤ s.time) && (ownTask s (3 * o + i)).isSome

/-- A core's probe of the deque of cell o in the present cycle: it takes the oldest fitting entry, if it is the one that the deque serves (R196). -/
def probeDeque (s : State) (core o : Nat) : State :=
  let cell := core / 3
  let served := decide ((s.cell o).probeAt ≤ s.time) && (match probeTurn s o with
    | some d => neighbour o d == some cell
    | none => false)
  let found := if served then stealable s o core else none
  let s := s.modCore core fun x => { x with probe := nextProbe cell x.probe, probeAt := s.time + 1 }
  let s := if served then s.modCell o fun x =>
      { x with probeAt := s.time + 1, probePtr := (((List.range 4).find? fun d => neighbour o d == some cell).getD 0 + 1) % 4 }
    else s
  match found with
  | none => (s.modCore core fun x => { x with fails := addFail x.fails (s.ttbCell cell) }).count cell 16 6 1
  | some i => (match (s.cell o).deque[i]? with
    | some t => startTask s o core i t
    | none => s)

/-- The probe of a core in the present cycle, if it has still to come and the deque's own dispatchers have made their choice (R196). -/
def probeNow (s : State) (core : Nat) : State :=
  if coreIdle s core = false ∨ s.time < (s.core core).probeAt then s
  else match neighbour (core / 3) (nextProbe (core / 3) (s.core core).probe) with
    | some o => if dispatchFirst s o then s else probeDeque s core o
    | none => s

/-- Every core that acts in the present cycle has acted. -/
def cycleDone (s : State) : Bool := (activeCores s).all fun k => decide (s.time < nextCycle s k)

/-- The idle cores whose probes of the present cycle are still to come (R196). -/
def idleProbers (s : State) : List Nat :=
  if cycleDone s = false then []
  else ((s.cells.filter fun n => n.2.launch.isSome).flatMap fun n => (List.range 3).map (3 * n.1 + ·)).filter fun k =>
    coreIdle s k && decide ((s.core k).probeAt ≤ s.time)

/-- Cycles pass in which no core acts: the idle cores probe in each of them, and one that finds a task ends the wait (R196). -/
def passCycles : Nat → State → State
  | 0, s => s
  | n + 1, s =>
    let u := (idleProbers s).foldl probeNow s
    if activeCores u = [] ∧ idleProbers u = [] then passCycles n (u.moveTime (u.time + 1)) else u

/-- What happens at most once in a cycle, and next in cycle `t`, happens now; time moves there only when no core acts. -/
def atCycle (s : State) (t : Nat) : Option State :=
  if t ≤ s.time then some s
  else if activeCores s ≠ [] then none
  else
    let u := passCycles (t - s.time) s
    if t ≤ u.time then some u else none

/-- The moment at which an engine's completion may change a cell's counters: after the cores of the cell have acted in a cycle, and
before its neighbour port does (R193). -/
def engineTurn (s : State) (cell : Nat) : Option State :=
  if cellActed s cell then atCycle s (s.cell cell).depAt else none

/-- TASK_DISPATCH: the oldest ready task of the core's own deque starts; a core's dispatcher starts one in a cycle (R194). -/
def execTaskDispatch (core : Nat) (s : State) : Host.Outcome State Fault Refusal :=
  .next (if ¬ coreRuns s core then s
    else match ownTask s core, atCycle s (s.core core).dispAt with
      | some i, some s' =>
        (match (s.cell (core / 3)).deque[i]? with
         | some t => startTask (s'.modCore core fun x => { x with dispAt := s'.time + 1 }) (core / 3) core i t
         | none => s)
      | _, _ => s)

/-- STEAL_PROBE: an idle core probes one neighbour and may take its oldest fitting entry (R196). A core probes once in a cycle; a deque
whose own dispatchers still have a choice to make in the cycle waits for it; and of the probes of one cycle a deque serves the one
whose turn it is, and the others find nothing. (DEDUCED, log 48.) -/
def execStealProbe (core : Nat) (s : State) : Host.Outcome State Fault Refusal :=
  .next (if coreIdle s core = false then s
    else match atCycle s (s.core core).probeAt with
      | some u => probeNow u core
      | none => s)

/-- The neighbouring cores that could take an entry of a cell's deque (R196). -/
def stealers (s : State) (cell : Nat) : List Nat :=
  ((List.range 4).filterMap (neighbour cell)).flatMap fun n => ((List.range 3).map (3 * n + ·)).filter fun k =>
    coreIdle s k && (stealable s cell k).isSome

/-- The cell at which a decrement arrives (R376). -/
def depHome (s : State) (m : DepMsg) : Nat := placeIn s m.launch m.cell

/-- The launch whose cell a decrement is for is pre-empted: the decrement comes once it has resumed. -/
def depAway (s : State) (m : DepMsg) : Bool :=
  match m.launch.bind (Map.find s.host.launches) with
  | some l => l.stat == .preempted
  | none => false

/-- DEP_DEC_REMOTE: a decrement arrives through the neighbour port, after what the cell does in the cycle (R193, R195); at a cell that its launch
has left it finds no counter. -/
def execDepDecRemote (id : Nat) (s : State) : Host.Outcome State Fault Refusal :=
  .next (match s.depMsgs.find? (·.id == id) with
    | none => s
    | some m =>
      let home := depHome s m
      let x := s.cell home
      if cellActed s home = false ∨ depAway s m then s
      else
        let s := { s with depMsgs := s.depMsgs.filter (·.id != id) }
        if x.launch ≠ m.launch ∧ x.last ≠ m.launch then s
        else decDep (noteDec (s.modCell home fun x => { x with depAt := s.time + 1 }) home m.dep m.clock) home m.dep)

end Sys2Proof.Machine
end

