-- ==== Sys2Proof/Machine/Fetch.lean ====
section
/-! DEFINITION. Fetching an instruction word (R46, R49, R218), the test for a hint before it (R227), and breakpoints
(R400). -/

namespace Sys2Proof.Machine

/-- The half of an aligned 8-byte word that holds the instruction word at an address (R218). -/
def halfAt (w : Word) (pc : Nat) : IWord := .ofNat 32 (if pc / 4 % 2 = 0 then w.toNat else w.toNat / 2 ^ 32)

/-- An address lies in the code section of the context's process. (DEDUCED, log 13.) -/
def inCode (s : State) (c : Nat) (pc : Word) : Bool :=
  let x := s.cell (cellOf c)
  decide (x.codeBase ≤ pc.toNat ∧ pc.toNat < x.codeBase + x.codeSize)

/-- What a fetch gives. -/
inductive FetchRes where
  | word (w : IWord) (s : State) | stop (s : State)

/-- The word of an instruction cache (R46, R49). -/
def icacheWord (s : State) (k : Nat) (l : Loc) : Option Word :=
  match Map.find (s.core k).icache (l.key / 64) with
  | none => none
  | some c => if c.valid.getLsbD (l.key / 8 % 8) then some (c.words.getD (l.key / 8 % 8) 0) else none

/-- Brings a line into core k's instruction cache: its words without an uncorrectable error, and those that it held before as they
were (R46, R49). -/
def icacheFill (s : State) (k : Nat) (l : Loc) : State :=
  let line := l.key / 64
  let old := (Map.find (s.core k).icache line).getD { words := Vector.replicate 8 0, valid := 0, owned := 0 }
  let c := (List.range 8).foldl (fun (c : CLine) i =>
    let w := locOfKey (line * 64 + 8 * i)
    if c.valid.getLsbD i ∨ poisoned s w then c
    else { c with words := c.words.setIfInBounds i (readLoc s w), valid := setBit c.valid i true }) old
  (s.modCore k fun x => { x with icache := cacheRoom x.icache line (Config.victim s.fresh) c fun _ => false }).bump

/-- Fetches the word at the PC of context c. A target outside the code section faults PERM (R223, R263); a miss of the
instruction TLB waits for its walk (R32); the instruction cache keeps the word that it read first (R49). (DESIGN CHOICE, log 44.) -/
def fetch (s : State) (c : Nat) : FetchRes :=
  let pc := (s.ctx c).pc
  match translate s c .exec pc with
  | .miss => .stop (startWalk s c .exec pc)
  | .fault f => .stop (postFault s c f false)
  | .ok x =>
    if inCode s c pc = false then .stop (postFault s c ⟨fcPerm, x.level, 3, pc, x.entry, 0⟩ false)
    else
      match icacheWord s (coreOf c) x.loc, homeCheck s c x.loc with
      | some w, _ => .word (halfAt w pc.toNat) (fillCoreTlb s c .exec pc)
      | none, some f => .stop (postFault s c (homeFault .exec pc x f) false)
      | none, none =>
        let s := fillCoreTlb s c .exec pc
        if poisoned s x.loc then .stop (trapNow s c tcMemerr pc 3)
        else
          let s := touchHome s x.loc x.pl (clusterOfCell (cellOf c)) x.uc
          .word (halfAt (readLoc s x.loc) pc.toNat) (icacheFill s (coreOf c) x.loc)

/-- Whether a word is a hint word (R225). -/
def isHintWord (w : IWord) : Bool := decide (w.toNat / 2 ^ 25 = 0x7F ∧ w.toNat ≠ 2 ^ 32 - 1)

/-- The word at an address of the code section is a hint: false outside it or on an unmapped word. -/
def hintAt (s : State) (c : Nat) (pc : Word) : Bool :=
  inCode s c pc && match peekBy s c .exec pc (tlbOf s c .exec) with
    | .ok x => isHintWord (halfAt ((icacheWord s (coreOf c) x.loc).getD (readLoc s x.loc)) pc.toNat)
    | _ => false

/-- The test of R227 on the word before an address: false before the code section's first word or on an unmapped word. (DEDUCED, log 14.) -/
def prevIsHint (s : State) (c : Nat) (pc : Word) : Bool := inCode s c pc && hintAt s c (pc - 4)

/-- With six hint words or more to come, the hints that a context has executed are outside its next group: each was a unit of its own, and
the context stands at the start of another, where a request that it holds back is met (R227, R229). -/
def freshUnit (s : State) (c : Nat) : State :=
  if (s.ctx c).hints ≠ [] ∧ (List.range 6).all fun i => hintAt s c ((s.ctx c).pc + .ofNat 64 (4 * i)) then
    s.modCtx c fun x => { x with hints := [], midStop := false, bkSkip := false }
  else s

/-- The breakpoint registers that match a context about to issue the first word of a unit (R227, R400). -/
def bkptHits (s : State) (c : Nat) : List Nat :=
  let x := s.ctx c
  if x.bkSkip ∨ x.hints ≠ [] then []
  else
    let vf := ptVf (s.cell (cellOf c)).ptRoot
    (List.range 4).filter fun i =>
      let b := Map.at s.dev.bkpt (vf * 4 + i) 0
      b.getLsbD 63 && (b.getLsbD 61 || fieldN b 51 10 == (s.cell (cellOf c)).cellNo) &&
        (fieldN b 49 2 == 3 || fieldN b 49 2 == (kindOf c).code) && (fieldN b 45 4 == 15 || fieldN b 45 4 == slotOf c) &&
        (fieldN b 0 32 == wordOff s c x.pc) && inCode s c x.pc

/-- The breakpoint register that a stop report names: the lowest that matches (R401). -/
def bkptHit (s : State) (c : Nat) : Option Nat := (bkptHits s c).head?

end Sys2Proof.Machine
end

