-- ==== Sys2Proof/Machine/System.lean ====
section
/-! DEFINITION. Hint words and the fates of words (R225 to R227, R231), and the system instructions of 17 apart from
mailboxes, translation and launches: `sysrd`, `syswr`, `trap`, `eret`, `halt`, `mark`, `nop`, `feat`. -/

namespace Sys2Proof.Machine

/-! ### Hints -/

/-- The last six members of a run (R227). -/
def lastSix (l : List HintRec) : List HintRec := l.drop (l.length - 6)

/-- A hint word's turn: it joins the latch, or is ignored when the run was entered in its middle, and is then a unit that has ended (R226, R227,
R229). It writes nothing else, takes no loop-back step and leaves WAYPT alone (R216, R266). (DEDUCED, log 18.) -/
def hintStep (h : Hint) (s : State) : State :=
  let c := s.cur
  let x := s.me
  let ign := x.ignoring || (x.arrived && prevIsHint s c x.pc)
  (s.count (cellOf c) 16 1 1).setCtx c
    { x with hints := if ign then [] else lastSix (x.hints ++ [{ pc := x.pc, hint := h }]), ignoring := ign,
             arrived := false, bkSkip := x.bkSkip && !ign, midStop := x.midStop && !ign, pc := x.pc + 4 }

/-- Leaf 6 of FEATMASK hides `hint.log` (bit 1) and `hint.sched` (bit 2) from a virtual function (R237). -/
def hintHidden (s : State) (bit : Nat) : Bool :=
  s.featHides (ptVf s.myCell.ptRoot) 6 bit

/-- HINT_LOG (R225, R274). -/
def execHintLog (n : BitVec 24) (s : State) : Host.Outcome State Fault Refusal :=
  .next (hintStep (if hintHidden s 1 then .ignored else .log n.toNat) s)

/-- HINT_IMM (R228). -/
def execHintImm (p : BitVec 22) (s : State) : Host.Outcome State Fault Refusal := .next (hintStep (.imm p) s)

/-- HINT_SCHED (R225, R255): ALLOC 1 leaves the line of a load unallocated; LAST only lets the core drop the line, which this model's
core does not. -/
def execHintSched (_l : BitVec 1) (a : BitVec 2) (s : State) : Host.Outcome State Fault Refusal :=
  .next (hintStep (if hintHidden s 2 then .ignored else .sched a.toNat) s)

/-- HINT_MOD: a rounding mode (R154). -/
def execHintMod (r : BitVec 2) (s : State) : Host.Outcome State Fault Refusal := .next (hintStep (.mod r.toNat) s)

/-- HINT_UNKNOWN: ignored (R226). -/
def execHintUnknown (_p : BitVec 22) (s : State) : Host.Outcome State Fault Refusal := .next (hintStep .ignored s)

/-- IGNORED_HINT: a hint with a reserved payload bit or an unknown kind (R226). -/
def execIgnoredHint (_w : IWord) (s : State) : Host.Outcome State Fault Refusal := .next (hintStep .ignored s)

/-! ### The fates of words (R231, R232) -/

/-- UNASSIGNED_WORD traps ILLEGAL_OP (R231). -/
def execUnassignedWord (_w : IWord) (s : State) : Host.Outcome State Fault Refusal :=
  .next (trapPlain s s.cur tcIllegalOp)

/-- The core that owns an opcode, or any (R230). -/
def opOwner (op : Nat) : Option CoreKind :=
  if 0x41 ≤ op ∧ op ≤ 0x44 then some .m
  else if 0x46 ≤ op ∧ op ≤ 0x4D then some .a
  else if 0x4E ≤ op ∧ op ≤ 0x51 then some .c
  else if op = 0x52 ∨ (0x58 ≤ op ∧ op ≤ 0x5D) ∨ op = 0x7D then some .a
  else if (0x60 ≤ op ∧ op ≤ 0x62) ∨ (0x64 ≤ op ∧ op ≤ 0x66) ∨ op = 0x68 ∨ op = 0x7C then some .m
  else none

/-- A field of kind TA of the word names an accumulator (R220): TSHAPE, TMOVE and TELEM. -/
def wordTa (w : IWord) : Bool :=
  let n := w.toNat
  let op := n / 2 ^ 25
  (op == 0x40 && decide (12 ≤ bitsAt n 21 4)) ||
  (op == 0x45 && (decide (12 ≤ bitsAt n 21 4) || (bitsAt n 4 5 == 2 && decide (12 ≤ bitsAt n 17 4)))) ||
  (op == 0x54 && decide (12 ≤ bitsAt n 20 4))

/-- FIELDS_ILLEGAL: the checks of `Decode` up to its fields, in order (R231). -/
def execFieldsIllegal (w : IWord) (s : State) : Host.Outcome State Fault Refusal :=
  let op := w.toNat / 2 ^ 25
  .next (gated s { op := op, owner := opOwner op, ta := wordTa w, legal := false, srcs := [], plain := [] } id)

/-! ### System registers (R354, R355) -/

/-- SPCFG (R59). -/
def spcfg (s : State) (g : Nat) : Word :=
  let k := s.cluster g
  .ofNat 64 (k.epoch % 2 ^ 32 * 2 ^ 8 + (if k.busy then 2 ^ 5 else 0) + k.conv)

/-- LBSTAT (R278). -/
def lbstat (x : CellSt) : Word := .ofNat 64 ((if x.lbDet then 2 ^ 63 else 0) + x.lbClash % 2 ^ 16 * 2 ^ 16 + x.lbDrop % 2 ^ 16)

/-- What a read of a copy register shows: the fields RSVD of CPEXT and CPATTR read 0 (R16), though a copy that is issued with them set ends in
BADARG (R335, R336). (DEDUCED, log 94.) -/
def cpSeen (n : Nat) (v : Word) : Word :=
  if n = 2 then v &&& 0xFFFFFFFF00FFFFFF else if n = 5 then v &&& 0x000007FFFFC3FFFF else v

/-- The value of a system register for a context; none for an unassigned number (R354). -/
def sysValue (s : State) (c n : Nat) : Option Word :=
  let x := s.ctx c
  let cell := s.cell (cellOf c)
  if n = 0x000 then some (ctxId c)
  else if n = 0x001 then some (.ofNat 64 cell.cellNo)
  else if n = 0x002 then some cell.lpos
  else if n = 0x003 then some (.ofNat 64 s.dev.devno)
  else if n = 0x004 then some cell.ptRoot
  else if n = 0x005 then some cell.winLen
  else if n = 0x006 then some (lbstat cell)
  else if n = 0x007 then some cell.depUnf
  else if n = 0x008 then some (spcfg s (clusterOfCell (cellOf c)))
  else if n = 0x009 then some (.ofNat 64 s.dev.mscSize)
  else if n = 0x00A then some cell.cpWgt
  else if 0x010 ≤ n ∧ n ≤ 0x01F then some (Map.at s.dev.slsub (n - 0x010) (BitVec.allOnes 64))
  else if 0x020 ≤ n ∧ n ≤ 0x02B then some (Map.at s.dev.sndcnt (n - 0x020) 0)
  else if n = 0x030 then some x.waypt
  else if n = 0x031 then some x.loopPc
  else if n = 0x032 then some x.loopCnt
  else if n = 0x033 then some x.loopSl
  else if n = 0x034 then some (if kindOf c = .a then x.mbatch else 0)
  else if 0x038 ≤ n ∧ n ≤ 0x03F then some (if kindOf c = .m then cpSeen (n - 0x038) (x.cp.getD (n - 0x038) 0) else 0)
  else if n = 0x040 then some x.trCause
  else if n = 0x041 then some x.trPc
  else if n = 0x042 then some x.trVa
  else if n = 0x043 then some x.trWay
  else if n = 0x044 then some x.trLoop
  else if n = 0x045 then some x.trVec
  else if n = 0x046 then some x.trScr
  else if n = 0x048 then some (.ofNat 64 (x.mbFrom % 2 ^ 17 * 2 ^ 32 + x.mbox.length))
  else none

/-- Whether `syswr` may name a register: one with a writable field (R354, R355). -/
def sysWritable (n : Nat) : Bool :=
  n == 0x007 || (decide (0x030 ≤ n ∧ n ≤ 0x033)) || decide (0x040 ≤ n ∧ n ≤ 0x046)

/-- The writable fields of a context register; reserved and read-only fields keep their value (R355). -/
def sysWriteCtx (n : Nat) (v : Word) (x : Ctx) : Ctx :=
  if n = 0x030 then
    { x with waypt := setField (setField x.waypt 59 5 (fieldN v 59 5)) 0 16 (fieldN v 0 16) }
  else if n = 0x031 then { x with loopPc := v }
  else if n = 0x032 then { x with loopCnt := v }
  else if n = 0x033 then { x with loopSl := setField x.loopSl 0 26 (fieldN v 0 26) }
  else if n = 0x040 then { x with trCause := setField x.trCause 0 40 (fieldN v 0 40) }
  else if n = 0x041 then { x with trPc := v }
  else if n = 0x042 then { x with trVa := v }
  else if n = 0x043 then { x with trWay := v }
  else if n = 0x044 then { x with trLoop := v }
  else if n = 0x045 then { x with trVec := v }
  else if n = 0x046 then { x with trScr := v }
  else x

/-- SYSRD (R355). -/
def execSysrd (d : BitVec 5) (n : BitVec 12) (s : State) : Host.Outcome State Fault Refusal :=
  .next (gated s (anyGate 0x70 true [] [d.toNat]) fun s =>
    match sysValue s s.cur n.toNat with
    | none => trapIssued s s.cur tcSysArg 0 0
    | some v => finishReg s 0 d v)

/-- SYSWR (R355): a write of DEPUNF clears the bits that are 1; LOOPSL, WAYPT and TRCAUSE keep their other fields. (DEDUCED, log 74.) -/
def execSyswr (a : BitVec 6) (n : BitVec 12) (s : State) : Host.Outcome State Fault Refusal :=
  let g := anyGate 0x71 true [fieldOf a] []
  .next (gated s g fun s =>
    if sysWritable n.toNat = false then trapIssued s s.cur tcSysArg 0 0
    else
      let v := s.me.src a
      let s := if n.toNat = 0x007 then s.modMyCell fun x => { x with depUnf := x.depUnf &&& ~~~v } else s
      finish s s.cur (sMask g.srcs) (sysWriteCtx n.toNat v) .fall)

/-! ### Traps, return, stopping (R359, R361, R362) -/

/-- TRAP (R361): USER with ARG; TRPC is the word after it. The S bit's register stays full, as for every trap (R219). -/
def execTrap (a : BitVec 6) (i : BitVec 14) (s : State) : Host.Outcome State Fault Refusal :=
  let g := anyGate 0x72 true [fieldOf a] []
  .next (gated s g fun s =>
    let v := s.me.src a + wordOfInt i.toInt
    let t := (s.count (cellOf s.cur) 16 1 1).modMe Ctx.consumeArm
    trapEntry t s.cur { code := tcUser, pc := none, va := 0, kind := 0, fcause := 0, arg := v.toNat % 2 ^ 16, late := false,
                        reg := 0 } (s.me.pc + 4))

/-- ERET (R359): SYSARG when INH = 0. -/
def execEret (s : State) : Host.Outcome State Fault Refusal :=
  .next (gated s (anyGate 0x73 true [] []) fun s => trapReturn s s.cur)

/-- HALT (R362): `ReleaseWait`, then HALTED. -/
def execHalt (s : State) : Host.Outcome State Fault Refusal :=
  .next (gated s (anyGate 0x74 true [] []) fun s =>
    releaseThen s s.cur fun s =>
      (s.count (cellOf s.cur) 16 1 1).modMe fun x => { x.consumeArm.dropHints with stat := .halted })

/-- The number of blocks with a snapshot set (R398): 1024 cells, 64 copy engines, 64 slices, the 771 memory controllers of `controllerOf`, 12
stacks, 16 pilot cores and 18 tether ports, in this order. (DEDUCED, log 49.) -/
def nBlocks : Nat := 1969

/-- A MARK (R362, R398): a new one counts in MARKSEQ and reaches every block; one that finds another in progress merges. -/
def raiseMark (s : State) : State :=
  s.modDev fun d => if d.marking = [] then { d with markSeq := d.markSeq + 1, marking := List.range nBlocks } else d

/-- MARK (R362): completes at issue and orders nothing. -/
def execMark (s : State) : Host.Outcome State Fault Refusal :=
  .next (gated s (anyGate 0x75 true [] []) fun s => finish (raiseMark s) s.cur 0 id .fall)

/-- NOP (R362). -/
def execNop (s : State) : Host.Outcome State Fault Refusal :=
  .next (gated s (anyGate 0x7B true [] []) fun s => finish s s.cur 0 id .fall)

/-! ### Feature leaves (R234, R363, R405) -/

/-- The Tsuyr's leaves (R234, R405). -/
def featLeaf (l : Nat) : Word :=
  match l with
  | 0 => 0x5759096000023F01
  | 1 => 0x040040410BC48408
  | 2 => 0x03FFFF01FFFF3FFE
  | 3 => 0xBFFF03FF3F1FFFFF
  | 4 => 0
  | 5 => 0x3000000000000000
  | 6 => 0x000000000000000F
  | 7 => 0x0000000F001FFFFE
  | 8 => 0x03C0040001001000
  | 16 => 0x0000000000000FFF
  | 17 => 0x00000000000000FF
  | _ => 0

/-- FEAT (R363): leaf Wrap(S(a) + imm, 16) under the function's mask. -/
def execFeat (d : BitVec 5) (a : BitVec 6) (i : BitVec 14) (s : State) : Host.Outcome State Fault Refusal :=
  let g := anyGate 0x76 true [fieldOf a] [d.toNat]
  .next (gated s g fun s =>
    let l := (s.me.src a + wordOfInt (s.me.imm i)).toNat % 2 ^ 16
    let vf := ptVf s.myCell.ptRoot
    let m := if vf = 0 then BitVec.allOnes 64 else Map.at s.dev.featmask (vf * 64 + l) (BitVec.allOnes 64)
    finishReg s (sMask g.srcs) d (if l > 63 then 0 else featLeaf l &&& m))

end Sys2Proof.Machine
end

