-- ==== Sys2Proof/Machine/Bank.lean ====
section
/-! DEFINITION. Scratchpad banks (R50 to R54, R125) and the barrier objects that live in them (R345 to R347): one step of a
word at its bank, the release of waiting contexts, the arbitration of a bank's cycle, and the barrier instructions. -/

namespace Sys2Proof.Machine

/-! ### One step at a bank -/

/-- A step of a barrier object (R347). -/
def WordOp.isBar : WordOp → Bool
  | .barInit _ | .barExpect _ | .barArrive | .barAck | .barWait _ | .barAdd _ | .barCount _ => true
  | _ => false

/-- The operations whose bytes phase q of a barrier counted: a wait that finds the phase complete observes them (R146). -/
def phaseOps (s : State) (g p q : Nat) : List Nat :=
  ((s.cluster g).counted.filter fun e => e.1 == p && e.2.1 == q).map (·.2.2)

/-- A context observes operations complete (R139). -/
def Ctx.sees (x : Ctx) (l : List Nat) : Ctx := { x with seen := l ++ x.seen.filter fun o => !l.contains o }

/-- The clock that the arrivals of phase q of a barrier bring (R146). -/
def phaseClock (s : State) (g p q : Nat) : Clock := Map.at (s.cluster g).barClk (2 * p + q) []

/-- An arrival that a barrier counts brings its release's clock to the phase (R146). -/
def noteArrival (s : State) (g p : Nat) (op : WordOp) (k : Clock) : State :=
  let w := (s.cluster g).spad.word p
  let arrives := match op with | .barArrive | .barAck => true | _ => false
  if arrives = false ∨ barArr w = 0 ∨ poisoned s (.spad g p) then s
  else s.modCluster g fun x =>
    { x with barClk := Map.put x.barClk (2 * p + barPhase w) (joinClock (Map.at x.barClk (2 * p + barPhase w) []) k) }

/-- The bank releases the waiters of a barrier whose p differs from its PHASE: each completes its `bar.wait`, observes and
acquires; one that has not parked yet does so at its turn, with what this phase has counted (R146, R347). -/
def releaseWaiters (s : State) (g p : Nat) : State :=
  let ph := barPhase ((s.cluster g).spad.word p)
  let go (w : BarWaiter) : Bool := w.phys == p && w.p != ph
  let out := (s.cluster g).waiters.filter go
  let s := s.modCluster g fun k => { k with waiters := k.waiters.filter fun w => !go w }
  out.foldl (fun s w =>
    let x := s.ctx w.ctx
    let l := phaseOps s g p w.p
    let k := phaseClock s g p w.p
    if x.stat = .parked ∧ x.park = .barrier then
      let s := (noteSeen s w.ctx l).modCtx w.ctx fun x => { x.sees l with spadReq := none }
      completeParked (acquireFrom s w.ctx k) w.ctx w.sbits
    else s.modCtx w.ctx fun x => { x with spadReq := x.spadReq.map fun r => { r with ops := l, got := k } }) s

/-- Keeps account of the operations that a barrier's phases counted, and of what their arrivals bring: a new phase begins with none (R146). -/
def notePhase (s : State) (g p : Nat) (old new : Word) (op : WordOp) (eng : Option Nat) : State :=
  s.modCluster g fun k =>
    let l := match eng with
      | some o => (p, barPhase old, o) :: k.counted
      | none => k.counted
    let init := match op with | .barInit _ => true | _ => false
    let gone (b q : Nat) : Bool := b == p && (init || (barPhase new != barPhase old && q == barPhase new))
    { k with counted := l.filter fun e => !gone e.1 e.2.1, barClk := k.barClk.filter fun e => !gone (e.1 / 2) (e.1 % 2) }

/-- One step of a scratchpad word at its bank for context c: the state, the word found, whether the step was refused and
whether an uncorrectable error stopped it (R76, R347). A wait whose phase is open joins the bank's waiters; `eng` is the
operation whose bytes the step counts. -/
def spadStep (s : State) (c g p : Nat) (op : WordOp) (eng : Option Nat := none) : State × Word × Bool × Bool :=
  let w := (s.cluster g).spad.word p
  let plainWrite := match op with | .write _ _ | .barInit _ => true | _ => false
  if poisoned s (.spad g p) ∧ plainWrite = false then (s, w, false, true)
  else
    let (nw, old, ref) := op.apply w
    let s := if op.writes w then writeLoc s (.spad g p) nw op.whole (0, threadOf s c) else s
    let s := match op with
      | .barWait q => if barPhase w = q then
          s.modCluster g fun k => { k with waiters := k.waiters ++ [{ ctx := c, phys := p, p := q, sbits := 0 }] } else s
      | _ => s
    (if op.isBar && !ref then releaseWaiters (notePhase s g p w nw op eng) g p else s, old, ref, false)

/-- A release's step at a bank leaves its clock with the word that it writes (R101): an atomic's, or that of a `st.rel`. -/
def spadRel (s : State) (g p : Nat) (op : WordOp) (old : Word) (rel : Bool) (k : Clock) : State :=
  match op with
  | .amo _ _ _ _ _ _ => if op.writes old then noteRel s (.spad g p) true k else s
  | .write _ _ => if rel then noteRel s (.spad g p) false k else s
  | _ => s

/-- What a step finds with the word: what its value brings to an acquire, or the operations and the clock of a phase that a wait finds
complete (R101, R146). -/
def spadFinds (s : State) (g p : Nat) (op : WordOp) : Clock × List Nat :=
  match op with
  | .barWait q => if barPhase ((s.cluster g).spad.word p) = q then ([], []) else (phaseClock s g p q, phaseOps s g p q)
  | _ => (relNow s (.spad g p), [])

/-- A step for a context that waits at its instruction: the result goes to its request (R54). -/
def spadServe (s : State) (c g p : Nat) (op : WordOp) : State :=
  let (got, ops) := spadFinds s g p op
  let k := releaseClock s c
  let rel := (s.ctx c).spadReq.any (·.rel)
  let (s, old, ref, bad) := spadStep (noteArrival s g p op k) c g p op
  let s := if bad then s else spadRel s g p op old rel k
  s.modCtx c fun x => { x with spadReq := x.spadReq.map fun r =>
    { r with result := some (old, ref, bad), got := if got = [] then r.got else got, ops := if ops = [] then r.ops else ops } }

/-- The value of a load or atomic arrives: the instruction completes, its destination is written, its events are recorded, and it
acquires what the value brings (R101, R219, R252, R258, R275). -/
def accArrives (s : State) (a : Acc) (w : Word) (got : Clock) : State :=
  let s := s.modCtx a.ctx fun x =>
    let x := x.completes (.acc a.id)
    if x.isBusy a.dest then x.arrive a.dest (takeBytes w a.off a.size) else x
  let s := wakeRead (exitLate (loadLate s a.ctx a.slot) a.ctx a.exitEv) a.ctx
  if a.acq then acquireFrom s a.ctx got else s

/-- An access leaves those in flight, and its entry of the send queue frees. -/
def accEnds (s : State) (a : Acc) : State :=
  entryFrees { s with accs := s.accs.filter (·.id != a.id) } (coreOf a.ctx)

/-- A store is owned: the full bits that it held are cleared, and the exit event of the loop that it ends is recorded (R219, R255, R275). -/
def storeEnds (s : State) (a : Acc) : State :=
  exitLate (s.modCtx a.ctx fun x => x.completes (.acc a.id)) a.ctx a.exitEv

/-- An access from another cluster is performed at the head of the engine queue (R53): a load's value arrives, a store is
owned, an atomic acquires; a waiting barrier instruction gets its answer. -/
def spadEngine (s : State) (a : Acc) : State :=
  match a.loc with
  | .spad g p =>
    let s := accEnds s a
    (match a.op with
     | .read | .amo _ _ _ _ _ _ =>
       let got := relNow s (.spad g p)
       let (s, w, _, bad) := spadStep s a.ctx g p a.op
       if bad then accFails s a (if a.op = .read then .read else .atomic)
       else accArrives (spadRel s g p a.op w a.rel a.clock) a w got
     | .write _ _ | .barInit _ =>
       let (s, w, _, _) := spadStep s a.ctx g p a.op
       storeEnds (spadRel s g p a.op w a.rel a.clock) a
     | op => spadServe s a.ctx g p op)
  | _ => s

/-- The context on whose behalf a posted step is performed: the acknowledging one, or the one that issued the copy. The class and writer of
a byte count's step are not stated: it counts as a class-LS write of that context (DESIGN CHOICE, log 100). -/
def BarPost.writer (p : BarPost) (s : State) : Nat :=
  match p.acc, p.eng with
  | some c, _ => c
  | none, some (op, _) => ((s.ops.find? (·.id == op)).map (·.ctx)).getD 0
  | none, none => 0

/-- A posted step is performed at its bank; a count that the EXPB range cannot take waits (R347). An uncorrectable error in the barrier
word becomes a late MEMERR of the context that posted an acknowledgement (R76). -/
def barPost (s : State) (id : Nat) (k : State → BarPost → Bool → State) : State :=
  match s.posts.find? (·.id == id) with
  | none => s
  | some p =>
    let (t, _, ref, bad) := spadStep (noteArrival s p.cluster p.phys p.op p.clock) (p.writer s) p.cluster p.phys p.op (p.eng.map (·.1))
    if ref then s
    else
      let t := { t with posts := t.posts.filter (·.id != id) }
      let t := match p.acc with
        | none => t
        | some c => if bad then lateAbandon (lateMemerr t c 0 (.acc id) p.va .atomic) c (.acc id) else lateDone t c (.acc id) fun x => x
      k t p bad

/-- The head of a bank's engine queue is served: an access or a posted step is performed there; an engine's own access has had its
turn, and the engine goes on. -/
def serveEngine (s : State) (id : Nat) : State :=
  match s.accs.find? (·.id == id) with
  | some a => spadEngine s a
  | none => barPost s id fun s _ _ => s

/-! ### A bank's cycle (R53) -/

/-- The number of a context's core within its cluster. -/
def coreInCluster (c : Nat) : Nat := coreOf c % 48

/-- New accesses in the cyclic order of their core numbers from a pointer. -/
def cyclicOrder (l : List BankReq) (ptr : Nat) : List BankReq :=
  ((List.range 48).map fun i => (ptr + i) % 48).foldl (fun acc k => acc ++ l.filter fun r => coreInCluster r.ctx == k) []

/-- New accesses that do not succeed enter the forfeit queue; their contexts forfeit. -/
def forfeitAll (s : State) (g b : Nat) (l : List BankReq) : State :=
  l.foldl (fun s r => (s.modBank g b fun x => { x with forfeit := x.forfeit ++ [r] }).count (cellOf r.ctx) 16 2 1) s

/-- SPAD_BANK_CYCLE: a bank serves one access (R53). A new access that succeeds gives its context the rest of its turn. (DEDUCED, log 20.) -/
def execSpadBankCycle (cluster bank : Nat) (s : State) : Host.Outcome State Fault Refusal :=
  let b := Map.at (s.cluster cluster).banks bank Bank.reset
  let s0 := s.modBank cluster bank fun x => { x with present := [] }
  .next (match b.forfeit, b.engine with
    | [], [] =>
      (match cyclicOrder b.present b.ptr with
       | [] => s
       | r :: rest =>
         let ptr := if rest = [] then b.ptr else (coreInCluster r.ctx + 1) % 48
         let s := s0.modBank cluster bank fun x => { x with ptr := ptr }
         let s := spadServe s r.ctx cluster r.phys r.op
         let s := forfeitAll s cluster bank (cyclicOrder rest ptr)
         { s with turns := s.turns ++ [r.ctx] })
    | f, e =>
      let takeForfeit := match f, e with
        | [], _ => false
        | _, [] => true
        | _, _ => !b.servedForfeit
      let s := s0.modBank cluster bank fun x => { x with servedForfeit := takeForfeit }
      let s := if takeForfeit then
          (match f with
           | r :: rest => spadServe (s.modBank cluster bank fun x => { x with forfeit := rest }) r.ctx cluster r.phys r.op
           | [] => s)
        else
          (match e with
           | id :: rest => serveEngine (s.modBank cluster bank fun x => { x with engine := rest }) id
           | [] => s)
      forfeitAll s cluster bank (cyclicOrder b.present b.ptr))

/-! ### Barrier instructions (R345 to R347) -/

/-- An address in a scratchpad window, SPAD or SPADG (R20). (DEDUCED, log 70.) -/
def barWindow (va : Word) : Bool := va.toNat / 2 ^ 48 == 0xF0 || va.toNat / 2 ^ 48 == 0xF1

/-- A barrier's access: MISALIGN, then BARARG for an address outside the scratchpad windows, then the window's faults (R346). -/
def barMem (s : State) (va : Word) (k : AccessKind) (done : State → Word → Word → Bool → State)
    (go : State → Word → Xlat → State) : State :=
  if va.toNat % 8 = 0 ∧ barWindow va = false then trapIssued s s.cur tcBarArg 0 0
  else memAccess s (.ok va) 8 k done go

/-- The checks on a barrier's address and its presentation (R346). `done` receives the word found and whether the step was refused. -/
def barAccess (s : State) (va : Word) (k : AccessKind) (op : WordOp) (done : State → Word → Bool → State) : State :=
  barMem s va k
    (fun s _ w bad => done s w bad)
    (fun s _ x =>
      match x.loc with
      | .spad _ _ =>
        if ownSpad s x.loc then presentSpad s x.loc op
        else withEntry s fun s =>
          let t := sendAcc s va x op 0 8 0 false false 0 none
          (match x.loc with
           | .spad g p => t.modMe fun y => { y with spadReq := some { cluster := g, phys := p, op := op, result := none } }
           | _ => t)
      | _ => trapIssued s s.cur tcBarArg 0 0)

/-- The result of a barrier step as the context's request holds it: whether it was refused. -/
def barRefused (s : State) : Bool :=
  match s.me.spadReq with
  | some r => (match r.result with | some (_, ref, _) => ref | none => false)
  | none => false

/-- BAR_INIT: a plain store of INIT, ARR and EXPB; other bits set in S(b) trap BARARG (R345, R347). -/
def execBarInit (a b : BitVec 6) (s : State) : Host.Outcome State Fault Refusal :=
  let g := anyGate 0x63 true [fieldOf a, fieldOf b] []
  .next (gated s g fun s =>
    let v := s.me.src b
    let va := s.me.src a
    if va.toNat % 8 = 0 ∧ (fieldN v 56 8 ≠ 0 ∨ fieldN v 24 16 ≠ 0) then trapIssued s s.cur tcBarArg 0 0
    else barMem s va .write
      (fun s _ _ _ => finish s s.cur (sMask g.srcs) id .fall)
      (fun s _ x =>
        match x.loc with
        | .spad _ _ =>
          if ownSpad s x.loc then presentSpad s x.loc (.barInit v)
          else withEntry s fun s =>
            let id := s.fresh
            finish (sendAcc s va x (.barInit v) 0 8 0 false false (sMask g.srcs) none (loopExit s s.cur)) s.cur 0
              (fun y => y.hold (.acc id) (sMask g.srcs)) .fallLater
        | _ => trapIssued s s.cur tcBarArg 0 0))

/-- BAR_EXPECT: adds to EXPB; BAROVF when the result leaves its range (R347). -/
def execBarExpect (a b : BitVec 6) (s : State) : Host.Outcome State Fault Refusal :=
  let g := anyGate 0x63 true [fieldOf a, fieldOf b] []
  .next (gated s g fun s =>
    let ref := barRefused s
    barAccess s (s.me.src a) .atomic (.barExpect (s.me.src b)) fun s _ bad =>
      if bad then spadError s 0 (s.me.src a) .atomic
      else if ref then trapIssued s s.cur tcBarOvf 0 0
      else finish s s.cur (sMask g.srcs) id .fall)

/-- BAR_ARRIVE: a release; d := the PHASE it counts into; BARARG when ARR = 0 (R347). -/
def execBarArrive (d : BitVec 5) (a : BitVec 6) (s : State) : Host.Outcome State Fault Refusal :=
  let g := anyGate 0x63 true [fieldOf a] [d.toNat]
  .next (gated s g fun s =>
    let k (s : State) :=
      let ref := barRefused s
      barAccess s (s.me.src a) .atomic .barArrive fun s w bad =>
        if bad then spadError s d.toNat (s.me.src a) .atomic
        else if ref then trapIssued s s.cur tcBarArg 0 0
        else finishReg s (sMask g.srcs) d (.ofNat 64 (barPhase w))
    if s.me.spadReq.isSome then k s else releaseThen s s.cur k)

/-- BAR_ACK: a release, then one step at the bank: in its own cluster a new access of the context, and through SPADG a request that
enters the bank's engine queue, for which the context does not wait (R346, R347). (DEDUCED, log 21.) The request needs a free send-queue
entry at its issue and holds none afterwards (DESIGN CHOICE, log 11). -/
def execBarAck (a : BitVec 6) (s : State) : Host.Outcome State Fault Refusal :=
  let g := anyGate 0x63 true [fieldOf a] []
  .next (gated s g fun s =>
    let k (s : State) := barMem s (s.me.src a) .atomic
      (fun s va _ bad => if bad then spadError s 0 va .atomic else finish s s.cur (sMask g.srcs) id .fall)
      (fun s va x =>
        match x.loc with
        | .spad gl p =>
          if ownSpad s x.loc then presentSpad s x.loc .barAck
          else withEntry s fun s =>
            let post : BarPost :=
              { id := s.fresh, cluster := gl, phys := p, op := .barAck, eng := none, acc := some s.cur, va := va,
                clock := releaseClock s s.cur }
            finish (queueAt { s.bump with posts := s.posts ++ [post] } gl p post.id) s.cur 0
              (fun y => y.hold (.acc post.id) (sMask g.srcs)) (.fallOwing (.acc post.id))
        | _ => trapIssued s s.cur tcBarArg 0 0)
    if s.me.spadReq.isSome then k s else releaseThen s s.cur k)

/-- BAR_WAIT: returns when PHASE differs from p = S(b)[0], else parks until the bank releases it; then it acquires
(R346, R347). -/
def execBarWait (a b : BitVec 6) (s : State) : Host.Outcome State Fault Refusal :=
  let g := anyGate 0x63 true [fieldOf a, fieldOf b] []
  .next (gated s g fun s =>
    let q := fieldN (s.me.src b) 0 1
    let req := s.me.spadReq
    barAccess s (s.me.src a) .read (.barWait q) fun s _ bad =>
      if bad then spadError s 0 (s.me.src a) .atomic
      else
        let waits := match req with
          | some r => (s.cluster r.cluster).waiters.any fun w => w.ctx == s.cur && w.phys == r.phys
          | none => false
        if waits then
          let mark (w : BarWaiter) : BarWaiter := if w.ctx = s.cur then { w with sbits := sMask g.srcs } else w
          let s := match req with
            | some r => s.modCluster r.cluster fun k => { k with waiters := k.waiters.map mark }
            | none => s
          parkFor s s.cur .barrier 0
        else
          let (l, k) := match req with
            | some r => (r.ops, r.got)
            | none => ([], [])
          finish (acquireFrom (noteSeen s s.cur l) s.cur k) s.cur (sMask g.srcs) (fun x => x.sees l) .fall)

/-- BAR_ACK_AT_BANK: a posted acknowledgement whose turn it is in its bank's engine queue is served in the bank's cycle (R53, R347). -/
def execBarAckAtBank (id : Nat) (s : State) : Host.Outcome State Fault Refusal :=
  match s.posts.find? (·.id == id) with
  | none => .next s
  | some p =>
    let b := Map.at (s.cluster p.cluster).banks (bankOf p.phys) Bank.reset
    if b.engine.head? = some id ∧ (b.forfeit = [] ∨ b.servedForfeit) then execSpadBankCycle p.cluster (bankOf p.phys) s else .next s

end Sys2Proof.Machine
end

