-- ==== Sys2Proof/Machine/Fix.lean ====
section
/-! DEFINITION. Fix arithmetic (R85, R87, R88): scores, the running fix of a sounder, merging and normalising. Values are F32
patterns; every rounding is RNE to F32, whatever the hints (R155). -/

namespace Sys2Proof.Machine

/-- A partial fix: running maximum, running sum and accumulator, as F32 patterns. -/
structure Fix where
  m   : Nat
  l   : Nat
  acc : List Nat
deriving DecidableEq, Repr

/-- The value of an F32 pattern. -/
def f32v (x : Nat) : FVal := f32.decode x

/-- `RoundRNE(x, F32)`. -/
def r32 (v : FVal) : Nat := f32.round .rne v

/-- The pattern of -∞ in F32. -/
def negInf32 : Nat := f32.infBits true

/-- The empty fix (−∞, 0, 0) (R83, R84). -/
def Fix.empty (d : Nat) : Fix := { m := negInf32, l := 0, acc := List.replicate d 0 }

/-- `NanFix` (R87). -/
def Fix.nan (d : Nat) : Fix := { m := f32.nanBits, l := f32.nanBits, acc := List.replicate d f32.nanBits }

/-- `Score` (R87): one rounding per product, in ascending order. -/
def scoreFrom (s : Nat) : List Nat → List FVal → Nat
  | q :: qs, k :: ks => scoreFrom (r32 (FVal.add .rne (f32v s) (FVal.mul (f32v q) k))) qs ks
  | _, _ => s

/-- `Score` from +0.0 (R87). -/
def score (q : List Nat) (k : List FVal) : Nat := scoreFrom 0 q k

/-- `Exp2` of the exact difference of two F32 values, rounded (R87). -/
def exp2Diff (x y : Nat) : Nat := r32 (FVal.exp2 (FVal.add .rne (f32v x) (f32v y).neg))

/-- The product of two F32 values, rounded. -/
def mul32 (x y : Nat) : Nat := r32 (FVal.mul (f32v x) (f32v y))

/-- Whether an F32 pattern is +∞. -/
def isPosInf32 (x : Nat) : Bool := f32v x == .inf false

/-- Whether an F32 pattern is −∞. -/
def isNegInf32 (x : Nat) : Bool := f32v x == .inf true

/-- `Absorb` (R87): the fix after a token of score s and value row v, and whether the score made it NaN. -/
def absorb (f : Fix) (s : Nat) (v : List FVal) : Fix × Bool :=
  if (f32v f.m).isNan then (f, false)
  else if (f32v s).isNan || isPosInf32 s then (Fix.nan f.acc.length, true)
  else if isNegInf32 s then (f, false)
  else
    let f : Fix := if FVal.lt (f32v f.m) (f32v s) then
        let c := exp2Diff f.m s
        { m := s, l := mul32 f.l c, acc := f.acc.map fun a => mul32 a c }
      else f
    let p := exp2Diff s f.m
    ({ m := f.m, l := r32 (FVal.add .rne (f32v f.l) (f32v p)),
       acc := List.zipWith (fun a x => r32 (FVal.add .rne (f32v a) (FVal.mul (f32v p) x))) f.acc v }, false)

/-- a × c + b × e with one rounding (R88). -/
def blend (a c b e : Nat) : Nat := r32 (FVal.add .rne (FVal.mul (f32v a) (f32v c)) (FVal.mul (f32v b) (f32v e)))

/-- `Merge` (R88), and whether an M of +∞ made it NaN: also when the other M is NaN. (DESIGN CHOICE, log 84.) (DEDUCED, log 28.) -/
def mergeFix (f g : Fix) : Fix × Bool :=
  let d := f.acc.length
  if isPosInf32 f.m || isPosInf32 g.m then (Fix.nan d, true)
  else if (f32v f.m).isNan || (f32v g.m).isNan then (Fix.nan d, false)
  else
    let m := if FVal.lt (f32v f.m) (f32v g.m) then g.m else f.m
    if isNegInf32 m then (Fix.empty d, false)
    else
      let c := exp2Diff f.m m
      let e := exp2Diff g.m m
      ({ m := m, l := blend f.l c g.l e, acc := List.zipWith (fun a b => blend a c b e) f.acc g.acc }, false)

/-- `Norm` (R88). -/
def normFix (f : Fix) : List Nat :=
  f.acc.map fun a =>
    if (f32v f.m).isNan || isPosInf32 f.m then f32.nanBits
    else if FVal.eq (f32v f.l) (.fin false 0 0) then 0
    else r32 (FVal.div (f32v a) (f32v f.l))

end Sys2Proof.Machine
end

