-- ==== Sys2Proof/Machine/CoreEvents.lean ====
section
/-! DEFINITION. The steps that accesses, walks, faults, traps and the barrel take outside a context's own turn: stores,
atomics and loads at their homes, owned bits and revokes, line fills, page walks, fault replies, trap entry, the barrel,
the chart banks' refresh, and the write-backs that `fence.x` awaits. -/

namespace Sys2Proof.Machine

/-! ### Stores (R45, R47, R72, R102, R112, R113, R253) -/

/-- An access that is not yet performed comes first at the home: an earlier one of the same context to the same location, or an earlier
plain store of the same core (R102, R123, R126). (DEDUCED, log 23.) -/
def blockedAcc (s : State) (a : Acc) : Bool :=
  s.accs.any fun b => decide (b.id < a.id) && coreOf b.ctx == coreOf a.ctx && b.loc == a.loc && b.phase != .performed &&
    (b.ctx == a.ctx || (match b.op with | .write _ _ => true | _ => false))

/-- The phase of an access in flight. -/
def setPhase (s : State) (id : Nat) (ph : AccPhase) : State :=
  { s with accs := s.accs.map fun b => if b.id = id then { b with phase := ph } else b }

/-- A store is performed at its home: the word is written, and its core is recorded as the owner; an uncached store leaves none (R45,
R47, R48). Where the core's own copy is older than that it is no longer owned, or known (R103, R112, R122). -/
def performStore (s : State) (a : Acc) (pa : Nat) (v : Word) (bm : BitVec 8) : State :=
  let k := coreOf a.ctx
  let s := touchHome s a.loc a.pl (clusterOfCell (cellOf a.ctx)) a.uc
  let s := writeLoc s a.loc (mergeBytes (readLoc s a.loc) v bm) (bm == 255) (0, threadOf s a.ctx)
  let s := if a.rel then noteRel s a.loc false a.clock else s
  let s := if a.uc then takeOver s a.loc none else recordOwner s a.loc k (sliceOf s pa a.pl) a.id
  let s := entryFrees (setPhase s a.id .performed) k
  if a.uc then s else if a.rel then cacheOwn s k a.loc false else dropOlder s k a.loc

/-- A failed store takes its place among those of its context, the oldest first (R72). -/
def Ctx.addFailed (x : Ctx) (f : FailedStore) : Ctx :=
  { x with failed := x.failed.filter (fun e => decide (e.id < f.id)) ++ f :: x.failed.filter fun e => !decide (e.id < f.id) }

/-- A store fails its checks and is never owned; its context learns of it when it next awaits its stores (R25, R72). -/
def failStore (s : State) (a : Acc) (cause : Nat) : State :=
  let f := homeFault .write a.va { loc := a.loc, uc := a.uc, pl := a.pl, entry := a.entry, ga := a.ga } cause
  let s := s.modCtx a.ctx fun x =>
    (x.abandons (.acc a.id)).addFailed { id := a.id, va := a.va, cause := f.cause, entry := f.entry, aux := f.aux }
  exitLate (accEnds s a) a.ctx a.exitEv

/-- STORE_AT_HOME: a store is performed, or fails its checks and is never owned (R25, R72). A word that another core owns is revoked
first, so that nobody reads the store before the former owner's bit is clear (R113, R122); the home has then accepted it and does not check
it again (R70). -/
def execStoreAtHome (id : Nat) (s : State) : Host.Outcome State Fault Refusal :=
  .next (match s.accs.find? (·.id == id) with
    | none => s
    | some a =>
      match a.op, a.loc with
      | .write v bm, .mem pa =>
        if (a.phase ≠ .sent ∧ a.phase ≠ .accepted) ∨ blockedAcc s a then s
        else match (if a.phase = .accepted then none else homeCheck s a.ctx a.loc) with
          | some f =>
            failStore s a f
          | none =>
            match ownerOf s a.loc with
            | some o => if o = coreOf a.ctx then performStore s a pa v bm else setPhase s id (.revoking o)
            | none => performStore s a pa v bm
      | _, _ => s)

/-- REVOKE: the former owner's bit of the word is cleared and its record goes; the store may be performed (R47, R113). -/
def execRevoke (id : Nat) (s : State) : Host.Outcome State Fault Refusal :=
  .next (match s.accs.find? (·.id == id) with
    | none => s
    | some a =>
      match a.phase with
      | .revoking o =>
        let s := cacheOwn s o a.loc false
        setPhase (if ownerOf s a.loc = some o then dropOwner s a.loc else s) id .accepted
      | _ => s)

/-- STORE_OWNED: the acknowledgement arrives and the store completes (R255). Where the home's record names the core, be it by this store or by a
later plain one of the core, the word of a present line is owned, and it is what the core's own stores make of it; a release's word enters the
cache by this alone (R47, R102, R111 to R113). Where another core or party has taken the record, the core gains nothing. -/
def execStoreOwned (id : Nat) (s : State) : Host.Outcome State Fault Refusal :=
  .next (match s.accs.find? (·.id == id) with
    | none => s
    | some a =>
      if a.phase ≠ .performed then s
      else
        let k := coreOf a.ctx
        let s := storeEnds { s with accs := s.accs.filter (·.id != id) } a
        if a.uc then s
        else if recordOf s a.loc k && !poisoned s a.loc then cacheOwn (cacheStore s k a.loc (expectWord s k a.loc)) k a.loc true
        else if a.rel then dropOlder s k a.loc else s)

/-! ### Loads and fills (R47, R48, R76, R102, R252, R254) -/

/-- A store of the core to the location is not yet performed. -/
def storePending (s : State) (k : Nat) (l : Loc) : Bool :=
  s.accs.any fun a => coreOf a.ctx == k && a.loc == l && a.phase != .performed && (match a.op with | .write _ _ => true | _ => false)

/-- A load reads its word at its home; an uncorrectable error becomes a late MEMERR (R76, R252, R254). -/
def loadNow (s : State) (a : Acc) : State :=
  let s := touchHome s a.loc a.pl (clusterOfCell (cellOf a.ctx)) a.uc
  if poisoned s a.loc then accFails (accEnds s a) a .read
  else
    let (s, w, got) := loadRead s a.loc a.ctx
    accArrives (dropOlder (accEnds s a) (coreOf a.ctx) a.loc) a w got

/-- LOAD_VALUE_ARRIVAL: a load's value is fixed at its home and arrives (R252, R254). (DEDUCED, log 8.) (DEDUCED, log 16.) -/
def execLoadValueArrival (id : Nat) (s : State) : Host.Outcome State Fault Refusal :=
  .next (match s.accs.find? (·.id == id) with
    | none => s
    | some a =>
      match a.op, a.loc with
      | .read, .spad _ _ => s
      | .read, l =>
        if blockedAcc s a ∨ locBusy s l then s else loadNow s a
      | _, _ => s)

/-- The line that a fill brings to core k: words already valid stay, the core's own plain stores that are on their way keep their bytes over
the filled ones, and a word with an uncorrectable error stays unknown (R47, R102). -/
def filledLine (s : State) (k line : Nat) : CLine :=
  let old := (Map.find (s.core k).dcache line).getD { words := Vector.replicate 8 0, valid := 0, owned := 0 }
  (List.range 8).foldl (fun (c : CLine) i =>
    let l := locOfKey (line * 64 + 8 * i)
    if c.valid.getLsbD i ∨ poisoned s l then c
    else { c with words := c.words.setIfInBounds i (expectWord s k l), valid := setBit c.valid i true }) old

/-- A fill is no longer in flight. -/
def endFill (s : State) (k line : Nat) : State :=
  s.modCore k fun x => { x with fills := Map.drop x.fills line, prefs := x.prefs.filter (· != line) }

/-- LINE_FILL: the line arrives from its home with every owned bit clear; loads of the core to the line that are still on their way come
first (R47, R102). One that only a `pref` asked for leaves nothing when a word of it cannot be read (R260). -/
def execLineFill (core line : Nat) (s : State) : Host.Outcome State Fault Refusal :=
  let pending := s.accs.any fun a => coreOf a.ctx == core && a.loc.key / 64 == line && a.op == .read && !a.uc
  let ls := lineLocs line
  .next (match Map.find (s.core core).fills line with
    | none => s
    | some pl =>
      if pending ∨ ls.any (locBusy s) then s
      else if ls.any (fun l => (homeCheck s (11 * core) l).isSome) then endFill s core line
      else
        let s := touchHome s (locOfKey (line * 64)) pl (clusterOfCell (core / 3)) false
        if (s.core core).prefs.contains line ∧ ls.any (poisoned s) then endFill s core line
        else cacheAlloc (endFill s core line) core line (filledLine s core line))

/-! ### Atomics at the home (R75, R256 to R259, R403, R404) -/

/-- A requester's number: a context as the launch numbers its cell (R376, R403). -/
def requester (s : State) (c : Nat) : Nat := (s.cell (cellOf c)).cellNo * 33 + c % 33

/-- The runs that a log loaded for a function names a word by: its key and its LOCAL address (R403, R404). -/
def ReplayWord.names (r : ReplayWord) (vf pa : Nat) : Bool := r.vf == vf && r.key == paKey pa && r.waddr == paLocal pa / 8

/-- While a function's launches replay a log, it holds an atomic of the function until its requester, which is one of this device, heads the
word's remaining runs (R404); a run of another device's requester holds every atomic of the word. -/
def replayHolds (s : State) (vf pa req : Nat) : Bool :=
  match (if s.host.replayed.contains vf then s.host.replay.find? (·.names vf pa) else none) with
  | none => false
  | some r => match r.runs with
    | [] => false
    | (q, _) :: _ => q != s.dev.devno * 2 ^ 17 + req

/-- Counts an atomic of a function that replays against its log; one that no run covers counts in DIVERGE (R404). -/
def replayTake (s : State) (vf pa : Nat) : State :=
  if s.host.replayed.contains vf = false then s
  else s.modHost fun h =>
    match h.replay.find? (·.names vf pa) with
    | none => { h with diverge := h.diverge + 1 }
    | some r =>
      match r.runs with
      | [] => { h with diverge := h.diverge + 1 }
      | (q, n) :: rest =>
        let r' := { r with runs := if n ≤ 1 then rest else (q, n - 1) :: rest }
        { h with replay := h.replay.map fun x => if x.names vf pa then r' else x }

/-- The run entry of a log (R403). -/
def runEntry (dev : Nat) (host : Bool) (req n : Nat) : Word :=
  .ofNat 64 (2 * 2 ^ 62 + dev % 32 * 2 ^ 57 + (if host then 2 ^ 56 else 0) + req % 2 ^ 16 * 2 ^ 40 + n % 2 ^ 24)

/-- The header entry of a log (R403). -/
def headEntry (pa : Nat) : Word := .ofNat 64 (2 ^ 62 + paKey pa * 2 ^ 56 + paLocal pa / 8 % 2 ^ 42)

/-- The log marks the words of which a drop has broken the log, as far as its ring has room: by the word's header and a run of COUNT 0, which no
atomic writes (R403; the mark's form is not stated: DESIGN CHOICE, log 104). -/
def markBroken (s : State) (slice : Nat) : State :=
  match Map.find s.host.logs slice with
  | none => s
  | some r =>
    let n := min r.broken.length (r.room 8 / 2)
    if n = 0 then s
    else
      let (s, r') := ((r.broken.take n).flatMap fun w => [headEntry w, runEntry s.dev.devno false 0 0]).foldl
        (fun (s, r) e => ringPush s r 8 [e]) (s, r)
      s.modHost fun h => { h with logs := Map.put h.logs slice { r' with broken := r.broken.drop n }, lastLog := Map.drop h.lastLog slice }

/-- Appends entries to a slice's log ring, all of them or none: what finds the ring full is dropped and counted, the log of the word that they
are for is broken, and no run goes on over the gap (R402, R403). -/
def pushLog (s : State) (slice word : Nat) (l : List Word) : State :=
  match Map.find s.host.logs slice with
  | none => s
  | some r =>
    if r.room 8 < l.length then
      s.modHost fun h =>
        { h with logs := Map.put h.logs slice { r with dropped := r.dropped + l.length, broken := word :: r.broken.filter (· != word) },
                 lastLog := Map.drop h.lastLog slice }
    else
      let (s, r) := l.foldl (fun (s, r) e => ringPush s r 8 [e]) (s, r)
      s.modHost fun h => { h with logs := Map.put h.logs slice r }

/-- Logs one atomic: it lengthens the ring's last run when that is the same requester's at the same word and the host has not collected it,
and otherwise starts a header or a run of its own (R403). A requester of the host is numbered 2^16 + pilot. -/
def logAtomic (s : State) (pa pl req : Nat) : State :=
  let sl := sliceOf s pa pl
  let s := markBroken s sl
  match Map.find s.host.logs sl with
  | none => s
  | some r =>
    let run n := runEntry s.dev.devno (decide (req ≥ 2 ^ 16)) req n
    let word := paAddr pa + paKey pa * 2 ^ 50
    let keep (m : Nat) (s : State) : State := s.modHost fun h => { h with lastLog := Map.put h.lastLog sl (word, req, m) }
    match Map.find s.host.lastLog sl with
    | some (w, q, n) =>
      if w = word ∧ q = req ∧ n < 2 ^ 24 - 1 ∧ r.head < r.tail then
        keep (n + 1) (pilotWrite s (r.slot 8 (r.tail - 1)) (run (n + 1)) (6, 0))
      else pushLog (keep 1 s) sl word (if w = word then [run 1] else [headEntry pa, run 1])
    | none => pushLog (keep 1 s) sl word [headEntry pa, run 1]

/-- The atomics of a word that this device's slices order: another device's home keeps its own log (R128, R403). -/
def ordersHere (s : State) (pa : Nat) : Bool := paHome pa == s.dev.devno

/-- An atomic is performed: one read-modify-write step of the word's order (R75), logged by the slice (R403). The core's copy of the
line goes; the old value arrives and the context acquires. -/
def performAtomic (s : State) (a : Acc) (pa : Nat) (w : WordOp) (fails : Bool) (req : Nat) : State :=
  let old := readLoc s a.loc
  let got := relNow s a.loc
  let s := if fails then readNewest s a.loc a.ctx
    else
      let s := writeLoc s a.loc (w.apply old).1 false (0, threadOf s a.ctx)
      takeOver (noteRel s a.loc true a.clock) a.loc (some (coreOf a.ctx))
  let s := if ordersHere s pa then replayTake (logAtomic s pa a.pl req) (ptVf (s.cell (cellOf a.ctx)).ptRoot) pa else s
  accArrives (accEnds (cacheDrop s (coreOf a.ctx) a.loc) a) a old got

/-- An atomic at its home: an uncorrectable error leaves word and destination alone (R76). -/
def atomicNow (s : State) (a : Acc) (pa : Nat) : State :=
  let s := touchHome s a.loc a.pl (clusterOfCell (cellOf a.ctx)) a.uc
  if poisoned s a.loc then accFails (accEnds s a) a .atomic
  else
    let old := readLoc s a.loc
    let fails := match a.op with
      | .amo op n off _ cmp _ => op == .cas && bitsAt old.toNat (8 * off) (8 * n) != cmp.toNat % 2 ^ (8 * n)
      | _ => false
    performAtomic s a pa a.op fails (requester s a.ctx)

/-- ATOMIC_AT_HOME: an atomic is performed in the order of its word's home, held while a replay log names another requester (R75, R404). -/
def execAtomicAtHome (id : Nat) (s : State) : Host.Outcome State Fault Refusal :=
  .next (match s.accs.find? (·.id == id) with
    | none => s
    | some a =>
      match a.op, a.loc with
      | .amo _ _ _ _ _ _, .mem pa =>
        if a.phase ≠ .sent ∨ blockedAcc s a ∨ (ordersHere s pa ∧ replayHolds s (ptVf (s.cell (cellOf a.ctx)).ptRoot) pa (requester s a.ctx)) then s else atomicNow s a pa
      | _, _ => s)

/-! ### Chart refresh (R65) -/

/-- CHART_REFRESH_END: the refresh window of a bank ends; time stands at its end, and what waited may be performed. While a core acts in
every cycle, its cycles bring time there; so they do once an idle core has stolen a task meanwhile (R196). -/
def execChartRefreshEnd (die bank : Nat) (s : State) : Host.Outcome State Fault Refusal :=
  let t : Nat := s.time + Config.chartOffset die + 40000 * 125 - 320 * (bank % 125)
  .next (if t % 40000 < 320 ∧ activeCores s = [] then passCycles (320 - t % 40000) s else s)

/-! ### Page walks and fault replies (R29 to R33, R42, R43) -/

/-- The cell on whose behalf an engine operation, a matrix instruction, a `launch` request or a gather of a number runs. -/
def cellOfOp (s : State) (id : Nat) : Option Nat :=
  if id ≥ 2 ^ 64 then some (cellOf (id - 2 ^ 64)) else
  match s.ops.find? (·.id == id), s.reqs.find? (·.id == id) with
  | some o, _ => some (cellOf o.ctx)
  | none, some r => some (cellOf r.ctx)
  | none, none => (s.cells.find? fun n => n.2.mq.any (·.id == id)).map (·.1)

/-- A leaf that a walk found is kept by the engine operations that have not started and the matrix instructions that asked for it (R32). -/
def keepLeaf (s : State) (engs : List Nat) (e : TlbEnt) : State :=
  let s := { s with ops := s.ops.map fun o => if engs.contains o.id && !o.started then { o with kept := e :: o.kept } else o }
  (engs.filterMap (cellOfOp s)).eraseDups.foldl (fun s n => s.modCell n fun x =>
    { x with mq := x.mq.map fun o => if engs.contains o.id then { o with kept := e :: o.kept } else o }) s

/-- What a finished walk does for those that asked: a leaf goes into the cluster's TLB, the requesting cores' TLBs, and the prefetches
that wait for nothing; a fault is told to each waiting context and engine operation (R32, R43). -/
def walkEnds (s : State) (w : WalkRec) : State :=
  match walk s w.root w.va 0 with
  | .ok (leaf, level) =>
    let e := tlbEnt w.root w.va leaf level
    let s := putClusterTlb (forgetFaults s w.cluster e) w.cluster e
    let s := keepLeaf s w.engs e
    let s := w.waiters.foldl (fun s (c, ex) => putCoreTlb s (coreOf c) ex e) s
    w.prefs.foldl (fun s (c, va) =>
      let s := putCoreTlb s (coreOf c) false e
      match finishLeaf s w.root .read va leaf level with
      | .ok x => prefFill s c va x
      | _ => s) s
  | .error f =>
    let e : WalkErr := { page := w.page, cause := f.cause, level := f.level, entry := f.entry, aux := f.aux }
    let tell (s : State) (c : Nat) : State := s.modCtx c fun x => { x with walkErr := some e }
    let gathers : List Nat := (w.engs.filter fun i => decide (2 ^ 64 ≤ i)).map fun i => i - 2 ^ 64
    let s := gathers.foldl tell (w.waiters.foldl (fun s (c, _) => tell s c) s)
    s.modCluster w.cluster fun k => { k with engErrs := ((w.engs.filter fun i => decide (i < 2 ^ 64)).map fun i => (i, e)) ++ k.engErrs }

/-- A walk counts for the cell that asked for it first, and a TLB miss for each that waits for it (R405; DESIGN CHOICE, log 60). -/
def countWalk (s : State) (w : WalkRec) : State :=
  let cells := w.waiters.map (fun e => cellOf e.1) ++ w.engs.filterMap (cellOfOp s) ++ w.prefs.map fun e => cellOf e.1
  let s := cells.foldl (fun s n => s.count n 17 3 1) s
  match cells with
  | [] => s
  | n :: _ => s.count n 17 4 1

/-- WALK_COMPLETE: one of a cluster's four walkers reads its entries (R29, R32). A walk that a `tlbinv` overtook gives nothing: what
waited for it looks again (R34). -/
def execWalkComplete (id : Nat) (s : State) : Host.Outcome State Fault Refusal :=
  .next (match s.walks.find? (·.id == id) with
    | none => s
    | some w =>
      if (walking s w.cluster).contains w = false then s
      else
        let s := { s with walks := s.walks.filter (·.id != id) }
        let s := countWalk s w
        let s := touchWalk s w.cluster w.root w.va
        if w.discard then s else walkEnds s w)

/-- The context of a cell that waits on the message of a sequence number (R42, R43). -/
def faultWaiter (s : State) (cell seq : Nat) : Option (Nat × FaultWait) :=
  match (ctxsOfCell cell).find? fun c => match (s.ctx c).faultWait with
    | some f => f.seq == seq && (s.ctx c).stat == .parked
    | none => false with
  | none => none
  | some c => match (s.ctx c).faultWait with
    | some f => some (c, f)
    | none => none

/-- A reply of a message's pilot core cannot have come yet: the message itself is still on its way, or replies that the pilot core sent the
core before it are (R126). -/
def replyEarly (s : State) (c : Nat) (cell : Nat) (f : FaultWait) : Bool :=
  (s.faults.any fun m => m.cell == cell && m.seq == f.seq) ||
    pilotBehind s (coreOf c) (if f.cause = fcStage2 then s.dev.hvpilot else pilotOfCell cell) f.id 0 true

/-- FAULT_REPLY: RETRY, SIGNAL or STOP (R42); a stale reply is discarded (R43); a reported store is never reported again
(R72). -/
def execFaultReply (cell : Nat) (reply : Word) (s : State) : Host.Outcome State Fault Refusal :=
  .next (match faultWaiter s cell (fieldN reply 2 32) with
    | none => s
    | some (c, f) =>
      if replyEarly s c cell f then s
      else
      let act := fieldN reply 0 2
      let s := if act ≥ 2 then noteFailure s c tcMemfault f.cause else s
      s.modCtx c fun x =>
        let x := { x.wake with faultWait := none, failed := if f.report then x.failed.drop 1 else x.failed }
        if act = 0 then x
        else if act = 1 then
          { x with pendTrap := x.pendTrap ++ [{ code := tcMemfault, pc := some f.pc, va := f.va, kind := f.kind, fcause := f.cause,
                                                arg := 0, late := false, reg := 0 }] }
        else { x with pendStop := some (.faultStop f.cause) })

/-! ### Trap entry and the barrel (R179, R358) -/

/-- TRAP_ENTRY: the oldest pending trap is entered at the context's turn (R358), once an instruction that it has issued and that keeps its
turns has ended: an access that a bank holds (R54), a wait of R143, R366, R367 or R370. -/
def execTrapEntry (c : Nat) (s : State) : Host.Outcome State Fault Refusal :=
  .next (match (s.ctx c).pendTrap with
    | [] => s
    | t :: r =>
      if (s.ctx c).stat ≠ .eligible ∨ (s.ctx c).spadReq.isSome ∨ (s.ctx c).block ≠ .none then s
      else trapEntry (s.modCtx c fun x => { x with pendTrap := r }) c t (t.pc.getD (s.ctx c).groupPc))

/-- The context that a core's barrel chooses in a cycle: the first candidate after PTR (R179). -/
def barrelPick (s : State) (core cyc : Nat) : Option Nat :=
  let k := s.core core
  ((List.range 11).map fun i => (k.ptr + 1 + i) % 11).find? fun x =>
    (s.ctx (11 * core + x)).stat == .eligible && decide (k.last.getD x 0 ≤ (cyc : Int) - 6)

/-- BARREL_CYCLE: one cycle of a core, when it is that core's to act, and after the idle cores' probes of the cycle before it; the chosen
context's turn follows (R179, R180, R196). -/
def execBarrelCycle (core : Nat) (s : State) : Host.Outcome State Fault Refusal :=
  let cyc := nextCycle s core
  if coreDue s core = false ∨ (s.time < cyc ∧ idleProbers s ≠ []) then .next s
  else
  let s := s.moveTime cyc
  .next (match barrelPick s core cyc with
    | none => s.modCore core fun k => { k with cyc := cyc }
    | some x =>
      let s := s.modCore core fun k =>
        { k with cyc := cyc, ptr := x, last := k.last.setIfInBounds x (cyc : Int) }
      { s with turns := s.turns ++ [11 * core + x] })

/-! ### The logbook and HBM write-backs (R143, R275) -/

/-- HOME of an entry arrives: what waited for the entry meets it in order, and what waited for room looks again (R275). -/
def logFetched (s : State) (cell slot : Nat) : State :=
  match (s.cell cell).log.find? (·.slot == slot) with
  | none => s
  | some e =>
    if ¬ e.fetching then s
    else
        let s := plainTouch s (slotPa s cell slot) (clusterOfCell cell)
        let h := slotOfWord (readMem s (slotPa s cell slot))
        let s := putEntry s cell { e with fetching := false, home := h, waiting := [] }
        let s := e.waiting.foldl (fun s w => match (s.cell cell).log.find? (·.slot == slot) with
          | some e => serveLog s cell e w
          | none => logAgain s cell slot w) s
        let q := (s.cell cell).logQ
        q.foldl (fun s e => logAgain s cell e.1 e.2) (s.modCell cell fun x => { x with logQ := [] })

/-- LOGBOOK_ENTRY_FETCH (R275). -/
def execLogbookEntryFetch (cell slot : Nat) (s : State) : Host.Outcome State Fault Refusal := .next (logFetched s cell slot)

/-- HBM_WRITEBACK_ACK: a dirty line is written back to HBM and stays valid and clean (R143). -/
def execHbmWritebackAck (line : Nat) (s : State) : Host.Outcome State Fault Refusal :=
  .next (writeBackLine s line)

end Sys2Proof.Machine
end

