-- ==== Sys2Proof/Machine/Fence.lean ====
section
/-! DEFINITION. Fences (R106 to R108, R142, R143, R350), the chart timebase (R352) and the copy shape registers (R335,
R336). -/

namespace Sys2Proof.Machine

/-- Every earlier load and atomic of the context has returned (R106, R143). -/
def loadsBack (s : State) (c : Nat) : Bool :=
  !(s.accs.any fun a => a.ctx == c && (a.op == .read || a.acq))

/-- FENCE_ACQ: earlier loads return, then the acquire steps (R106, R108). -/
def execFenceAcq (s : State) : Host.Outcome State Fault Refusal :=
  .next (gated s (anyGate 0x67 true [] []) fun s =>
    if loadsBack s s.cur then finish (acquireDone s (coreOf s.cur)) s.cur 0 id .fall else s)

/-- FENCE_REL (R106, R107). -/
def execFenceRel (s : State) : Host.Outcome State Fault Refusal :=
  .next (gated s (anyGate 0x67 true [] []) fun s => releaseThen s s.cur fun s => finish s s.cur 0 id .fall)

/-- FENCE_SC: `ReleaseWait`, then `AcquireDone` (R108, R124). -/
def execFenceSc (s : State) : Host.Outcome State Fault Refusal :=
  .next (gated s (anyGate 0x67 true [] []) fun s =>
    releaseThen s s.cur fun s => finish (acquireDone s (coreOf s.cur)) s.cur 0 id .fall)

/-- The key under which a matrix batch counts as one observed operation: the run of its context, and its number there (R139). -/
def batchKey (run b : Nat) : Nat := 2 ^ 60 + run * 2 ^ 32 + b

/-- A write of a class in S that the fence orders: the context's own LS stores, and writes of operations that it observed
complete (R143). -/
def coveredWrite (x : Ctx) (name : Nat) (sm : BitVec 6) (w : Nat × Nat) : Bool :=
  if w.1 = 0 then sm.getLsbD 0 && w.2 == name
  else sm.getLsbD w.1 && x.seen.contains w.2

/-- The dirty HBM lines that hold a covered write, by their tags in the slices (R143). -/
def coveredLines (s : State) (c : Nat) (sm : BitVec 6) : List Nat :=
  (s.mem.slines.filter fun e => e.2.dirty != 0 && isHbm s (paLocal (e.1 * 64)) && e.2.writers.any (coveredWrite (s.ctx c) (threadOf s c) sm)).map (·.1)

/-- The fence orders its covered writes before every later access of a class in D (R144). -/
def orderWrites (s : State) (c : Nat) (sm dm : BitVec 6) : State :=
  let ds := (List.range 6).filter fun i => dm.getLsbD i
  let n := threadOf s c
  (s.modMem fun m => { m with hist := m.hist.map fun e => (e.1, e.2.map fun o =>
    if coveredWrite (s.ctx c) n sm (o.cls, o.who) then { o with before := ds.map (fun i => (i, s.fresh, n)) ++ o.before } else o) }).bump

/-- FENCE_X (R142, R143). -/
def execFenceX (sm dm : BitVec 6) (s : State) : Host.Outcome State Fault Refusal :=
  let done (s : State) : State := finish s s.cur 0 (fun x => { x with block := .none }) .fall
  .next (gated s (anyGate 0x67 true [] []) fun s =>
    let c := s.cur
    if sm = 0 ∨ dm = 0 then done s
    else
      let sound (s : State) : State :=
        let lines := if dm.getLsbD 5 then coveredLines s c sm else []
        if lines ≠ [] then s.modMe fun x => { x with block := .writebacks lines }
        else done (orderWrites (if dm.getLsbD 0 then selfInvalidate s (coreOf c) else s) c sm dm)
      let gather (s : State) : State :=
        if sm.getLsbD 3 ∧ (s.cell (cellOf c)).pend.any (fun p => p.ctx == c) then s else sound s
      if sm.getLsbD 0 then
        (if ¬ drained s c then s
         else match (s.ctx c).failed with
           | f :: _ => reportFailed s c f
           | [] => gather s)
      else gather s)

/-- CHART_WIN (R352): BAD, or INWIN, GROUP, START and NOW of the bank that holds S(a). -/
def execChartWin (d : BitVec 5) (a : BitVec 6) (s : State) : Host.Outcome State Fault Refusal :=
  let g := anyGate 0x69 true [fieldOf a] [d.toNat]
  .next (gated s g fun s =>
    let va := (s.me.src a).toNat
    let o := va % 2 ^ 48
    let die := o / 2 ^ 28
    let bad := va / 2 ^ 48 ≠ 0xF2 ∨ o ≥ 0x40000000 ∨ coversDie s (cellOf s.cur) die = false ∨
      bankRetired s (cellOf s.cur) (o / 2 ^ 16)
    let v : Nat :=
      if bad then 2 ^ 63
      else
        let grp := o % 2 ^ 28 / 2 ^ 16 % 125
        let now := (s.time + Config.chartOffset die) % 40000
        (if (now + 40000 - 320 * grp) % 40000 < 320 then 2 ^ 39 else 0) + grp * 2 ^ 32 + 320 * grp * 2 ^ 16 + now
    finishReg s (sMask g.srcs) d (.ofNat 64 v))

/-- A gate that only one kind of core passes (R230). -/
def coreGate (op : Nat) (k : CoreKind) (legal : Bool) (srcs plain : List Nat) : Gate :=
  { op := op, owner := some k, ta := false, legal := legal, srcs := srcs, plain := plain }

/-- Writes register n of the shadow set; nothing is checked (R336). -/
def cpset (n : Nat) (a : BitVec 6) (s : State) : State :=
  let g := coreGate 0x60 .m true [fieldOf a] []
  gated s g fun s => finish s s.cur (sMask g.srcs) (fun x => { x with cp := x.cp.setIfInBounds n (s.me.src a) }) .fall

/-- CPSET_SRC (R336). -/
def execCpsetSrc (a : BitVec 6) (s : State) : Host.Outcome State Fault Refusal := .next (cpset 0 a s)
/-- CPSET_DST (R336). -/
def execCpsetDst (a : BitVec 6) (s : State) : Host.Outcome State Fault Refusal := .next (cpset 1 a s)
/-- CPSET_EXT (R336). -/
def execCpsetExt (a : BitVec 6) (s : State) : Host.Outcome State Fault Refusal := .next (cpset 2 a s)
/-- CPSET_SS (R336). -/
def execCpsetSs (a : BitVec 6) (s : State) : Host.Outcome State Fault Refusal := .next (cpset 3 a s)
/-- CPSET_DS (R336). -/
def execCpsetDs (a : BitVec 6) (s : State) : Host.Outcome State Fault Refusal := .next (cpset 4 a s)
/-- CPSET_ATTR (R336). -/
def execCpsetAttr (a : BitVec 6) (s : State) : Host.Outcome State Fault Refusal := .next (cpset 5 a s)
/-- CPSET_BAR (R336). -/
def execCpsetBar (a : BitVec 6) (s : State) : Host.Outcome State Fault Refusal := .next (cpset 6 a s)
/-- CPSET_MASK (R336). -/
def execCpsetMask (a : BitVec 6) (s : State) : Host.Outcome State Fault Refusal := .next (cpset 7 a s)

end Sys2Proof.Machine
end

