-- ==== Sys2Proof/Machine/Tile.lean ====
section
/-! DEFINITION. Tile registers (10): tags and when they are well formed, elements and their places in storage, what a
context sees of a register that another context is writing (R116), writes in progress, hazards with the matrix queue
(R325), and the gate that every tile instruction passes (R285). Registers are numbered t0 to t11, a0 to a3 (12 to 15),
m0 to m7 (16 to 23). -/

namespace Sys2Proof.Machine

/-! ### Tags (R203 to R205, R286) -/

/-- FMT. -/
def tagFmt (w : Word) : Nat := fieldN w 36 4
/-- ROWS. -/
def tagRows (w : Word) : Nat := fieldN w 8 8
/-- COLS. -/
def tagCols (w : Word) : Nat := fieldN w 16 9
/-- The scale tile of SCALE. -/
def tagScaleReg (w : Word) : Nat := fieldN w 44 4
/-- The axis of SCALE. -/
def tagAxis (w : Word) : Nat := fieldN w 42 2
/-- The block code of SCALE. -/
def tagBlk (w : Word) : Nat := fieldN w 40 2
/-- BALLAST is present. -/
def tagHasBal (w : Word) : Bool := w.getLsbD 48
/-- The ballast tile of BALLAST. -/
def tagBalReg (w : Word) : Nat := fieldN w 49 4

/-- A tag of a format and shape, with no scale and no ballast. -/
def mkTag (fmt rows cols : Nat) : Word := .ofNat 64 (fmt * 2 ^ 36 + cols * 2 ^ 16 + rows * 2 ^ 8)

/-- Format codes (R204). -/
def fmtF32 : Nat := 1
def fmtF16 : Nat := 2
def fmtBf16 : Nat := 3
def fmtI8 : Nat := 4
def fmtI32 : Nat := 6
def fmtI64 : Nat := 7
def fmtN32 : Nat := 10
def fmtN64 : Nat := 11
def fmtT8 : Nat := 12
def fmtT6 : Nat := 13
def fmtE8 : Nat := 14
def fmtBal : Nat := 15

/-- The bits of an element of a format (R204, R294); 0 for NONE. -/
def fmtBits (f : Nat) : Nat :=
  ([0, 32, 16, 16, 8, 16, 32, 64, 8, 16, 32, 64, 8, 6, 8, 16] : List Nat).getD f 0

/-- The largest COLS of a format in a tile register (R204). -/
def fmtMaxCols (f : Nat) : Nat :=
  ([0, 64, 128, 128, 256, 128, 64, 32, 256, 128, 64, 32, 256, 340, 256, 24] : List Nat).getD f 0

/-- The size in bytes that alignment uses (R290): 1 for T6. -/
def fmtSize (f : Nat) : Nat := if f = fmtT6 then 1 else fmtBits f / 8

/-- A narrow format: T8, T6 or I8. -/
def fmtNarrow (f : Nat) : Bool := f == fmtT8 || f == fmtT6 || f == fmtI8

/-- A tag that is well formed for tile register, accumulator or mask register r (R203, R205, R286, R310). The NONE tag is
well formed but no result of an instruction. (DEDUCED, log 30.) -/
def tagOk (r : Nat) (w : Word) : Bool :=
  let f := tagFmt w
  let rows := tagRows w
  let cols := tagCols w
  if r ≥ 16 then
    w == 0 || (f == 0 && fieldN w 40 24 == 0 && fieldN w 25 11 == 0 && fieldN w 0 8 == 0 && decide (1 ≤ rows ∧ rows ≤ 128)
      && decide (1 ≤ cols ∧ cols ≤ 128))
  else if w = 0 then decide (r < 12)
  else
    f != 0 && fieldN w 53 11 == 0 && fieldN w 25 11 == 0 && fieldN w 0 8 == 0 && decide (1 ≤ rows ∧ rows ≤ 128) &&
    decide (1 ≤ cols) &&
    (if r ≥ 12 then f == fmtF32 && decide (cols ≤ 128) && fieldN w 40 13 == 0
     else
      decide (cols ≤ fmtMaxCols f) && (f != fmtBal || cols % 8 == 0) &&
      (if tagAxis w = 0 then fieldN w 40 8 == 0
       else tagAxis w != 3 && fmtNarrow f && decide (tagScaleReg w < 12) && tagScaleReg w != r) &&
      (tagAxis w != 2 || decide (cols ≤ 256)) &&
      (if tagHasBal w then fmtNarrow f && tagAxis w == 1 && decide (tagBalReg w < 12) && tagBalReg w != r
       else tagBalReg w == 0))

/-- The columns in a scale block (R203). -/
def blkSize (code : Nat) : Nat := 16 * 2 ^ (code % 4)

/-- The tag that the scale tile of a scaled tag must have (R206). -/
def scaleTag (w : Word) : Word :=
  let kb := blkSize (tagBlk w)
  if tagAxis w = 1 then mkTag fmtE8 (tagRows w) (ceilDiv (tagCols w) kb)
  else mkTag fmtE8 (ceilDiv (tagRows w) kb) (tagCols w)

/-- The tag that the ballast tile of a tag must have (R207). -/
def ballastTag (w : Word) : Word := mkTag fmtBal (tagRows w) (8 * ceilDiv (tagCols w) 128)

/-- The kinds of element arithmetic. -/
inductive EKind where
  | ieee (f : FFmt) | int (n : Nat) (sg : Bool) | other
deriving DecidableEq, Repr

/-- The arithmetic of a format. -/
def ekind (f : Nat) : EKind :=
  if f = 1 then .ieee f32 else if f = 2 then .ieee f16 else if f = 3 then .ieee bf16
  else if 4 ≤ f ∧ f ≤ 7 then .int (fmtBits f) true
  else if 8 ≤ f ∧ f ≤ 11 then .int (fmtBits f) false
  else .other

/-- The element format of an instruction: TY, or the FMT of the first source when TY = 0; none when the sizes differ
(R224). -/
def elemFmt (w : Word) (ty : Nat) : Option Nat :=
  if ty = 0 then some (tagFmt w) else if fmtBits ty = fmtBits (tagFmt w) then some ty else none

/-! ### Storage (R160, R201, R210) -/

/-- The bytes of a row of register r (R201). -/
def rowStride (r : Nat) : Nat := if r < 12 then 256 else if r < 16 then 512 else 16

/-- The bits at a bit offset of a row that begins at a byte. -/
def rawBits (d : Memory) (base o n : Nat) : Nat :=
  leNat (Memory.bytes d (base + o / 8) ((o % 8 + n + 7) / 8)) / 2 ^ (o % 8) % 2 ^ n

/-- A register as an instruction sees it. -/
structure TileView where
  reg  : Nat
  tag  : Word
  data : Memory
deriving DecidableEq, Repr

/-- The bits of an element of register r under a tag. -/
def viewBits (v : TileView) : Nat := if v.reg ≥ 16 then 1 else fmtBits (tagFmt v.tag)

/-- Element (i, c): its pattern, or zeros outside the shape (R210). -/
def TileView.elem (v : TileView) (i c : Nat) : Nat :=
  if i < tagRows v.tag ∧ c < tagCols v.tag then rawBits v.data (rowStride v.reg * i) (viewBits v * c) (viewBits v) else 0

/-- Bit (i, c) of a mask register: 0 outside its shape (R211). -/
def TileView.bit (v : TileView) (i c : Nat) : Bool := v.elem i c == 1

/-- The value of an element of an IEEE format. -/
def TileView.val (v : TileView) (f : FFmt) (i c : Nat) : FVal := f.decode (v.elem i c)

/-- Writes an n-bit field of a number. -/
def setBitsN (x lo n v : Nat) : Nat := x - bitsAt x lo n * 2 ^ lo + v % 2 ^ n * 2 ^ lo

/-- The bytes that a row's element writes touch, with their new values: element c of n bits lies at bit n x c, and bits of
a byte that no element covers keep their value (R160). -/
def rowWrites (v : TileView) (n i : Nat) (l : List (Nat × Nat)) : List (Nat × Byte) :=
  let base := rowStride v.reg * i
  let len := l.foldl (fun m e => max m ((n * e.1 + n + 7) / 8)) 0
  let old := leNat (Memory.bytes v.data base len)
  let new := l.foldl (fun x e => setBitsN x (n * e.1) n e.2) old
  ((List.range len).filter fun k => l.any fun e => decide (n * e.1 / 8 ≤ k ∧ k ≤ (n * e.1 + n - 1) / 8)).map fun k =>
    (base + k, .ofNat 8 (new / 256 ^ k))

/-- The bytes of a whole write: every element (i, c) of a shape for which `f` gives a value. -/
def shapeWrites (v : TileView) (n rows cols : Nat) (f : Nat → Nat → Option Nat) : List (Nat × Byte) :=
  (List.range rows).foldl (fun acc i =>
    acc ++ rowWrites v n i ((List.range cols).filterMap fun c => (f i c).map fun x => (c, x))) []

/-! ### What a context sees (R116) -/

/-- Register r of a cell as it stands. -/
def tileOf (s : State) (cell r : Nat) : TileReg := Map.at (s.cell cell).tiles r TileReg.zero

/-- The number of a location of a register for one write in progress: its tag, or eight bytes. -/
def raceLoc (p r k : Nat) : Nat := p * 2 ^ 24 + r * 2 ^ 16 + k

/-- A byte of a register that a gather in progress has still to read. -/
def PendTile.unread (p : PendTile) (a : Nat) : Bool := p.gather.any fun e => e.1.row == a / 256

/-- Register r as context c sees it: every location that another context is writing is old or new, chosen independently (R116); what a gather
has not read yet is old. -/
def tileView (s : State) (c r : Nat) : TileView :=
  let x := tileOf s (cellOf c) r
  let v : TileView := { reg := r, tag := x.tag, data := x.data }
  ((s.cell (cellOf c)).pend.filter fun p => p.ctx != c).foldl (fun v p =>
    (p.writes.filter fun w => w.reg == r).foldl (fun v w =>
      let v := match w.tag with
        | some t => if Config.raceNew s.fresh (raceLoc p.id r 0xFFFF) then { v with tag := t } else v
        | none => v
      { v with data := w.bytes.foldl (fun d e =>
          if !p.unread e.1 && Config.raceNew s.fresh (raceLoc p.id r (e.1 / 8)) then d.setByte e.1 e.2 else d) v.data }) v) v

/-- What a view holds. -/
def TileView.stored (v : TileView) : TileReg := { tag := v.tag, data := v.data }

/-- Puts the bytes of a write into a register's storage. -/
def putBytes (d : Memory) (l : List (Nat × Byte)) : Memory := l.foldl (fun d e => d.setByte e.1 e.2) d

/-- A write takes effect. -/
def applyTile (s : State) (cell : Nat) (w : TileWrite) : State :=
  s.modCell cell fun x =>
    let t := Map.at x.tiles w.reg TileReg.zero
    { x with tiles := Map.put x.tiles w.reg { tag := w.tag.getD t.tag, data := putBytes t.data w.bytes } }

/-- Every write of an instruction takes effect. -/
def applyTiles (s : State) (cell : Nat) (l : List TileWrite) : State := l.foldl (fun s w => applyTile s cell w) s

/-- A write that is still in progress loses the locations at which a racing write that has just ended stands instead
(R116). -/
def loseRaces (n id : Nat) (done : List TileWrite) (w : TileWrite) : TileWrite :=
  done.foldl (fun w e =>
    if e.reg ≠ w.reg then w
    else
      let wins k := !(Config.raceWins n (raceLoc id w.reg k))
      { w with tag := if e.tag.isSome && wins 0xFFFF then none else w.tag
               bytes := w.bytes.filter fun b => !(wins (b.1 / 8) && e.bytes.any fun f => f.1 / 8 == b.1 / 8) }) w

/-- An instruction in progress whose register has just been written whole by another: each of its locations stands or is lost (R116). -/
def loseWhole (n r : Nat) (p : PendTile) : PendTile :=
  let stays k := Config.raceWins n (raceLoc p.id r k)
  { p with writes := p.writes.map fun w =>
      if w.reg ≠ r then w
      else { w with tag := if stays 0xFFFF then w.tag else none, bytes := w.bytes.filter fun b => stays (b.1 / 8) } }

/-! ### Hazards (R325) -/

/-- The tile registers that an operand of a queued instruction reads: the tile, its scale tile and its ballast tile. -/
def MxOperand.regs : MxOperand → List Nat
  | .tile r t => r :: ((if tagAxis t = 0 then [] else [tagScaleReg t]) ++ (if tagHasBal t then [tagBalReg t] else []))
  | .spad _ _ _ _ _ _ _ => []

/-- The registers that a queued instruction names as operands; only products have any. -/
def MxOp.operandRegs (o : MxOp) : List Nat :=
  match o.kind with
  | .mma | .mmas | .mmab | .micro => o.a.regs ++ o.b.regs
  | _ => []

/-- An A core instruction that reads and writes these registers meets a pending instruction (R325). -/
def hazard (s : State) (c : Nat) (reads writes : List Nat) : Bool :=
  kindOf c == .a && (s.cell (cellOf c)).mq.any fun o =>
    if o.kind = .swap then (reads ++ writes).contains o.acc
    else (reads ++ writes).contains o.acc || writes.any fun r => o.operandRegs.contains r

/-! ### The gate of a tile instruction (R285) -/

/-- A tile gate: `ta` tells whether a TA field names an accumulator. (DEDUCED, log 26.) -/
def tileGate (op : Nat) (owner : Option CoreKind) (ta legal : Bool) (srcs plain : List Nat) : Gate :=
  { op := op, owner := owner, ta := ta, legal := legal, srcs := srcs, plain := plain }

/-- `Decode`, the waits, the wait for the context's own tile writes (R285), and the HAZARD check (R325); then the
instruction's own checks and effect. -/
def tileGated (s : State) (g : Gate) (reads writes : List Nat) (k : State → State) : State :=
  gated s g fun s =>
    if (s.myCell.pend.any fun p => p.ctx == s.cur) ∨ acqPending s s.cur then s
    else if hazard s s.cur reads writes then trapPlain (s.count (cellOf s.cur) 16 7 1) s.cur tcHazard
    else k s

/-- The context's view of a register. -/
def State.look (s : State) (r : Nat) : TileView := tileView s s.cur r

/-- FORMAT, before any effect; WAYPT stands (R209). -/
def formatTrap (s : State) : State := trapPlain s s.cur tcFormat

/-- A tile instruction's writes begin; its context goes on and waits for them before it touches tiles again (R285). -/
def beginTile (s : State) (m : BitVec 32) (ws : List TileWrite) : State :=
  let p : PendTile := { id := s.fresh, ctx := s.cur, writes := ws }
  let s := s.bump.modMyCell fun x => { x with pend := x.pend ++ [p] }
  finish s s.cur 0 (fun x => x.hold (.tile p.id) m) (.fallOwing (.tile p.id))

/-- An instruction of one cycle: its writes are performed at once, all of them together (R287). (DESIGN CHOICE, log 25.) -/
def nowTile (s : State) (m : BitVec 32) (ws : List TileWrite) (f : Ctx → Ctx) : State :=
  finish (applyTiles s.bump (cellOf s.cur) ws) s.cur m f .fall

/-- Whether element (i, c) is written under an optional mask (R211). -/
def maskedIn (mk : Option TileView) (i c : Nat) : Bool :=
  match mk with
  | none => true
  | some v => v.bit i c

/-- The mask operand of a word: register m when ME is set (R221). -/
def State.maskOf (s : State) (e : BitVec 1) (m : BitVec 3) : Option TileView :=
  if e = 1 then some (s.look (16 + m.toNat)) else none

/-- The mask register that an instruction reads. -/
def maskReg (e : BitVec 1) (m : BitVec 3) : List Nat := if e = 1 then [16 + m.toNat] else []

/-- A tile field names an accumulator. -/
def isAcc (t : BitVec 4) : Bool := decide (12 ≤ t.toNat)

/-- Writes a result tag and the elements that `f` gives into register d, in an element size of n bits; FORMAT when d does
not accept the tag (R286). -/
def writeShape (s : State) (m : BitVec 32) (d : Nat) (tag : Word) (n : Nat) (f : Nat → Nat → Option Nat) : State :=
  if tagOk d tag = false ∨ tag = 0 then formatTrap s
  else beginTile s m [{ reg := d, tag := some tag, bytes := shapeWrites (s.look d) n (tagRows tag) (tagCols tag) f }]

end Sys2Proof.Machine
end

