-- ==== Sys2Proof/Machine/TileMove.lean ====
section
/-! DEFINITION. Tags, moves, elements, sequences, broadcasts and masks (R289, R294 to R297, R310). -/

namespace Sys2Proof.Machine

/-! ### TSHAPE (R289) -/

/-- TSHAPE: the tag of register t becomes S(a) when t accepts it; storage is unchanged (R289). -/
def execTshape (t : BitVec 4) (a : BitVec 6) (s : State) : Host.Outcome State Fault Refusal :=
  let g := tileGate 0x40 none (isAcc t) true [fieldOf a] []
  .next (tileGated s g [] [t.toNat] fun s =>
    let v := s.me.src a
    if tagOk t.toNat v then nowTile s (sMask g.srcs) [{ reg := t.toNat, tag := some v, bytes := [] }] id
    else formatTrap s)

/-! ### TMOVE (R294) -/

/-- A value in every element of td's shape, under the mask; the tag is rewritten unchanged (R208, R294, R296). -/
def fillTile (s : State) (m : BitVec 32) (d : Nat) (mk : Option TileView) (f : Nat → Nat → Nat) : State :=
  let v := s.look d
  writeShape s m d v.tag (viewBits v) fun i c => if maskedIn mk i c then some (f i c) else none

/-- TZERO (R294). -/
def execTzero (d : BitVec 4) (e : BitVec 1) (m : BitVec 3) (s : State) : Host.Outcome State Fault Refusal :=
  .next (tileGated s (tileGate 0x45 none (isAcc d) (maskOk e m) [] []) (maskReg e m) [d.toNat] fun s =>
    fillTile s 0 d.toNat (s.maskOf e m) fun _ _ => 0)

/-- TFILL: the low bits of S(a) in every element; a ballast tile's index bytes stand (R294). -/
def execTfill (d : BitVec 4) (a : BitVec 6) (e : BitVec 1) (m : BitVec 3) (s : State) : Host.Outcome State Fault Refusal :=
  let g := tileGate 0x45 none (isAcc d) (maskOk e m) [fieldOf a] []
  .next (tileGated s g (maskReg e m) [d.toNat] fun s =>
    let x := (s.me.src a).toNat
    fillTile s (sMask g.srcs) d.toNat (s.maskOf e m) fun _ _ => x)

/-- The index bytes of a ballast tile's shape (R207). -/
def indexBytes (v : TileView) : List (Nat × Byte) :=
  if tagFmt v.tag ≠ fmtBal then []
  else (List.range (tagRows v.tag)).foldl (fun acc i =>
    acc ++ (List.range (tagCols v.tag)).map fun k => let a := 256 * i + 192 + k; (a, v.data.byte a)) []

/-- TMOV: the tag whole, every element bit for bit, and a ballast tile's index bytes (R294). -/
def execTmov (d a : BitVec 4) (s : State) : Host.Outcome State Fault Refusal :=
  .next (tileGated s (tileGate 0x45 none (isAcc d || isAcc a) true [] []) [a.toNat] [d.toNat] fun s =>
    let v := s.look a.toNat
    if tagOk d.toNat v.tag = false ∨ v.tag = 0 then formatTrap s
    else
      let l := shapeWrites (s.look d.toNat) (viewBits v) (tagRows v.tag) (tagCols v.tag) fun i c => some (v.elem i c)
      beginTile s 0 [{ reg := d.toNat, tag := some v.tag, bytes := l ++ indexBytes v }])

/-! ### TELEM (R295) -/

/-- Formats whose elements `tget` extends by their sign. -/
def fmtSigned (f : Nat) : Bool := decide (4 ≤ f ∧ f ≤ 7)

/-- TGET: the pattern of element (S(a), S(b)), sign-extended for I formats (R295). -/
def execTget (t : BitVec 4) (d : BitVec 5) (a b : BitVec 6) (s : State) : Host.Outcome State Fault Refusal :=
  let g := tileGate 0x54 none (isAcc t) true [fieldOf a, fieldOf b] [d.toNat]
  .next (tileGated s g [t.toNat] [] fun s =>
    let v := s.look t.toNat
    let x := v.elem (s.me.src a).toNat (s.me.src b).toNat
    let r := if fmtSigned (tagFmt v.tag) then wordOfInt (signedN x (viewBits v)) else .ofNat 64 x
    nowTile s (sMask g.srcs) [] fun y => y.setS d.toNat r)

/-- TPUT: writes one element; an index outside the shape writes nothing, a NONE tag traps FORMAT (R295). -/
def execTput (t : BitVec 4) (d : BitVec 5) (a b : BitVec 6) (s : State) : Host.Outcome State Fault Refusal :=
  let g := tileGate 0x54 none (isAcc t) true [fieldOf a, fieldOf b] [d.toNat]
  .next (tileGated s g [] [t.toNat] fun s =>
    let v := s.look t.toNat
    let i := (s.me.src a).toNat
    let c := (s.me.src b).toNat
    if v.tag = 0 then formatTrap s
    else
      let l := if i < tagRows v.tag ∧ c < tagCols v.tag then
          rowWrites v (viewBits v) i [(c, (s.me.plain d).toNat)] else []
      nowTile s (sMask g.srcs) [{ reg := t.toNat, tag := none, bytes := l }] id)

/-! ### TSEQ, TBCAST (R296, R297) -/

/-- An integer rounded into a format by RNE (R157, R161). -/
def intToFmt (f : Nat) (v : Nat) : Nat :=
  match ekind f with
  | .ieee x => x.round .rne (.fin false v 0)
  | .int n sg => if sg then min v (2 ^ (n - 1) - 1) else min v (2 ^ n - 1)
  | .other => 0

/-- A sequence in td's shape and format (R296). -/
def seqTile (s : State) (d : BitVec 4) (e : BitVec 1) (m : BitVec 3) (f : Nat → Nat → Nat → Nat) : State :=
  tileGated s (tileGate 0x46 (some .a) (isAcc d) (maskOk e m) [] []) (maskReg e m) [d.toNat] fun s =>
    let v := s.look d.toNat
    if ekind (tagFmt v.tag) = .other then formatTrap s
    else fillTile s 0 d.toNat (s.maskOf e m) fun i c => intToFmt (tagFmt v.tag) (f (tagCols v.tag) i c)

/-- TSEQ_COL: c (R296). -/
def execTseqCol (d : BitVec 4) (e : BitVec 1) (m : BitVec 3) (s : State) : Host.Outcome State Fault Refusal :=
  .next (seqTile s d e m fun _ _ c => c)

/-- TSEQ_ROW: i (R296). -/
def execTseqRow (d : BitVec 4) (e : BitVec 1) (m : BitVec 3) (s : State) : Host.Outcome State Fault Refusal :=
  .next (seqTile s d e m fun _ i _ => i)

/-- TSEQ_LIN: i x COLS + c (R296). -/
def execTseqLin (d : BitVec 4) (e : BitVec 1) (m : BitVec 3) (s : State) : Host.Outcome State Fault Refusal :=
  .next (seqTile s d e m fun cols i c => i * cols + c)

/-- A broadcast of ta's elements over td's shape; equal formats (R297). -/
def bcastTile (s : State) (d a : BitVec 4) (e : BitVec 1) (m : BitVec 3) (f : TileView → Nat → Nat → Nat) : State :=
  tileGated s (tileGate 0x4D (some .a) (isAcc d || isAcc a) (maskOk e m) [] []) (a.toNat :: maskReg e m) [d.toNat] fun s =>
    let v := s.look a.toNat
    if tagFmt v.tag = 0 ∨ tagFmt (s.look d.toNat).tag ≠ tagFmt v.tag then formatTrap s
    else fillTile s 0 d.toNat (s.maskOf e m) (f v)

/-- TBCAST_ROW: ta[0][c] (R297). -/
def execTbcastRow (d a : BitVec 4) (e : BitVec 1) (m : BitVec 3) (s : State) : Host.Outcome State Fault Refusal :=
  .next (bcastTile s d a e m fun v _ c => v.elem 0 c)

/-- TBCAST_COL: ta[i][0] (R297). -/
def execTbcastCol (d a : BitVec 4) (e : BitVec 1) (m : BitVec 3) (s : State) : Host.Outcome State Fault Refusal :=
  .next (bcastTile s d a e m fun v i _ => v.elem i 0)

/-- TBCAST_ONE: ta[0][0] (R297). -/
def execTbcastOne (d a : BitVec 4) (e : BitVec 1) (m : BitVec 3) (s : State) : Host.Outcome State Fault Refusal :=
  .next (bcastTile s d a e m fun v _ _ => v.elem 0 0)

/-! ### Masks (R310) -/

/-- The gate of MASK. -/
def maskGate (srcs plain : List Nat) : Gate := tileGate 0x53 none false true srcs plain

/-- Gives mask md a tag and the bits inside its shape. -/
def setMask (s : State) (sb : BitVec 32) (md : Nat) (tag : Word) (f : Nat → Nat → Bool) : State :=
  let l := shapeWrites (s.look md) 1 (tagRows tag) (tagCols tag) fun i c => some (if f i c then 1 else 0)
  nowTile s sb [{ reg := md, tag := some tag, bytes := l }] id

/-- `mset` and `mset.z`: the tag S(a) with every bit inside the shape b; FORMAT for no mask tag (R310). -/
def msetTo (b : Bool) (m : BitVec 3) (a : BitVec 6) (s : State) : State :=
  let g := maskGate [fieldOf a] []
  tileGated s g [] [16 + m.toNat] fun s =>
    let v := s.me.src a
    if tagOk 16 v then setMask s (sMask g.srcs) (16 + m.toNat) v fun _ _ => b else formatTrap s

/-- MSET (R310). -/
def execMset (m : BitVec 3) (a : BitVec 6) (s : State) : Host.Outcome State Fault Refusal := .next (msetTo true m a s)

/-- MSET_Z (R310). -/
def execMsetZ (m : BitVec 3) (a : BitVec 6) (s : State) : Host.Outcome State Fault Refusal := .next (msetTo false m a s)

/-- MAND (R310). -/
def execMand (m x y : BitVec 3) (s : State) : Host.Outcome State Fault Refusal :=
  .next (tileGated s (maskGate [] []) [16 + x.toNat, 16 + y.toNat] [16 + m.toNat] fun s =>
    let u := s.look (16 + x.toNat)
    let v := s.look (16 + y.toNat)
    setMask s 0 (16 + m.toNat) u.tag fun i c => u.bit i c && v.bit i c)

/-- MOR (R310). -/
def execMor (m x y : BitVec 3) (s : State) : Host.Outcome State Fault Refusal :=
  .next (tileGated s (maskGate [] []) [16 + x.toNat, 16 + y.toNat] [16 + m.toNat] fun s =>
    let u := s.look (16 + x.toNat)
    let v := s.look (16 + y.toNat)
    setMask s 0 (16 + m.toNat) u.tag fun i c => u.bit i c || v.bit i c)

/-- MNOT (R310). -/
def execMnot (m x : BitVec 3) (s : State) : Host.Outcome State Fault Refusal :=
  .next (tileGated s (maskGate [] []) [16 + x.toNat] [16 + m.toNat] fun s =>
    let u := s.look (16 + x.toNat)
    setMask s 0 (16 + m.toNat) u.tag fun i c => !u.bit i c)

/-- The number of 1 bits inside a mask's shape (R310). -/
def maskCount (v : TileView) : Nat :=
  (List.range (tagRows v.tag)).foldl (fun n i =>
    n + ((List.range (tagCols v.tag)).filter fun c => v.bit i c).length) 0

/-- A form of MASK that writes a scalar register. -/
def maskRead (d : BitVec 5) (x : BitVec 3) (srcs : List Nat) (f : State → TileView → Word) (s : State) : State :=
  let g := maskGate srcs [d.toNat]
  tileGated s g [16 + x.toNat] [] fun s =>
    let r := f s (s.look (16 + x.toNat))
    nowTile s (sMask g.srcs) [] fun y => y.setS d.toNat r

/-- MCNT (R310). -/
def execMcnt (d : BitVec 5) (x : BitVec 3) (s : State) : Host.Outcome State Fault Refusal :=
  .next (maskRead d x [] (fun _ v => .ofNat 64 (maskCount v)) s)

/-- MTEST_ANY (R310). -/
def execMtestAny (d : BitVec 5) (x : BitVec 3) (s : State) : Host.Outcome State Fault Refusal :=
  .next (maskRead d x [] (fun _ v => boolWord (maskCount v != 0)) s)

/-- MTEST_ALL: 1 for an empty mask (R310). -/
def execMtestAll (d : BitVec 5) (x : BitVec 3) (s : State) : Host.Outcome State Fault Refusal :=
  .next (maskRead d x [] (fun _ v => boolWord (maskCount v == tagRows v.tag * tagCols v.tag)) s)

/-- MTEST_BIT: bit (S(a)[15:8], S(a)[7:0]) (R310). -/
def execMtestBit (d : BitVec 5) (x : BitVec 3) (a : BitVec 6) (s : State) : Host.Outcome State Fault Refusal :=
  .next (maskRead d x [fieldOf a] (fun s v =>
    let w := s.me.src a
    boolWord (v.bit (fieldN w 8 8) (fieldN w 0 8))) s)

end Sys2Proof.Machine
end

