-- ==== Sys2Proof/Machine/TileArith.lean ====
section
/-! DEFINITION. Elementwise arithmetic, comparison, selection, functions and reductions of the A core (R298 to R303, R172,
R173). -/

namespace Sys2Proof.Machine

/-! ### Element arithmetic (R298) -/

/-- The operations of TEW. -/
inductive TewOp where
  | add | sub | mul | min | max | abs | neg | and | or | xor | sll | srl | sra
deriving DecidableEq, Repr

/-- The value of an integer element. -/
def intVal (n : Nat) (sg : Bool) (x : Nat) : Int := if sg then signedN x n else (x : Int)

/-- The lesser or greater of two patterns of an IEEE format: NaN wins, and -0 lies below +0 (R172, R298). -/
def minMaxF (f : FFmt) (big : Bool) (x y : Nat) : Nat :=
  let u := f.decode x
  let v := f.decode y
  if u.isNan || v.isNan then f.nanBits
  else if FVal.ltz v u then (if big then x else y) else (if big then y else x)

/-- The lesser or greater of two integer patterns. -/
def minMaxI (n : Nat) (sg big : Bool) (x y : Nat) : Nat :=
  if intVal n sg y < intVal n sg x then (if big then x else y) else (if big then y else x)

/-- An operation on IEEE patterns; none where the format is not accepted (R298). -/
def tewF (op : TewOp) (f : FFmt) (mode : RMode) (x y : Nat) : Option Nat :=
  let u := f.decode x
  let v := f.decode y
  let sign := 2 ^ (f.eb + f.fb)
  match op with
  | .add => some (f.round mode (FVal.add mode u v))
  | .sub => some (f.round mode (FVal.add mode u v.neg))
  | .mul => some (f.round mode (FVal.mul u v))
  | .min => some (minMaxF f false x y)
  | .max => some (minMaxF f true x y)
  | .abs => some (x % sign)
  | .neg => some (if x / sign % 2 = 1 then x - sign else x + sign)
  | _ => none

/-- An operation on integer patterns of n bits (R298). -/
def tewI (op : TewOp) (n : Nat) (sg : Bool) (x y : Nat) : Nat :=
  let sh := y % n
  match op with
  | .add => (x + y) % 2 ^ n
  | .sub => (x + 2 ^ n - y % 2 ^ n) % 2 ^ n
  | .mul => x * y % 2 ^ n
  | .min => minMaxI n sg false x y
  | .max => minMaxI n sg true x y
  | .abs => (intVal n sg x).natAbs % 2 ^ n
  | .neg => (2 ^ n - x % 2 ^ n) % 2 ^ n
  | .and => x &&& y
  | .or => x ||| y
  | .xor => x ^^^ y
  | .sll => x * 2 ^ sh % 2 ^ n
  | .srl => x / 2 ^ sh
  | .sra => ((signedN x n).fdiv (2 ^ sh : Nat) % (2 ^ n : Nat)).toNat

/-- An operation in an element format; none where FORMAT is due. -/
def tewElem (op : TewOp) (f : Nat) (mode : RMode) (x y : Nat) : Option Nat :=
  match ekind f with
  | .ieee g => tewF op g mode x y
  | .int n sg => some (tewI op n sg x y)
  | .other => none

/-- Equal FMT, ROWS and COLS (R298). -/
def sameShape (u v : Word) : Bool := tagFmt u == tagFmt v && tagRows u == tagRows v && tagCols u == tagCols v

/-- TEW: td receives ta's tag, and each element under the mask its one rounded result (R298). -/
def tewTile (op : TewOp) (d a : BitVec 4) (b : Option (BitVec 4)) (y : BitVec 4) (e : BitVec 1) (m : BitVec 3) (s : State) :
    State :=
  let rb := match b with | some t => [t] | none => []
  let g := tileGate 0x47 (some .a) ((d :: a :: rb).any isAcc) (maskOk e m) [] []
  tileGated s g (a.toNat :: rb.map (·.toNat) ++ maskReg e m) [d.toNat] fun s =>
    let u := s.look a.toNat
    let v := match b with | some t => s.look t.toNat | none => u
    let mode := s.me.rmode
    match elemFmt u.tag y.toNat with
    | none => formatTrap s
    | some f =>
      if tagFmt u.tag = 0 ∨ sameShape u.tag v.tag = false ∨ tewElem op f mode 0 0 = none then formatTrap s
      else
        let mk := s.maskOf e m
        writeShape s 0 d.toNat u.tag (fmtBits f) fun i c =>
          if maskedIn mk i c then tewElem op f mode (u.elem i c) (v.elem i c) else none

/-- TADD (R298). -/
def execTadd (d a b y : BitVec 4) (e : BitVec 1) (m : BitVec 3) (s : State) : Host.Outcome State Fault Refusal :=
  .next (tewTile .add d a (some b) y e m s)

/-- TSUB (R298). -/
def execTsub (d a b y : BitVec 4) (e : BitVec 1) (m : BitVec 3) (s : State) : Host.Outcome State Fault Refusal :=
  .next (tewTile .sub d a (some b) y e m s)

/-- TMUL (R298). -/
def execTmul (d a b y : BitVec 4) (e : BitVec 1) (m : BitVec 3) (s : State) : Host.Outcome State Fault Refusal :=
  .next (tewTile .mul d a (some b) y e m s)

/-- TMIN (R298). -/
def execTmin (d a b y : BitVec 4) (e : BitVec 1) (m : BitVec 3) (s : State) : Host.Outcome State Fault Refusal :=
  .next (tewTile .min d a (some b) y e m s)

/-- TMAX (R298). -/
def execTmax (d a b y : BitVec 4) (e : BitVec 1) (m : BitVec 3) (s : State) : Host.Outcome State Fault Refusal :=
  .next (tewTile .max d a (some b) y e m s)

/-- TAND (R298). -/
def execTand (d a b y : BitVec 4) (e : BitVec 1) (m : BitVec 3) (s : State) : Host.Outcome State Fault Refusal :=
  .next (tewTile .and d a (some b) y e m s)

/-- TOR (R298). -/
def execTor (d a b y : BitVec 4) (e : BitVec 1) (m : BitVec 3) (s : State) : Host.Outcome State Fault Refusal :=
  .next (tewTile .or d a (some b) y e m s)

/-- TXOR (R298). -/
def execTxor (d a b y : BitVec 4) (e : BitVec 1) (m : BitVec 3) (s : State) : Host.Outcome State Fault Refusal :=
  .next (tewTile .xor d a (some b) y e m s)

/-- TSLL (R298). -/
def execTsll (d a b y : BitVec 4) (e : BitVec 1) (m : BitVec 3) (s : State) : Host.Outcome State Fault Refusal :=
  .next (tewTile .sll d a (some b) y e m s)

/-- TSRL (R298). -/
def execTsrl (d a b y : BitVec 4) (e : BitVec 1) (m : BitVec 3) (s : State) : Host.Outcome State Fault Refusal :=
  .next (tewTile .srl d a (some b) y e m s)

/-- TSRA (R298). -/
def execTsra (d a b y : BitVec 4) (e : BitVec 1) (m : BitVec 3) (s : State) : Host.Outcome State Fault Refusal :=
  .next (tewTile .sra d a (some b) y e m s)

/-- TABS (R298). -/
def execTabs (d a y : BitVec 4) (e : BitVec 1) (m : BitVec 3) (s : State) : Host.Outcome State Fault Refusal :=
  .next (tewTile .abs d a none y e m s)

/-- TNEG (R298). -/
def execTneg (d a y : BitVec 4) (e : BitVec 1) (m : BitVec 3) (s : State) : Host.Outcome State Fault Refusal :=
  .next (tewTile .neg d a none y e m s)

/-! ### TFMA (R299) -/

/-- The exact x × y + z or x × y − z, rounded once (R299). -/
def fmaElem (f : FFmt) (sub : Bool) (mode : RMode) (x y z : Nat) : Nat :=
  let w := f.decode z
  f.round mode (FVal.add mode (FVal.mul (f.decode x) (f.decode y)) (if sub then w.neg else w))

/-- TFMA's two forms (R299). -/
def fmaTile (sub : Bool) (d a b y c : BitVec 4) (e : BitVec 1) (m : BitVec 3) (s : State) : State :=
  let g := tileGate 0x4A (some .a) ([d, a, b, c].any isAcc) (maskOk e m) [] []
  tileGated s g ([a.toNat, b.toNat, c.toNat] ++ maskReg e m) [d.toNat] fun s =>
    let u := s.look a.toNat
    let v := s.look b.toNat
    let w := s.look c.toNat
    let mode := s.me.rmode
    match (elemFmt u.tag y.toNat).map ekind with
    | some (.ieee f) =>
      if sameShape u.tag v.tag = false ∨ sameShape u.tag w.tag = false then formatTrap s
      else
        let mk := s.maskOf e m
        writeShape s 0 d.toNat u.tag (1 + f.eb + f.fb) fun i j =>
          if maskedIn mk i j then some (fmaElem f sub mode (u.elem i j) (v.elem i j) (w.elem i j)) else none
    | _ => formatTrap s

/-- TFMA (R299). -/
def execTfma (d a b y c : BitVec 4) (e : BitVec 1) (m : BitVec 3) (s : State) : Host.Outcome State Fault Refusal :=
  .next (fmaTile false d a b y c e m s)

/-- TFMS (R299). -/
def execTfms (d a b y c : BitVec 4) (e : BitVec 1) (m : BitVec 3) (s : State) : Host.Outcome State Fault Refusal :=
  .next (fmaTile true d a b y c e m s)

/-! ### TCMP, TSEL (R300, R301) -/

/-- Whether a relation holds between two elements (R156, R300). -/
def cmpElem (r : FRel) (f : Nat) (x y : Nat) : Bool :=
  match ekind f with
  | .ieee g => r.holds (g.decode x) (g.decode y)
  | .int n sg =>
    let u := intVal n sg x
    let v := intVal n sg y
    (match r with
     | .eq => u == v
     | .ne => u != v
     | .lt => decide (u < v)
     | .le => decide (u ≤ v))
  | .other => false

/-- TCMP: the mask md takes ta's ROWS and COLS and, under the mask operand, the relation's bits (R300). -/
def cmpTile (r : FRel) (md : BitVec 3) (a b y : BitVec 4) (e : BitVec 1) (m : BitVec 3) (s : State) : State :=
  let g := tileGate 0x48 (some .a) (isAcc a || isAcc b) (maskOk e m) [] []
  tileGated s g ([a.toNat, b.toNat] ++ maskReg e m) [16 + md.toNat] fun s =>
    let u := s.look a.toNat
    let v := s.look b.toNat
    match elemFmt u.tag y.toNat with
    | none => formatTrap s
    | some f =>
      if tagFmt u.tag = 0 ∨ sameShape u.tag v.tag = false ∨ ekind f = .other ∨ tagCols u.tag > 128 then formatTrap s
      else
        let mk := s.maskOf e m
        writeShape s 0 (16 + md.toNat) (mkTag 0 (tagRows u.tag) (tagCols u.tag)) 1 fun i c =>
          if maskedIn mk i c then some (if cmpElem r f (u.elem i c) (v.elem i c) then 1 else 0) else none

/-- TCMP_EQ (R300). -/
def execTcmpEq (d : BitVec 3) (a b y : BitVec 4) (e : BitVec 1) (m : BitVec 3) (s : State) :
    Host.Outcome State Fault Refusal := .next (cmpTile .eq d a b y e m s)

/-- TCMP_NE (R300). -/
def execTcmpNe (d : BitVec 3) (a b y : BitVec 4) (e : BitVec 1) (m : BitVec 3) (s : State) :
    Host.Outcome State Fault Refusal := .next (cmpTile .ne d a b y e m s)

/-- TCMP_LT (R300). -/
def execTcmpLt (d : BitVec 3) (a b y : BitVec 4) (e : BitVec 1) (m : BitVec 3) (s : State) :
    Host.Outcome State Fault Refusal := .next (cmpTile .lt d a b y e m s)

/-- TCMP_LE (R300). -/
def execTcmpLe (d : BitVec 3) (a b y : BitVec 4) (e : BitVec 1) (m : BitVec 3) (s : State) :
    Host.Outcome State Fault Refusal := .next (cmpTile .le d a b y e m s)

/-- TSEL: ta where the mask bit is 1, else tb; any FMT but NONE (R301). -/
def execTsel (d a b : BitVec 4) (k : BitVec 3) (s : State) : Host.Outcome State Fault Refusal :=
  let g := tileGate 0x49 (some .a) ([d, a, b].any isAcc) true [] []
  .next (tileGated s g [a.toNat, b.toNat, 16 + k.toNat] [d.toNat] fun s =>
    let u := s.look a.toNat
    let v := s.look b.toNat
    let mk := s.look (16 + k.toNat)
    if tagFmt u.tag = 0 ∨ sameShape u.tag v.tag = false then formatTrap s
    else writeShape s 0 d.toNat u.tag (viewBits u) fun i c => some (if mk.bit i c then u.elem i c else v.elem i c))

/-! ### TFUN (R173, R302) -/

/-- A correctly rounded function of each element (R302). -/
def funTile (fn : FVal → FVal) (d a y : BitVec 4) (e : BitVec 1) (m : BitVec 3) (s : State) : State :=
  let g := tileGate 0x4B (some .a) (isAcc d || isAcc a) (maskOk e m) [] []
  tileGated s g (a.toNat :: maskReg e m) [d.toNat] fun s =>
    let u := s.look a.toNat
    let mode := s.me.rmode
    match (elemFmt u.tag y.toNat).map ekind with
    | some (.ieee f) =>
      let mk := s.maskOf e m
      writeShape s 0 d.toNat u.tag (1 + f.eb + f.fb) fun i c =>
        if maskedIn mk i c then some (f.round mode (fn (u.val f i c))) else none
    | _ => formatTrap s

/-- TEXP2 (R302). -/
def execTexp2 (d a y : BitVec 4) (e : BitVec 1) (m : BitVec 3) (s : State) : Host.Outcome State Fault Refusal :=
  .next (funTile FVal.exp2 d a y e m s)

/-- TRCP (R302). -/
def execTrcp (d a y : BitVec 4) (e : BitVec 1) (m : BitVec 3) (s : State) : Host.Outcome State Fault Refusal :=
  .next (funTile FVal.rcp d a y e m s)

/-- TRSQ (R302). -/
def execTrsq (d a y : BitVec 4) (e : BitVec 1) (m : BitVec 3) (s : State) : Host.Outcome State Fault Refusal :=
  .next (funTile FVal.rsqrt d a y e m s)

/-! ### Reductions (R172, R303) -/

/-- The reduction of a list of elements: the first as it is, each later one by the operation; +0 of none (R172). (DEDUCED, log 33.) -/
def reduceElems (op : TewOp) (f : Nat) (mode : RMode) : List Nat → Nat
  | [] => 0
  | x :: r => r.foldl (fun acc y => (tewElem op f mode acc y).getD 0) x

/-- The value of one row or column: with a NaN among its elements it is the canonical NaN (R156, R172). -/
def reduceLine (op : TewOp) (f : Nat) (mode : RMode) (l : List Nat) : Nat :=
  match ekind f with
  | .ieee g =>
    if l.any fun x => (g.decode x).isNan then g.nanBits else reduceElems op f mode l
  | _ => reduceElems op f mode l

/-- TRED over the columns of each row, or over the rows of each column; a mask excludes elements (R303). -/
def redTile (op : TewOp) (rows : Bool) (d a y : BitVec 4) (e : BitVec 1) (m : BitVec 3) (s : State) : State :=
  let g := tileGate 0x4C (some .a) (isAcc d || isAcc a) (maskOk e m) [] []
  tileGated s g (a.toNat :: maskReg e m) [d.toNat] fun s =>
    let u := s.look a.toNat
    let mode := s.me.rmode
    match elemFmt u.tag y.toNat with
    | none => formatTrap s
    | some f =>
      if tagFmt u.tag = 0 ∨ ekind f = .other then formatTrap s
      else
        let mk := s.maskOf e m
        let nr := tagRows u.tag
        let nc := tagCols u.tag
        let row i := ((List.range nc).filter fun c => maskedIn mk i c).map fun c => u.elem i c
        let col c := ((List.range nr).filter fun i => maskedIn mk i c).map fun i => u.elem i c
        let tag := if rows then mkTag (tagFmt u.tag) nr 1 else mkTag (tagFmt u.tag) 1 nc
        writeShape s 0 d.toNat tag (fmtBits f) fun i c => some (reduceLine op f mode (if rows then row i else col c))

/-- TRSUM (R303). -/
def execTrsum (d a y : BitVec 4) (e : BitVec 1) (m : BitVec 3) (s : State) : Host.Outcome State Fault Refusal :=
  .next (redTile .add true d a y e m s)

/-- TRMAX (R303). -/
def execTrmax (d a y : BitVec 4) (e : BitVec 1) (m : BitVec 3) (s : State) : Host.Outcome State Fault Refusal :=
  .next (redTile .max true d a y e m s)

/-- TRMIN (R303). -/
def execTrmin (d a y : BitVec 4) (e : BitVec 1) (m : BitVec 3) (s : State) : Host.Outcome State Fault Refusal :=
  .next (redTile .min true d a y e m s)

/-- TCSUM (R303). -/
def execTcsum (d a y : BitVec 4) (e : BitVec 1) (m : BitVec 3) (s : State) : Host.Outcome State Fault Refusal :=
  .next (redTile .add false d a y e m s)

/-- TCMAX (R303). -/
def execTcmax (d a y : BitVec 4) (e : BitVec 1) (m : BitVec 3) (s : State) : Host.Outcome State Fault Refusal :=
  .next (redTile .max false d a y e m s)

/-- TCMIN (R303). -/
def execTcmin (d a y : BitVec 4) (e : BitVec 1) (m : BitVec 3) (s : State) : Host.Outcome State Fault Refusal :=
  .next (redTile .min false d a y e m s)

end Sys2Proof.Machine
end

