-- ==== Sys2Proof/Machine/TileConv.lean ====
section
/-! DEFINITION. Conversions, quantisation, random words and fixes in tiles (R304 to R309, R165, R168 to R171). -/

namespace Sys2Proof.Machine

/-! ### Values of elements in any format (R165) -/

/-- The exact value of a pattern (R158, R165). -/
def decodeElem (f x : Nat) : FVal :=
  match ekind f with
  | .ieee g => g.decode x
  | .int n sg => FVal.ofInt (intVal n sg x) 0
  | .other => if f = fmtT8 then decodeT 8 x else if f = fmtT6 then decodeT 6 x else .fin false 0 0

/-- A value in a format: `Round` for IEEE and integer formats, `RoundT` for T8 and T6 (R157, R161, R165). (DEDUCED, log 32.) -/
def encodeElem (f : Nat) (mode : RMode) (v : FVal) : Nat :=
  match ekind f with
  | .ieee g => g.round mode v
  | .int n sg =>
    let r := v.toInt mode (if sg then -(2 ^ (n - 1) : Nat) else 0) (if sg then (2 ^ (n - 1) : Nat) - 1 else (2 ^ n : Nat) - 1)
    (r % (2 ^ n : Nat)).toNat
  | .other => roundT (fmtBits f) v

/-- A gate of the C core whose tile fields are of kind T. -/
def convGate (op : Nat) (legal : Bool) : Gate := tileGate op (some .c) false legal [] []

/-! ### TCVT (R304) -/

/-- TCVT (R304): SCALE is ignored. -/
def execTcvt (d a y : BitVec 4) (s : State) : Host.Outcome State Fault Refusal :=
  .next (tileGated s (convGate 0x4F (!isAcc d && !isAcc a && y != 0)) [a.toNat] [d.toNat] fun s =>
    let u := s.look a.toNat
    let mode := s.me.rmode
    let f := tagFmt u.tag
    if y.toNat > 13 ∨ f = 0 ∨ f > 13 then formatTrap s
    else
      writeShape s 0 d.toNat (mkTag y.toNat (tagRows u.tag) (tagCols u.tag)) (fmtBits y.toNat) fun i c =>
        some (encodeElem y.toNat mode (decodeElem f (u.elem i c))))

/-! ### TDEQ (R171, R306) -/

/-- The scale and ballast tiles that a tag names have the exact FMT and shape of R206 and R207 (R209). An instruction that
only carries such a tag does not look at the tiles: `tdeq` and the matrix products do (DESIGN CHOICE, log 102). -/
def namedOk (s : State) (w : Word) : Bool :=
  (tagAxis w == 0 || sameShape (s.look (tagScaleReg w)).tag (scaleTag w)) &&
    (!tagHasBal w || sameShape (s.look (tagBalReg w)).tag (ballastTag w))

/-- The E8 scale of element (i, c): 127 when unscaled (R163, R206). -/
def scaleAt (w : Word) (sc : TileView) (i c : Nat) : Nat :=
  let kb := blkSize (tagBlk w)
  if tagAxis w = 0 then 127 else if tagAxis w = 1 then sc.elem i (c / kb) else sc.elem (i / kb) c

/-- The columns that a ballast tile records, by its slots in ascending order: row 0's index bytes (R207). (DEDUCED, log 29.) -/
def divertedCols (b : TileView) : List (Nat × Nat) :=
  (List.range (tagCols b.tag)).filterMap fun k =>
    let j := (b.data.byte (192 + k)).toNat
    if j < 128 then some (k, k / 8 * 128 + j) else none

/-- The value that a narrow element stands for (R164, R171). -/
def narrowVal (f x sc : Nat) : FVal := (decodeElem f x).scaleE8 sc

/-- TDEQ (R171, R306). It honours the rounding mode, though R155's list does not name it (DEDUCED, log 91). Where two slots of a malformed
ballast tile name one column, the value of the higher slot is placed (DESIGN CHOICE, log 29). -/
def execTdeq (d a y : BitVec 4) (s : State) : Host.Outcome State Fault Refusal :=
  .next (tileGated s (convGate 0x51 (!isAcc d && !isAcc a && y != 0)) [a.toNat] [d.toNat] fun s =>
    let u := s.look a.toNat
    let mode := s.me.rmode
    let f := tagFmt u.tag
    match ekind y.toNat with
    | .ieee g =>
      if fmtNarrow f = false ∨ namedOk s u.tag = false then formatTrap s
      else
        let sc := s.look (tagScaleReg u.tag)
        let bal := s.look (tagBalReg u.tag)
        let cols := if tagHasBal u.tag then divertedCols bal else []
        writeShape s 0 d.toNat (mkTag y.toNat (tagRows u.tag) (tagCols u.tag)) (fmtBits y.toNat) fun i c =>
          match cols.reverse.find? fun e => e.2 == c with
          | some (k, _) => some (g.round mode (bf16.decode (bal.elem i k)))
          | none => some (g.round mode (narrowVal f (u.elem i c) (scaleAt u.tag sc i c)))
    | _ => formatTrap s)

/-! ### TQNT (R168, R169, R305) -/

/-- The absolute value. -/
def FVal.abs : FVal → FVal
  | .nan => .nan | .inf _ => .inf false | .fin _ m e => .fin false m e

/-- The maximum of magnitudes: NaN if any is NaN, 0 of none (R169). -/
def maxAbs (l : List FVal) : FVal :=
  l.foldl (fun m x =>
    let x := x.abs
    if m.isNan || x.isNan then .nan else if FVal.lt m x then x else m) (.fin false 0 0)

/-- Inserts a column before the first with a smaller amax; equal ones keep their order (R169). -/
def insertCand (e : Nat × FVal) : List (Nat × FVal) → List (Nat × FVal)
  | [] => [e]
  | x :: r => if FVal.lt x.2 e.2 then e :: x :: r else x :: insertCand e r

/-- The columns of a group of 128. -/
def groupCols (cols g : Nat) : List Nat := (List.range (min 128 (cols - 128 * g))).map (128 * g + ·)

/-- The candidates of a group: up to 8 columns with the largest amax that is neither 0 nor NaN (R169). -/
def candidates (x : Nat → Nat → FVal) (rows cols g : Nat) : List (Nat × FVal) :=
  ((groupCols cols g).foldl (fun l c =>
    let a := maxAbs ((List.range rows).map fun i => x i c)
    if a.isNan || FVal.eq a (.fin false 0 0) then l else insertCand (c, a) l) []).take 8

/-- The scale of block b of row i over the columns not in a list (R168, R169). -/
def rowScale (x : Nat → Nat → FVal) (i8 : Bool) (cols kb i b : Nat) (out : List Nat) : Nat :=
  scaleOf i8 (maxAbs (((List.range (min kb (cols - kb * b))).map (kb * b + ·)).filterMap fun c =>
    if out.contains c then none else some (x i c)))

/-- `div` of a group: the diverted columns in ascending order (R169). -/
def diverted (x : Nat → Nat → FVal) (i8 : Bool) (theta : FVal) (rows cols kb g : Nat) : List Nat :=
  let cand := candidates x rows cols g
  let cs := cand.map (·.1)
  let keep (e : Nat × FVal) : Bool :=
    let srefs := (List.range rows).map fun i => rowScale x i8 cols kb i (e.1 / kb) cs
    let top := srefs.foldl max 0
    !(srefs.contains 255) && FVal.lt (theta.scale ((top : Int) - 127)) e.2
  (groupCols cols g).filter fun c => cand.any fun e => e.1 == c && keep e

/-- A quantised element (R169). -/
def quantElem (f : Nat) (v : FVal) (sc : Nat) : Nat :=
  if sc = 255 then 0 else encodeElem f .rne (v.scale (127 - (sc : Int)))

/-- The ballast tile's bytes: slots and index bytes of every row (R169, R207). -/
def ballastBytes (x : Nat → Nat → FVal) (rows : Nat) (divs : List (List Nat)) : List (Nat × Byte) :=
  (List.range rows).foldl (fun acc i =>
    (List.range divs.length).foldl (fun acc g =>
      let dv := divs.getD g []
      (List.range 8).foldl (fun acc m =>
        let v := match dv[m]? with
          | some c => bf16.round .rne (x i c)
          | none => 0
        let ix := match dv[m]? with
          | some c => c - 128 * g
          | none => 255
        let o := 256 * i + 16 * g + 2 * m
        acc ++ [(o, .ofNat 8 v), (o + 1, .ofNat 8 (v / 256)), (256 * i + 192 + 8 * g + m, .ofNat 8 ix)]) acc) acc) []

/-- TQNT (R169, R305): writes the narrow tile, its scale tile and, with BALLAST, its ballast tile together. -/
def execTqnt (d a b : BitVec 4) (s : State) : Host.Outcome State Fault Refusal :=
  .next (tileGated s (convGate 0x50 (!isAcc d && !isAcc a && !isAcc b)) [a.toNat, b.toNat] [d.toNat] fun s =>
    let w := (s.look d.toNat).tag
    let u := s.look a.toNat
    let th := s.look b.toNat
    let f := tagFmt w
    let rows := tagRows w
    let cols := tagCols w
    match ekind (tagFmt u.tag) with
    | .ieee g =>
      if fmtNarrow f = false ∨ (tagAxis w ≠ 1 ∧ tagAxis w ≠ 2) ∨ tagRows u.tag ≠ rows ∨ tagCols u.tag ≠ cols ∨
          (tagHasBal w = true ∧ (tagFmt th.tag ≠ fmtF32 ∨ tagBalReg w = tagScaleReg w)) then formatTrap s
      else
        let x i c := g.decode (u.elem i c)
        let i8 := f == fmtI8
        let kb := blkSize (tagBlk w)
        let ng := ceilDiv cols 128
        let divs := if tagHasBal w then
            (List.range ng).map fun k => diverted x i8 (f32.decode (th.elem 0 0)) rows cols kb k
          else List.replicate ng []
        let out := divs.flatten
        let st := scaleTag w
        let scs := (List.range (tagRows st)).map fun i => (List.range (tagCols st)).map fun c =>
          if tagAxis w = 1 then rowScale x i8 cols kb i c out
          else scaleOf i8 (maxAbs ((List.range (min kb (rows - kb * i))).map fun j => x (kb * i + j) c))
        let sc i c := if tagAxis w = 1 then (scs.getD i []).getD (c / kb) 0 else (scs.getD (i / kb) []).getD c 0
        let q := shapeWrites (s.look d.toNat) (fmtBits f) rows cols fun i c =>
          some (if out.contains c then 0 else quantElem f (x i c) (sc i c))
        let e := shapeWrites (s.look (tagScaleReg w)) 8 (tagRows st) (tagCols st) fun i c => some ((scs.getD i []).getD c 0)
        let ws : List TileWrite := [{ reg := d.toNat, tag := some w, bytes := q },
          { reg := tagScaleReg w, tag := some st, bytes := e }]
        let bw : List TileWrite := if tagHasBal w then
            [{ reg := tagBalReg w, tag := some (ballastTag w), bytes := ballastBytes x rows divs }] else []
        beginTile s 0 (ws ++ bw)
    | _ => formatTrap s)

/-! ### TRNG (R307) -/

/-- One round of `Mix` (R307). -/
def mixRound (x : Nat) : Nat :=
  let x := x * 1025 % 2 ^ 32
  x ^^^ (x / 2 ^ 6)

/-- `Mix` (R307). -/
def mix (c k : Nat) : Nat :=
  let x := mixRound (mixRound (((c ^^^ k) + 1) % 2 ^ 32))
  let x := x * 9 % 2 ^ 32
  let x := x ^^^ (x / 2 ^ 11)
  x * 32769 % 2 ^ 32

/-- TRNG's two forms (R307). -/
def rngTile (unit : Bool) (d a b : BitVec 4) (s : State) : State :=
  tileGated s (convGate 0x4E (!isAcc d && !isAcc a && !isAcc b)) [a.toNat, b.toNat] [d.toNat] fun s =>
    let u := s.look a.toNat
    let v := s.look b.toNat
    let word (w : Word) : Bool := tagFmt w == fmtI32 || tagFmt w == fmtN32
    if word u.tag = false ∨ word v.tag = false ∨ tagRows u.tag ≠ tagRows v.tag ∨ tagCols u.tag ≠ tagCols v.tag then formatTrap s
    else
      let tag := if unit then setField u.tag 36 4 fmtF32 else u.tag
      writeShape s 0 d.toNat tag 32 fun i c =>
        let x := mix (u.elem i c) (v.elem i c)
        some (if unit then f32.round .rne (.fin false (x / 2 ^ 8) (-24)) else x)

/-- TRNG (R307). -/
def execTrng (d a b : BitVec 4) (s : State) : Host.Outcome State Fault Refusal := .next (rngTile false d a b s)

/-- TRNG_U (R307). -/
def execTrngU (d a b : BitVec 4) (s : State) : Host.Outcome State Fault Refusal := .next (rngTile true d a b s)

/-! ### Fix tiles (R308, R309) -/

/-- The head dimension of a fix tile; none for a tile that is none (R308). -/
def fixDim (w : Word) : Option Nat :=
  if tagFmt w = fmtF32 ∧ tagCols w = 64 ∧ (tagRows w = 2 ∨ tagRows w = 3 ∨ tagRows w = 5) then some (64 * (tagRows w - 1))
  else none

/-- Element e of a fix tile (R308). -/
def fixElem (v : TileView) (e : Nat) : Nat := v.elem (e / 64) (e % 64)

/-- The fix that a tile holds (R308). -/
def tileFix (v : TileView) (d : Nat) : Fix :=
  { m := fixElem v 0, l := fixElem v 1, acc := (List.range d).map fun i => fixElem v (16 + i) }

/-- The status word 1 of a fix tile (R85, R308). -/
def fixStatus (v : TileView) : Word := .ofNat 64 (fixElem v 2 + fixElem v 3 * 2 ^ 32)

/-- FIXMERGE (R88, R309). -/
def execFixmerge (d a b : BitVec 4) (s : State) : Host.Outcome State Fault Refusal :=
  .next (tileGated s (tileGate 0x52 (some .a) false (!isAcc d && !isAcc a && !isAcc b) [] []) [a.toNat, b.toNat] [d.toNat] fun s =>
    let u := s.look a.toNat
    let v := s.look b.toNat
    match fixDim u.tag, fixDim v.tag with
    | some n, some k =>
      if n ≠ k then formatTrap s
      else
        let (f, inf) := mergeFix (tileFix u n) (tileFix v n)
        let p := fixStatus u
        let q := fixStatus v
        let flags := fieldN p 61 3 ||| fieldN q 61 3 ||| (if inf then 2 else 0)
        let ce := satN (fieldN p 40 8 + fieldN q 40 8) 255
        let place := if fieldN p 63 1 = 1 ∨ fieldN q 63 1 = 0 then fieldN p 15 17 else fieldN q 15 17
        let st := flags * 2 ^ 61 + ce * 2 ^ 40 + place * 2 ^ 15
        let sum e := satN (fixElem u e + fixElem v e) (2 ^ 32 - 1)
        let out := [f.m, f.l, st % 2 ^ 32, st / 2 ^ 32, sum 4, sum 5] ++ List.replicate 10 0 ++ f.acc
        writeShape s 0 d.toNat u.tag 32 fun i c => some (out.getD (64 * i + c) 0)
    | _, _ => formatTrap s)

/-- FIXNORM (R88, R309). Bit 60 of the status is cleared where the row is not EMPTY. (DESIGN CHOICE, log 92.) -/
def execFixnorm (d a : BitVec 4) (s : State) : Host.Outcome State Fault Refusal :=
  .next (tileGated s (tileGate 0x52 (some .a) false (!isAcc d && !isAcc a) [] []) [a.toNat] [d.toNat] fun s =>
    let u := s.look a.toNat
    match fixDim u.tag with
    | some n =>
      let f := tileFix u n
      let empty := FVal.eq (f32v f.l) (.fin false 0 0) && !(f32v f.m).isNan
      let out := normFix f ++ [fixElem u 2, setBitsN (fixElem u 3) 28 1 (if empty then 1 else 0), fixElem u 4, fixElem u 5]
      writeShape s 0 d.toNat (mkTag fmtF32 (n / 64 + 1) 64) 32 fun i c => some (out.getD (64 * i + c) 0)
    | none => formatTrap s)

end Sys2Proof.Machine
end

