-- ==== Sys2Proof/Machine/TileMem.lean ====
section
/-! DEFINITION. Tile loads, stores and gathers, chart loads and the grouped load (R290 to R293, R351, R369), with their units
and waypoints (R212 to R217). The accesses of an instruction are made when it completes its issue; its tile writes end
later (R285). -/

namespace Sys2Proof.Machine

/-! ### Units -/

/-- A unit of R213: the fault of its resource checks, a misaligned address, and its spans. -/
structure TileUnit where
  res   : Option FaultInfo
  mis   : Option Word
  spans : List Span
deriving DecidableEq, Repr

/-- Why an instruction stops at a unit. -/
inductive UnitStop where
  | miss (va : Word) | fault (f : FaultInfo) | misalign (va : Word) | preempt
deriving DecidableEq, Repr

/-- The bytes of a span that lie in one aligned word: the address of the first, its index in the span, the count, and where they are. -/
structure TilePart where
  va : Word
  i  : Nat
  n  : Nat
  x  : Xlat
deriving DecidableEq, Repr

/-- A unit that may be transferred: its number, and each span with its parts. -/
abbrev ReadyUnit := Nat × List (Span × List TilePart)

/-- How an instruction reads (R136): as a scalar load does, as a gather at the home, or at a chart bank (R351). -/
inductive TileRead where
  | load | gather | bank
deriving DecidableEq, Repr

/-- The row byte count of a tag (R290): the pitch of s0. -/
def tagRowBytes (w : Word) : Nat :=
  if tagFmt w = fmtT6 then 3 * ceilDiv (tagCols w) 4
  else if tagFmt w = fmtBal then 256
  else tagCols w * fmtBits (tagFmt w) / 8

/-- The parts of a span that lie in one aligned word each: the address of the first byte, its index, the count. -/
def spanParts (va : Word) (n : Nat) : List (Word × Nat × Nat) :=
  let o := va.toNat % 8
  (List.range ((o + n + 7) / 8)).map fun j =>
    let i := if j = 0 then 0 else 8 * j - o
    (va + .ofNat 64 i, i, min n (8 * (j + 1) - o) - i)

/-- The word of the core's data cache that a load hits (R44, R252). -/
def tileHit (s : State) (how : TileRead) (x : Xlat) : Option Word := if how == .load && !x.uc then loadHit s x.loc else none

/-- Translates an address of a tile instruction: a gather through the cluster's TLB, others through their core's; a read that no
cache serves meets the home's checks (R25, R32, R44). -/
def tileXlat (s : State) (gather : Bool) (k : AccessKind) (va : Word) : State × Except UnitStop Xlat :=
  let (s, r) := if gather then translateEng s s.cur (gatherId s.cur) k va else (s, translate s s.cur k va)
  match r with
  | .miss => (s, .error (.miss va))
  | .fault f => (s, .error (.fault f))
  | .ok x =>
    let s := if gather then s else fillCoreTlb s s.cur k va
    let hit := !gather && (tileHit s .load x).isSome
    match (if k = .read ∧ hit = false then homeCheck s s.cur x.loc else none) with
    | some f => (s, .error (.fault (homeFault k va x f)))
    | none => (s, .ok x)

/-- Translates a span, byte by byte upwards; the parts that move are kept (R214, R215). -/
def spanXlat (s : State) (gather : Bool) (k : AccessKind) (sp : Span) : State × Except UnitStop (List TilePart) :=
  (spanParts sp.va sp.chk).foldl (fun (s, r) (va, i, n) =>
    match r with
    | .error e => (s, .error e)
    | .ok l =>
      match tileXlat s gather k va with
      | (s, .error e) => (s, .error e)
      | (s, .ok x) => (s, .ok (if i < sp.n then l ++ [{ va := va, i := i, n := min n (sp.n - i), x := x }] else l))) (s, .ok [])

/-- Checks and translates a unit: its resource checks, its alignment, then its bytes upwards (R214, R215, R239). -/
def unitXlat (s : State) (gather : Bool) (k : AccessKind) (u : TileUnit) : State × Except UnitStop (List (Span × List TilePart)) :=
  match u.res, u.mis with
  | some f, _ => (s, .error (.fault f))
  | none, some va => (s, .error (.misalign va))
  | none, none => u.spans.foldl (fun (s, r) sp =>
      match r with
      | .error e => (s, .error e)
      | .ok l =>
        match spanXlat s gather k sp with
        | (s, .error e) => (s, .error e)
        | (s, .ok p) => (s, .ok (l ++ [(sp, p)]))) (s, .ok [])

/-- The units that may be transferred, in ascending order, and the first that stops (R214); a pre-emption stops the instruction at
unit `cut`. -/
def unitsXlat (s : State) (gather : Bool) (k : AccessKind) (cut : Option Nat) :
    List (Nat × TileUnit) → State × List ReadyUnit × Option (Nat × UnitStop)
  | [] => (s, [], none)
  | (i, u) :: r =>
    if cut = some i then (s, [], some (i, .preempt))
    else match unitXlat s gather k u with
      | (s, .error e) => (s, [], some (i, e))
      | (s, .ok p) =>
        let (s, l, stop) := unitsXlat s gather k cut r
        (s, (i, p) :: l, stop)

/-- The parts of units. -/
def partsOf (l : List ReadyUnit) : List TilePart := l.flatMap fun u => u.2.flatMap (·.2)

/-! ### Reading and writing (R252, R253, R291) -/

/-- A load that goes to the home waits for the core's own stores to the word, which the home performs first (R102, R252). -/
def tileBehind (s : State) (how : TileRead) (l : List TilePart) : Bool :=
  how == .load && l.any fun p =>
    (match p.x.loc with | .mem _ => true | _ => false) && (tileHit s how p.x).isNone && storePending s (coreOf s.cur) p.x.loc

/-- The word that a tile instruction reads, from the core's data cache or at the home; none for an uncorrectable error (R76, R112,
R136). A miss of a write-back page starts a fill (R252). -/
def readTileWord (s : State) (how : TileRead) (x : Xlat) : State × Option Word :=
  match tileHit s how x with
  | some w => (readNewest s x.loc s.cur, some w)
  | none =>
    let s := touchHome s x.loc x.pl (clusterOfCell (cellOf s.cur)) x.uc
    if poisoned s x.loc then (s, none)
    else if how = .gather then (let (s, w) := engRead s x.loc (Reader.now s s.cur 3); (s, some w))
    else
      let s := if how = .load ∧ x.uc = false then askFill s (coreOf s.cur) (x.loc.key / 64) x.pl false else s
      let (s, w, _) := loadRead s x.loc s.cur
      (s, some w)

/-- The bytes of a span, or the address of an uncorrectable error. -/
def readSpan (s : State) (how : TileRead) (l : List TilePart) : State × Except Word (List Byte) :=
  l.foldl (fun (s, r) p =>
    match r with
    | .error e => (s, .error e)
    | .ok l =>
      match readTileWord s how p.x with
      | (s, some w) => (s, .ok (l ++ ((leBytes 8 w.toNat).drop (p.va.toNat % 8)).take p.n))
      | (s, none) => (s, .error p.va)) (s, .ok [])

/-- Writes the bytes of a span as stores (R253, R291). -/
def writeSpan (s : State) (l : List TilePart) (data : List Byte) : State :=
  l.foldl (fun s p =>
    let off := p.va.toNat % 8
    let w : Word := .ofNat 64 (leNat ((data.drop p.i).take p.n) * 2 ^ (8 * off))
    storeCache (sendAcc s p.va p.x (.write w (byteMask off p.n)) 0 p.n off false false 0 none) p.x w (byteMask off p.n)) s

/-! ### Where bytes go in a tile -/

/-- The bytes that a loaded span writes into a tile: whole rows, T6 slots that are covered, or a column (R210, R292). -/
def spanWrites (v : TileView) (trans : Bool) (sp : Span) (data : List Byte) : List (Nat × Byte) :=
  let f := tagFmt v.tag
  if trans then
    let es := fmtSize f
    (List.range data.length).map fun k => (256 * (k / es) + es * sp.row + k % es, data.getD k 0)
  else if f = fmtT6 then
    let x := leNat data
    rowWrites v 6 sp.row ((List.range (sp.c1 - sp.c0)).map fun i => (sp.c0 + i, bitsAt x (6 * i) 6))
  else (List.range data.length).map fun k => (256 * sp.row + sp.o + k, data.getD k 0)

/-- The bytes that a stored span sends; the uncovered bits of a T6 group are 0 (R210). -/
def spanData (v : TileView) (sp : Span) : List Byte :=
  if tagFmt v.tag = fmtT6 then
    leBytes sp.n ((List.range (sp.c1 - sp.c0)).foldl (fun x i => x + v.elem sp.row (sp.c0 + i) * 2 ^ (6 * i)) 0)
  else Memory.bytes v.data (256 * sp.row + sp.o) sp.n

/-! ### Waypoints (R212, R216) -/

def wpRow : Nat := 1
def wpBlock : Nat := 2
def wpMicro : Nat := 4

/-- The unit at which an instruction of a kind starts (R216). -/
def Ctx.startPos (x : Ctx) (kind : Nat) : Nat :=
  if fieldN x.waypt 59 1 = 1 ∧ fieldN x.waypt 60 4 = kind then fieldN x.waypt 0 16 else 0

/-- The recorded waypoint of a stop (R216). -/
def wayWord (kind pos : Nat) : Word := .ofNat 64 (kind * 2 ^ 60 + 2 ^ 59 + pos % 2 ^ 16)

/-- Records the waypoint of a stop (R216). -/
def armAt (s : State) (kind pos : Nat) : State := s.modMe fun x => { x with waypt := wayWord kind pos, ticket := none }

/-- Stops at a unit (R40, R76, R214, R216, R293, R371): WAYPT is recorded, then the fault is posted, the trap taken or the context
halted. A context that waits for a walk goes on from there. -/
def stopAt (s : State) (gather : Bool) (kind pos : Nat) (moved : Bool) (why : UnitStop) : State :=
  match why with
  | .fault f => (let s := armAt s kind pos; postFault s s.cur f false)
  | .misalign va => (let s := armAt s kind pos; trapNow s s.cur tcMisalign va 0)
  | .preempt => (armAt s kind pos).modMe fun x => { x.dropHints with stat := .halted, pc := x.groupPc, midStop := false, held := true }
  | .miss va =>
    let s := if moved then armAt s kind pos else s
    if gather then s else startWalk s s.cur .read va

/-- The unit at which a pre-emption stops the instruction, if it does (R371). -/
def cutUnit (s : State) (l : List (Nat × TileUnit)) : Option Nat :=
  if s.me.midStop then (l[Config.stopUnit s.fresh % (l.length + 1)]?).map (·.1) else none

/-- The accesses of a tile instruction to scratchpads wait their turn in the engine queues of the banks; then it goes on (R53). -/
def withBanks (s : State) (l : List Loc) (k : State → State) : State :=
  match s.me.ticket with
  | some t => if s.atBank t then s else k (s.modMe fun x => { x with ticket := none })
  | none =>
    if l.any (fun | .spad _ _ => true | _ => false) then
      queueLocs (s.bump.modMe fun x => { x with ticket := some s.fresh }) s.fresh l
    else k s

/-! ### The loops of R291 -/

/-- What reading the ready units of a load gives: bytes for the tile, and the unit and address of an error. -/
def readUnits (s : State) (v : TileView) (how : TileRead) (trans : Bool) (l : List ReadyUnit) :
    State × List (Nat × Byte) × Option (Nat × Word) :=
  l.foldl (fun (s, ws, e) u =>
    if e.isSome then (s, ws, e)
    else
      let (s, r) := u.2.foldl (fun (s, (r : Except Word (List (Nat × Byte)))) sp =>
        match r with
        | .error a => (s, .error a)
        | .ok acc => (match readSpan s how sp.2 with
          | (s, .ok data) => (s, .ok (acc ++ spanWrites v trans sp.1 data))
          | (s, .error a) => (s, .error a))) (s, .ok [])
      match r with
      | .ok b => (s, ws ++ b, none)
      | .error a => (s, ws, some (u.1, a))) (s, [], none)

/-- The refreshing chart banks that reads go to (R65). -/
def refreshBanks (s : State) (how : TileRead) (l : List TilePart) : List (Nat × Nat) :=
  (l.filterMap fun p => match p.x.loc with
    | .chart d o => if (tileHit s how p.x).isNone && chartRefreshing s d o then some (d, o / 2 ^ 16) else none
    | _ => none).eraseDups

/-- The words that a gather reads until it ends (R137, R138). -/
def gatherReads (how : TileRead) (l : List ReadyUnit) : List (Span × List (Loc × Nat × Nat)) :=
  if how = .gather then l.flatMap fun u => u.2.map fun sp => (sp.1, sp.2.map fun p => (p.x.loc, p.va.toNat % 8, p.n)) else []

/-- The tile write of an instruction begins, and ends once its reads are performed (R65, R285). -/
def beginLoad (s : State) (m : BitVec 32) (w : TileWrite) (banks : List (Nat × Nat)) (reads : List (Span × List (Loc × Nat × Nat)))
    (f : Ctx → Ctx) : State :=
  let p : PendTile := { id := s.fresh, ctx := s.cur, writes := [w], chart := banks, gather := reads, tag := w.tag.getD 0,
                        clock := clockOf s s.cur }
  let s := countRefresh (s.bump.modMyCell fun x => { x with pend := x.pend ++ [p] }) s.cur banks.length
  finish s s.cur 0 (fun x => (f x).hold (.tile p.id) m) (.fallOwing (.tile p.id))

/-- The units of an instruction from its start (R216). -/
def startUnits (s : State) (kind : Nat) (units : List TileUnit) : List (Nat × TileUnit) :=
  ((List.range units.length).zip units).filter fun e => decide (s.me.startPos kind ≤ e.1)

/-- A tile load of a kind from the units at and after its start (R291): it first waits for the context's own accesses. -/
def loadUnits (s : State) (sb : BitVec 32) (v : TileView) (kind : Nat) (how : TileRead) (trans : Bool) (units : List TileUnit) : State :=
  if s.accs.any (fun a => a.ctx == s.cur) then s
  else withEntry s fun s =>
    let l := startUnits s kind units
    let (s, ready, stop) := unitsXlat s (how == .gather) .read (cutUnit s l) l
    let parts := partsOf ready
    let banks := refreshBanks s how parts
    if tileBehind s how parts ∨ (stop.isSome ∧ banks ≠ []) then s
    else withBanks s (parts.map (·.x.loc)) fun s =>
      let (s, ws, bad) := readUnits s v how trans ready
      let tw : TileWrite := { reg := v.reg, tag := if ws = [] then none else some v.tag, bytes := ws }
      let part (s : State) : State := applyTiles s.bump (cellOf s.cur) [tw]
      match bad, stop with
      | some (u, a), _ => (let s := armAt (part s) kind u; trapNow s s.cur tcMemerr a 0)
      | none, some (u, why) => stopAt (part s) (how == .gather) kind u (decide (ready ≠ [])) why
      | none, none => beginLoad s sb { tw with tag := some v.tag } banks (gatherReads how ready) fun x => { x with waypt := 0 }

/-- A tile store from its start (R291): the bytes of each unit go to their homes. -/
def storeUnits (s : State) (sb : BitVec 32) (v : TileView) (kind : Nat) (units : List TileUnit) : State :=
  withEntry s fun s =>
    let l := startUnits s kind units
    let (s, ready, stop) := unitsXlat s false .write (cutUnit s l) l
    let s := ready.foldl (fun s u => u.2.foldl (fun s sp => writeSpan s sp.2 (spanData v sp.1)) s) s
    match stop with
    | some (u, why) => stopAt s false kind u (decide (ready ≠ [])) why
    | none => finish s s.cur sb (fun x => { x with waypt := 0 }) .fall

/-! ### Addresses (R290, R37) -/

/-- Where the rows of a TM operand lie: a plain base, or a manifest entry with S(a) (R290). -/
inductive TmBase where
  | plain (b : Word) | res (n : Nat) (a : Word)
deriving DecidableEq, Repr

/-- The address operand of a TM word. -/
def tmBase (s : State) (a : BitVec 6) (r : BitVec 1) (i : BitVec 8) : TmBase :=
  if r = 0 then .plain (s.me.src a + wordOfInt (s.me.imm i * 64)) else .res i.toNat (s.me.src a)

/-- The address at an offset from row 0, for alignment: none for an entry that does not exist. -/
def TmBase.addr (b : TmBase) (s : State) (off : Word) : Option Word :=
  match b with
  | .plain x => some (x + off)
  | .res n a =>
    if n ≥ fieldN s.myCell.winLen 0 11 then none else some ((manifestEntry s s.cur n).1 + a + off)

/-- The address of `n` bytes at an offset, with the fault of the resource checks, whose VA is BASE + offset
(R37, R41). -/
def TmBase.at (b : TmBase) (s : State) (off : Word) (n : Nat) (k : AccessKind) : Option FaultInfo × Word :=
  match b with
  | .plain x => (none, x + off)
  | .res m a =>
    match resAddr s s.cur m (a + off) n k with
    | .ok va => (none, va)
    | .error f => (some f, f.va)

/-- Keeps the manifest entry of an operand in the manifest cache (R38). -/
def TmBase.note (b : TmBase) (s : State) : State :=
  match b with
  | .plain _ => s
  | .res n _ => if n ≥ fieldN s.myCell.winLen 0 11 then s else fillManifest s s.cur n

/-- The pitch: S(p), or the row bytes for s0, with its S bit or without (R290). (DESIGN CHOICE, log 92.) -/
def tmPitch (s : State) (p : BitVec 6) (rb : Nat) : Word := if p.toNat % 32 = 0 then .ofNat 64 rb else s.me.src p

/-- The runs of bytes of a row, as offset and length, that hold elements inside a shape of `cols` columns: a BAL row's index bytes lie
apart from its values (R207, R210, R290). -/
def rowRuns (f rb cols : Nat) : List (Nat × Nat) := if f = fmtBal then [(0, 2 * cols), (192, cols)] else [(0, rb)]

/-- A unit of runs of one row: the first resource check that fails, and the spans. -/
def runsUnit (s : State) (b : TmBase) (k : AccessKind) (off : Word) (row c0 c1 : Nat) (l : List (Nat × Nat × Nat)) : TileUnit :=
  let at_ (r : Nat × Nat × Nat) := b.at s (off + .ofNat 64 r.1) r.2.2 k
  { res := l.findSome? fun r => (at_ r).1, mis := none,
    spans := l.map fun r => { va := (at_ r).2, n := r.2.1, chk := r.2.2, row := row, c0 := c0, c1 := c1, o := r.1 } }

/-- The unit of the elements c0 to c1 of one row at a row offset. -/
def rowUnit (s : State) (b : TmBase) (k : AccessKind) (f rb : Nat) (off : Word) (row c0 c1 : Nat) : TileUnit :=
  runsUnit s b k off row c0 c1
    (if f = fmtT6 then [(3 * (c0 / 4), (6 * (c1 - c0) + 7) / 8, 3 * ceilDiv (c1 - c0) 4)]
     else (rowRuns f rb c1).map fun r => (r.1, r.2, r.2))

/-- The elements of a T6 block (R213). -/
def blockOf (w : Word) : Nat := if tagAxis w = 1 then blkSize (tagBlk w) else 16

/-- The units of `tld` and `tst`: rows, or T6 blocks (R213). -/
def tileUnits (s : State) (b : TmBase) (k : AccessKind) (w pitch : Word) : List TileUnit :=
  let f := tagFmt w
  let rb := tagRowBytes w
  let cols := tagCols w
  if f = fmtT6 then
    let kb := blockOf w
    let nb := ceilDiv cols kb
    (List.range (tagRows w * nb)).map fun u =>
      rowUnit s b k f rb (pitch * .ofNat 64 (u / nb)) (u / nb) (u % nb * kb) (min (u % nb * kb + kb) cols)
  else (List.range (tagRows w)).map fun u => rowUnit s b k f rb (pitch * .ofNat 64 u) u 0 cols

/-- The waypoint kind of `tld` and `tst` (R213). -/
def tileKind (w : Word) : Nat := if tagFmt w = fmtT6 then wpBlock else wpRow

/-- MISALIGN when row 0 or a pitch is no multiple of the element size (R290). -/
def tmAligned (s : State) (b : TmBase) (es : Nat) (pitches : List Word) : Bool :=
  (match b.addr s 0 with | some va => va.toNat % es == 0 | none => true) && pitches.all fun p => p.toNat % es == 0

/-- The trap of a misaligned operand. -/
def tmMisalign (s : State) (b : TmBase) (k : AccessKind) : State :=
  trapIssued s s.cur tcMisalign ((b.addr s 0).getD 0) k.code

/-! ### Meanings -/

/-- The gate of a TM word on the M core. -/
def tmGate (op : Nat) (t : BitVec 4) (srcs : List Nat) : Gate := tileGate op (some .m) false (!isAcc t) srcs []

/-- TLD (R291). (DESIGN CHOICE, log 27.) -/
def execTld (t : BitVec 4) (a p : BitVec 6) (r : BitVec 1) (i : BitVec 8) (s : State) : Host.Outcome State Fault Refusal :=
  let g := tmGate 0x41 t [fieldOf a, fieldOf p]
  .next (tileGated s g [] [t.toNat] fun s =>
    let v := s.look t.toNat
    let b := tmBase s a r i
    let pitch := tmPitch s p (tagRowBytes v.tag)
    if v.tag = 0 then formatTrap s
    else if tmAligned s b (fmtSize (tagFmt v.tag)) [pitch] = false then tmMisalign s b .read
    else loadUnits (b.note s) (sMask g.srcs) v (tileKind v.tag) .load false (tileUnits s b .read v.tag pitch))

/-- TST (R291). -/
def execTst (t : BitVec 4) (a p : BitVec 6) (r : BitVec 1) (i : BitVec 8) (s : State) : Host.Outcome State Fault Refusal :=
  let g := tmGate 0x42 t [fieldOf a, fieldOf p]
  .next (tileGated s g [t.toNat] [] fun s =>
    let v := s.look t.toNat
    let b := tmBase s a r i
    let pitch := tmPitch s p (tagRowBytes v.tag)
    if v.tag = 0 then formatTrap s
    else if tmAligned s b (fmtSize (tagFmt v.tag)) [pitch] = false then tmMisalign s b .write
    else storeUnits (b.note s) (sMask g.srcs) v (tileKind v.tag) (tileUnits s b .write v.tag pitch))

/-- TLD_T: source row j goes to column j (R292). -/
def execTldT (t : BitVec 4) (a p : BitVec 6) (r : BitVec 1) (i : BitVec 8) (s : State) : Host.Outcome State Fault Refusal :=
  let g := tmGate 0x43 t [fieldOf a, fieldOf p]
  .next (tileGated s g [] [t.toNat] fun s =>
    let v := s.look t.toNat
    let b := tmBase s a r i
    let f := tagFmt v.tag
    let rb := tagRows v.tag * fmtSize f
    let pitch := tmPitch s p rb
    if v.tag = 0 ∨ f = fmtT6 ∨ f = fmtBal ∨ tagCols v.tag > 128 then formatTrap s
    else if tmAligned s b (fmtSize f) [pitch] = false then tmMisalign s b .read
    else
      let units := (List.range (tagCols v.tag)).map fun j =>
        rowUnit s b .read f rb (pitch * .ofNat 64 j) j 0 (tagRows v.tag)
      loadUnits (b.note s) (sMask g.srcs) v wpRow .load true units)

/-- The byte offset that an index tile gives a row (R293). -/
def gatherOff (x : TileView) (i : Nat) : Word :=
  let e := x.elem i 0
  if fmtSigned (tagFmt x.tag) then wordOfInt (signedN e (viewBits x)) else .ofNat 64 e

/-- TGATH: row i from the base plus its index; a misaligned row traps after its waypoint (R293). A T6 tile's units are
its rows, with KIND ROW. (DESIGN CHOICE, log 90.) -/
def execTgath (t : BitVec 4) (a : BitVec 6) (x : BitVec 4) (r : BitVec 1) (i : BitVec 8) (s : State) :
    Host.Outcome State Fault Refusal :=
  let g := tileGate 0x44 (some .m) false (!isAcc t && !isAcc x) [fieldOf a] []
  .next (tileGated s g [x.toNat] [t.toNat] fun s =>
    let v := s.look t.toNat
    let y := s.look x.toNat
    let b := tmBase s a r i
    let f := tagFmt v.tag
    let fi := tagFmt y.tag
    if v.tag = 0 ∨ (fi ≠ fmtI32 ∧ fi ≠ fmtI64 ∧ fi ≠ fmtN32 ∧ fi ≠ fmtN64) ∨ tagRows y.tag < tagRows v.tag then formatTrap s
    else
      let units := (List.range (tagRows v.tag)).map fun k =>
        let u := rowUnit s b .read f (tagRowBytes v.tag) (gatherOff y k) k 0 (tagCols v.tag)
        { u with mis := match u.spans with
            | sp :: _ => if sp.va.toNat % fmtSize f ≠ 0 then some sp.va else none
            | [] => none }
      loadUnits (b.note s) (sMask g.srcs) v wpRow .gather false units)

/-- TLDX: micro-steps of 16 rows at two pitches (R369). -/
def execTldx (t : BitVec 4) (a p : BitVec 6) (i : BitVec 8) (s : State) : Host.Outcome State Fault Refusal :=
  let g := tmGate 0x7C t [fieldOf a, fieldOf p]
  .next (tileGated s g [] [t.toNat] fun s =>
    let v := s.look t.toNat
    let b := tmBase s a 0 i
    let f := tagFmt v.tag
    let rb := tagRowBytes v.tag
    let none_ := decide (p.toNat % 32 = 0)
    let lo : Word := if none_ then .ofNat 64 rb else .ofNat 64 (fieldN (s.me.src p) 0 32)
    let hi : Word := if none_ then .ofNat 64 (16 * rb) else .ofNat 64 (fieldN (s.me.src p) 32 32)
    if v.tag = 0 ∨ f = fmtT6 then formatTrap s
    else if tmAligned s b (fmtSize f) [lo, hi] = false then tmMisalign s b .read
    else
      let rows := tagRows v.tag
      let units := (List.range (ceilDiv rows 16)).map fun q =>
        let us := (List.range (min 16 (rows - 16 * q))).map fun k =>
          rowUnit s b .read f rb (hi * .ofNat 64 q + lo * .ofNat 64 k) (16 * q + k) 0 (tagCols v.tag)
        { res := us.findSome? (·.res), mis := none, spans := us.flatMap (·.spans) : TileUnit }
      loadUnits (b.note s) (sMask g.srcs) v wpMicro .load false units)

/-- A byte of the CHART window that `chart.ld` may read: an offset within the window, a covered die, a bank that is not
retired (R21, R66, R351). -/
def chartOk (s : State) (va : Word) : Bool :=
  let o := va.toNat % 2 ^ 48
  va.toNat / 2 ^ 48 == 0xF2 && decide (o < 0x40000000) && coversDie s (cellOf s.cur) (o / 2 ^ 28) &&
    !bankRetired s (cellOf s.cur) (o / 2 ^ 16)

/-- CHART_LD: every byte of the rows' runs, with the rest of their T6 groups, is checked first; every row is read at its bank, and
t is written after the last (R351). A failure of the checks leaves WAYPT as it stands. -/
def execChartLd (t : BitVec 4) (a p : BitVec 6) (i : BitVec 8) (s : State) : Host.Outcome State Fault Refusal :=
  let g := tmGate 0x68 t [fieldOf a, fieldOf p]
  .next (tileGated s g [] [t.toNat] fun s =>
    let v := s.look t.toNat
    let b := tmBase s a 0 i
    let pitch := tmPitch s p (tagRowBytes v.tag)
    if v.tag = 0 then formatTrap s
    else if tmAligned s b (fmtSize (tagFmt v.tag)) [pitch] = false then tmMisalign s b .read
    else if s.accs.any (fun a => a.ctx == s.cur) then s
    else withEntry s fun s =>
      let units := tileUnits s b .read v.tag pitch
      let vas := units.flatMap fun u => u.spans.flatMap fun sp => (spanParts sp.va (max sp.n sp.chk)).map (·.1)
      match vas.find? fun va => !chartOk s va with
      | some va => postFault s s.cur ⟨fcNotMapped, 0, 0, va, 0, 0⟩ false
      | none =>
        let (s, ready, _) := unitsXlat s false .read none ((List.range units.length).zip units)
        let (s, ws, bad) := readUnits s v .bank false ready
        match bad with
        | some (_, va) => trapIssued s s.cur tcMemerr va 0
        | none => beginLoad s (sMask g.srcs) { reg := t.toNat, tag := some v.tag, bytes := ws } (refreshBanks s .bank (partsOf ready)) [] id)

/-! ### The end of a tile instruction -/

/-- The bytes that the words of a span give at this moment to a gather, for what happened before its issue (R138, R144). -/
def gatherSpan (s : State) (p : PendTile) (l : List (Loc × Nat × Nat)) : State × List Byte :=
  l.foldl (fun (s, d) (x, off, n) =>
    let (s, w) := engRead s x { Reader.now s p.ctx 3 with at_ := p.id, clock := p.clock }
    (s, d ++ ((leBytes 8 w.toNat).drop off).take n)) (s, [])

/-- A gather reads one of its rows: from now on the bytes that it writes there are known (R116, R137). -/
def gatherRow (s : State) (p : PendTile) (e : Span × List (Loc × Nat × Nat)) : State × PendTile :=
  let (s, d) := gatherSpan s p e.2
  (s, { p with gather := p.gather.filter (·.1 != e.1),
               writes := p.writes.map fun w =>
                 let b := spanWrites { tileView s p.ctx w.reg with tag := p.tag } false e.1 d
                 { w with bytes := w.bytes.map fun x => (x.1, ((b.find? (·.1 == x.1)).map (·.2)).getD x.2) } })

/-- What an instruction in progress writes as it ends. A gather has read each of its words by now, with the value of any moment since it
issued or an older one that nothing orders before it (R137, R138); only its address checks were made at its issue. -/
def gatherEnds (s : State) (p : PendTile) : State × List TileWrite :=
  let (s, p) := p.gather.foldl (fun (s, p) e => gatherRow s p e) (s, p)
  (s, p.writes)

/-- Some of the rows that a gather in progress has still to read are read by now. -/
def gatherSome (s : State) (cell : Nat) (p : PendTile) : State :=
  let n := s.fresh
  let (s, p) := ((List.range p.gather.length).zip p.gather).foldl (fun (s, q) e =>
    if Config.raceNew n e.1 then gatherRow s q e.2 else (s, q)) (s.bump, p)
  s.modCell cell fun x => { x with pend := x.pend.map fun q => if q.id = p.id then p else q }

/-- The gathers in progress in a cell go on between the turns of its contexts, as far as it is chosen (R116, R137). -/
def gathersGoOn (s : State) (cell : Nat) : State := ((s.cell cell).pend.filter fun p => !p.gather.isEmpty).foldl (gatherSome · cell ·) s

/-- TILE_OP_COMPLETE: a tile instruction's writes are performed, once its reads of refreshing chart banks are (R65, R285, R287). -/
def execTileOpComplete (cell id : Nat) (s : State) : Host.Outcome State Fault Refusal :=
  .next (match (s.cell cell).pend.find? (·.id == id) with
    | none => s
    | some p =>
      if p.chart.any fun e => chartRefreshing s e.1 (e.2 * 2 ^ 16) then s
      else
      let n := s.fresh
      let (s, ws) := gatherEnds s p
      let s := lateDone (applyTiles s cell ws).bump p.ctx (.tile id) fun x => x
      s.modCell cell fun x =>
        { x with pend := (x.pend.filter (·.id != id)).map fun q =>
            if q.ctx = p.ctx then q else { q with writes := q.writes.map (loseRaces n q.id ws) } })

end Sys2Proof.Machine
end

