-- ==== Sys2Proof/Machine/Matrix.lean ====
section
/-! DEFINITION. The issue of matrix instructions (R311 to R318, R321, R322, R324, R333, R370): operand checks, the queue, the
send queue that its entries come from (R199), batches. -/

namespace Sys2Proof.Machine

/-! ### Batches (R322, R323) -/

/-- DONE after every batch that has completed: up to the oldest batch that still has an instruction queued, or to OPEN
(R323). -/
def doneNow (s : State) (c : Nat) : Nat :=
  let w := (s.ctx c).mbatch
  let d := fieldN w 32 32
  let dist (b : Nat) : Nat := (b + 2 ^ 32 - d) % 2 ^ 32
  let l := ((s.cell (cellOf c)).mq.filter fun o => o.ctx == c && o.kind != .micro).map fun o => dist o.batch
  (d + l.foldl min (dist (fieldN w 0 32))) % 2 ^ 32

/-- DONE advances over every batch that has completed; a context parked for its batch is released when that completes (R182, R323,
R324). -/
def advanceDone (s : State) (c : Nat) : State :=
  let n := doneNow s c
  if n = fieldN (s.ctx c).mbatch 32 32 then s
  else
    s.modCtx c fun x =>
      let x := { x with mbatch := setField x.mbatch 32 32 n }
      if x.park = .matrixBatch ∧ batchComplete x.mbatch x.parkNum then x.wake else x

/-- A queued instruction completes: it leaves the queue and its send entry frees (R219, R275, R317, R323). -/
def completeMx (s : State) (cell : Nat) (o : MxOp) : State :=
  let s := s.modCell cell fun x => { x with mq := x.mq.filter (·.id != o.id) }
  let s := entryFrees (lateDone s o.ctx (.matrix o.id) fun x => x) (coreOf o.ctx)
  if o.kind = .micro then s.modCtx o.ctx fun x => { x with block := if x.block = .micro o.id then .microDone else x.block }
  else advanceDone s o.ctx

/-! ### Operands (R312 to R315, R318) -/

/-- What the checks know of an operand. -/
structure MxShape where
  fmt   : Nat
  rows  : Nat
  cols  : Nat
  axis  : Nat
  blk   : Nat
  bal   : Bool
  named : Bool      -- the scale and ballast tiles that its tag names are right (R209)
  arg   : Bool      -- the descriptor's reserved bits and rotation code are right (R313, R314)
  align : Bool      -- its addresses are aligned (R314)
deriving DecidableEq, Repr

/-- A format that a matrix operand may have (R312). -/
def mxFmt (f : Nat) : Bool := f == fmtF16 || f == fmtBf16 || fmtNarrow f

/-- An address in the SPAD or SPADG window. -/
def inSpadWin (va : Word) : Bool := va.toNat / 2 ^ 48 == 0xF0 || va.toNat / 2 ^ 48 == 0xF1

/-- The packed row bytes of a format (R290). -/
def packedRow (f cols : Nat) : Nat := if f = fmtT6 then 3 * ceilDiv cols 4 else cols * fmtBits f / 8

/-- The address of row r of a scratchpad operand (R314). -/
def mxRow (base : Word) (step pitch r : Nat) : Word := base + .ofNat 64 (step + r * pitch)

/-- An MX operand as captured at issue: `grid` is the cell's grid row for A and its grid column for B (R313, R314). -/
def mxOperand (s : State) (x : BitVec 1) (a : BitVec 6) (grid : Nat) : MxOperand × MxShape :=
  if x = 0 then
    let w := (s.look (a.toNat % 16)).tag
    (.tile (a.toNat % 16) w,
     { fmt := tagFmt w, rows := tagRows w, cols := tagCols w, axis := tagAxis w, blk := tagBlk w, bal := tagHasBal w,
       named := namedOk s w, arg := true, align := true })
  else
    let (base, w) := s.me.pair a
    let f := fieldN w 60 4
    let rows := fieldN w 52 8
    let cols := fieldN w 43 9
    let rot := fieldN w 39 4
    let pitch := if fieldN w 20 19 = 0 then packedRow f cols else fieldN w 20 19
    let step := grid * 64 * fieldN w 4 16
    let es := fmtSize f
    (.spad base f rows cols rot pitch step,
     { fmt := if 1 ≤ rows ∧ rows ≤ 128 ∧ 1 ≤ cols ∧ cols ≤ 256 then f else 0, rows := rows, cols := cols, axis := 0, blk := 0,
       bal := false, named := true,
       arg := fieldN w 0 4 == 0 && (rot == 0 || (List.range rows).all fun r => inSpadWin (mxRow base step pitch r)),
       align := base.toNat % es == 0 && pitch % es == 0 })

/-- The tile registers that an MX operand reads. -/
def mxTiles (s : State) (x : BitVec 1) (a : BitVec 6) : List Nat :=
  if x = 0 then (MxOperand.tile (a.toNat % 16) (s.look (a.toNat % 16)).tag).regs else []

/-- The pairs of R166 and R318: IEEE with IEEE for `mma` alone, tapered with tapered, I8 with I8. -/
def mxPair (kind : MxKind) (f g : Nat) : Bool :=
  let i (x : Nat) := x == fmtF16 || x == fmtBf16
  let t (x : Nat) := x == fmtT8 || x == fmtT6
  let i8 := f == fmtI8 && g == fmtI8
  match kind with
  | .mma => (i f && i g) || (t f && t g) || i8
  | .micro => i8
  | _ => (t f && t g) || i8

/-- The scale of an operand agrees with the instruction's block field (R318). -/
def mxScale (u : MxShape) (axis code : Nat) : Bool :=
  if u.axis = 0 then code == 0 else u.axis == axis && u.blk == code

/-- The FORMAT checks of a product (R209, R312, R313, R318): `w` is the tag of acc, `ka` and `kb` the block fields. -/
def mxFormatOk (kind : MxKind) (w : Word) (u v : MxShape) (ka kb : Nat) : Bool :=
  tagFmt w == fmtF32 && mxFmt u.fmt && mxFmt v.fmt && u.named && v.named && tagRows w == u.rows && tagCols w == v.cols &&
    u.cols == v.rows && decide (1 ≤ u.cols ∧ u.cols ≤ 128) && mxPair kind u.fmt v.fmt &&
    (match kind with
     | .mma | .micro => u.axis == 0 && v.axis == 0
     | _ => mxScale u 1 ka && mxScale v 2 kb) &&
    (match kind with
     | .mmab => u.bal
     | _ => !u.bal)

/-- The K window: KOFF and the count, or none for MATARG (R315). -/
def kWindow (imm : Word) (k : Nat) : Option (Nat × Nat) :=
  let o := fieldN imm 8 8
  let n := fieldN imm 0 8
  if imm.toNat ≥ 2 ^ 16 ∨ o ≥ k ∨ o + n > k then none else some (o, if n = 0 then k - o else n)

/-! ### Issue (R317) -/

/-- The source fields of an MX operand: a register pair's first register is synchronised (R224). -/
def mxSrcs (x : BitVec 1) (a : BitVec 6) : List Nat := if x = 1 then [fieldOf a] else []

/-- The second register of a pair. -/
def mxPlain (x : BitVec 1) (a : BitVec 6) : List Nat := if x = 1 then [a.toNat % 32 + 1] else []

/-- The gate of the matrix group, with the wait for the context's own tile writes (R285); it raises no HAZARD (R325). -/
def mxGated (s : State) (op : Nat) (legal : Bool) (srcs plain : List Nat) (k : State → State) : State :=
  gated s (coreGate op .a legal srcs plain) fun s =>
    if (s.myCell.pend.any fun p => p.ctx == s.cur) ∨ acqPending s s.cur then s else k s

/-- An instruction joins the cell's matrix queue in the context's open batch (R317). -/
def queueMx (s : State) (o : MxOp) : State :=
  let o := { o with id := s.fresh, ctx := s.cur, pc := s.me.groupPc, batch := fieldN s.me.mbatch 0 32, run := s.me.run,
                      clock := clockOf s s.cur }
  s.bump.modMyCell fun x => { x with mq := x.mq ++ [o] }

/-- An instruction of the queue before its fields are filled in. -/
def MxOp.blank (kind : MxKind) (acc : Nat) : MxOp :=
  { id := 0, ctx := 0, kind := kind, pc := 0, batch := 0, acc := acc, accTag := 0, a := .tile 0 0, b := .tile 0 0, koff := 0,
    kc := 0, base := 0, pitch := 0, pairing := 0, pos := 0, started := false, ticket := none, resumed := false }

/-- An instruction of the matrix group that acts at its turn completes: it neither reads nor writes WAYPT (R328). -/
def finishMx (s : State) (m : BitVec 32) (f : Ctx → Ctx) : State :=
  let w := s.me.waypt
  finish s s.cur m (fun x => { f x with waypt := w }) .fall

/-- An instruction joins the queue and its context goes on; the full bits of its synchronised reads and the exit event of the loop that it
ends wait for its completion (R217, R219, R275, R323). -/
def enterMx (s : State) (m : BitVec 32) (o : MxOp) : State :=
  let n := s.fresh
  let w := s.me.waypt
  finish (queueMx s o) s.cur 0 (fun x => { x.hold (.matrix n) m with waypt := w }) (.fallOwing (.matrix n))

/-- A trap of an instruction of the matrix group, which leaves ARM alone (R328). -/
def trapMx (s : State) (code : Nat) (va : Word) (kind : Nat) : State := trapNow s s.cur code va kind

/-- The grid row and column of a cell, as its launch numbers it. -/
def gridRow (s : State) (c : Nat) : Nat := (s.cell (cellOf c)).cellNo % 16 / 4
def gridCol (s : State) (c : Nat) : Nat := (s.cell (cellOf c)).cellNo % 4

/-- A product's issue, in the order of R317. A MISALIGN names the BASE of A where A is misaligned, else that of B, also where only a pitch is
misaligned. (DESIGN CHOICE, log 93.) -/
def issueMma (kind : MxKind) (op : Nat) (c : BitVec 4) (x : BitVec 1) (a : BitVec 6) (y : BitVec 1) (b : BitVec 6) (ka kb : Nat)
    (s : State) : State :=
  let srcs := mxSrcs x a ++ mxSrcs y b
  mxGated s op (accField c && mxOk x a && mxOk y b) srcs (mxPlain x a ++ mxPlain y b) fun s =>
    let w := (s.look c.toNat).tag
    let (oa, u) := mxOperand s x a (gridRow s s.cur)
    let (ob, v) := mxOperand s y b (gridCol s s.cur)
    if mxFormatOk kind w u v ka kb = false then formatTrap s
    else
      match (if u.arg && v.arg then kWindow (wordOfInt (s.me.imm (0#0))) u.cols else none) with
      | none => trapMx s tcMatArg 0 0
      | some (ko, kc) =>
        if ¬ (u.align && v.align) then
          let va := if u.align then (s.me.pair b).1 else (s.me.pair a).1
          trapMx s tcMisalign va 0
        else withEntry s fun s =>
          enterMx s (sMask srcs) { MxOp.blank kind c.toNat with accTag := w, a := oa, b := ob, koff := ko, kc := kc }

/-- MMA (R316 to R319). -/
def execMma (c : BitVec 4) (x : BitVec 1) (a : BitVec 6) (y : BitVec 1) (b : BitVec 6) (s : State) :
    Host.Outcome State Fault Refusal := .next (issueMma .mma 0x58 c x a y b 0 0 s)

/-- MMAS (R318). -/
def execMmas (c : BitVec 4) (x : BitVec 1) (a : BitVec 6) (y : BitVec 1) (b : BitVec 6) (k j : BitVec 2) (s : State) :
    Host.Outcome State Fault Refusal := .next (issueMma .mmas 0x59 c x a y b k.toNat j.toNat s)

/-- MMAB (R318). A must be a tile with ballast. -/
def execMmab (c : BitVec 4) (x : BitVec 1) (a : BitVec 6) (y : BitVec 1) (b : BitVec 6) (k j : BitVec 2) (s : State) :
    Host.Outcome State Fault Refusal := .next (issueMma .mmab 0x5A c x a y b k.toNat j.toNat s)

/-- The issue of an accumulator move (R321). -/
def issueAccm (kind : MxKind) (c : BitVec 4) (srcs : List Nat) (base pitch : State → Word) (s : State) : State :=
  mxGated s 0x5B (accField c) srcs [] fun s =>
    let w := (s.look c.toNat).tag
    let p := pitch s
    if w = 0 then formatTrap s
    else if (base s).toNat % 4 ≠ 0 ∨ p.toNat % 4 ≠ 0 then
      trapMx s tcMisalign (base s) (if kind = .ast then 1 else 0)
    else withEntry s fun s =>
      enterMx s (sMask srcs) { MxOp.blank kind c.toNat with accTag := w, base := base s, pitch := p }

/-- The pitch of `ald` and `ast`: S(b), or the packed row when b names s0 (R321). -/
def accPitch (c : BitVec 4) (b : BitVec 6) (s : State) : Word :=
  if b.toNat % 32 = 0 then .ofNat 64 (4 * tagCols (s.look c.toNat).tag) else s.me.src b

/-- AZERO (R321). -/
def execAzero (c : BitVec 4) (s : State) : Host.Outcome State Fault Refusal :=
  .next (issueAccm .azero c [] (fun _ => 0) (fun _ => 0) s)

/-- ALD (R321). -/
def execAld (c : BitVec 4) (a b : BitVec 6) (s : State) : Host.Outcome State Fault Refusal :=
  .next (issueAccm .ald c [fieldOf a, fieldOf b] (fun s => s.me.src a) (accPitch c b) s)

/-- AST (R321). -/
def execAst (c : BitVec 4) (a b : BitVec 6) (s : State) : Host.Outcome State Fault Refusal :=
  .next (issueAccm .ast c [fieldOf a, fieldOf b] (fun s => s.me.src a) (accPitch c b) s)

/-! ### COMMIT, MMAW (R324) -/

/-- COMMIT: d := OPEN, then OPEN := OPEN + 1; an empty batch completes with the earlier ones (R323, R324). -/
def execCommit (d : BitVec 5) (s : State) : Host.Outcome State Fault Refusal :=
  .next (gated s (coreGate 0x5C .a true [] [d.toNat]) fun s =>
    let w := s.me.mbatch
    let b := fieldN w 0 32
    let s := advanceDone (s.modMe fun x => { x with mbatch := setField w 0 32 (b + 1) }) s.cur
    finishMx s 0 fun x => x.setS d.toNat (.ofNat 64 b))

/-- MMAW: MATARG for a batch that is not committed; parks until it is complete; no acquire (R324). The batch then counts as
observed (R139). -/
def execMmaw (a k : BitVec 6) (s : State) : Host.Outcome State Fault Refusal :=
  let g := coreGate 0x5C .a true [fieldOf a] []
  .next (gated s g fun s =>
    let b := ((s.me.src a).toNat + k.toNat) % 2 ^ 32
    if batchCommitted s.me.mbatch b = false then trapMx s tcMatArg 0 0
    else if batchComplete s.me.mbatch b = false then parkFor s s.cur .matrixBatch b
    else
      let key := batchKey s.me.run b
      finishMx (noteSeen s s.cur [key]) (sMask g.srcs) fun x => { x with seen := key :: x.seen.filter (· != key) })

/-! ### SWAP, MMA8X (R333, R370) -/

/-- The number of a cell's swap partner (R333). -/
def swapPartner (n : Nat) : Nat := n / 16 * 16 + 4 * (n % 16 % 4) + n % 16 / 4

/-- SWAP: queued with its pairing number; MATARG for a partner that the launch does not cover (R333). -/
def execSwap (t : BitVec 4) (s : State) : Host.Outcome State Fault Refusal :=
  .next (mxGated s 0x5D (tileT t) [] [] fun s =>
    if (coveredCells s (cellOf s.cur)).contains (swapPartner s.myCell.cellNo) = false then trapMx s tcMatArg 0 0
    else withEntry s fun s =>
      let n := s.myCell.swaps
      enterMx (s.modMyCell fun x => { x with swaps := n + 1 }) 0 { MxOp.blank .swap t.toNat with pairing := n })

/-- MMA8X: it waits for the context's earlier matrix instructions, and meets HAZARD with those of others (R325); then micro-steps of
64 K indices, which the context waits for at its turns (R370). -/
def execMma8x (c : BitVec 4) (x : BitVec 1) (a : BitVec 6) (y : BitVec 1) (b : BitVec 6) (s : State) :
    Host.Outcome State Fault Refusal :=
  let srcs := mxSrcs x a ++ mxSrcs y b
  .next (mxGated s 0x7D (accField c && mxOk x a && mxOk y b) srcs (mxPlain x a ++ mxPlain y b) fun s =>
    match s.me.block with
    | .micro _ => s
    | .microDone => finish s s.cur (sMask srcs) (fun z => { z with block := .none, waypt := 0 }) .fall
    | _ =>
      if s.myCell.mq.any (fun o => o.ctx == s.cur) then s
      else if hazard s s.cur (mxTiles s x a ++ mxTiles s y b) [c.toNat] then trapPlain (s.count (cellOf s.cur) 16 7 1) s.cur tcHazard
      else
      let w := (s.look c.toNat).tag
      let (oa, u) := mxOperand s x a (gridRow s s.cur)
      let (ob, v) := mxOperand s y b (gridCol s s.cur)
      if mxFormatOk .micro w u v 0 0 = false then formatTrap s
      else if ¬ (u.arg && v.arg) then trapIssued s s.cur tcMatArg 0 0
      else if ¬ (u.align && v.align) then
        let va := if u.align then (s.me.pair b).1 else (s.me.pair a).1
        trapIssued s s.cur tcMisalign va 0
      else withEntry s fun s =>
        let n := s.fresh
        let s := queueMx s { MxOp.blank .micro c.toNat with accTag := w, a := oa, b := ob, kc := u.cols,
                                                            pos := s.me.startPos wpMicro }
        s.modMe fun z => { z.consumeArm with block := .micro n })

end Sys2Proof.Machine
end

