-- ==== Sys2Proof/Machine/MatrixEngine.lean ====
section
/-! DEFINITION. The matrix engine of a cell (R319, R321, R323, R327 to R333, R370): the execution of queued instructions
segment by segment, exact group sums, accumulator moves, the exchange of a swap, and faults. -/

namespace Sys2Proof.Machine

/-! ### Memory operands (R51, R314, R329, R330) -/

/-- Why an engine access stops: a fault, an uncorrectable error, or a walk that it waits for (R32). -/
inductive MxErr where
  | fault (f : FaultInfo) | memerr (va : Word) | wait
deriving DecidableEq, Repr

/-- `SpadPhys` as a change of an address of the SPAD or SPADG window (R51). -/
def rotVa (va : Word) (code : Nat) : Word :=
  if code = 0 ∨ inSpadWin va = false then va
  else
    let o := va.toNat % 2 ^ 23
    va ^^^ .ofNat 64 (o / 2 ^ (code + 11) % 16 * 64)

/-- A translation of the engine through the A core's data TLB (R43, R314), with the home's checks (R25, R72). A miss asks for a
walk and waits for it (R32). -/
def mxTranslate (s : State) (c id : Nat) (k : AccessKind) (va : Word) : State × Except MxErr Xlat :=
  let (s, r) := match translateBy s c k va (tlbOf s c k ++ keptFor s c id) with
    | .miss =>
      translateEng s c id k va
    | r => (fillCoreTlb s c k va, r)
  match r with
  | .ok x => (match homeCheck s c x.loc with
    | some f => (s, .error (.fault (homeFault k va x f)))
    | none => (s, .ok x))
  | .fault f => (s, .error (.fault f))
  | .miss => (s, .error .wait)

/-- A run of bytes that an engine access moves, and its bank-rotation code. -/
abbrev MxRun := Word × Nat × Nat

/-- The locations of runs, in order. -/
def mxLocs (s : State) (c id : Nat) (k : AccessKind) (l : List MxRun) : State × Except MxErr (List Loc) :=
  (l.flatMap fun r => (spanParts r.1 r.2.1).map fun p => (p.1, r.2.2)).foldl (fun (s, r) (va, code) =>
    match r with
    | .error e => (s, .error e)
    | .ok l =>
      match mxTranslate s c id k (rotVa va code) with
      | (s, .ok x) => (s, .ok (l ++ [x.loc]))
      | (s, .error (.fault f)) => (s, .error (.fault { f with va := va }))
      | (s, .error e) => (s, .error e)) (s, .ok [])

/-- Reads n bytes at their homes (R136). Every read of one word with one seed gives one value (R323). -/
def mxRead (s : State) (o : MxOp) (seed : Nat) (r : MxRun) : State × Except MxErr (List Byte) :=
  (spanParts r.1 r.2.1).foldl (fun (s, (e : Except MxErr (List Byte))) (a, _, m) =>
    match e with
    | .error e => (s, .error e)
    | .ok l =>
      match mxTranslate s o.ctx o.id .read (rotVa a r.2.2) with
      | (s, .ok x) =>
        let s := touchHome s x.loc x.pl (clusterOfCell (cellOf o.ctx)) x.uc
        if poisoned s x.loc then (s, .error (.memerr a))
        else (s, .ok (l ++ ((leBytes 8 (engValue s x.loc (o.reader s) seed).toNat).drop (a.toNat % 8)).take m))
      | (s, .error (.fault f)) => (s, .error (.fault { f with va := a }))
      | (s, .error e) => (s, .error e)) (s, .ok [])

/-- Writes n bytes at their homes (R321); the translations have been checked. -/
def mxWrite (s : State) (c id : Nat) (va : Word) (data : List Byte) (who : Nat × Nat) : State :=
  (spanParts va data.length).foldl (fun s (a, i, m) =>
    match mxTranslate s c id .write a with
    | (s, .ok x) =>
      let s := touchHome s x.loc x.pl (clusterOfCell (cellOf c)) x.uc
      let off := a.toNat % 8
      let w : Word := .ofNat 64 (leNat ((data.drop i).take m) * 2 ^ (8 * off))
      engineWrite s x.loc (mergeBytes (readLoc s x.loc) w (byteMask off m)) (m == 8) who
    | (s, _) => s) s

/-! ### Operand elements (R314, R319) -/

/-- A register under the tag captured at issue, its data as the engine reads it now (R319, R326, R327). -/
def capturedView (s : State) (c r : Nat) (tag : Word) : TileView := { tileView s c r with tag := tag }

/-- Rows of elements: from row r0, nr rows; from column c0, nc columns. -/
structure Region where
  r0 : Nat
  nr : Nat
  c0 : Nat
  nc : Nat
deriving DecidableEq, Repr

/-- The runs of a region of a scratchpad operand, row by row. -/
def MxOperand.runs (o : MxOperand) (g : Region) : List MxRun :=
  match o with
  | .tile _ _ => []
  | .spad base f _ _ rot pitch step =>
    let n := fmtBits f
    let lo := n * g.c0 / 8
    let len := (n * (g.c0 + g.nc) + 7) / 8 - lo
    (List.range g.nr).map fun i => (mxRow base step pitch (g.r0 + i) + .ofNat 64 lo, len, rot)

/-- The values of a region of an operand, row by row, scaled where `scaled` (R164, R319). Tiles are read as they stood in `t`, when the
segment began, so that one read of a location serves all its products (R323). -/
def mxValues (t s : State) (e : MxOp) (o : MxOperand) (scaled : Bool) (g : Region) : State × Except MxErr (List (List FVal)) :=
  match o with
  | .tile r w =>
    let v := capturedView t e.ctx r w
    let sc := capturedView t e.ctx (tagScaleReg w) (scaleTag w)
    let one i j := narrowVal (tagFmt w) (v.elem i j) (if scaled then scaleAt w sc i j else 127)
    (s, .ok ((List.range g.nr).map fun i => (List.range g.nc).map fun j => one (g.r0 + i) (g.c0 + j)))
  | .spad _ f _ _ _ _ _ =>
    let n := fmtBits f
    let lo := n * g.c0 / 8
    (o.runs g).foldl (fun (s, (r : Except MxErr (List (List FVal)))) run =>
      match r with
      | .error e => (s, .error e)
      | .ok rows =>
        match mxRead s e t.fresh run with
        | (s, .ok data) =>
          let x := leNat data
          (s, .ok (rows ++ [(List.range g.nc).map fun j => narrowVal f (bitsAt x (n * (g.c0 + j) - 8 * lo) n) 127]))
        | (s, .error e) => (s, .error e)) (s, .ok [])

/-- `GroupSum`: the exact sum of products, with R167's special cases. -/
def groupSum (xs ys : List FVal) : FVal :=
  match List.zipWith FVal.mul xs ys with
  | [] => .fin false 0 0
  | p :: r => r.foldl (FVal.add .rne) p

/-- Groups of at most G of a list. -/
def chunks (g : Nat) (l : List FVal) : List (List FVal) :=
  (List.range (ceilDiv l.length g)).map fun i => (l.drop (g * i)).take g

/-- The group depth of a format pair (R166). -/
def groupDepth (f : Nat) : Nat := if f = fmtF16 ∨ f = fmtBf16 then 8 else 16

/-- The accumulator element after the groups of one segment, in ascending order (R167, R319). -/
def accAdd (acc g : Nat) (xs ys : List FVal) : Nat :=
  (List.zipWith groupSum (chunks g xs) (chunks g ys)).foldl (fun a v => r32 (FVal.add .rne (f32v a) (f32v (r32 v)))) acc

/-- The columns of a list of rows. -/
def columns (n : Nat) (l : List (List FVal)) : List (List FVal) :=
  (List.range n).map fun j => l.map fun r => r.getD j (.fin false 0 0)

/-- Adds a segment into the accumulator: A's rows and B's rows over the same K indices (R319). -/
def addSegment (s : State) (o : MxOp) (g : Nat) (a b : List (List FVal)) : State :=
  let x := tileOf s (cellOf o.ctx) o.acc
  let v : TileView := { reg := o.acc, tag := o.accTag, data := x.data }
  let cols := columns (tagCols o.accTag) b
  let ws := shapeWrites v 32 (tagRows o.accTag) (tagCols o.accTag) fun i j =>
    some (accAdd (v.elem i j) g (a.getD i []) (cols.getD j []))
  applyTile s (cellOf o.ctx) { reg := o.acc, tag := none, bytes := ws }

/-! ### Faults (R329, R330, R370) -/

/-- Ends an instruction's wait and raises its trap or halt at the context's next turn (R329, R330). -/
def mxSignal (s : State) (cell : Nat) (o : MxOp) (f : Ctx → Ctx) : State :=
  let gone := (s.cell cell).mq.filter fun q => q.ctx == o.ctx
  let s := s.modCell cell fun x => { x with mq := x.mq.filter fun q => q.ctx != o.ctx, mxFault := none }
  let s := entryFrees (gone.foldl (fun s q => lateAbandon s q.ctx (.matrix q.id)) s) (coreOf o.ctx)
  let s := s.modCtx o.ctx fun x => f { x with block := match x.block with | .micro _ => .none | b => b }
  advanceDone s o.ctx

/-- The MEMERR of an engine read (R330). -/
def mxMemerr (s : State) (cell : Nat) (o : MxOp) (va : Word) : State :=
  mxSignal s cell o fun x =>
    { x with pendTrap := x.pendTrap ++ [{ code := tcMemerr, pc := some o.pc, va := va, kind := 0, fcause := 0, arg := 0,
                                          late := false, reg := 0 }] }

/-- Puts a queued instruction back. -/
def putMx (s : State) (cell : Nat) (o : MxOp) : State :=
  s.modCell cell fun x => { x with mq := x.mq.map fun q => if q.id = o.id then o else q }

/-- An engine access stops: a product or move posts its message and holds the queue (R329); a micro-step of `mma8x` faults
its context, which parks (R370); an uncorrectable error abandons (R330). One that waits for a walk looks
again later. -/
def mxStop (s : State) (cell : Nat) (o : MxOp) (e : MxErr) : State :=
  if e = .wait then s
  else
    let s := putMx (dropEngErrs s o.ctx o.id) cell { o with kept := [] }
    let s := if o.kind = .micro then s.modCtx o.ctx fun x => { x with waypt := wayWord wpMicro o.pos } else s
    match e with
    | .wait => s
    | .memerr va => mxMemerr s cell o va
    | .fault f =>
      if o.kind = .micro then
        let s := s.modCell cell fun x => { x with mq := x.mq.filter (·.id != o.id) }
        let s := entryFrees (s.modCtx o.ctx fun x => { x with block := .none }) (coreOf o.ctx)
        postFault s o.ctx f false
      else
        let way : Word := if o.pos = 0 then 0 else wayWord 3 o.pos
        let (s, seq) := sendFault s o.ctx f o.pc way true
        s.modCell cell fun x =>
          { x with mxFault := some { seq := seq, cause := f.cause, va := f.va, kind := f.kind, pc := o.pc, report := false, id := s.fresh } }

/-! ### Execution (R319, R321, R323) -/

/-- The instruction at the head of a queue that is not held by a fault, while the device grants issue cycles (R415). -/
def mxHead (s : State) (cell : Nat) : Option MxOp :=
  if (s.cell cell).mxFault.isSome ∨ s.dev.power then none else (s.cell cell).mq.head?

/-- The rows of an accumulator that `ald` reads and `ast` writes. -/
def accRowVa (o : MxOp) (i : Nat) : Word := o.base + o.pitch * .ofNat 64 i

/-- The runs of the rows of an accumulator's shape. -/
def accRuns (o : MxOp) : List MxRun := (List.range (tagRows o.accTag)).map fun i => (accRowVa o i, 4 * tagCols o.accTag, 0)

/-- Accesses of an instruction to scratchpads take their turn in the engine queues of the banks first; then it goes on (R53). -/
def mxTurn (s : State) (cell : Nat) (o : MxOp) (k : AccessKind) (l : List MxRun) (go : State → MxOp → State) : State :=
  match o.ticket with
  | some t => if s.atBank t then s else (let o := { o with ticket := none }; go (putMx s cell o) o)
  | none =>
    match mxLocs s o.ctx o.id k l with
    | (s, .error e) => mxStop s cell o e
    | (s, .ok ls) =>
      if ls.any (fun | .spad _ _ => true | _ => false) then queueLocs (putMx s.bump cell { o with ticket := some s.fresh }) s.fresh ls
      else go s o

/-- `ald`: the F32 values of each row into the accumulator (R321). -/
def runAld (s : State) (cell : Nat) (o : MxOp) : State :=
  let seed := s.fresh
  let (s, r) := (accRuns o).foldl (fun (s, (r : Except MxErr (List (List Byte)))) run =>
    match r with
    | .error e => (s, .error e)
    | .ok l => (match mxRead s o seed run with
      | (s, .ok d) => (s, .ok (l ++ [d]))
      | (s, .error e) => (s, .error e))) (s, .ok [])
  match r with
  | .error e => mxStop s.bump cell o e
  | .ok rows =>
    let bytes := (rows.zip (List.range rows.length)).flatMap fun (d, i) => (List.range d.length).map fun k => (512 * i + k, d.getD k 0)
    completeMx (applyTile s.bump cell { reg := o.acc, tag := none, bytes := bytes }) cell o

/-- `ast`: every row is written at its home (R321); a fault of any stops it before the first. -/
def runAst (s : State) (cell : Nat) (o : MxOp) : State :=
  match mxLocs s o.ctx o.id .write (accRuns o) with
  | (s, .error e) => mxStop s cell o e
  | (s, .ok _) =>
    let d := (tileOf s cell o.acc).data
    completeMx ((List.range (tagRows o.accTag)).foldl (fun s i =>
      mxWrite s o.ctx o.id (accRowVa o i) (Memory.bytes d (512 * i) (4 * tagCols o.accTag)) (2, batchKey o.run o.batch)) s) cell o

/-- MATRIX_EXEC_START: the head of the queue starts; an accumulator move is performed whole (R321, R323). (DESIGN CHOICE, log 35.) -/
def execMatrixExecStart (cell : Nat) (s : State) : Host.Outcome State Fault Refusal :=
  .next (match mxHead s cell with
    | none => s
    | some o =>
      if o.started ∨ queueHeld s o.ctx then s
      else match o.kind with
        | .swap => s
        | .azero =>
          completeMx (s.modCell cell fun x =>
            { x with tiles := Map.put x.tiles o.acc { (Map.at x.tiles o.acc TileReg.zero) with data := [] } }) cell o
        | .ald => mxTurn s cell o .read (accRuns o) fun s o => runAld s cell o
        | .ast => mxTurn s cell o .write (accRuns o) fun s o => runAst s cell o
        | _ => putMx s cell { o with started := true })

/-- The K window of segment q of a product: 16 indices, or 64 of a micro-step (R319, R370). -/
def segWindow (o : MxOp) (q : Nat) : Nat × Nat :=
  let n := if o.kind = .micro then 64 else 16
  (o.koff + n * q, min n (o.kc - n * q))

/-- The number of whole segments of a product, its ballast apart. -/
def segCount (o : MxOp) : Nat := ceilDiv o.kc (if o.kind = .micro then 64 else 16)

/-- The regions of A and B over a K window. -/
def regionA (o : MxOp) (k0 kn : Nat) : Region := { r0 := 0, nr := tagRows o.accTag, c0 := k0, nc := kn }
def regionB (o : MxOp) (k0 kn : Nat) : Region := { r0 := k0, nr := kn, c0 := 0, nc := tagCols o.accTag }

/-- The values of A and B over a K window. -/
def segOperands (s : State) (o : MxOp) (k0 kn : Nat) : State × Except MxErr (List (List FVal) × List (List FVal)) :=
  let sc := o.kind != .mma && o.kind != .micro
  match mxValues s s o o.a sc (regionA o k0 kn) with
  | (u, .error e) => (u, .error e)
  | (u, .ok a) => (match mxValues s u o o.b sc (regionB o k0 kn) with
    | (u, .error e) => (u, .error e)
    | (u, .ok b) => (u, .ok (a, b)))

/-- The FMT of an operand. -/
def MxOperand.fmt : MxOperand → Nat
  | .tile _ w => tagFmt w
  | .spad _ f _ _ _ _ _ => f

/-- The ballast tile of `mmab`'s A operand as the engine reads it, and its diverted columns inside the K window, in ascending order
(R170). -/
def ballastCols (s : State) (o : MxOp) : TileView × List (Nat × Nat) :=
  match o.a with
  | .spad _ _ _ _ _ _ _ => ({ reg := 0, tag := 0, data := [] }, [])
  | .tile _ w =>
    let bal := capturedView s o.ctx (tagBalReg w) (ballastTag w)
    (bal, (divertedCols bal).filter fun e => decide (o.koff ≤ e.2 ∧ e.2 < o.koff + o.kc))

/-- The ballast group of `mmab` (R170, R319). With no diverted column in the window nothing is added: the spec does not state the sign of
the sum of no products (DESIGN CHOICE, log 82). -/
def ballastSegment (s : State) (o : MxOp) : State × Except MxErr State :=
  let (bal, cols) := ballastCols s o
  let a := (List.range (tagRows o.accTag)).map fun i => cols.map fun e => bf16.decode (bal.elem i e.1)
  let (u, r) := cols.foldl (fun (u, (r : Except MxErr (List (List FVal)))) e =>
    match r with
    | .error x => (u, .error x)
    | .ok rows => (match mxValues s u o o.b true (regionB o e.2 1) with
      | (u, .ok l) => (u, .ok (rows ++ l))
      | (u, .error x) => (u, .error x))) (s, .ok [])
  match r with
  | .error x => (u, .error x)
  | .ok b => (u, .ok (if cols = [] then u else addSegment u o cols.length a b))

/-- The scratchpad runs that segment q of a product reads. -/
def segRuns (s : State) (o : MxOp) (q : Nat) : List MxRun :=
  if q < segCount o then
    let (k0, kn) := segWindow o q
    o.a.runs (regionA o k0 kn) ++ o.b.runs (regionB o k0 kn)
  else (ballastCols s o).2.flatMap fun e => o.b.runs (regionB o e.2 1)

/-- A product's position moves on; after its last segment it completes (R323). -/
def mxAdvance (s : State) (cell : Nat) (o : MxOp) (q : Nat) : State :=
  let last := segCount o + (if o.kind = .mmab then 1 else 0)
  let s := s.bump
  if q + 1 ≥ last then completeMx s cell o
  else putMx s cell { o with pos := if o.kind = .micro then q + 1 else 16 * (q + 1) }

/-- One segment of a product: it is read, summed and added; or its ballast (R319, R370). -/
def runSegment (s : State) (cell : Nat) (o : MxOp) (q : Nat) : State :=
  let depth := if o.kind = .micro then 64 else groupDepth o.a.fmt
  if q < segCount o then
    let (k0, kn) := segWindow o q
    match segOperands s o k0 kn with
    | (s, .error e) => mxStop s.bump cell o e
    | (s, .ok (a, b)) =>
      mxAdvance ((addSegment s o depth a b).count cell 16 8 (tagRows o.accTag * tagCols o.accTag * ceilDiv kn depth)) cell o q
  else
    match ballastSegment s o with
    | (s, .error e) => mxStop s.bump cell o e
    | (_, .ok s) => mxAdvance s cell o q

/-- MATRIX_SEGMENT_END: a segment of the running product ends (R319, R370). -/
def execMatrixSegmentEnd (cell : Nat) (s : State) : Host.Outcome State Fault Refusal :=
  .next (match mxHead s cell with
    | none => s
    | some o =>
      if ¬ o.started then s
      else
        let q := if o.kind = .micro then o.pos else o.pos / 16
        if q < segCount o + (if o.kind = .mmab then 1 else 0) then
          mxTurn s cell o .read (segRuns s o q) fun s o => runSegment s cell o q
        else completeMx s cell o)

/-- SWAP_EXCHANGE: two swaps of a pair stand at the heads of their queues; storage and tags are exchanged whole, then both
complete (R333). A write of the C or M core that is in progress races with it (R116, R326). -/
def execSwapExchange (cell : Nat) (s : State) : Host.Outcome State Fault Refusal :=
  .next (match mxHead s cell with
    | none => s
    | some o =>
      if o.kind ≠ .swap ∨ queueHeld s o.ctx then s
      else
        let p := placeCell s cell (swapPartner (s.cell cell).cellNo)
        if p = cell then completeMx s cell o
        else match mxHead s p with
          | none => s
          | some q =>
            if q.kind ≠ .swap ∨ q.pairing ≠ o.pairing ∨ (s.cell p).launch ≠ (s.cell cell).launch then s
            else
              let x := (tileView s o.ctx o.acc).stored
              let y := (tileView s q.ctx q.acc).stored
              let n := s.fresh
              let s := s.bump.modCell cell fun z => { z with tiles := Map.put z.tiles o.acc y, pend := z.pend.map (loseWhole n o.acc) }
              let s := s.modCell p fun z => { z with tiles := Map.put z.tiles q.acc x, pend := z.pend.map (loseWhole n q.acc) }
              completeMx (completeMx s cell o) p q)

/-- MATRIX_FAULT_REPLY: RETRY restarts the instruction at its position; SIGNAL and STOP abandon it and every later one of its
context (R329). -/
def execMatrixFaultReply (cell : Nat) (reply : Word) (s : State) : Host.Outcome State Fault Refusal :=
  .next (match (s.cell cell).mxFault, (s.cell cell).mq.head? with
    | some f, some o =>
      if f.seq ≠ fieldN reply 2 32 ∨ replyEarly s o.ctx cell f then s
      else
        let act := fieldN reply 0 2
        let s := s.modCell cell fun x => { x with mxFault := none }
        if act = 0 then s
        else if act = 1 then
          mxSignal s cell o fun x =>
            { x with pendTrap := x.pendTrap ++ [{ code := tcMemfault, pc := some f.pc, va := f.va, kind := f.kind,
                                                  fcause := f.cause, arg := 0, late := false, reg := 0 }] }
        else mxSignal (noteFailure s o.ctx tcMemfault f.cause) cell o fun x => { x with pendStop := some (.faultStop f.cause) }
    | _, _ => s)

end Sys2Proof.Machine
end

