-- ==== Sys2Proof/Machine/Copy.lean ====
section
/-! DEFINITION. The cluster copy engine (R334, R337 to R344, R146): tokens, copies and multicasts from issue to status, their
pieces, byte counts and acknowledgements, and arbitration. -/

namespace Sys2Proof.Machine

/-! ### Tokens and engine operations (R334, R374) -/

/-- The transfer identifier of the cell's next token instruction (R334). -/
def tokenWord (s : State) (c : Nat) : Word :=
  let x := s.cell (cellOf c)
  .ofNat 64 (15 * 2 ^ 60 + x.cellNo % 1024 * 2 ^ 32 + (x.tokSeq + 1) % 2 ^ 32)

/-- Counts a token instruction; one with d = 0 binds nothing and takes no number (R334). -/
def takeToken (s : State) (c d : Nat) : State :=
  if d = 0 then s else s.modCell (cellOf c) fun x => { x with tokSeq := (x.tokSeq + 1) % 2 ^ 32 }

/-- A token instruction completes at issue: d is bound to operation `op` (R334). -/
def finishToken (s : State) (m : BitVec 32) (d : BitVec 5) (op : Nat) : State :=
  let w := tokenWord s s.cur
  finish (takeToken s s.cur d.toNat) s.cur m (fun x => x.bindToken d.toNat w op) .fall

/-- A sounding or `snddot`. -/
def EngKind.sounds : EngKind → Bool
  | .sound | .snddot => true
  | _ => false

/-- Goes on when the M core has a send entry and the cell an engine slot of the kind (R373); a pending acquire holds the command
(R108). -/
def withSlot (s : State) (kind : EngKind) (k : State → State) : State :=
  if acqPending s s.cur then s
  else
  let l := s.ops.filter fun o => cellOf o.ctx == cellOf s.cur
  if sendUsed s (coreOf s.cur) ≥ 16 ∨ l.length ≥ 12 ∨ (kind.sounds ∧ (l.filter (·.kind.sounds)).length ≥ 4) then
    parkFor s s.cur .sendQueue 0
  else k s

/-- An operation with its captured shadow set, before its command fields. -/
def EngOp.blank (s : State) (kind : EngKind) (args : List Word) : EngOp :=
  { id := s.fresh, ctx := s.cur, kind := kind, shape := s.me.cp, args := args, dim := 0, fmt := 0, query := [], todo := 64, credit := 0,
    started := false, pieces := [], status := none, added := [], appliedCounts := [], decDone := false, banks := [],
    hdrPa := 0, hdrNew := none, hdrAt := 0, dstAt := [], ticket := none, retry := false, clock := clockOf s s.cur }

/-- Sends an operation to the copy engine and binds its token (R337). -/
def sendOp (s : State) (m : BitVec 32) (d : BitVec 5) (o : EngOp) : State :=
  let s := { s.bump with ops := s.ops ++ [o] }
  finishToken s m d o.id

/-- An operation. -/
def findOp (s : State) (id : Nat) : Option EngOp := s.ops.find? (·.id == id)

/-- Puts an operation back. -/
def putOp (s : State) (o : EngOp) : State := { s with ops := s.ops.map fun x => if x.id = o.id then o else x }

/-- An operation ends: its status reaches the register still bound to it, and its entries free (R334). -/
def endOp (s : State) (o : EngOp) (status : Word) : State :=
  let s := dropEngErrs { s with ops := s.ops.filter (·.id != o.id) } o.ctx o.id
  let s := s.modCtx o.ctx fun x => x.completeToken o.id status
  entryFrees (wakeRead s o.ctx) (coreOf o.ctx)

/-- The bytes that a copy's extents name, at least one, at most what a copy may have (R338). -/
def extBytes (x : Ctx) : Nat :=
  let w := x.cp.getD 2 0
  max 1 (min (2 ^ 32) (fieldN w 0 24 * fieldN w 32 16 * fieldN w 48 16))

/-- COPY (R337). -/
def execCopy (d : BitVec 5) (s : State) : Host.Outcome State Fault Refusal :=
  .next (gated s (coreGate 0x61 .m true [] [d.toNat]) fun s =>
    withSlot s .copy fun s => sendOp s 0 d { EngOp.blank s .copy [] with todo := extBytes s.me })

/-- COPYM (R342). -/
def execCopym (d : BitVec 5) (s : State) : Host.Outcome State Fault Refusal :=
  .next (gated s (coreGate 0x62 .m true [] [d.toNat]) fun s =>
    withSlot s .copym fun s => sendOp s 0 d { EngOp.blank s .copym [] with todo := extBytes s.me })

/-! ### Fields of a shadow set (R335) -/

/-- Register n of an operation's shadow set. -/
def EngOp.cpReg (o : EngOp) (n : Nat) : Word := o.shape.getD n 0

def EngOp.e0 (o : EngOp) : Nat := fieldN (o.cpReg 2) 0 24
def EngOp.e1 (o : EngOp) : Nat := fieldN (o.cpReg 2) 32 16
def EngOp.e2 (o : EngOp) : Nat := fieldN (o.cpReg 2) 48 16
def EngOp.srot (o : EngOp) : Nat := fieldN (o.cpReg 5) 0 4
def EngOp.drot (o : EngOp) : Nat := fieldN (o.cpReg 5) 4 4
def EngOp.cls (o : EngOp) : Nat := fieldN (o.cpReg 5) 8 2
def EngOp.dep (o : EngOp) : Nat := fieldN (o.cpReg 5) 10 6
def EngOp.depEn (o : EngOp) : Bool := (o.cpReg 5).getLsbD 16
def EngOp.barEn (o : EngOp) : Bool := (o.cpReg 5).getLsbD 17
def EngOp.rbEn (o : EngOp) : Bool := (o.cpReg 5).getLsbD 22
def EngOp.rbar (o : EngOp) : Nat := 8 * fieldN (o.cpReg 5) 23 20

/-- The receivers of a multicast, as the launch numbers clusters (R335). -/
def EngOp.receivers (o : EngOp) : List Nat := (List.range 64).filter fun g => (o.cpReg 7).getLsbD g

/-- The engine class of an operation's writes (R136). -/
def EngOp.cls136 (o : EngOp) : Nat :=
  match o.kind with
  | .copy => 1 | .copym => 4 | _ => 5

/-! ### The barrier objects of a copy (R338, R342, R345) -/

/-- The scratchpad layout of a cluster ends here (R20, R21). -/
def spadTop (s : State) (g : Nat) : Nat := 0x400000 + (s.cluster g).conv * 0x40000

/-- The cluster and word that a barrier's address names: none when it is misaligned, outside the scratchpad, or in a cluster
that the launch does not cover (R338). -/
def barWord (s : State) (c : Nat) (va : Word) : Option (Nat × Nat) :=
  if va.toNat % 8 ≠ 0 ∨ inSpadWin va = false then none
  else match window s c .atomic va with
    | .ok x => (match x.loc with
      | .spad g p => some (g, p)
      | _ => none)
    | _ => none

/-- The address of CPBAR. -/
def EngOp.bar (o : EngOp) (s : State) : Option (Nat × Nat) := barWord s o.ctx (o.cpReg 6)

/-- WHY of BADARG, in its order; 0 when the arguments are good (R338). -/
def copyBadArg (s : State) (o : EngOp) : Nat :=
  let ext := o.cpReg 2
  let att := o.cpReg 5
  let multi := o.kind == .copym
  let rs := o.receivers
  let uncovered := rs.any fun g => !coversCluster s (cellOf o.ctx) g
  let rbBad := multi && o.rbEn && rs.any fun g => decide (o.rbar ≥ spadTop s (placeCluster s (cellOf o.ctx) g))
  let n := o.e0 * o.e1 * o.e2
  if n = 0 ∨ n > 2 ^ 32 then 1
  else if fieldN ext 24 8 ≠ 0 ∨ fieldN att 43 21 ≠ 0 ∨ fieldN att 18 4 ≠ 0 then 2
  else if o.cls ≠ 0 then 3
  else if (o.srot ≠ 0 ∧ inSpadWin (o.cpReg 0) = false) ∨ (multi = false ∧ o.drot ≠ 0 ∧ inSpadWin (o.cpReg 1) = false) then 4
  else if (o.barEn ∧ (o.bar s).isNone) ∨ rbBad ∨ (multi ∧ o.rbEn ∧ uncovered) then 5
  else if multi ∧ (o.cpReg 7 = 0 ∨ uncovered ∨ (o.cpReg 1).toNat ≥ 2 ^ 23) then 6
  else if multi ∧ o.barEn then
    (match o.bar s with
     | some (g, p) => if barArr ((s.cluster g).spad.word p) + rs.length > 65535 then 7 else 0
     | none => 0)
  else 0

/-! ### Pieces (R339) -/

/-- The offset of row (i2, i1) from a base (R339). -/
def rowPlace (base strides : Word) (i2 i1 : Nat) : Word :=
  base + wordOfInt (i2 * signedN (fieldN strides 32 32) 32 + i1 * signedN (fieldN strides 0 32) 32)

/-- The runs of a row: linear offset and length, cut at 64 KiB boundaries of either side. -/
def blockRuns (a b : Nat) : Nat → Nat → Nat → List (Nat × Nat)
  | 0, _, _ => []
  | fuel + 1, j, n =>
    if n ≤ j then []
    else
      let len := min (n - j) (min (65536 - (a + j) % 65536) (65536 - (b + j) % 65536))
      (j, len) :: blockRuns a b fuel (j + len) n

/-- The pieces of a copy in ascending order: linear offset, length, source and destination address (R339). -/
def copyRuns (o : EngOp) : List (Nat × Nat × Word × Word) :=
  (List.range o.e2).flatMap fun i2 => (List.range o.e1).flatMap fun i1 =>
    let a := rowPlace (o.cpReg 0) (o.cpReg 3) i2 i1
    let b := rowPlace (o.cpReg 1) (o.cpReg 4) i2 i1
    (blockRuns a.toNat b.toNat (2 * (o.e0 / 65536) + 4) 0 o.e0).map fun (j, len) =>
      ((i2 * o.e1 + i1) * o.e0 + j, len, a + .ofNat 64 j, b + .ofNat 64 j)

/-- What a side's address names: the location of its aligned word, a fault code, or none while a walk is awaited (R32, R339). -/
def sideLoc (s : State) (c id : Nat) (k : AccessKind) (va : Word) : State × Except (Option Nat) Xlat :=
  match engAccess s c id k va with
  | (s, .ok x) => (s, .ok x)
  | (s, .fault f) => (s, .error (some f.cause))
  | (s, .miss) => (s, .error none)

/-- A side of a piece of n bytes, its first byte and its last: a window or the populated memory may end inside a block (R21, R78, R339). -/
def sideRange (s : State) (c id : Nat) (k : AccessKind) (va : Word) (n : Nat) : State × Except (Option Nat) Xlat :=
  match sideLoc s c id k va with
  | (s, .error e) => (s, .error e)
  | (s, .ok x) => match sideLoc s c id k (va + .ofNat 64 (n - 1)) with
    | (s, .error e) => (s, .error e)
    | (s, .ok _) => (s, .ok x)

/-- The destination of a multicast of n bytes in a receiver's scratchpad (R342). -/
def recvLoc (s : State) (c g : Nat) (off : Word) (n : Nat) : Except (Option Nat) Xlat :=
  let h := placeCluster s (cellOf c) g
  if off.toNat + n > spadTop s h then .error (some fcNotMapped) else .ok { loc := .spad h (off.toNat / 8 * 8), uc := true, pl := 0 }

/-- The pieces towards one destination, up to the first that fails a check, with its offset and cause (R339). -/
def cutPieces (s : State) (o : EngOp) (recv : Option Nat) : State × List Piece × Option (Nat × Option Nat) :=
  (copyRuns o).foldl (fun (s, ps, e) (off, len, a, b) =>
    if e.isSome then (s, ps, e)
    else match sideRange s o.ctx o.id .read a len with
      | (s, .error f) => (s, ps, some (off, f))
      | (s, .ok xa) =>
        let (s, r) := match recv with
          | none => sideRange s o.ctx o.id .write b len
          | some g => (s, recvLoc s o.ctx g b len)
        match r with
        | .error f => (s, ps, some (off, f))
        | .ok xb =>
          let p : Piece := { idx := ps.length, o := off, len := len, recv := recv, src := xa.loc, sb := a.toNat % 8, spl := xa.pl,
                             suc := xa.uc, dst := xb.loc, db := b.toNat % 8, dpl := xb.pl, duc := xb.uc, ticket := 0,
                             performed := false, counted := false }
          (s, ps ++ [p], none)) (s, [], none)

/-- A status word: CODE, WHY, CAUSE, OFFSET (R338). -/
def copyStatus (code why cause off : Nat) : Word :=
  .ofNat 64 (code * 2 ^ 60 + why * 2 ^ 56 + cause % 256 * 2 ^ 48 + off % 2 ^ 48)

/-- The status that names the lower failing offset. -/
def lowerStatus (u v : Word) : Word :=
  if fieldN u 60 4 = 0 then v
  else if fieldN v 60 4 = 0 then u
  else if fieldN v 0 48 < fieldN u 0 48 then v else u

/-- The pieces towards every destination with the status of the checks, or none while a walk is awaited (R339, R342). -/
def cutAll (s : State) (o : EngOp) : List (Option Nat) → State × Option (List Piece × Word)
  | [] => (s, some ([], copyStatus 0 0 0 0))
  | r :: rest =>
    match cutPieces s o r with
    | (s, _, some (_, none)) => (s, none)
    | (s, ps, e) =>
      match cutAll s o rest with
      | (s, none) => (s, none)
      | (s, some (qs, st)) =>
        let st := match e with
          | some (off, some cause) => lowerStatus (copyStatus 2 0 cause off) st
          | _ => st
        (s, some (ps ++ qs, st))

/-! ### COPY_START (R338, R339, R342) -/

/-- Numbers the pieces of an operation. -/
def renumber (l : List Piece) : List Piece := ((List.range l.length).zip l).map fun e => { e.2 with idx := e.1 }

/-! ### A piece (R138, R339, R146) -/

/-- The location `k` words on. -/
def Loc.plus (l : Loc) (k : Nat) : Loc :=
  match l with
  | .mem pa => .mem (pa + 8 * k)
  | .spad g p => .spad g (p + 8 * k)
  | .chart d q => .chart d (q + 8 * k)

/-- `SpadPhys` (R51). -/
def spadPhys (o code : Nat) : Nat := if code = 0 then o else o ^^^ (o % 2 ^ 23 / 2 ^ (code + 11) % 16 * 64)

/-- A location under a bank-rotation code (R51, R52). -/
def Loc.rot (l : Loc) (code : Nat) : Loc :=
  match l with
  | .spad g p => .spad g (spadPhys p code)
  | x => x

/-- The source words of a piece. -/
def pieceSrc (o : EngOp) (p : Piece) : List Loc :=
  (List.range ((p.sb + p.len + 7) / 8)).map fun k => (p.src.plus k).rot o.srot

/-- The destination words of a piece. -/
def pieceDst (o : EngOp) (p : Piece) : List Loc :=
  (List.range ((p.db + p.len + 7) / 8)).map fun k => (p.dst.plus k).rot o.drot

/-- The key under which a piece's count is kept over a pre-emption (R343). -/
def Piece.key (p : Piece) : Nat × Nat := (p.o, match p.recv with | none => 0 | some g => g + 1)

/-- COPY_START: the arguments are checked, a multicast adds its receivers to ARR, and the pieces are translated in ascending
order; their accesses to scratchpads join the engine queues of the banks (R53, R338, R339, R342). Counts that a cancelled run applied
are not applied again (R343). -/
def execCopyStart (op : Nat) (s : State) : Host.Outcome State Fault Refusal :=
  .next (match findOp s op with
    | none => s
    | some o =>
      if (o.kind ≠ .copy ∧ o.kind ≠ .copym) ∨ o.credit = 0 ∨ o.started then s
      else
        let why := if o.added ≠ [] then 0 else copyBadArg s o
        if why ≠ 0 then putOp s { o with started := true, todo := 0, status := some (copyStatus 3 why 0 0) }
        else
          let rs := o.receivers
          match cutAll s o (if o.kind = .copym then rs.map some else [none]) with
          | (s, none) => s
          | (s, some (ps, st)) =>
            let (s, o) := match (if o.kind = .copym ∧ o.barEn ∧ o.added = [] then o.bar s else none) with
              | some (g, p) => ((spadStep s o.ctx g p (.barAdd rs.length)).1, { o with added := rs })
              | none => (s, o)
            let ps := (renumber ps).map fun p => { p with counted := o.appliedCounts.contains p.key, ticket := s.fresh + p.idx }
            let need := ps.foldl (fun n p => max n (p.o + p.len)) 0
            let s := ps.foldl (fun s p => queueLocs s p.ticket (pieceSrc o p ++ pieceDst o p)) s
            let s := countRefresh s o.ctx (ps.filter fun p => (pieceSrc o p).any (locBusy s)).length
            putOp (dropEngErrs { s with fresh := s.fresh + ps.length + 1 } o.ctx o.id)
              { o with started := true, pieces := ps, status := some st, todo := min o.todo (need - o.credit) })

/-- A piece has an uncorrectable error in its source (R76). (DESIGN CHOICE, log 37.) -/
def pieceBad (s : State) (o : EngOp) (p : Piece) : Bool := (pieceSrc o p).any (poisoned s)

/-- An extent under a piece has been removed since it started (R71). -/
def pieceGone (s : State) (o : EngOp) (p : Piece) : Bool := (pieceSrc o p ++ pieceDst o p).any (extentGone s)

/-- Reads a piece's source words at their homes (R136, R138). -/
def readPiece (s : State) (o : EngOp) (p : Piece) : State × List Word :=
  (pieceSrc o p).foldl (fun (s, l) x =>
    let s := touchHome s x p.spl (clusterOfCell (cellOf o.ctx)) p.suc
    let (s, w) := engRead s x (o.reader s o.cls136)
    (s, l ++ [w])) (s, [])

/-- Writes a piece's bytes at the destination's home, word by word; words for which `keep` is false keep their old value
(R138, R339). -/
def writePiece (s : State) (o : EngOp) (p : Piece) (keep : Nat → Bool) : State :=
  let (s, ws) := readPiece s o p
  let data := (ws.flatMap fun w => leBytes 8 w.toNat).drop p.sb |>.take p.len
  ((List.range (pieceDst o p).length).zip (pieceDst o p)).foldl (fun s (k, l) =>
    if keep k = false then s
    else
      let lo := if k = 0 then p.db else 0
      let i := if k = 0 then 0 else 8 * k - p.db
      let n := min (8 - lo) (p.len - i)
      let w : Word := .ofNat 64 (leNat ((data.drop i).take n) * 2 ^ (8 * lo))
      let s := touchHome s l p.dpl (clusterOfCell (cellOf o.ctx)) p.duc
      engineWrite s l (mergeBytes (readLoc s l) w (byteMask lo n)) (n == 8) (o.cls136, o.id)) s

/-- Where a piece's bytes are counted: CPBAR for a copy, RBAR in the receiver for a multicast (R340, R342). -/
def pieceBar (s : State) (o : EngOp) (p : Piece) : Option (Nat × Nat) :=
  match p.recv with
  | none => if o.barEn then o.bar s else none
  | some g => if o.rbEn then some (placeCluster s (cellOf o.ctx) g, o.rbar) else none

/-- The pieces that an ending at piece k of its destination leaves: those performed, those of other destinations, and earlier ones. -/
def piecesUpTo (o : EngOp) (p : Piece) : List Piece :=
  o.pieces.filter fun q => q.performed || q.recv != p.recv || decide (q.idx < p.idx)

/-- COPY_PIECE_PERFORMED: a piece's words move, once its burst is taken, its banks have served it and no bank of its source refreshes; its
count is sent to its barrier (R53, R65, R146, R339, R344). An error in its source, or an extent that has been removed, ends the copy
towards that destination: later pieces stay unwritten, and with an error each word of this one is old or new (R71, R76, R339). -/
def execCopyPiecePerformed (op k : Nat) (s : State) : Host.Outcome State Fault Refusal :=
  .next (match findOp s op with
    | none => s
    | some o =>
      match o.pieces.find? fun p => p.idx == k && !p.performed with
      | none => s
      | some p =>
        let before (q : Piece) : Bool := decide (q.idx < k) && q.recv == p.recv && !q.performed
        if o.credit < p.o + p.len ∨ s.atBank p.ticket ∨ (pieceSrc o p).any (locBusy s) ∨
            o.pieces.any (fun q => before q && (pieceBad s o q || pieceGone s o q)) then s
        else if pieceGone s o p then
          putOp s { o with status := some (lowerStatus (o.status.getD 0) (copyStatus 2 0 fcExtentGone p.o)), pieces := piecesUpTo o p }
        else if pieceBad s o p then
          let clean i := Config.raceNew s.fresh i && !(((pieceSrc o p).drop (i - 1)).take 3).any (poisoned s)
          let s := (writePiece s o p clean).bump
          putOp s { o with status := some (lowerStatus (o.status.getD 0) (copyStatus 4 0 0 p.o)), pieces := piecesUpTo o p }
        else
          let s := (writePiece s o p fun _ => true).countAt (ptVf (s.cell (cellOf o.ctx)).ptRoot) (copyBlock (clusterOfCell (cellOf o.ctx))) 17 0 p.len
          let bar := if p.counted then none else pieceBar s o p
          let s := match bar with
            | some (g, w) =>
              let post : BarPost := { id := s.fresh, cluster := g, phys := w, op := .barCount p.len, eng := some (o.id, k),
                                      acc := none }
              { s.bump with posts := s.posts ++ [post] }
            | none => s
          putOp s { o with pieces := o.pieces.map fun q =>
            if q.idx = k then { q with performed := true, counted := q.counted || bar.isNone } else q })

/-- BAR_BYTE_COUNT: a count is applied at its barrier; one that EXPB cannot take waits there (R146, R347). A count that meets an
uncorrectable error in the barrier word is lost (R76; DESIGN CHOICE, log 83). -/
def execBarByteCount (id : Nat) (s : State) : Host.Outcome State Fault Refusal :=
  .next (barPost s id fun s p _ =>
    match p.eng with
    | none => s
    | some (op, k) =>
      match findOp s op with
      | none => s
      | some o => putOp s { o with
          appliedCounts := ((o.pieces.filter (·.idx == k)).map (·.key)) ++ o.appliedCounts
          pieces := o.pieces.map fun q => if q.idx = k then { q with counted := true } else q })

/-- COPY_FINISH: every piece is performed and counted; the counter is decremented once, and the status is written (R340,
R343). -/
def execCopyFinish (op : Nat) (s : State) : Host.Outcome State Fault Refusal :=
  .next (match findOp s op with
    | none => s
    | some o =>
      match o.status with
      | none => s
      | some st =>
        if (o.kind ≠ .copy ∧ o.kind ≠ .copym) ∨ ¬ o.started ∨ o.pieces.any (fun p => !p.performed || !p.counted) then s
        else
          let dec := o.depEn && !o.decDone
          if dec then
            (match engineTurn s (cellOf o.ctx) with
             | none => s
             | some s => endOp (decDepOp s (cellOf o.ctx) o.dep o.id) o st)
          else endOp s o st)

/-! ### Arbitration (R344) -/

/-- The weight of a core's queue; 0 acts as 1. -/
def cpWeight (s : State) (k : Nat) : Nat :=
  let w := (s.cell (k / 3)).cpWgt
  let x := fieldN w (if k % 3 = 0 then 8 else if k % 3 = 1 then 4 else 0) 4
  if x = 0 then 1 else x

/-- The burst of an operation: 256 bytes of a copy, or 64 for each command of a sounding (R344). -/
def burst (o : EngOp) : Nat :=
  match o.kind with
  | .copy | .copym => 256
  | _ => 64

/-- The copy engine takes n bytes of an operation from its queue. -/
def EngOp.take (o : EngOp) (n : Nat) : EngOp := { o with todo := o.todo - n, credit := o.credit + n }

/-- Serves the heads of a queue while its deficit allows: the last burst of an operation may be shorter (R344). -/
def serveQueue : Nat → List EngOp → Nat × List EngOp
  | d, [] => (d, [])
  | d, o :: r =>
    if o.todo ≤ d then
      let (e, l) := serveQueue (d - o.todo) r
      (e, o.take o.todo :: l)
    else
      let n := d / burst o * burst o
      (d - n, o.take n :: r)

/-- COPY_ARB_ROUND: one round over the 48 queues of a cluster (R344). (DESIGN CHOICE, log 36.) -/
def execCopyArbRound (cluster : Nat) (s : State) : Host.Outcome State Fault Refusal :=
  .next ((List.range 48).foldl (fun s i =>
    let k := 48 * cluster + i
    let q := s.ops.filter fun o => coreOf o.ctx == k && o.todo != 0 && !queueHeld s o.ctx
    if q = [] then s.modCluster cluster fun x => { x with defc := Map.drop x.defc i }
    else
      let d := Map.at (s.cluster cluster).defc i 0 + 256 * cpWeight s k
      let (e, l) := serveQueue d q
      let s := s.modCluster cluster fun x => { x with defc := Map.put x.defc i e }
      l.foldl putOp s) s)

end Sys2Proof.Machine
end

