-- ==== Sys2Proof/Machine/Sound.lean ====
section
/-! DEFINITION. Soundings (04, R348, R349): `sound`, `snddot` and `sndfill` from issue to status, the checks of the copy
engine, the bank's scan and fix arithmetic, fix records, appends, and the refresh of a stack. -/

namespace Sys2Proof.Machine

/-! ### Issue (R82, R348, R349) -/

/-- The head dimension of a DIM code (R80). -/
def dimOf (code : Nat) : Nat := 64 * 2 ^ code

/-- SOUND and SNDDOT at issue: FORMAT unless QT holds a query of the dimension; the query is copied now (R82, R348). -/
def issueSound (kind : EngKind) (op : Nat) (d : BitVec 5) (a b : BitVec 6) (i f : BitVec 2) (q : BitVec 4) (s : State) : State :=
  let srcs := [fieldOf a, fieldOf b]
  let legal := pairOk a && i != 3 && f != 3 && tileT q
  gated s (coreGate op .m legal srcs [a.toNat % 32 + 1, d.toNat]) fun s =>
    if (s.myCell.pend.any fun p => p.ctx == s.cur) ∨ acqPending s s.cur then s
    else
      let v := s.look q.toNat
      let dim := dimOf i.toNat
      if tagFmt v.tag ≠ fmtF32 ∨ tagCols v.tag ≠ 64 ∨ tagRows v.tag ≠ dim / 64 then formatTrap s
      else withSlot s kind fun s =>
        let (list, dst) := s.me.pair a
        let o := { EngOp.blank s kind [list, dst, s.me.src b] with
          dim := dim, fmt := f.toNat, query := (List.range dim).map fun e => .ofNat 32 (v.elem (e / 64) (e % 64)) }
        sendOp s (sMask srcs) d o

/-- SOUND (R348). -/
def execSound (d : BitVec 5) (a b : BitVec 6) (i f : BitVec 2) (q : BitVec 4) (s : State) : Host.Outcome State Fault Refusal :=
  .next (issueSound .sound 0x64 d a b i f q s)

/-- SNDDOT (R98, R348). -/
def execSnddot (d : BitVec 5) (a b : BitVec 6) (i f : BitVec 2) (q : BitVec 4) (s : State) : Host.Outcome State Fault Refusal :=
  .next (issueSound .snddot 0x66 d a b i f q s)

/-- SNDFILL (R349). -/
def execSndfill (d : BitVec 5) (a b : BitVec 6) (s : State) : Host.Outcome State Fault Refusal :=
  let g := coreGate 0x65 .m true [fieldOf a, fieldOf b] [d.toNat]
  .next (gated s g fun s =>
    withSlot s .sndfill fun s => sendOp s (sMask g.srcs) d (EngOp.blank s .sndfill [s.me.src a, s.me.src b]))

/-! ### Accesses of the copy engine for soundings -/

/-- An argument word. -/
def EngOp.arg (o : EngOp) (n : Nat) : Word := o.args.getD n 0

/-- COUNT, HI and LO of a range word (R348). -/
def rangeCount (w : Word) : Nat := fieldN w 51 13
def rangeHi (w : Word) : Nat := fieldN w 17 17
def rangeLo (w : Word) : Nat := fieldN w 0 17

/-- The completion status word (R86). -/
def sndStatus (code why cause nbank index : Nat) : Word :=
  .ofNat 64 (code * 2 ^ 60 + why * 2 ^ 56 + cause % 256 * 2 ^ 48 + nbank % 2 ^ 16 * 2 ^ 32 + index % 2 ^ 32)

/-- The addresses at which a range is checked: its first byte, each page it enters, its last byte. -/
def rangePoints (va : Word) (n : Nat) : List Word :=
  if n = 0 then []
  else va :: ((List.range ((va.toNat % 65536 + n - 1) / 65536)).map fun k => (.ofNat 64 ((va.toNat / 65536 + k + 1) * 65536) : Word))
    ++ [va + .ofNat 64 (n - 1)]

/-- Translates the points of a range through the cluster TLB, with the homes' checks where `home` is set: what each names, or the cause of the
first fault, or none while a walk is awaited (R32, R83). -/
def pointsXlat (s : State) (c id : Nat) (k : AccessKind) (home : Bool) : List Word → State × Except (Option Nat) (List (Word × Xlat))
  | [] => (s, .ok [])
  | a :: r =>
    match (if home then engAccess else translateEng) s c id k a with
    | (s, .fault f) => (s, .error (some f.cause))
    | (s, .miss) => (s, .error none)
    | (s, .ok x) =>
      match pointsXlat s c id k home r with
      | (s, .ok l) => (s, .ok ((a, x) :: l))
      | e => e

/-- Translates a range (R83). -/
def rangeXlat (s : State) (o : EngOp) (k : AccessKind) (home : Bool) (va : Word) (n : Nat) :
    State × Except (Option Nat) (List (Word × Xlat)) :=
  pointsXlat s o.ctx o.id k home (rangePoints va n)

/-- An operation's read of 8 bytes: the word and whether an error was met; or the cause of a fault, or none while something is
awaited. -/
def engWord (s : State) (o : EngOp) (va : Word) : State × Except (Option Nat) (Word × Bool) :=
  let go (e : State × Except (Option Nat) (List Byte × Bool)) (a : Word × Nat × Nat) :=
    match e with
    | (s, .error f) => (s, .error f)
    | (s, .ok (d, bad)) =>
      match engAccess s o.ctx o.id .read a.1 with
      | (s, .fault f) => (s, .error (some f.cause))
      | (s, .miss) => (s, .error none)
      | (s, .ok x) =>
        if locBusy s x.loc then (s, .error none)
        else
          let s := touchHome s x.loc x.pl (clusterOfCell (cellOf o.ctx)) x.uc
          let (s, w) := engRead s x.loc (o.reader s 5)
          (s, .ok (d ++ ((leBytes 8 w.toNat).drop (a.1.toNat % 8)).take a.2.2, bad || poisoned s x.loc))
  match (spanParts va 8).foldl go (s, .ok ([], false)) with
  | (s, .ok (d, bad)) => (s, .ok (.ofNat 64 (leNat d), bad))
  | (s, .error f) => (s, .error f)

/-- The words that a range of addresses occupies in a scratchpad, as the window names them. -/
def windowLocs (s : State) (c : Nat) (k : AccessKind) (va : Word) (n : Nat) : List Loc :=
  if inSpadWin va = false then []
  else (List.range ((va.toNat % 8 + n + 7) / 8)).filterMap fun i =>
    match translateBy s c k (va + .ofNat 64 (8 * i)) [] with
    | .ok x => some x.loc
    | _ => none

/-- Where an address of DST lies: its word's location, placement, and whether the page is uncached (R83). -/
def EngOp.dstLoc (o : EngOp) (va : Word) : Option (Loc × Nat × Bool) :=
  match o.dstAt.find? fun e => e.1 / 65536 == va.toNat / 65536 with
  | some (a, l, pl, uc) => some (l.plus (va.toNat / 8 - a / 8), pl, uc)
  | none => none

/-- Writes bytes of DST at their homes as SOUND-class writes (R85); where an extent has been removed they are lost (R71). -/
def putDst (s : State) (o : EngOp) (va : Word) (data : List Byte) (who : Nat × Nat) : State :=
  (spanParts va data.length).foldl (fun s (a, i, n) =>
    match o.dstLoc a with
    | none => s
    | some (l, pl, uc) =>
      if extentGone s l then s
      else
        let off := a.toNat % 8
        let w : Word := .ofNat 64 (leNat ((data.drop i).take n) * 2 ^ (8 * off))
        let s := touchHome s l pl (clusterOfCell (cellOf o.ctx)) uc
        engineWrite s l (mergeBytes (readLoc s l) w (byteMask off n)) (n == 8) who) s

/-! ### SOUND_START (R79, R83) -/

/-- The element size of a format (R79). -/
def sndElem (fmt : Nat) : Nat := if fmt = 2 then 1 else 2

/-- The bytes of the rows of one kind. -/
def sndRows (o : EngOp) : Nat := 32 * o.dim * sndElem o.fmt

/-- The footprint of a block of the sounding's KIND (R79). -/
def sndFoot (o : EngOp) : Nat :=
  64 + (if o.kind = .snddot then 1 else 2) * sndRows o + (if o.fmt = 2 then 64 else 0)

/-- A block in this device's HBM: its physical address with KEY. -/
def blockPa (s : State) (l : Loc) (foot : Nat) : Option Nat :=
  match l with
  | .mem pa =>
    if paHome pa = s.dev.devno ∧ isHbm s (paLocal pa) ∧ isHbm s (paLocal pa + foot - 1) then some pa else none
  | _ => none

/-- The status of a failed translation of descriptor k. -/
def descFault (k : Nat) : Option Nat → Option Word
  | some f => some (sndStatus 2 0 f 0 k)
  | none => none

/-- The checks on descriptor k, in their order: the block, or the status of the failure, or none while a walk is awaited (R83). -/
def checkDesc (s : State) (o : EngOp) (k : Nat) : State × Except (Option Word) SndBlock :=
  match engWord s o (o.arg 0 + .ofNat 64 (8 * k)) with
  | (s, .error f) => (s, .error (descFault 0xFFFFFFFF f))
  | (s, .ok (_, true)) => (s, .error (some (sndStatus 4 0 0 0 k)))
  | (s, .ok (w, false)) =>
    if fieldN w 0 6 ≠ 0 ∨ fieldN w 56 8 ≠ 0 then (s, .error (some (sndStatus 3 3 0 0 k)))
    else if w.toNat % 65536 + sndFoot o > 65536 then (s, .error (some (sndStatus 3 4 0 0 k)))
    else match rangeXlat s o .read false w (sndFoot o) with
      | (s, .error f) => (s, .error (descFault k f))
      | (s, .ok l) => (match l.head?.bind fun e => blockPa s e.2.loc (sndFoot o) with
        | some pa => (s, .ok { k := k, pa := pa })
        | none => (s, .error (some (sndStatus 3 5 0 0 k))))

/-- Every descriptor in LIST order. -/
def checkDescs (s : State) (o : EngOp) (n : Nat) : State × Except (Option Word) (List SndBlock) :=
  (List.range n).foldl (fun (s, (r : Except (Option Word) (List SndBlock))) k =>
    match r with
    | .error e => (s, .error e)
    | .ok l => (match checkDesc s o k with
      | (s, .ok b) => (s, .ok (l ++ [b]))
      | (s, .error e) => (s, .error e))) (s, .ok [])

/-- The bank number of a block (R78). -/
def SndBlock.bank (b : SndBlock) : Nat := (hbmBank (paLocal b.pa)).1

/-- The banks of a sounding in order of first appearance, each with its blocks in LIST order (R83). -/
def groupBlocks (d : Nat) (l : List SndBlock) : List BankScan :=
  let banks := l.foldl (fun acc b => if acc.contains b.bank then acc else acc ++ [b.bank]) []
  banks.map fun i =>
    { bank := i, blocks := l.filter (·.bank == i), phase := .waiting, m := .ofNat 32 negInf32, l := 0,
      acc := List.replicate d 0, ntok := 0, nblk := 0, cecnt := 0, ue := false, nan := false, badhdr := false, yields := 0,
      dots := [], arr := none, bi := 0, toks := none, part := [], ticket := 0 }

/-- The bytes that an operation writes at DST (R83, R98). -/
def dstBytes (o : EngOp) (count nbank : Nat) : Nat :=
  if o.kind = .snddot then 128 * count + 8 * nbank else nbank * (64 + 4 * o.dim)

/-- The argument checks: WHY, or 0 (R83, R86). -/
def sndArgs (o : EngOp) : Nat :=
  let w := o.arg 2
  if rangeCount w = 0 ∨ rangeCount w > 4096 then 1
  else if o.kind = .sound ∧ rangeLo w > rangeHi w then 2
  else if (o.arg 1).toNat % 64 ≠ 0 then 6
  else 0

/-- Where the pages of DST lie, as its translation found them. -/
def dstPages (l : List (Word × Xlat)) : List (Nat × Loc × Nat × Bool) := l.map fun e => (e.1.toNat, e.2.loc, e.2.pl, e.2.uc)

/-- The commands of a started sounding join its core's queue: a QBCAST, a SCAN and a FIXRD of 64 bytes for each bank (R83, R344). -/
def queueCommands (s : State) (o : EngOp) : State :=
  { s with ops := s.ops.filter (·.id != o.id) ++ [{ o with todo := 192 * o.banks.length }] }

/-- The checks of a sounding, up to its first failure: the operation with its banks and DST, or the status, or none while a walk or a
chart bank is awaited (R83). -/
def soundChecks (s : State) (o : EngOp) : State × Except (Option Word) EngOp :=
  let why := sndArgs o
  let n := rangeCount (o.arg 2)
  if why ≠ 0 then (s, .error (some (sndStatus 3 why 0 0 0xFFFFFFFF)))
  else match rangeXlat s o .read true (o.arg 0) (8 * n) with
    | (s, .error f) => (s, .error (descFault 0xFFFFFFFF f))
    | (s, .ok _) =>
      match checkDescs s o n with
      | (s, .error st) => (s, .error st)
      | (s, .ok l) =>
        let banks := groupBlocks o.dim l
        match rangeXlat s o .write true (o.arg 1) (dstBytes o n banks.length) with
        | (s, .error f) => (s, .error (descFault 0xFFFFFFFF f))
        | (s, .ok d) => (dropEngErrs s o.ctx o.id, .ok { o with started := true, banks := banks, dstAt := dstPages d })

/-- What waits for a walk has asked for it, and nothing else has happened (R32). -/
def keepWalks (s t : State) : State := if t.walks = s.walks then s else { s with walks := t.walks, fresh := t.fresh }

/-- SOUND_START: arguments, LIST, each descriptor, DST; the first failure ends the operation, and otherwise its banks are known and its
commands queue (R83). A LIST in a scratchpad first waits for its turns at the banks (R53). (DESIGN CHOICE, log 38.) -/
def execSoundStart (op : Nat) (s : State) : Host.Outcome State Fault Refusal :=
  .next (match findOp s op with
    | none => s
    | some o =>
      if o.kind.sounds = false ∨ o.credit = 0 ∨ o.started then s
      else
        let list := windowLocs s o.ctx .read (o.arg 0) (8 * min 4096 (rangeCount (o.arg 2)))
        if list ≠ [] ∧ o.ticket = none then queueLocs (putOp s.bump { o with ticket := some s.fresh }) s.fresh list
        else if (match o.ticket with | some t => s.atBank t | none => false) then s
        else match soundChecks s o with
          | (t, .error none) => keepWalks s t
          | (s, .error (some st)) => endOp s o st
          | (s, .ok o) => queueCommands s o)

/-! ### Banks (R77, R83, R84, R91, R93, R94) -/

/-- Bank record k of an operation. -/
def bankAt (s : State) (op k : Nat) : Option (EngOp × BankScan) :=
  match findOp s op with
  | none => none
  | some o => match o.banks[k]? with
    | some b => some (o, b)
    | none => none

/-- Puts bank record k back. -/
def putBank (s : State) (o : EngOp) (k : Nat) (b : BankScan) : State := putOp s { o with banks := o.banks.set k b }

/-- A scan is in progress in the bank: it has its query and has not ended. -/
def BankScan.scans (b : BankScan) : Bool := b.phase == .queried || b.phase == .yielded

/-- A record's query register is in use (R94). -/
def BankScan.holds (b : BankScan) : Bool := b.scans || b.phase == .scanned

/-- A scan is pending: its command has arrived and it has not ended (R94). -/
def BankScan.pending (b : BankScan) : Bool := b.scans || (b.phase == .waiting && b.arr.isSome)

/-- The pseudo-channel of a bank, across the device, and its SID (R78). -/
def pchOf (bank : Nat) : Nat := let (st, ch, _, _) := bankParts bank; st * 64 + ch
def sidOf (bank : Nat) : Nat := let (_, _, sid, _) := bankParts bank; sid

/-- The bank that a `sndfill` names: of its HDR once the command has been at the home, and until then as a walk would find it. -/
def fillBank (s : State) (o : EngOp) : Option Nat :=
  if o.hdrNew.isSome then some (hbmBank (paLocal o.hdrPa)).1
  else match peekBy s o.ctx .atomic (o.arg 0) (s.cluster (clusterOfCell (cellOf o.ctx))).tlb with
    | .ok x => (blockPa s x.loc 8).map fun pa => (hbmBank (paLocal pa)).1
    | _ => none

/-- An earlier SOUND-class command of the same context to the bank must come first: a sounding whose banks are not yet known or that has
not ended its scan there, or a `sndfill` (R91). -/
def soundBlocked (s : State) (o : EngOp) (bank : Nat) : Bool :=
  s.ops.any fun p => p.ctx == o.ctx && decide (p.id < o.id) &&
    (match p.kind with
     | .sndfill => fillBank s p == some bank
     | .sound | .snddot => !p.started || p.banks.any fun b => b.bank == bank && (b.phase == .waiting || b.scans)
     | _ => false)

/-- The copy engine has taken n commands of an operation from its queue (R344). -/
def EngOp.sent (o : EngOp) (n : Nat) : Bool := decide (o.credit ≥ 64 * n)

/-- The records whose commands to a bank have arrived and wait, with their moments of arrival (R94). -/
def arrivals (s : State) (bank : Nat) : List Nat :=
  s.ops.flatMap fun p => p.banks.filterMap fun c => if c.bank = bank ∧ c.phase = .waiting then c.arr else none

/-- QBCAST: the command joins the bank's queue; the first of the queue loads the query and sets its fix to (−∞, 0, 0), once the bank's
query register is free (R83, R94). -/
def execQbcast (op k : Nat) (s : State) : Host.Outcome State Fault Refusal :=
  .next (match bankAt s op k with
    | none => s
    | some (o, b) =>
      if b.phase ≠ .waiting then s
      else match b.arr with
        | none => if o.sent (k + 1) = false ∨ soundBlocked s o b.bank then s else putBank s.bump o k { b with arr := some s.fresh }
        | some a =>
          if (s.ops.any fun p => p.banks.any fun c => c.bank == b.bank && c.holds) ∨ (arrivals s b.bank).any (fun x => decide (x < a)) then s
          else putBank s o k { b with phase := .queried })

/-! ### The scan (R80, R81, R84, R87, R90, R92, R96, R98) -/

/-- The sounder reads a word of HBM: what HBM holds, or another value written to it where no rule orders the write before the scan
(R90, R92, R138). -/
def scanWord (s : State) (o : EngOp) (b : BankScan) (pa : Nat) : State × Word :=
  let w := mediaWord s (paKey pa) (paAddr pa)
  let l := [w, readMem s pa] ++ olderVals s { o.reader s 5 with pubs := b.pubs } (Map.at s.mem.hist pa [])
  if l.all (· == w) then (s, w) else (s.bump, l.getD (Config.raceBack s.fresh pa % l.length) w)

/-- A well-formed header (R80). -/
def hdrOk (w : Word) : Bool :=
  fieldN w 12 52 == 0 && decide (fieldN w 10 2 < 2) && decide (fieldN w 8 2 < 3) && decide (fieldN w 6 2 < 3) &&
    decide (fieldN w 0 6 ≤ 32)

/-- A header that matches the sounding (R80). -/
def hdrMatches (o : EngOp) (w : Word) : Bool :=
  hdrOk w && fieldN w 10 2 == (if o.kind = .snddot then 1 else 0) && fieldN w 8 2 == o.fmt && dimOf (fieldN w 6 2) == o.dim

/-- The tokens of a block that count (R84, R98). -/
def sndTokens (o : EngOp) (k fill : Nat) : List Nat :=
  (List.range fill).filter fun t =>
    o.kind == .snddot || decide (rangeLo (o.arg 2) ≤ 32 * k + t ∧ 32 * k + t ≤ rangeHi (o.arg 2))

/-- The physical address of token t's row: `v` 0 for its key row, 1 for its value row (R79). -/
def rowPa (o : EngOp) (pa t v : Nat) : Nat := pa + 64 + v * sndRows o + t * o.dim * sndElem o.fmt

/-- The physical address of a row's scale byte (R79). -/
def scalePa (o : EngOp) (pa t v : Nat) : Nat := pa + 64 + (if o.kind = .snddot then 1 else 2) * sndRows o + 32 * v + t

/-- Adds to a field of a stack's counter register, which saturates (R97). -/
def countStack (s : State) (bank lo n : Nat) : State :=
  let st := bank % 12
  let w := Map.at s.dev.sndcnt st 0
  s.modDev fun d => { d with sndcnt := Map.put d.sndcnt st (setField w lo 16 (satN (fieldN w lo 16 + n) 65535)) }

/-- A scan reads a word: each armed error in it is corrected, counted and spent; one that cannot be corrected gives none (R73, R96,
R423). (DEDUCED, log 41.) -/
def scanRead (s : State) (o : EngOp) (b : BankScan) (pa : Nat) (hdr : Bool) : State × BankScan × Option Word :=
  let s := if pa % 64 = 0 then noteKey s pa else s
  if poisoned s (.mem pa) then (s, b, none)
  else
    let n := (s.mem.softErr.filter (· == paAddr pa)).length
    let s := if n = 0 then s
      else countStack (s.modMem fun m => { m with softErr := m.softErr.filter (· != paAddr pa) }) b.bank 48 n
    let (s, w) := if hdr then (s, mediaWord s (paKey pa) (paAddr pa)) else scanWord s o b pa
    (s, { b with cecnt := satN (b.cecnt + n) 255 }, some w)

/-- A scan reads words in order, up to one with an uncorrectable error. -/
def scanReads (s : State) (o : EngOp) (b : BankScan) : List Nat → State × BankScan × Option (List Word)
  | [] => (s, b, some [])
  | pa :: r =>
    match scanRead s o b pa false with
    | (s, b, none) => (s, b, none)
    | (s, b, some w) =>
      match scanReads s o b r with
      | (s, b, some l) => (s, b, some (w :: l))
      | e => e

/-- The decoded values of a row (R81): its words and its scale. -/
def rowVals (o : EngOp) (ws : List Word) (sc : Nat) : List FVal :=
  let e := sndElem o.fmt
  let bytes := ws.flatMap fun w => leBytes 8 w.toNat
  (List.range o.dim).map fun i =>
    let x := leNat ((bytes.drop (e * i)).take e)
    if o.fmt = 0 then f16.decode x else if o.fmt = 1 then bf16.decode x else narrowVal fmtT8 x sc

/-- The words of token t's row, with that of its scale last (R79). The scale's word is read anew for each token that is taken, and for no
other. (DESIGN CHOICE, log 89.) -/
def rowWords (o : EngOp) (pa t v : Nat) : List Nat :=
  ((List.range (o.dim * sndElem o.fmt / 8)).map fun i => rowPa o pa t v + 8 * i) ++
    (if o.fmt = 2 then [scalePa o pa t v / 8 * 8] else [])

/-- Reads and decodes token t's row. -/
def scanRow (s : State) (o : EngOp) (b : BankScan) (pa t v : Nat) : State × BankScan × Option (List FVal) :=
  match scanReads s o b (rowWords o pa t v) with
  | (s, b, none) => (s, b, none)
  | (s, b, some ws) =>
    let sc := if o.fmt = 2 then fieldN (ws.getLastD 0) (scalePa o pa t v % 8 * 8) 8 else 127
    (s, b, some (rowVals o ws sc))

/-- An uncorrectable error ends the bank's scan: its record is the empty fix with UE set and NTOK 0 (R96, R98). The record keeps BADHDR,
CECNT and NBLK, and NAN is clear. (DESIGN CHOICE, log 84.) -/
def scanFails (s : State) (o : EngOp) (b : BankScan) : State × BankScan :=
  (countStack s b.bank 32 1,
   { b with ue := true, m := .ofNat 32 negInf32, l := 0, acc := List.replicate o.dim 0, ntok := 0, nan := false, dots := [],
            toks := none, part := [], phase := .scanned })

/-- A bank absorbs a token into its fix (R84, R87). NTOK counts every token that the bank takes, whatever its score. (DESIGN CHOICE, log 84.) -/
def absorbToken (o : EngOp) (b : BankScan) (key value : List FVal) : BankScan :=
  let f : Fix := { m := b.m.toNat, l := b.l.toNat, acc := b.acc.map (·.toNat) }
  let (f, nan) := absorb f (score (o.query.map (·.toNat)) key) value
  { b with m := .ofNat 32 f.m, l := .ofNat 32 f.l, acc := f.acc.map (.ofNat 32 ·), nan := b.nan || nan, ntok := b.ntok + 1 }

/-- The scan reaches a block: HDR is read once, and the tokens that count are known (R84). -/
def scanOpen (s : State) (o : EngOp) (b : BankScan) (x : SndBlock) : State × BankScan :=
  match scanRead s o { b with nblk := b.nblk + 1, pubs := Map.at s.mem.pubs x.pa [] } x.pa true with
  | (s, b, none) => scanFails s o b
  | (s, b, some hdr) =>
    if hdrMatches o hdr then (s, { b with toks := some (sndTokens o x.k (fieldN hdr 0 6)), part := [] })
    else (s, { b with toks := some [], part := [], badhdr := true })

/-- One token of a block (R84, R98). A NaN or +∞ score of a `snddot` row sets no NAN in its bank's status word: R85 speaks of a fix (DESIGN
CHOICE, log 98). -/
def scanToken (s : State) (o : EngOp) (b : BankScan) (pa t : Nat) (rest : List Nat) : State × BankScan :=
  match scanRow s o b pa t 0 with
  | (s, b, none) => scanFails s o b
  | (s, b, some key) =>
    if o.kind = .snddot then
      (s, { b with toks := some rest, part := b.part ++ [.ofNat 32 (score (o.query.map (·.toNat)) key)], ntok := b.ntok + 1 })
    else match scanRow s o b pa t 1 with
      | (s, b, none) => scanFails s o b
      | (s, b, some value) => (s, { absorbToken o b key value with toks := some rest })

/-- The scan leaves a block; the results of a dot block at or beyond FILL are +0.0 (R98). -/
def scanClose (o : EngOp) (b : BankScan) (x : SndBlock) : BankScan :=
  { b with bi := b.bi + 1, toks := none, part := [],
           dots := if o.kind = .snddot then b.dots ++ [(x.k, b.part ++ List.replicate (32 - b.part.length) 0)] else [] }

/-- The column cycles of a token, and of a block's header and scales (R100). -/
def tokCycles (o : EngOp) : Nat :=
  let n := if o.fmt = 2 then o.dim / 16 else o.dim / 8
  if o.kind = .snddot then n / 2 else n
def hdrCycles (o : EngOp) : Nat := if o.fmt = 2 then 4 else 2

/-- A bank scans its blocks in LIST order and each block's tokens in ascending order (R84), from where it stands up to its next yield: the
fourth token boundary, or 32 column cycles (R93). -/
def scanRun : Nat → Nat → Nat → State → EngOp → BankScan → State × BankScan
  | 0, _, _, s, _, b => (s, { b with phase := .yielded })
  | fuel + 1, n, cyc, s, o, b =>
    match b.blocks[b.bi]?, b.toks with
    | none, _ => (s, { b with phase := .scanned })
    | some x, some [] => scanRun fuel n cyc s o (scanClose o b x)
    | some x, tk =>
      if n ≥ 4 ∨ cyc ≥ 32 then (s, { b with phase := .yielded })
      else
        let (s, b, n, c) := match tk with
          | some (t :: r) => let (s, b) := scanToken s o b x.pa t r; (s, b, n + 1, tokCycles o)
          | _ => let (s, b) := scanOpen s o b x; (s, b, n, hdrCycles o)
        if b.ue then (s, b) else scanRun fuel n (cyc + c) s o b

/-- The SID that a bank's scan needs is active in its pseudo-channel, or becomes active: no scan is pending in the active SID, and the
bank's is the next after it, round-robin, in which one is (R77, R94). -/
def sidTurn (s : State) (bank : Nat) : Option State :=
  let pch := pchOf bank
  let act := Map.at s.dev.sidAct pch 0
  let has (i : Nat) : Bool := s.ops.any fun p => p.banks.any fun c => pchOf c.bank == pch && sidOf c.bank == i && c.pending
  if act = sidOf bank then some s
  else if has act then none
  else if ((List.range 4).map fun i => (act + 1 + i) % 5).find? has = some (sidOf bank) then
    some (s.modDev fun d => { d with sidAct := Map.put d.sidAct pch (sidOf bank) })
  else none

/-- SCAN: once its command is sent and its SID has the turn, the bank scans up to its next yield or to the end (R77, R84, R93, R94). -/
def execScan (op k : Nat) (s : State) : Host.Outcome State Fault Refusal :=
  .next (match bankAt s op k with
    | none => s
    | some (o, b) =>
      if b.phase ≠ .queried ∨ o.sent (o.banks.length + k + 1) = false then s
      else match sidTurn s b.bank with
        | none => s
        | some s =>
          let (s, b) := scanRun 64 0 0 s o b
          putBank (if b.phase = .scanned then s.countAt (ptVf (s.cell (cellOf o.ctx)).ptRoot) (stackBlock (pchOf b.bank / 64)) 17 1 b.ntok else s) o k b)

/-- SCAN_YIELD: the bank has yielded and served the ordinary accesses that wait; its scan goes on as it stands (R93). -/
def execScanYield (op k : Nat) (s : State) : Host.Outcome State Fault Refusal :=
  .next (match bankAt s op k with
    | none => s
    | some (o, b) => if b.phase ≠ .yielded then s else putBank s o k { b with phase := .queried, yields := b.yields + 1 })

/-! ### Records (R85, R86, R98) -/

/-- Status word 1 of a bank (R85). -/
def bankStatus (b : BankScan) : Nat :=
  let (stack, pch, sid, bank) := bankParts b.bank
  (if b.ue then 2 ^ 63 else 0) + (if b.nan then 2 ^ 62 else 0) + (if b.badhdr then 2 ^ 61 else 0) + b.cecnt % 256 * 2 ^ 40 +
    stack * 2 ^ 28 + pch * 2 ^ 22 + sid * 2 ^ 19 + bank * 2 ^ 15

/-- The bytes of a fix record (R85). -/
def fixRecord (b : BankScan) : List Byte :=
  leBytes 4 b.m.toNat ++ leBytes 4 b.l.toNat ++ leBytes 8 (bankStatus b) ++ leBytes 4 b.ntok ++ leBytes 4 b.nblk ++
    List.replicate 40 0 ++ b.acc.flatMap fun a => leBytes 4 a.toNat

/-- The writes of bank record k: a fix record, or a bank's dot results and status word (R83, R98). -/
def recordWrites (o : EngOp) (k : Nat) (b : BankScan) : List (Word × List Byte) :=
  let dst := o.arg 1
  if o.kind = .snddot then
    (b.blocks.map fun x =>
      let l := match b.dots.find? (·.1 == x.k) with
        | some (_, l) => l
        | none => List.replicate 32 0
      (dst + .ofNat 64 (128 * x.k), l.flatMap fun y => leBytes 4 y.toNat)) ++
      [(dst + .ofNat 64 (128 * rangeCount (o.arg 2) + 8 * k), leBytes 8 (bankStatus b))]
  else [(dst + .ofNat 64 (k * (64 + 4 * o.dim)), fixRecord b)]

/-- FIXRD: the bank returns its fix and frees its query register; the record's writes to a scratchpad join the queues of its banks (R53,
R83). -/
def execFixrd (op k : Nat) (s : State) : Host.Outcome State Fault Refusal :=
  .next (match bankAt s op k with
    | none => s
    | some (o, b) =>
      if b.phase ≠ .scanned ∨ o.sent (2 * o.banks.length + k + 1) = false then s
      else
        let locs := (recordWrites o k b).flatMap fun e =>
          (spanParts e.1 e.2.length).filterMap fun a => (o.dstLoc a.1).map (·.1)
        putBank (queueLocs s.bump s.fresh locs) o k { b with phase := .returned, ticket := s.fresh })

/-- FIX_RECORD_WRITE: record k is written at DST; after the last one the status completes the operation (R83, R86). NBANK counts the banks
of the operation, also for a `snddot`, which writes no fix records. (DESIGN CHOICE, log 84.) -/
def execFixRecordWrite (op k : Nat) (s : State) : Host.Outcome State Fault Refusal :=
  .next (match bankAt s op k with
    | none => s
    | some (o, b) =>
      if b.phase ≠ .returned ∨ s.atBank b.ticket then s
      else
        let s := (recordWrites o k b).foldl (fun s e => putDst s o e.1 e.2 (5, o.id)) s
        let o := { o with banks := o.banks.set k { b with phase := .written } }
        if o.banks.all fun c => c.phase == .written then
          endOp s o (sndStatus (if o.banks.any (·.ue) then 1 else 0) 0 0 o.banks.length 0)
        else putOp s o)

/-! ### SNDFILL (R89, R91) -/

/-- A bank takes HDR of `sndfill` o, which then ends (R89, R91): the value that the command carries, and once no other command for the word
is on its way, the word as the home now has it. -/
def endFillw (s : State) (o : EngOp) (w : Word) : State :=
  let s := (mediaPut s o.hdrPa w).modMem fun m => { m with pubs := Map.put m.pubs o.hdrPa ((threadOf s o.ctx, o.id) :: Map.at m.pubs o.hdrPa []) }
  let s := endOp s o (sndStatus 0 0 0 1 0)
  if (heldWords s (o.hdrPa / 64)).getLsbD (o.hdrPa / 8 % 8) then s else writeBackLine s (o.hdrPa / 64)

/-- Another command must reach the bank before the FILLW of `sndfill` o to a word: an earlier one of its context to that bank, or a
`sndfill` that came first at the word's home (R89, R91). -/
def fillwBlocked (s : State) (o : EngOp) (pa : Nat) : Bool :=
  soundBlocked s o (hbmBank (paLocal pa)).1 || s.ops.any fun p => p.hdrNew.isSome && p.hdrPa == pa && p.id != o.id &&
    (o.hdrNew.isNone || decide (p.hdrAt < o.hdrAt))

/-- An earlier `sndfill` of the same context to the bank has not been at the home yet (R91). -/
def fillEarlier (s : State) (o : EngOp) (bank : Nat) : Bool :=
  s.ops.any fun p => p.kind == .sndfill && p.ctx == o.ctx && decide (p.id < o.id) && p.hdrNew.isNone && fillBank s p == some bank

/-- `sndfill` o at the home slice of HDR at `pa`, with its translation done: an uncorrectable error, a malformed HDR, or the
read-modify-write (R89). A slice that can hold no copy of the line has the bank write HDR at once, when that may be (R48, R91); `s` is the
state in which the command still waits. -/
def sndfillHome (s t : State) (o : EngOp) (n : Nat) (x : Xlat) (pa : Nat) : State :=
  let t := touchHome t x.loc x.pl (clusterOfCell (cellOf o.ctx)) x.uc
  let w := readMem t pa
  if poisoned t (.mem pa) then endOp t o (sndStatus 1 0 0 1 0)
  else if hdrOk w = false then endOp t o (sndStatus 3 7 0 1 0)
  else
    let w' := setField w 0 6 (max (fieldN w 0 6) n)
    let o' := { o with started := true, hdrPa := pa, hdrNew := some w', hdrAt := t.fresh }
    let u := (takeOver (writeLoc t (.mem pa) w' false (5, o.id)) (.mem pa) none).bump
    if (Map.find t.mem.slines (pa / 64)).isSome then putOp u o'
    else if fillwBlocked s o pa then s
    else endFillw u o' w'

/-- SNDFILL_AT_HOME: the checks of R89 in their order, then FILL := max(FILL, n) at the home slice, in the order of the context's commands
to the bank; FILLW follows. A slice that can hold no copy of the line has the bank write HDR at once. (DEDUCED, log 39.) -/
def execSndfillAtHome (op : Nat) (s : State) : Host.Outcome State Fault Refusal :=
  .next (match findOp s op with
    | none => s
    | some o =>
      if o.kind ≠ .sndfill ∨ o.credit = 0 ∨ o.hdrNew.isSome then s
      else
        let va := o.arg 0
        let n := o.arg 1
        if fieldN va 0 6 ≠ 0 ∨ fieldN va 56 8 ≠ 0 then endOp s o (sndStatus 3 3 0 1 0)
        else if n.toNat > 32 then endOp s o (sndStatus 3 1 0 1 0)
        else match translateEng s o.ctx o.id .atomic va with
          | (s, .fault f) => endOp s o (sndStatus 2 0 f.cause 1 0)
          | (s, .miss) => s
          | (s', .ok x) =>
            match blockPa s' x.loc 8 with
            | none => endOp s' o (sndStatus 3 5 0 1 0)
            | some pa =>
              if fillEarlier s o (hbmBank (paLocal pa)).1 then s else sndfillHome s s' o n.toNat x pa)

/-- FILLW: the bank writes HDR, in the order of the context's commands to that bank and of the commands of the word's home, and the
`sndfill` completes (R89, R91). -/
def execFillw (op : Nat) (s : State) : Host.Outcome State Fault Refusal :=
  .next (match findOp s op with
    | none => s
    | some o =>
      match o.hdrNew with
      | none => s
      | some w => if fillwBlocked s o o.hdrPa then s else endFillw s o w)

/-! ### Refresh (R95) -/

/-- HBM_REFRESH: a stack's base die takes cycles for refresh, and a number of ordinary requests collide with it (R95). -/
def execHbmRefresh (stack collides : Nat) (s : State) : Host.Outcome State Fault Refusal :=
  .next (s.modDev fun d => { d with refresh := d.refresh ++ List.replicate collides stack })

/-- RETRY: a request that collided is answered with a retry hint, and its requester sends it again (R95, R97). Whose request it was the
event does not tell: it counts for every function that runs a launch (R405; DESIGN CHOICE, log 60). -/
def execRetry (stack : Nat) (s : State) : Host.Outcome State Fault Refusal :=
  .next (if s.dev.refresh.contains stack then
      let s := s.modDev fun d =>
        let w := Map.at d.sndcnt stack 0
        { d with refresh := d.refresh.erase stack, sndcnt := Map.put d.sndcnt stack (setField w 0 32 (fieldN w 0 32 + 1)) }
      let vfs := ((s.host.launches.filter fun e => e.2.stat == .running).map fun e => e.2.vf).eraseDups
      vfs.foldl (fun s vf => s.countAt vf (stackBlock stack) 17 2 1) s
    else s)

end Sys2Proof.Machine
end

