-- ==== Sys2Proof/Machine/Mailbox.lean ====
section
/-! DEFINITION. Mailboxes (R364, R365), translation invalidation (R34, R366) and the conversion of cache ways (R59 to R62,
R367). -/

namespace Sys2Proof.Machine

/-! ### Mailboxes (R364, R365) -/

/-- The number of a context in the target layout of R365, by its launch's cell number. -/
def mboxName (s : State) (c : Nat) : Nat := (s.cell (cellOf c)).cellNo % 1024 * 64 + (kindOf c).code * 16 + slotOf c

/-- MBOX_SEND: a request to the target; d waits for the status (R365). (DEDUCED, log 52.) -/
def execMboxSend (d : BitVec 5) (a b : BitVec 6) (s : State) : Host.Outcome State Fault Refusal :=
  let g := anyGate 0x77 true [fieldOf a, fieldOf b] [d.toNat]
  .next (gated s g fun s =>
    withEntry s fun s =>
      let m : MboxMsg := { id := s.fresh, sender := s.cur, dest := d.toNat, sbits := sMask g.srcs, target := s.me.src a,
                           word := s.me.src b, status := none }
      finish { s.bump with mboxes := s.mboxes ++ [m] } s.cur 0 (fun x => (x.setBusy d.toNat).hold (.mbox m.id) (sMask g.srcs))
        (.fallOwing (.mbox m.id)))

/-- MBOX_RECV: parks while the mailbox is empty, then takes the oldest word (R364, R365). -/
def execMboxRecv (d : BitVec 5) (s : State) : Host.Outcome State Fault Refusal :=
  .next (gated s (anyGate 0x77 true [] [d.toNat]) fun s =>
    match s.me.mbox with
    | [] => parkFor s s.cur .mailbox 0
    | (w, f) :: rest => finish s s.cur 0 (fun x => { x.setS d.toNat w with mbox := rest, mbFrom := f }) .fall)

/-- A context that waits for a word of its mailbox looks again; one that waits for a fault reply does not (R40, R182). -/
def wakeMail (s : State) (c : Nat) : State :=
  let x := s.ctx c
  if x.park = .mailbox ∧ x.faultWait = none then s.modCtx c Ctx.wake else s

/-- The target's cell is pre-empted (R365): the request has reached it, and every context of it has stopped. (DEDUCED, log 46.) -/
def cellPreempted (s : State) (cell : Nat) : Bool :=
  match launchOf s cell with
  | none => false
  | some l => l.stopping && (ctxsOfCell cell).all fun c => (s.ctx c).stat != .eligible

/-- The arrival of a word at its target: the state and the CODE of the reply (R365). (DEDUCED, log 46.) -/
def mboxDeliver (s : State) (m : MboxMsg) : State × Nat :=
  let t := m.target
  let home := cellOf m.sender
  if fieldN t 17 47 ≠ 0 then (s, 3)
  else if t.getLsbD 16 then
    if fieldN t 4 12 ≠ 0 then (s, 3) else (s.emit (.pilotWord (fieldN t 0 4) (mboxName s m.sender) m.word), 0)
  else if (coveredCells s home).contains (fieldN t 6 10) = false ∨ fieldN t 4 2 = 3 ∨ fieldN t 0 4 > 10 then (s, 3)
  else
    let cell := placeCell s home (fieldN t 6 10)
    let c := 33 * cell + 11 * fieldN t 4 2 + fieldN t 0 4
    if cellPreempted s cell then (s, 4)
    else if (s.ctx c).mbox.length ≥ 4 then (s, 1)
    else (wakeMail (s.modCtx c fun x => { x with mbox := x.mbox ++ [(m.word, mboxName s m.sender)] }) c, 0)


/-- An earlier message between the same two units is still on its way or, where `all`, its reply is: mailbox messages travel in lane 0, each
class in order, and so do `launch` requests of that lane and fault messages to a pilot core (R126, R199). -/
def mboxBehind (s : State) (m : MboxMsg) (all : Bool) : Bool :=
  match m.pilot with
  | some p => pilotBehind s (coreOf m.sender) p m.id 0 all || (!all && faultAhead s (coreOf m.sender) p m.id)
  | none => s.mboxes.any fun e => decide (e.id < m.id) && coreOf e.sender == coreOf m.sender && e.pilot.isNone &&
      e.target.toNat / 16 == m.target.toNat / 16 && (all || e.status.isNone)

/-- MBOX_ARRIVAL: a word reaches its target, after those that its core sent there before (R126, R364, R365). -/
def execMboxArrival (id : Nat) (s : State) : Host.Outcome State Fault Refusal :=
  .next (match s.mboxes.find? (·.id == id) with
    | none => s
    | some m =>
      if m.status.isSome ∨ mboxBehind s m false then s
      else
        let (t, code) := mboxDeliver s m
        flushFaults { t with mboxes := t.mboxes.map fun x => if x.id = id then { x with status := some code } else x })

/-- MBOX_SEND_STATUS: the reply reaches the sender's register, in the order of replies from that unit, and the instruction completes
(R105, R126, R219, R365). -/
def execMboxSendStatus (id : Nat) (s : State) : Host.Outcome State Fault Refusal :=
  .next (match s.mboxes.find? (·.id == id) with
    | none => s
    | some m =>
      match m.status with
      | none => s
      | some code =>
        if mboxBehind s m true then s
        else
          let s := { s with mboxes := s.mboxes.filter (·.id != id) }
          let s := lateDone s m.sender (.mbox m.id) fun x => if x.isBusy m.dest then x.arrive m.dest (.ofNat 64 (code * 2 ^ 60)) else x
          entryFrees s (coreOf m.sender))

/-! ### Translation invalidation (R34, R366) -/

/-- A TLB entry of a process whose page meets lo to hi - 1. -/
def TlbEnt.meets (e : TlbEnt) (vf asid lo hi : Nat) : Bool :=
  let n := 2 ^ pageBits e.level
  e.vf == vf && e.asid == asid && decide (lo < hi ∧ e.vpn * n < hi ∧ lo < e.vpn * n + n)

/-- The cells that the launch of a cell covers, as they are now placed. -/
def launchPlaces (s : State) (cell : Nat) : List Nat := (coveredCells s cell).map (placeCell s cell)

/-- An access of those cells may have been translated by a covered entry and is not yet performed: its 512 MiB region meets
the range (R34). (DEDUCED, log 50.) -/
def accCovered (cells : List Nat) (lo hi : Nat) (a : Acc) : Bool :=
  let n := 2 ^ 29
  let b := a.va.toNat / n * n
  cells.contains (cellOf a.ctx) && a.phase != .performed && decide (a.va.toNat < 0xF0 * 2 ^ 48 ∧ b < hi ∧ lo < b + n)

/-- The waits of R34 have ended: no access that a covered entry translated is still to be performed, a gather's reads among them. -/
def invReady (s : State) (cells : List Nat) (lo hi : Nat) : Bool :=
  decide (hi ≤ lo) || (!(s.accs.any (accCovered cells lo hi)) &&
    !(s.ops.any fun o => cells.contains (cellOf o.ctx) && o.started) &&
    !(cells.any fun n => (s.cell n).pend.any fun p => !p.gather.isEmpty))

/-- The walks in flight in the cluster TLBs of some cells. -/
def walksOf (s : State) (cells : List Nat) : List WalkRec :=
  let clusters := (cells.map clusterOfCell).eraseDups
  s.walks.filter fun w => clusters.contains w.cluster

/-- The results of the walks in flight there will be discarded (R34). -/
def overtake (s : State) (cells : List Nat) : State :=
  let ids := (walksOf s cells).map (·.id)
  { s with walks := s.walks.map fun w => if ids.contains w.id then { w with discard := true } else w }

/-- Drops the covered entries, and the faults that walks found before and that nothing has reported yet (R32, R34). -/
def invalidate (s : State) (cells : List Nat) (vf asid lo hi : Nat) : State :=
  let keep (l : List TlbEnt) : List TlbEnt := l.filter fun e => !e.meets vf asid lo hi
  let clusters := (cells.map clusterOfCell).eraseDups
  let stale (e : Nat × WalkErr) : Bool := decide (lo < hi ∧ e.2.page * 65536 < hi ∧ lo < e.2.page * 65536 + 65536)
  let s := clusters.foldl (fun s g => s.modCluster g fun k => { k with tlb := keep k.tlb, engErrs := k.engErrs.filter (!stale ·) }) s
  let s := cells.foldl (fun s n => (List.range 3).foldl (fun s k =>
    s.modCore (3 * n + k) fun x => { x with itlb := keep x.itlb, dtlb := keep x.dtlb }) s) s
  let s := { s with ops := s.ops.map fun o => if cells.contains (cellOf o.ctx) && !o.kept.isEmpty then { o with kept := keep o.kept } else o }
  let s := cells.foldl (fun s n => if (s.cell n).mq.all (·.kept.isEmpty) then s
    else s.modCell n fun x => { x with mq := x.mq.map fun o => { o with kept := keep o.kept } }) s
  (cells.flatMap ctxsOfCell).foldl (fun s c =>
    if (s.ctx c).walkErr = none then s else s.modCtx c fun x => { x with walkErr := none }) s

/-- A `tlbinv` of the addresses lo to hi - 1: the context keeps its turns until it completes (R366). -/
def tlbinvOp (s : State) (srcs : List Nat) (range : State → Nat × Nat) : State :=
  gated s (anyGate 0x78 true srcs []) fun s =>
    match s.me.block with
    | .tlbinv _ _ _ => s
    | .tlbinvDone => finish s s.cur (sMask srcs) (fun x => { x with block := .none }) .fall
    | _ =>
      let cells := launchPlaces s (cellOf s.cur)
      (overtake s cells).modMe fun x =>
        { x.consumeArm with block := .tlbinv (range s).1 (range s).2 ((walksOf s cells).map (·.id)) }

/-- TLBINV_PAGE (R366). -/
def execTlbinvPage (a : BitVec 6) (s : State) : Host.Outcome State Fault Refusal :=
  .next (tlbinvOp s [fieldOf a] fun s => ((s.me.src a).toNat, (s.me.src a).toNat + 1))

/-- TLBINV_RANGE: S(b) = 0 covers none (R366). -/
def execTlbinvRange (a b : BitVec 6) (s : State) : Host.Outcome State Fault Refusal :=
  .next (tlbinvOp s [fieldOf a, fieldOf b] fun s => ((s.me.src a).toNat, (s.me.src a).toNat + (s.me.src b).toNat))

/-- TLBINV_ALL (R366). -/
def execTlbinvAll (s : State) : Host.Outcome State Fault Refusal := .next (tlbinvOp s [] fun _ => (0, 2 ^ 64))

/-- TLBINV_COMPLETE: the promises of R34 hold, and the context goes on at its next turn. -/
def execTlbinvComplete (c : Nat) (s : State) : Host.Outcome State Fault Refusal :=
  .next (match (s.ctx c).block with
    | .tlbinv lo hi ws =>
      let cells := launchPlaces s (cellOf c)
      if invReady s cells lo hi = false ∨ s.walks.any (fun w => ws.contains w.id) then s
      else
        let root := (s.cell (cellOf c)).ptRoot
        (invalidate s cells (ptVf root) (ptAsid root) lo hi).modCtx c fun x => { x with block := .tlbinvDone }
    | _ => s)

/-! ### Way conversion (R59 to R62, R367) -/

/-- The first byte of converted way n in a cluster's scratchpad (R21, R59). -/
def wayBase (n : Nat) : Nat := 0x400000 + n * 0x40000

/-- The bytes of the ways lo to hi - 1 become 0. -/
def clearWays (s : State) (g lo hi : Nat) : State :=
  s.modCluster g fun k =>
    { k with spad := k.spad.filter fun e => !(decide (wayBase lo ≤ e.1 ∧ e.1 < wayBase hi)),
             spoison := k.spoison.filter fun p => !(decide (wayBase lo ≤ p ∧ p < wayBase hi)) }

/-- A request starts: one for the present CONV completes at once; one that lowers it takes effect at once (R60 to R62). -/
def startCfg (s : State) (g c n : Nat) : State :=
  let old := (s.cluster g).conv
  let s := s.modCtx c Ctx.wake
  if n = old then s.modCtx c fun x => { x with block := .cachecfgDone old }
  else
    let s := s.modCluster g fun k => { k with busy := true, cfgNew := n, cfgOld := old, cfgCtx := some c, conv := min old n }
    s.modCtx c fun x => { x with block := .cachecfg old }

/-- Requests that wait start in arrival order (R62). -/
def nextCfg (g : Nat) : List (Nat × Nat) → State → State
  | [], s => s.modCluster g fun k => { k with cfgWait := [] }
  | (c, n) :: r, s =>
    let s := startCfg s g c n
    if (s.cluster g).busy then s.modCluster g fun k => { k with cfgWait := r } else nextCfg g r s

/-- The launch covers all 16 cells of the issuing cell's cluster (R367). -/
def coversWhole (s : State) (cell : Nat) : Bool :=
  let n := (s.cell cell).cellNo / 16 * 16
  (List.range 16).all fun i => (coveredCells s cell).contains (n + i)

/-- CACHECFG (R367). -/
def execCachecfg (d : BitVec 5) (a : BitVec 6) (s : State) : Host.Outcome State Fault Refusal :=
  let g := anyGate 0x79 true [fieldOf a] [d.toNat]
  .next (gated s g fun s =>
    let n := (s.me.src a).toNat
    let k := clusterOfCell (cellOf s.cur)
    match s.me.block with
    | .cachecfg _ => s
    | .cachecfgDone old =>
      finish s s.cur (sMask g.srcs) (fun x => { x.setS d.toNat (.ofNat 64 old) with block := .none }) .fall
    | _ =>
      if n > 16 ∨ coversWhole s (cellOf s.cur) = false then trapIssued s s.cur tcSysArg 0 0
      else if (s.cluster k).busy then
        parkFor (s.modCluster k fun x => { x with cfgWait := x.cfgWait ++ [(s.cur, n)] }) s.cur .wayConversion 0
      else startCfg (s.modMe Ctx.consumeArm) k s.cur n)

/-- A bank still has an access that it accepted beyond the region (R61); of an engine's own accesses to the converted banks, any. -/
def waysBusy (s : State) (g top : Nat) : Bool :=
  (s.cluster g).banks.any (fun b => (b.2.forfeit ++ b.2.present).any (fun r => decide (top ≤ r.phys)) ||
      (decide (64 ≤ b.1) && b.2.engine.any fun i => !s.accs.any fun a => a.id == i)) ||
    s.accs.any fun a => match a.loc with
      | .spad h p => h == g && decide (top ≤ p)
      | _ => false

/-- The lines of a slice in its ways from n up, which a conversion takes out of the cache: written back when dirty, and dropped (R60). -/
def emptyWays (s : State) (g n : Nat) : State := dropLines s fun _ l => l.slice == g && decide (n ≤ l.way)

/-- A line stands in those ways. -/
def waysHeld (s : State) (g n : Nat) : Bool := s.mem.slines.any fun e => e.2.slice == g && decide (n ≤ e.2.way)

/-- CACHECFG_COMPLETE: raised ways are emptied, zeroed and join the scratchpad; lowered ways are discarded (R60, R61). A fill is one step,
so none stands half done in a way (DEDUCED, log 51). -/
def execCachecfgComplete (cluster : Nat) (s : State) : Host.Outcome State Fault Refusal :=
  .next (
    let k := s.cluster cluster
    match k.cfgCtx with
    | none => s
    | some c =>
      match (s.ctx c).block with
      | .cachecfg old =>
        if k.cfgNew < old ∧ waysBusy s cluster (wayBase k.cfgNew) then s
        else
          let s := if old < k.cfgNew then emptyWays s cluster (16 - k.cfgNew) else s
          if old < k.cfgNew ∧ waysHeld s cluster (16 - k.cfgNew) then s
          else
            let s := clearWays s cluster (min old k.cfgNew) (max old k.cfgNew)
            let by_ := if k.cfgNew = 0 then none else (s.cell (cellOf c)).launch
            let s := s.modCluster cluster fun x => { x with conv := k.cfgNew, convBy := by_, busy := false, cfgCtx := none }
            let s := s.modCtx c fun x => { x with block := .cachecfgDone old }
            nextCfg cluster k.cfgWait s
      | _ => s)

end Sys2Proof.Machine
end

