-- ==== Sys2Proof/Machine/Launch.lean ====
section
/-! DEFINITION. Launches (R183 to R190, R202, R280, R368, R383, R408 to R410): records and their checks, acceptance, WAKE,
the end of a cell's part, and completion reports. -/

namespace Sys2Proof.Machine

/-! ### The launch record (R183 to R185) -/

/-- Word i of a record. -/
def recWord (r : List Word) (i : Nat) : Word := r.getD i 0

/-- NSTAGE. -/
def recStages (r : List Word) : Nat := fieldN (recWord r 5) 32 5

/-- SBi for i from 0 to 15 (R183, R184). -/
def recSb (r : List Word) (i : Nat) : Nat :=
  if i = 0 then 0
  else if i ≤ 6 then fieldN (recWord r 3) (10 * (i - 1)) 10
  else if i ≤ 12 then fieldN (recWord r 4) (10 * (i - 7)) 10
  else fieldN (recWord r 5) (10 * (i - 13)) 10

/-- The covered cells in ascending order (R184). -/
def recCells (r : List Word) : List Nat :=
  let w := recWord r 2
  (List.range 1024).filter fun n => w.getLsbD (48 + n / 256) && w.getLsbD (32 + n / 16 % 16) && w.getLsbD (16 + n % 16)

/-- The entry of a core's context 0, as a word offset (R183). -/
def recEntry (r : List Word) (k : CoreKind) : Nat :=
  match k with
  | .a => fieldN (recWord r 0) 32 32
  | .c => fieldN (recWord r 0) 0 32
  | .m => fieldN (recWord r 1) 32 32

/-- DET. -/
def recDet (r : List Word) : Bool := (recWord r 1).getLsbD 0

/-- A reserved field of the record is not 0 (R185, item 1). -/
def recReserved (r : List Word) : Bool :=
  fieldN (recWord r 1) 1 31 != 0 || fieldN (recWord r 2) 52 12 != 0 || fieldN (recWord r 2) 0 16 != 0 ||
    fieldN (recWord r 3) 60 4 != 0 || fieldN (recWord r 4) 60 4 != 0 || fieldN (recWord r 5) 37 27 != 0 ||
    fieldN (recWord r 5) 30 2 != 0

/-- The first item of R185 that a record fails, 1 to 7; 0 when the pilot accepts it. -/
def recWhy (s : State) (p : Proc) (r : List Word) : Nat :=
  let w := recWord r 2
  let n := recStages r
  let sbs := (List.range n).map (recSb r)
  let cells := recCells r
  if recReserved r then 1
  else if fieldN w 48 4 = 0 ∨ fieldN w 32 16 = 0 ∨ fieldN w 16 16 = 0 then 2
  else if n = 0 ∨ n > 16 then 3
  else if (sbs.zip (sbs.drop 1)).any (fun e => decide (e.2 ≤ e.1)) then 4
  else if n > 1 ∧ recSb r (n - 1) ≥ cells.length then 5
  else if [CoreKind.a, .c, .m].any (fun k => decide (4 * recEntry r k ≥ p.codeSize)) then 6
  else if cells.any (fun c => (s.cluster (clusterOfCell c)).fenced) then 7
  else 0

/-- LPOS of rank `rank` (R184, R189). -/
def lposWord (r : List Word) (ncell rank : Nat) : Word :=
  let n := recStages r
  let stage := ((List.range n).filter fun i => decide (recSb r i ≤ rank)).length - 1
  let top := if stage + 1 = n then ncell else recSb r (stage + 1)
  .ofNat 64 (ncell * 2 ^ 48 + rank * 2 ^ 38 + n * 2 ^ 33 + stage * 2 ^ 29 + (rank - recSb r stage) * 2 ^ 19
    + (top - recSb r stage) * 2 ^ 8)

/-! ### Acceptance (R280, R383, R409) -/

/-- A process. -/
def State.proc (s : State) (p : Nat) : Option Proc := Map.find s.host.procs p

/-- A launch queue of a function. -/
def State.queue (s : State) (vf q : Nat) : Queue := Map.at s.host.queues (vf * 256 + q) Queue.reset

/-- Puts a queue back. -/
def State.setQueue (s : State) (vf q : Nat) (x : Queue) : State :=
  s.modHost fun h => { h with queues := Map.put h.queues (vf * 256 + q) x }

/-- Puts a launch back. -/
def State.setLaunch (s : State) (l : Launch) : State :=
  s.modHost fun h => { h with launches := Map.put h.launches l.id l }

/-- Blocks of memory that lie apart from one another, and from others that are in use. -/
def blocksFree (held new : List (Nat × Nat)) : Bool :=
  let apart (a b : Nat × Nat) : Bool := decide (a.1 + a.2 ≤ b.1 ∨ b.1 + b.2 ≤ a.1)
  decide (new.Pairwise fun a b => apart a b = true) && new.all fun a => held.all (apart a)

/-- The memory in use: what the loader has used for every process, and the manifest copies of the launches (R382, R383). -/
def heldBlocks (s : State) : List (Nat × Nat) :=
  (s.host.procs.flatMap fun e => e.2.held) ++ s.host.launches.map fun e => (paAddr e.2.man, 65536)

/-- Where the manifest copy of a new launch is placed: the area that the loader set aside for the process, and while another launch of it has
that one, the first 64 KiB after a block in use that are HBM in no use (R383). (DESIGN CHOICE, log 56.) -/
def copyPlace (s : State) (proc : Nat) (p : Proc) : Nat :=
  let held := heldBlocks s
  let base := p.manCopy - paAddr p.manCopy
  let free (a : Nat) : Bool := isHbm s (paLocal a + 65535) && blocksFree held [(paAddr a, 65536)]
  if (s.host.launches.any fun e => e.2.proc == proc && e.2.man == p.manCopy) = false then p.manCopy
  else ((held.map fun b => base + (b.1 + b.2 + 65535) / 65536 * 65536).find? free).getD p.manCopy

/-- The pilot core copies the process manifest for a launch (R383). Which class its writes belong to is not stated: they are writes of its
firmware, as its other writes are (DESIGN CHOICE, log 100). -/
def copyManifest (s : State) (p : Proc) (dst : Nat) : State :=
  (List.range (8 * p.manCount)).foldl (fun s i =>
    let (s, w) := pilotRead s (p.manPa + 8 * i)
    pilotWrite s (dst + 8 * i) w (6, 0)) s

/-- The DETERMINISTIC snapshot of a logbook image: the slots that are not 0 (R280). -/
def takeSnap (s : State) (p : Proc) : State × Map Word :=
  (List.range p.lbSlots).foldl (fun (s, l) n =>
    let (s, w) := pilotRead s (p.logPa + 8 * n)
    (s, if w = 0 then l else l ++ [(n, w)])) (s, [])

/-- The pilot core accepts a record: it joins its queue under the queue's next CSEQ (R368, R396, R409). `k` is what its release brings to the
control contexts (R188). (DEDUCED, log 53.) -/
def acceptRecord (s : State) (vf q proc : Nat) (p : Proc) (r : List Word) (k : Clock) : State :=
  let x := s.queue vf q
  let man := copyPlace s proc p
  let (s, snap) := if recDet r then takeSnap s p else (s, [])
  let l : Launch :=
    { id := s.fresh, vf := vf, q := q, proc := proc, record := r, cseq := (x.cseq + 1) % 2 ^ 32, man := man, stat := .accepted,
      snap := snap, cells := recCells r, ended := [], orphan := 0, fail := none,
      hwfault := false, place := [], reports := true, stopping := false, start := 0, allStop := false,
      clock := k }
  let s := s.bump.setQueue vf q { x with cseq := (x.cseq + 1) % 2 ^ 32, recs := x.recs ++ [l.id] }
  copyManifest (s.setLaunch l) p man

/-! ### Completion reports (R410) -/

/-- Pilot core P(q mod 16) serves queue q; its die (R3, R407). -/
def queueDie (q : Nat) : Nat := q % 16 / 4

/-- Writes a report at ring index RHEAD of the ring at RING and raises the vector (R408, R410). -/
def pushReport (s : State) (vf q : Nat) (w0 w1 w2 : Word) : State :=
  let x := s.queue vf q
  let idx := x.rhead % 2 ^ (fieldN x.qcfg 8 4 + 4)
  let s := s.emit (.report vf q (fieldN x.qcfg 12 52 * 4096 + 32 * idx) [w0, w1, w2, .ofNat 64 (s.ttb (queueDie q))])
  let s := s.setQueue vf q { x with rhead := (x.rhead + 1) % 2 ^ 16 }
  s.emit (.vector vf (q % 32))

/-- The report of a rejected record: STATUS 1, WHY, no CSEQ (R410). -/
def rejectReport (s : State) (vf q why : Nat) (tag : Word) : State :=
  pushReport s vf q tag (.ofNat 64 (2 ^ 60 + why * 2 ^ 56)) 0

/-- The report of a launch that has ended (R410). -/
def endReport (s : State) (l : Launch) : State :=
  let (status, code, fc, cell) : Nat × Nat × Nat × Nat :=
    if l.hwfault then (3, 0, 0, 0)
    else match l.fail with
      | some (code, fc, cell) => (2, code, fc, cell)
      | none => (0, 0, 0, 0)
  pushReport s l.vf l.q (recWord l.record 7)
    (.ofNat 64 (status * 2 ^ 60 + code % 256 * 2 ^ 48 + fc % 256 * 2 ^ 40 + l.cseq))
    (.ofNat 64 (l.orphan % 2 ^ 32 * 2 ^ 32 + cell % 1024))

/-- The cells that a launch covers, as they are placed (R376). -/
def Launch.places (l : Launch) : List Nat := l.cells.map l.placeOf

/-- The number that a launch gives to a cell where it is placed. -/
def Launch.numAt (l : Launch) (p : Nat) : Nat := (l.cells.find? fun n => l.placeOf n == p).getD p

/-- The cell numbers of a launch whose part runs now. -/
def runningCells (s : State) (l : Launch) : List Nat := l.cells.filter fun n => (s.cell (l.placeOf n)).launch == some l.id

/-- The contexts of cells in which no launch runs are no longer HALTED (R176). -/
def freeCtxs (s : State) (cells : List Nat) : State :=
  ((cells.filter fun n => (s.cell n).launch.isNone).flatMap ctxsOfCell).foldl (fun s c =>
    if (s.ctx c).stat = .halted then s.modCtx c fun x => { x with stat := .free } else s) s

/-- The log that a function's launches replay is unloaded with the last of them (R404). -/
def endReplay (s : State) (vf : Nat) : State :=
  if s.host.launches.any fun e => e.2.vf == vf && e.2.stat != .ended then s
  else s.modHost fun h => { h with replayed := h.replayed.filter (· != vf), replay := h.replay.filter (·.vf != vf) }

/-- A launch ends: it is reported, which tells every host party of its function what its contexts have done; its contexts are FREE, and
nothing of it is kept (R135, R176, R190). -/
def endLaunch (s : State) (l : Launch) : State :=
  let s := if l.reports then partyLearns s (reportName l.vf) (joinClock l.clock [(launchName l.id, s.fresh)]) else s
  let s := freeCtxs (if l.reports then endReport s l else s) l.places
  endReplay (s.modHost fun h => { h with launches := Map.drop h.launches l.id, images := Map.drop h.images l.id }) l.vf

/-! ### LAUNCH and its token (R368) -/

/-- LAUNCH: a release, a token, and a request to the pilot core (R368). -/
def execLaunch (d : BitVec 5) (a : BitVec 6) (s : State) : Host.Outcome State Fault Refusal :=
  let g := anyGate 0x7A true [fieldOf a] [d.toNat]
  .next (gated s g fun s =>
    let va := s.me.src a
    if va.toNat % 64 ≠ 0 then trapIssued s s.cur tcMisalign va 0
    else releaseThen s s.cur fun s => withEntry s fun s =>
      let id := s.fresh
      let r : LaunchReq := { id := id, ctx := s.cur, va := va, launch := (s.cell (cellOf s.cur)).launch.getD 0, status := none,
                              clock := releaseClock s s.cur }
      finishToken { s.bump with reqs := s.reqs ++ [r] } (sMask g.srcs) d id)

/-- The status of a `launch` (R368). -/
def launchStatus (code why cause : Nat) : Word := .ofNat 64 (code * 2 ^ 60 + why * 2 ^ 56 + cause % 256 * 2 ^ 48)

/-- The pilot core reads the record at its homes, checks it and accepts or rejects it: the state and the status (R368). `x` is what the
record's address names. -/
def takeRecord (s : State) (r : LaunchReq) (x : Xlat) : State × Word :=
  match Map.find s.host.launches r.launch with
  | none => (s, launchStatus 3 8 0)
  | some l =>
    match s.proc l.proc with
    | none => (s, launchStatus 3 8 0)
    | some p =>
      let s := touchHome s x.loc x.pl (clusterOfCell (cellOf r.ctx)) x.uc
      let locs := lineLocs (x.loc.key / 64)
      if locs.any (poisoned s) then (s, launchStatus 4 0 0)
      else
        let words := locs.map (readLoc s)
        if (s.queue l.vf l.q).recs.length ≥ 16 then (s, launchStatus 3 8 0)
        else
          let why := recWhy s p words
          if why ≠ 0 then (s, launchStatus 3 why 0)
          else (acceptRecord s l.vf l.q l.proc p words r.clock, launchStatus 0 0 0)

/-- Puts the status of a request back. -/
def putReq (s : State) (id : Nat) (st : Word) : State :=
  { s with reqs := s.reqs.map fun r => if r.id = id then { r with status := some st } else r }

/-- The pilot core takes a request, once the walk of its address has ended (R32, R368). -/
def takeLaunch (s : State) (r : LaunchReq) : State :=
  match engAccess s r.ctx r.id .read r.va with
  | (s, .miss) => s
  | (s, .fault f) => putReq (dropEngErrs s r.ctx r.id) r.id (launchStatus 2 0 f.cause)
  | (s, .ok x) => if locBusy s x.loc then s else (let (t, st) := takeRecord s r x; putReq t r.id st)

/-- An earlier request of the same core to the same pilot core in the same lane comes first, and so does its reply (R126). -/
def reqBehind (s : State) (r : LaunchReq) (all : Bool) : Bool :=
  match r.pilot s with
  | none => false
  | some p => pilotBehind s (coreOf r.ctx) p r.id (lane r.va.toNat) all ||
      (!all && lane r.va.toNat == 0 && faultAhead s (coreOf r.ctx) p r.id)

/-- LAUNCH_TOKEN_COMPLETE: the pilot core takes the request; then the status reaches the token; both in the order of their lane (R126, R368). -/
def execLaunchTokenComplete (id : Nat) (s : State) : Host.Outcome State Fault Refusal :=
  .next (match s.reqs.find? (·.id == id) with
    | none => s
    | some r =>
      match r.status with
      | none => if reqBehind s r false then s else flushFaults (takeLaunch s r)
      | some st =>
        if reqBehind s r true then s
        else
        let s := { s with reqs := s.reqs.filter (·.id != id) }
        entryFrees (wakeRead (s.modCtx r.ctx fun x => x.completeToken id st) r.ctx) (coreOf r.ctx))

/-! ### Host records and starts (R186, R187, R409, R411) -/

/-- The pilot core takes a slot's 64 bytes as a record (R409). A window that is bound to no process has nothing to launch. -/
def takeSlot (s : State) (vf q : Nat) : State :=
  let x := s.queue vf q
  let words := x.slot.toList
  match x.proc with
  | none => s
  | some n => match s.proc n with
    | none => s
    | some p =>
      if x.recs.length ≥ 16 then s.setQueue vf q { x with dropped := satN (x.dropped + 1) 65535 }
      else
        let why := recWhy s p words
        if why ≠ 0 then rejectReport s vf q why (recWord words 7) else acceptRecord s vf q n p words (partyRelease s vf q)

/-- HOST_LAUNCH_RECORD: the host writes word 7 of a record slot, and the pilot core takes the slot (R409). -/
def execHostLaunchRecord (vf q : Nat) (tag : Word) (s : State) : Host.Outcome State Fault Refusal :=
  let x := s.queue vf q
  .next (takeSlot (s.setQueue vf q { x with slot := x.slot.setIfInBounds 7 tag }) vf q)

/-- A cluster of a launch runs a launch of another process (R187). -/
def clustersTaken (s : State) (l : Launch) : Bool :=
  let mine := l.places.map clusterOfCell
  s.host.launches.any fun e =>
    e.2.stat == .running && e.2.proc != l.proc && e.2.places.any fun n => mine.contains (clusterOfCell n)

/-- The queue whose record starts next for a process: the lowest PRIO, and among equals the next after the last of that PRIO (R411). (DEDUCED,
log 55.) -/
def nextQueue (s : State) (proc : Nat) : Option Nat :=
  let qs := s.host.queues.filter fun e => e.2.proc == some proc && !e.2.recs.isEmpty
  let prio := (qs.map fun e => fieldN e.2.qcfg 0 3).foldl min 7
  let l := (qs.filter fun e => fieldN e.2.qcfg 0 3 == prio).map (·.1)
  match Map.find s.host.lastQ (proc * 8 + prio) with
  | none => l.head?
  | some q => match l.find? fun k => decide (q < k) with
    | some k => some k
    | none => l.head?

/-- A kernel has begun and not ended. -/
def midKernel (s : State) : Bool := s.host.launches.any fun e => e.2.stat == .running || e.2.stat == .preempted

/-- What the start of a launch finds: between kernels firmware's copies may have left new words in chart store (R64, R341; log 34). -/
def beforeStart (s : State) : State :=
  let idle := !midKernel s
  s.bump.modMem fun m => { m with chart := if idle then s.fresh else m.chart }

/-- The request reaches a launch's cells. Each ELIGIBLE context may just then be inside a tile instruction, which stops at a unit: a free
choice (R214; DESIGN CHOICE, log 40). -/
def requestStop (s : State) (l : Launch) : State :=
  if l.stopping then s
  else
    let cs := ((runningCells s l).map l.placeOf).flatMap ctxsOfCell
    let s := cs.foldl (fun s c => if (s.ctx c).stat = .eligible then
      s.bump.modCtx c fun x => { x with midStop := Config.stopUnit s.fresh % 2 == 1 } else s) s
    s.setLaunch { l with stopping := true }

/-! ### Arbitration (R411) -/

/-- The slice class of a function: 0 URGENT, 1 STANDARD, 2 BACKGROUND; STANDARD where the hypervisor has named none (DESIGN CHOICE, log 55). -/
def sliceClass (s : State) (vf : Nat) : Nat := Map.at s.host.classes vf 1

/-- The cells that the running launches of a process cover. -/
def procCellCount (s : State) (proc : Nat) : Nat :=
  ((s.host.launches.filter fun e => e.2.stat == .running && e.2.proc == proc).map fun e => e.2.cells.length).sum

/-- Launch a is to start before launch b where both wait for cells of one cluster: a higher class; in one class the function that has had
fewer slices for its share; in one function the process that has fewer cells for its weight (R411; DEDUCED, log 55). -/
def outranks (s : State) (a b : Launch) : Bool :=
  let share (v : Nat) : Nat := max 1 (Map.at s.host.shares v 1)
  let run (v : Nat) : Nat := Map.at s.host.sliceRun v 0
  let weight (p : Nat) : Nat := max 1 (Map.at s.host.weights p 1)
  a.id != b.id && (a.places.any fun n => (b.places.map clusterOfCell).contains (clusterOfCell n)) &&
    (decide (sliceClass s a.vf < sliceClass s b.vf) || sliceClass s a.vf == sliceClass s b.vf &&
      (if a.vf = b.vf then a.proc != b.proc && decide (procCellCount s a.proc * weight b.proc < procCellCount s b.proc * weight a.proc)
       else decide (run a.vf * share b.vf < run b.vf * share a.vf)))

/-- The oldest records of the queues, which wait to start. -/
def waitingHeads (s : State) : List Launch :=
  s.host.queues.filterMap fun e => e.2.recs.head?.bind fun id => Map.find s.host.launches id

/-- A launch that waits for clusters, to start or to go on after a pre-emption, has its turn before l (R411). -/
def outranked (s : State) (l : Launch) : Bool :=
  (waitingHeads s).any (outranks s · l) || s.host.launches.any fun e => e.2.stat == .preempted && outranks s e.2 l

/-- The running launches of other processes that keep a launch from its clusters (R187). -/
def blockers (s : State) (l : Launch) : List Launch :=
  let mine := l.places.map clusterOfCell
  (s.host.launches.filter fun e => e.2.stat == .running && e.2.proc != l.proc && e.2.places.any fun n => mine.contains (clusterOfCell n)).map (·.2)

/-- Where every launch in the way is of a lower class, they are pre-empted (R411). -/
def preemptLower (s : State) (l : Launch) : State :=
  let b := blockers s l
  if b.all fun e => decide (sliceClass s l.vf < sliceClass s e.vf) then b.foldl requestStop s else s

/-- LAUNCH_RECORD_START: the pilot core floods WAKE for a queue's oldest accepted record (R186, R408). It waits for a cluster
that another process uses (R187), whose launches it pre-empts where they are of a lower class, or that is being fenced (R414), for its turn
among the functions, processes and queues (R411), while a die is too hot (R415), and while a failed unit is not recovered (R378). (DEDUCED, log 54.) -/
def execLaunchRecordStart (vf q : Nat) (s : State) : Host.Outcome State Fault Refusal :=
  let x := s.queue vf q
  .next (match x.recs with
    | [] => s
    | id :: rest =>
      match Map.find s.host.launches id with
      | none => s
      | some l =>
        if s.dev.hot ≠ [] ∨ s.dev.failed ≠ [] ∨ nextQueue s l.proc ≠ some (vf * 256 + q) ∨ outranked s l ∨
            l.places.any (fun n => (s.cluster (clusterOfCell n)).fenced || (s.cluster (clusterOfCell n)).fencing) then s
        else if clustersTaken s l then preemptLower s l
        else
          let s := (beforeStart s).setQueue vf q { x with recs := rest }
          let s := s.setLaunch { l with stat := .running, start := s.fresh }
          let s := s.modHost fun h => { h with lastQ := Map.put h.lastQ (l.proc * 8 + fieldN x.qcfg 0 3) (vf * 256 + q) }
          l.cells.foldl (fun s n => s.modCell n fun c => { c with wakes := c.wakes ++ [id] }) s)

/-! ### WAKE (R186, R187, R202) -/

/-- No older value of a word of a cluster's scratchpad is known: what was written there belongs to another launch (R138, R152). -/
def dropSpadHist (s : State) (g : Nat) : State :=
  let other (a : Nat) : Bool := match locOfKey a with
    | .spad h _ => h != g
    | _ => true
  s.modMem fun m => { m with hist := m.hist.filter fun e => other e.1, rels := m.rels.filter fun e => other e.1 }

/-- The bank region of a cluster becomes zero (R187). -/
def zeroBanks (s : State) (g : Nat) : State :=
  (dropSpadHist s g).modCluster g fun k =>
    { k with spad := k.spad.filter (fun e => decide (0x400000 ≤ e.1)), spoison := k.spoison.filter (fun p => decide (0x400000 ≤ p)),
             waiters := [], counted := [], barClk := [] }

/-- The first WAKE of a launch reaches a cluster. -/
def firstWake (s : State) (l : Launch) (g : Nat) : Bool :=
  !((List.range 16).any fun i => (s.cell (16 * g + i)).launch == some l.id) && !(l.ended.any fun n => l.placeOf n / 16 == g)

/-- A cluster meets a launch of a process: its bank region is zeroed when the last launch was another process's; the launch's first WAKE
sets EPOCH to 0, and the next queue service of each bank goes to the forfeit queue (R53, R187). -/
def meetCluster (s : State) (l : Launch) (g vf asid : Nat) : State :=
  let s := if (s.cluster g).lastVf = some (vf, asid) then s else zeroBanks s g
  let first := firstWake s l g
  s.modCluster g fun k =>
    { k with lastVf := some (vf, asid), epoch := if first then 0 else k.epoch,
             banks := if first then k.banks.map fun b => (b.1, { b.2 with servedForfeit := false }) else k.banks }

/-- A cell's registers and shared state at launch (R22, R186, R189, R202, R278); its counters of messages, tokens and swaps
and its arbitration weights go on. -/
def wakeCell (x : CellSt) (l : Launch) (p : Proc) (n rank : Nat) : CellSt :=
  { CellSt.reset with
    faultSeq := x.faultSeq, tokSeq := x.tokSeq, parkSeq := x.parkSeq, cpWgt := x.cpWgt, cellNo := n,
    lpos := lposWord l.record l.cells.length rank, ptRoot := p.ptRoot, winLen := .ofNat 64 (p.lbSlots * 2 ^ 32 + p.manCount),
    logPa := p.logPa, manPa := l.man, codeBase := p.codeBase, codeSize := p.codeSize, lbDet := recDet l.record,
    launch := some l.id, last := some l.id, wakes := x.wakes.drop 1 }

/-- A core at launch: caches empty, RESV 0, the barrel at its start (R49, R179, R186, R196). -/
def wakeCore (k : CoreSt) : CoreSt :=
  { CoreSt.reset with cyc := k.cyc, itlb := k.itlb, dtlb := k.dtlb, saw := k.saw }

/-- The three control contexts begin at their entries, as though after an acquire that synchronises with the record's release; every helper is
FREE (R178, R186, R188). -/
def wakeCtxs (s : State) (cell : Nat) (r : List Word) (k : Clock) : State :=
  let start := k
  let s := (ctxsOfCell cell).foldl (fun s c => s.setCtx c Ctx.reset) s
  [CoreKind.a, .c, .m].foldl (fun s k =>
    let c := 33 * cell + 11 * k.code
    learn (beginCtx s c (codeAddr s c (recEntry r k)) [recWord r 6] none) c start) s

/-- A launch of the process that started earlier and covers the cell has not ended (R186, R190). -/
def earlierLaunch (s : State) (l : Launch) (cell : Nat) : Bool :=
  s.host.launches.any fun e => e.2.proc == l.proc && decide (e.2.start < l.start) && (e.2.stat == .running || e.2.stat == .preempted) &&
    e.2.places.contains cell

/-- WAKE: a covered cell prepares itself and starts, once its previous launch has ended (R186). CELLNO and the rank are those of the
launch's numbering (R376). -/
def execWake (cell : Nat) (s : State) : Host.Outcome State Fault Refusal :=
  let x := s.cell cell
  .next (match x.launch, x.wakes with
    | none, id :: _ =>
      (match Map.find s.host.launches id with
       | none => s.setCell cell { x with wakes := x.wakes.drop 1 }
       | some l => match s.proc l.proc with
         | none => s
         | some p =>
           if earlierLaunch s l cell then s
           else
             let n := l.numAt cell
             let s := meetCluster s l (clusterOfCell cell) (ptVf p.ptRoot) (ptAsid p.ptRoot)
             let s := s.setCell cell (wakeCell x l p n (l.cells.findIdx (· == n)))
             let s := (List.range 3).foldl (fun s k => s.modCore (3 * cell + k) wakeCore) s
             wakeCtxs s cell l.record (joinClock l.clock [(0, s.fresh)]))
    | _, _ => s)

/-! ### The end of a cell's part (R187, R190) -/

/-- A cell's part may end: no context runs or waits, none is only stopped, nothing that it issued is in flight, a division among it, and every
event has met its logbook entry (R190, R276, R279). (DEDUCED, log 57.) -/
def partDone (s : State) (cell : Nat) : Bool :=
  let mine (c : Nat) : Bool := cellOf c == cell
  ((ctxsOfCell cell).all fun c => ((s.ctx c).stat == .free || (s.ctx c).stat == .halted) && !(s.ctx c).bkHit && !(s.ctx c).held &&
      (s.ctx c).divs.isEmpty && (s.ctx c).exits.isEmpty) &&
    !(s.ops.any fun o => mine o.ctx) && (s.cell cell).mq.isEmpty && (s.cell cell).pend.isEmpty &&
    !(s.accs.any fun a => mine a.ctx) && !(s.mboxes.any fun m => mine m.sender) && !(s.reqs.any fun r => mine r.ctx) &&
    !(s.posts.any fun p => p.acc.any mine) && logSettled s cell && (s.cell cell).late.isEmpty

/-- The other cells of a launch in a cluster have ended their parts. -/
def lastInCluster (l : Launch) (cell : Nat) : Bool :=
  (l.cells.zip l.places).all fun e => e.2 == cell || clusterOfCell e.2 != clusterOfCell cell || l.ended.contains e.1

/-- Every converted way of a cluster returns to the cache (R61, R63, R187). -/
def returnWays (s : State) (g : Nat) : State := (clearWays s g 0 16).modCluster g fun k => { k with conv := 0, convBy := none }

/-- CELL_PART_END: log entries are merged, tasks left are discarded and counted, the last cell of a cluster returns every converted way of it,
and the last cell of the launch ends it (R187, R190, R276, R410). CONV is 0 at once, accesses already accepted end first (R61), and a `cachecfg`
that another launch of the process runs there is awaited (DEDUCED, log 51). What instructions recorded after the last turn reaches the logbook
cache before (R275). -/
def execCellPartEnd (cell : Nat) (s : State) : Host.Outcome State Fault Refusal :=
  .next (match launchOf s cell with
    | none => s
    | some l =>
      let g := clusterOfCell cell
      let last := lastInCluster l cell
      if (s.cell cell).late ≠ [] ∧ ((ctxsOfCell cell).all fun c => (s.ctx c).stat != .eligible) then flushLate s cell none
      else if partDone s cell = false ∨ (last ∧ (s.cluster g).busy) then s
      else if last ∧ (s.cluster g).conv ≠ 0 ∧ waysBusy s g (wayBase 0) then s.modCluster g fun k => { k with conv := 0 }
      else if last ∧ waysBusy s g (wayBase 0) then s
      else
        let s := mergeAll s cell
        let orphans := (s.cell cell).deque.length
        let n := (s.cell cell).cellNo
        let held : List Clock := (List.range 3).flatMap fun k => (s.core (3 * cell + k)).knows.map fun e => e.2
        let known : Clock := held.foldl joinClock l.clock
        let s := s.modCell cell fun x => { x with deque := [], log := [], launch := none }
        let s := if last then returnWays s g else s
        let l : Launch := { l with ended := n :: l.ended, orphan := l.orphan + orphans, clock := known }
        if l.ended.length ≥ l.cells.length then endLaunch s l else s.setLaunch l)

end Sys2Proof.Machine
end

