-- ==== Sys2Proof/Machine/HostPort.lean ====
section
/-! DEFINITION. What the host and the fabric manager do to memory and registers: apertures (R130 to R134), CXL extents (R70,
R71), registers that only firmware or the host writes (R16, R35, R39, R56, R237, R344, R400, R402 to R404, R407 to R411,
R413), MARKs and their snapshots (R398), and profiling sessions (R405, R406). -/

namespace Sys2Proof.Machine

/-! ### Apertures (R130 to R134) -/

/-- The physical address of a byte of a function's apertures, with its key: none when it addresses no memory (R130, R134,
R407). -/
def hostAddr (s : State) (vf off : Nat) : Option Nat :=
  let key := Map.at s.host.fkey vf 0 % 64
  let g := s.dev.devno * 2 ^ 45 + off
  match stage2 s vf g key with
  | none => none
  | some pa =>
    if off ≥ 2 ^ 44 ∨ isMappable s (paLocal pa) = false ∨ extentOk s (paLocal pa) = false then none
    else some (key * 2 ^ 50 + pa)

/-- The function's error counter grows (R134). (DEDUCED, log 58.) -/
def hostError (s : State) (vf : Nat) : State :=
  s.modHost fun h => { h with errs := Map.put h.errs vf (Map.at h.errs vf 0 + 1) }

/-- The aligned words that `n` bytes from an offset touch. -/
def touched (off n : Nat) : List Nat :=
  if n = 0 then [] else (List.range ((off + n - 1) / 8 + 1 - off / 8)).map fun i => (off / 8 + i) * 8

/-- Every word of a request addresses memory (R134). -/
def hostRange (s : State) (vf off n : Nat) : Bool := (touched off n).all fun a => (hostAddr s vf a).isSome

/-- The word of a request that covers the bytes `off` to `off + bytes.length - 1`: its new bytes and their mask. -/
def hostWord (off : Nat) (bytes : List Byte) (a : Nat) : Word × BitVec 8 :=
  let has (i : Nat) : Bool := decide (off ≤ a + i ∧ a + i < off + bytes.length)
  (.ofNat 64 (leNat ((List.range 8).map fun i => if has i then bytes.getD (a + i - off) 0 else 0)),
   .ofNat 8 (((List.range 8).map fun i => if has i then 2 ^ i else 0).sum))

/-- A host request reaches the home of a word (R57, R131). -/
def hostTouch (s : State) (pa : Nat) : State := plainTouch s pa 0

/-! ### Launch windows (R407 to R409) -/

/-- A register keeps the written bits that a mask names; reserved fields read 0 (R16). -/
def keepBits (v : Word) (l : List (Nat × Nat)) : Word :=
  .ofNat 64 ((l.map fun e => fieldN v e.1 e.2 * 2 ^ e.1).sum)

/-- What QCFG holds of a word written to it (R408). -/
def qcfgOf (v : Word) : Word := keepBits v [(8, 56), (0, 3)]

/-- QSTAT: DROPPED, RHEAD and PEND (R408). -/
def qstat (x : Queue) : Word := .ofNat 64 (x.dropped * 2 ^ 48 + x.rhead * 2 ^ 32 + x.recs.length)

/-- The word at an offset of BAR 0 (R407, R408). -/
def windowWord (s : State) (vf a : Nat) : Word :=
  let x := s.queue vf (a / 4096)
  if a % 4096 = 0x40 then qstat x else if a % 4096 = 0x48 then x.qcfg else 0

/-- Writes bytes of a word of BAR 0 (R408). -/
def windowPut (s : State) (vf a : Nat) (v : Word) (bm : BitVec 8) : State :=
  let q := a / 4096
  let x := s.queue vf q
  let o := a % 4096
  if o < 64 then s.setQueue vf q { x with slot := x.slot.setIfInBounds (o / 8) (mergeBytes (x.slot.getD (o / 8) 0) v bm) }
  else if o = 0x48 then s.setQueue vf q { x with qcfg := qcfgOf (mergeBytes x.qcfg v bm) }
  else s

/-- A write to BAR 0: its bytes are stored, and a window whose byte 0x038 is among them takes its slot as a record (R408, R409). One beyond
the 1 MiB addresses nothing (R134). -/
def windowWrite (s : State) (vf off : Nat) (bytes : List Byte) : State :=
  if off + bytes.length > 2 ^ 20 then hostError s vf
  else
    let s := (touched off bytes.length).foldl (fun s a => let (v, bm) := hostWord off bytes a; windowPut s vf a v bm) s
    ((List.range 256).filter fun q => decide (off ≤ q * 4096 + 0x38 ∧ q * 4096 + 0x38 < off + bytes.length)).foldl (fun s q => takeSlot s vf q) s

/-! ### What the host collects through a pilot core (R398, R406) -/

/-- A profiling counter as it reads back: STALE when FEATMASK hides its event or the device has no such event, SAT when it has saturated
(R406). -/
def counterWord (s : State) (vf block j : Nat) : Word :=
  let k := vf * 2048 + block
  let v := Map.at s.host.counters (k * 8 + j) 0
  let stale := match (Map.at s.host.events k []).getD j (0, 0) with
    | (l, k) => s.featHides vf l k || !((featLeaf l).getLsbD k)
  .ofNat 64 ((if stale then 2 ^ 63 else 0) + (if v = 2 ^ 48 - 1 then 2 ^ 62 else 0) + v % 2 ^ 48)

/-- A block's snapshot set (R398); before the first MARK it holds zeros (DESIGN CHOICE, log 2). -/
def snapOf (s : State) (block : Nat) : Snapshot := (Map.find s.dev.snaps block).getD { seq := 0, ttb := 0, counters := [] }

/-- The word at an offset of what the host reads through a pilot core: 17 the snapshot sets, 128 bytes a block (MARKSEQ, TTB, eight
counters); 18 the counters of the function's session, 64 bytes a block; 19 firmware's own counts (DIVERGE, the function's errors, its trace
ring's DROPPED, then the log rings'). Where these lie is not stated. (DESIGN CHOICE, log 60.) -/
def serviceWord (s : State) (vf ap a : Nat) : Word :=
  if ap = 17 then
    let x := snapOf s (a / 128)
    let i := a % 128 / 8
    if i = 0 then .ofNat 64 x.seq else if i = 1 then .ofNat 64 x.ttb
    else if i < 10 then .ofNat 64 (Map.at x.counters (vf * 8 + i - 2) 0) else 0
  else if ap = 18 then counterWord s vf (a / 64) (a % 64 / 8)
  else
    let ring (r : Option Ring) : Nat := match r with
      | some r => r.dropped
      | none => 0
    .ofNat 64 (if a = 0 then s.host.diverge else if a = 8 then Map.at s.host.errs vf 0
      else if a = 16 then ring (Map.find s.host.trace vf) else ring (Map.find s.host.logs (a / 8 - 3)))

/-- A word of a host write is performed at its home, as the host party's `st.rel` (R131, R132). -/
def hostPut (s : State) (vf ap pa : Nat) (v : Word) (whole : Bool) : State :=
  let s := (engineWrite s (.mem pa) v whole (6, hostName vf ap)).bump
  noteRel s (.mem pa) false (partyRelease s vf ap)

/-- HOST_APERTURE_WRITE: every word is performed at its home; the former owner's copy is revoked, and a whole word clears
poison. One that addresses no memory is dropped and counted (R131, R134). The words of one request are performed in one step, in ascending
order, where R131 lets them be performed in any order and one by one (DESIGN CHOICE, log 99). Aperture 16 stands for BAR 0 (R407). -/
def execHostApertureWrite (vf ap off : Nat) (bytes : List Byte) (s : State) : Host.Outcome State Fault Refusal :=
  .next (if ap = 16 then windowWrite s vf off bytes
    else if hostRange s vf off bytes.length = false then hostError s vf
    else (touched off bytes.length).foldl (fun s a =>
      match hostAddr s vf a with
      | none => s
      | some pa =>
        let (v, bm) := hostWord off bytes a
        let s := hostTouch s pa
        hostPut s vf ap pa (mergeBytes (readMem s pa) v bm) (bm == 255)) s)

/-- The bytes of a word as a host read carries them: those of a poisoned word are open (R134). -/
def hostBytes (s : State) (pa : Nat) : List Byte :=
  if poisoned s (.mem pa) then (List.range 8).map fun i => Config.poisonedByte s.fresh (paAddr pa + i)
  else leBytes 8 (readMem s pa).toNat

/-- HOST_APERTURE_READ: the completion carries the bytes at the homes, marked when a word is poisoned; one that addresses no
memory completes as unsupported (R131, R134). Aperture 16 stands for BAR 0, and those after it for what a pilot core reads for the host (R398,
R406, R407). -/
def execHostApertureRead (vf ap off len : Nat) (s : State) : Host.Outcome State Fault Refusal :=
  .next (if ap ≥ 16 then
      if ap = 16 ∧ off + len > 2 ^ 20 then s.emit (.unsupported vf)
      else
        let ws := (touched off len).map fun a => if ap = 16 then windowWord s vf a else serviceWord s vf ap a
        s.emit (.read vf (((ws.flatMap fun w => leBytes 8 w.toNat).drop (off % 8)).take len) false)
    else if hostRange s vf off len = false then s.emit (.unsupported vf)
    else
      let pas := (touched off len).filterMap (hostAddr s vf)
      let s := pas.foldl hostTouch s
      let bad := pas.any fun pa => poisoned s (.mem pa)
      let data := ((pas.flatMap (hostBytes s)).drop (off % 8)).take len
      let s := if bad then (hostError s vf).bump else s
      let s := partyLearns s (hostName vf ap) (pas.foldl (fun k pa => joinClock k (relNow s (.mem pa))) [])
      s.emit (.read vf data bad))

/-- The step of an AtomicOp (R133). -/
def hostOp : HostAtomic → AmoOp
  | .fetchAdd => .add | .swap => .swap | .cas => .cas

/-- HOST_ATOMICOP: one step at the home on 4 or 8 aligned bytes, in the order of its pilot core's requests, held by a replay log as any
atomic of its function and logged by the slice of the word's line (`homePl`); other sizes, and an address outside memory, complete as unsupported (R133, R134, R403). -/
def execHostAtomicop (vf ap off size : Nat) (op : HostAtomic) (p cmp : Word) (s : State) : Host.Outcome State Fault Refusal :=
  .next (if (size ≠ 4 ∧ size ≠ 8) ∨ off % size ≠ 0 then s.emit (.unsupported vf)
    else match hostAddr s vf (off / 8 * 8) with
    | none => s.emit (.unsupported vf)
    | some pa =>
      let s' := s
      let s := hostTouch s pa
      if replayHolds s vf pa (2 ^ 16 + ap) then s'
      else if poisoned s (.mem pa) then
        ((hostError s vf).emit (.read vf ((hostBytes s pa).drop (off % 8) |>.take size) true)).bump
      else
        let old := readMem s pa
        let o := bitsAt old.toNat (8 * (off % 8)) (8 * size)
        let fails := op == .cas && o != cmp.toNat % 2 ^ (8 * size)
        let (nw, _, _) := (WordOp.amo (hostOp op) size (off % 8) p cmp 0).apply old
        let s := partyLearns s (hostName vf ap) (relNow s (.mem pa))
        let s := if fails then s
          else
            let s := (engineWrite s (.mem pa) nw false (6, hostName vf ap)).bump
            noteRel s (.mem pa) true (partyRelease s vf ap)
        let s := if ordersHere s pa then replayTake (logAtomic s pa (homePl s pa) (2 ^ 16 + ap)) vf pa else s
        s.emit (.atomicOld vf (.ofNat 64 o)))

/-! ### CXL extents (R70, R71) -/

/-- A word address of this device lies in a LOCAL range. -/
def inExtent (s : State) (base len a : Nat) : Bool :=
  a / 2 ^ 45 % 32 == s.dev.devno && decide (base ≤ a % 2 ^ 45 ∧ a % 2 ^ 45 < base + len)

/-- A location lies there. -/
def locInExtent (s : State) (base len : Nat) : Loc → Bool
  | .mem pa => inExtent s base len (paAddr pa)
  | _ => false

/-- A line of a cache, a slice or the memory-side cache, by its tag, lies there. -/
def lineInExtent (s : State) (base len tag : Nat) : Bool :=
  decide (tag * 64 < 2 ^ 57) && inExtent s base len (paAddr (tag * 64))

/-- No core's cache holds a line of the range. -/
def dropCached (s : State) (base len : Nat) : State :=
  { s with cores := s.cores.map fun e => (e.1, { e.2 with
      dcache := e.2.dcache.filter fun c => !lineInExtent s base len c.1,
      icache := e.2.icache.filter fun c => !lineInExtent s base len c.1 }) }

/-- The extent leaves the device's map: no line of it stands anywhere, and its words have no owner. (DEDUCED, log 59.) -/
def closeExtent (s : State) (base len : Nat) : State :=
  (dropCached s base len).modMem fun m =>
    { m with extents := m.extents.filter fun e => !(e.base == base && e.len == len),
             owner := m.owner.filter fun e => !locInExtent s base len (locOfKey e.key),
             slines := m.slines.filter fun e => !lineInExtent s base len e.1,
             msc := m.msc.filter fun e => !lineInExtent s base len e.1 }

/-- The device holds the extent. -/
def hasExtent (s : State) (base len : Nat) : Bool := s.mem.extents.any fun e => e.present && e.base == base && e.len == len

/-- A release of the extent has begun and is not acknowledged. -/
def releasingExtent (s : State) (base len : Nat) : Bool :=
  s.mem.extents.any fun e => e.releasing && e.base == base && e.len == len

/-- An access in flight that its home has accepted: a load or an atomic at its issue, a store once it waits there (R70). -/
def Acc.accepted (a : Acc) : Bool :=
  match a.phase, a.op with
  | .performed, _ => false
  | .sent, .write _ _ => false
  | _, _ => true

/-- Accesses, pieces of copies and records of soundings that were accepted and are still to touch the range (R70). -/
def extentBusy (s : State) (base len : Nat) : Bool :=
  (s.accs.any fun a => a.accepted && locInExtent s base len a.loc) ||
    s.ops.any fun o => (o.pieces.any fun p => !p.performed && (pieceSrc o p ++ pieceDst o p).any (locInExtent s base len)) ||
      (o.dstAt.any fun e => lineInExtent s base len (e.2.1.key / 64))

/-- Writes back every line of the range, from the slices and from the memory-side cache (R70). -/
def flushExtent (s : State) (base len : Nat) : State :=
  let s := dropLines s fun tag _ => lineInExtent s base len tag
  (s.mem.msc.filter fun e => lineInExtent s base len e.1).foldl (fun s e => mscEvict s e.1) s

/-- EXTENT_RELEASE: no new access is accepted from now on; once those accepted before have ended, dirty lines are written back and the
release is acknowledged (R70). -/
def execExtentRelease (base len : Nat) (s : State) : Host.Outcome State Fault Refusal :=
  .next (if hasExtent s base len = false ∧ releasingExtent s base len = false then s
    else
      let s := s.modMem fun m => { m with extents := m.extents.map fun e =>
        if e.base = base ∧ e.len = len then { e with present := false, releasing := true } else e }
      if extentBusy s base len then s else (closeExtent (flushExtent s base len) base len).emit (.extentReleased base len))

/-- What a forced removal makes of a core's access to the range: a store that is not yet performed is lost and fails (R71, R72); a load or
an atomic that its home had accepted takes place before the removal. (DESIGN CHOICE, log 59.) -/
def cutAcc (base len : Nat) (s : State) (a : Acc) : State :=
  if locInExtent s base len a.loc = false ∨ a.phase = .performed then s
  else match a.op, a.loc with
    | .write _ _, _ => failStore s a fcExtentGone
    | .read, _ => loadNow s a
    | .amo _ _ _ _ _ _, .mem pa => atomicNow s a pa
    | _, _ => s

/-- EXTENT_FORCED_REMOVAL: lines are dropped without being written back, from the slices and from the memory-side cache; for each dirty one its
address is recorded as poisoned and a host event names the extent and the number of lines dropped; writes not yet performed are lost (R71). -/
def execExtentForcedRemoval (base len : Nat) (s : State) : Host.Outcome State Fault Refusal :=
  .next (if hasExtent s base len = false ∧ releasingExtent s base len = false then s
    else
      let s := s.accs.foldl (cutAcc base len) s
      let gone := (s.mem.slines ++ s.mem.msc).filter fun e => lineInExtent s base len e.1
      let lost := gone.filter fun e => e.2.dirty != 0
      let words := (lost.map (·.1)).eraseDups.flatMap fun tag => (List.range 8).map fun i => paAddr (64 * tag) + 8 * i
      let s := s.modMem fun m => { m with poison := m.poison ++ (words.filter fun a => !m.poison.contains a) }
      lost.foldl (fun s _ => s.emit (.extentLost base len gone.length)) (closeExtent s base len))

/-- EXTENT_ADD: an extent of CXL memory is present; poison records of its range clear (R71). One that meets a present extent
or lies outside CXL memory is not taken. -/
def execExtentAdd (base len : Nat) (s : State) : Host.Outcome State Fault Refusal :=
  let meets := s.mem.extents.any fun e => decide (e.base < base + len ∧ base < e.base + e.len)
  .next (if meets ∨ len = 0 ∨ isCxl base = false ∨ isCxl (base + len - 1) = false then s
    else s.modMem fun m =>
      { m with extents := m.extents ++ [{ base := base, len := len, present := true, releasing := false }],
               poison := m.poison.filter fun a => !inExtent s base len a })

/-! ### REGISTER_WRITE (R16) -/

/-- A ring of n x 64 KiB in a function's memory, or none; where it addresses no memory it is not taken (R402, R403). -/
def newRing (s : State) (m : Map Ring) (k vf base n : Nat) : Map Ring :=
  if n = 0 then Map.drop m k
  else match hostAddr s vf base with
    | none => m
    | some pa =>
      if base % 64 ≠ 0 ∨ (List.range n).any (fun i => (hostAddr s vf (base + 65536 * i + 65535)).isNone) then m
      else Map.put m k { vf := vf, base := pa, size := 65536 * n, head := 0, tail := 0, dropped := 0, broken := [] }

/-- The host has collected a ring's records up to a number (R402). -/
def ringHead (m : Map Ring) (k n : Nat) : Map Ring :=
  match Map.find m k with
  | some r => if r.head ≤ n ∧ n ≤ r.tail then Map.put m k { r with head := n } else m
  | none => m

/-- One run of a replay log is loaded for a word of this device, under its requester's device and number (R404). A word that the log marks,
which a run of COUNT 0 says (log 104), is not replayed: none of its runs is kept, before the mark or after it (R403). -/
def addRun (l : List ReplayWord) (vf key waddr req count : Nat) : List ReplayWord :=
  let mine (r : ReplayWord) : Bool := r.vf == vf && r.key == key && r.waddr == waddr
  let bad := count == 0 || l.any fun r => mine r && r.bad
  let runs := if bad then [] else (l.filter mine).flatMap (·.runs) ++ [(req, count)]
  l.filter (fun r => !mine r) ++ [{ vf := vf, key := key, waddr := waddr, runs := runs, bad := bad }]

/-- A key is trusted, or no longer. -/
def putKey (l : List SignKey) (k : SignKey) (on : Bool) : List SignKey := if on then k :: l.filter (· != k) else l.filter (· != k)

/-- A function is among some, or no longer. -/
def putVf (l : List Nat) (k : Nat) (on : Bool) : List Nat := if on then k :: l.filter (· != k) else l.filter (· != k)

/-- A virtual function, 1 to 32. -/
def isVf (v : Nat) : Bool := decide (1 ≤ v ∧ v ≤ 32)

/-- Every slice line that a subset homes is written back and invalidated (R56). -/
def dropSubset (s : State) (k : Nat) : State := dropLines s fun tag l => hashSlice s (paAddr (tag * 64)) k == l.slice

/-- REGISTER_WRITE: a write by the host or pilot firmware (R16). One that names no register changes nothing. -/
def execRegisterWrite (reg : HostReg) (v : Word) (s : State) : Host.Outcome State Fault Refusal :=
  let n := v.toNat
  .next (match reg with
    | .s2seg k => if isVf k then s.modDev fun d =>
        { d with s2seg := Map.put d.s2seg k (keepBits v [(63, 1), (62, 1), (32, 12), (0, 11)]) } else s
    | .s2keys k => if isVf k then s.modDev fun d => { d with s2keys := Map.put d.s2keys k v } else s
    | .featmask k l => if isVf k ∧ l < 64 then s.modDev fun d => { d with featmask := Map.put d.featmask (k * 64 + l) v } else s
    | .hvpilot => s.modDev fun d => { d with hvpilot := n % 16 }
    | .slsub k => if k < 16 then (dropSubset s k).modDev fun d => { d with slsub := Map.put d.slsub k v } else s
    | .cpwgt c => if c < 1024 then s.modCell c fun x => { x with cpWgt := keepBits v [(0, 12)] } else s
    | .qcfg k q => if k ≤ 32 ∧ q < 256 then
        s.setQueue k q { s.queue k q with qcfg := qcfgOf v } else s
    | .recordWord k q i => if k ≤ 32 ∧ q < 256 ∧ i < 7 then
        s.setQueue k q { s.queue k q with slot := (s.queue k q).slot.setIfInBounds i v } else s
    | .bkpt k i => if k ≤ 32 ∧ i < 4 then s.modDev fun d =>
        { d with bkpt := Map.put d.bkpt (k * 4 + i) (keepBits v [(45, 19), (0, 32)]) } else s
    | .route dv => if dv < 32 then s.modDev fun d => { d with routes := Map.put d.routes dv (keepBits v [(0, 18)]) } else s
    | .traceRing k b => if k ≤ 32 then s.modHost fun h => { h with trace := newRing s h.trace k k b n } else s
    | .traceHead k => s.modHost fun h => { h with trace := ringHead h.trace k n }
    | .logRing g k b => if g < 64 ∧ k ≤ 32 then s.modHost fun h =>
        { h with logs := newRing s h.logs g k b n, lastLog := Map.drop h.lastLog g } else s
    | .logHead g => markBroken (s.modHost fun h => { h with logs := ringHead h.logs g n }) g
    | .replayWord k dv key w r c => if k ≤ 32 ∧ dv < 32 then s.modHost fun h =>
        { h with replay := addRun h.replay k key w (dv * 2 ^ 17 + r % 2 ^ 17) c, replayed := putVf h.replayed k true } else s
    | .bindQueue k q => if k ≤ 32 ∧ q < 256 then (match s.proc n with
        | some p => if p.vf = k then s.setQueue k q { s.queue k q with proc := some n } else s
        | none => s) else s
    | .sliceClass k => if k ≤ 32 ∧ n < 3 then s.modHost fun h => { h with classes := Map.put h.classes k n } else s
    | .sliceShare k => if k ≤ 32 then s.modHost fun h => { h with shares := Map.put h.shares k n } else s
    | .processWeight p => s.modHost fun h => { h with weights := Map.put h.weights p n }
    | .shareLogbook k => if k ≤ 32 then s.modHost fun h => { h with shareLb := putVf h.shareLb k (n != 0) } else s
    | .signKey d m e => s.modHost fun h => { h with signKeys := putKey h.signKeys { der := d, modulus := m, exponent := e } (n != 0) }
    | .signPolicy => s.modHost fun h => { h with signAny := n != 0 }
    | .firmwareKey d m e => s.modDev fun x => { x with fwKeys := putKey x.fwKeys { der := d, modulus := m, exponent := e } (n != 0) }
    | .migration k => if k ≤ 32 then s.modHost fun h => { h with migrates := putVf h.migrates k (n != 0) } else s
    | .injection k => if k ≤ 32 then s.modHost fun h => { h with injects := putVf h.injects k (n != 0) } else s
    | .functionKey k => if k ≤ 32 then s.modHost fun h => { h with fkey := Map.put h.fkey k (n % 64) } else s
    | .saveArea k => if k ≤ 32 then s.modHost fun h =>
        { h with saves := if n = 0 then Map.drop h.saves k else Map.put h.saves k n } else s
    | .bring b => if b.memWf then s.modHost fun h =>
        { h with brought := (if n = 0 then [] else [b]) ++ h.brought.filter (·.launch.id != b.launch.id) } else s)

/-! ### MARK (R398, R399) -/

/-- HOST_MARK_REQUEST (R398). -/
def execHostMarkRequest (_pilot : Nat) (s : State) : Host.Outcome State Fault Refusal := .next (raiseMark s)

/-- MARK_IN_EDGE (R398). -/
def execMarkInEdge (s : State) : Host.Outcome State Fault Refusal := .next (raiseMark s)

/-- The die of a block, in the order of `nBlocks`: three stacks to a die, with the controllers of their pseudo-channels (R1, R3); a tether port,
the controller of LPDDR and those of CXL memory take die 0's timebase. (DEDUCED, log 60.) -/
def blockDie (b : Nat) : Nat :=
  if b < 1024 then b / 256
  else if b < 1088 then (b - 1024) / 16
  else if b < 1152 then (b - 1088) / 16
  else if b < 1920 then (b - 1152) / 192
  else if b < 1923 then 0
  else if b < 1935 then (b - 1923) / 3
  else if b < 1951 then (b - 1935) / 4
  else 0

/-- The counters of every session at a block, those that have counted nothing among them (R398, R406). -/
def blockCounters (s : State) (block : Nat) : Map Nat :=
  (s.host.events.filter fun e => e.1 % 2048 == block).flatMap fun e =>
    (List.range e.2.length).map fun j => (e.1 / 2048 * 8 + j, (counterWord s (e.1 / 2048) block j).toNat)

/-- MARK_LATCH: a block latches MARKSEQ, its TTB and its counters (R398). -/
def execMarkLatch (block : Nat) (s : State) : Host.Outcome State Fault Refusal :=
  .next (if s.dev.marking.contains block = false then s
    else
      let s := if block < 1024 then s.count block 16 11 1 else s
      let snap : Snapshot :=
        { seq := s.dev.markSeq, ttb := s.ttb (blockDie block), counters := blockCounters s block }
      s.modDev fun d => { d with marking := d.marking.filter (· != block), snaps := Map.put d.snaps block snap })

/-- PROFILE_SESSION_OPEN: up to 8 events of each block for one partition; its counters start at 0 (R406). -/
def execProfileSessionOpen (vf : Nat) (events : List (Nat × List (Nat × Nat))) (s : State) : Host.Outcome State Fault Refusal :=
  .next (s.modHost fun h =>
    { h with events := events.foldl (fun m e => Map.put m (vf * 2048 + e.1 % 2048) e.2) (h.events.filter fun e => e.1 / 2048 != vf),
             counters := h.counters.filter fun e => e.1 / 16384 != vf })

end Sys2Proof.Machine
end

