-- ==== Sys2Proof/Machine/Preempt.lean ====
section
/-! DEFINITION. Pre-emption and resumption (R371 to R377, R43, R63, R99, R331, R343, R406), time slices (R411), hardware faults
(R129, R378), precise stops and dumps (R401), and the host's end of a replay launch (R404). -/

namespace Sys2Proof.Machine

/-! ### Numbers and places (R376) -/

/-- A context under another cell number. -/
def reCtx (f : Nat → Nat) (c : Nat) : Nat := 33 * f (cellOf c) + c % 33

/-! ### How a context stops (R371, R401) -/

/-- The launch of a context's cell is to be pre-empted. -/
def stopsFor (s : State) (c : Nat) : Bool :=
  match launchOf s (cellOf c) with
  | some l => l.stopping
  | none => false

/-- A context is to stop at its next boundary: for a pre-emption, or precisely, also one that begins while ALLSTOP stands (R371, R401). -/
def stopDue (s : State) (c : Nat) : Bool := (s.ctx c).bkHit || allStopped s (cellOf c) || stopsFor s c

/-- An instruction that has issued keeps the context's turns: it ends before a late trap is taken. -/
def Ctx.midInstr (x : Ctx) : Bool := x.spadReq.isSome || x.block != .none

/-- The context stands inside a unit that a stop lets finish: a hint group, an access that a bank holds, an instruction whose work is done
or that waits for write-backs (R371, step 1). -/
def Ctx.midUnit (x : Ctx) : Bool :=
  x.spadReq.isSome || (match x.block with
    | .none => x.hints != []
    | .microDone | .cachecfgDone _ | .tlbinvDone | .writebacks _ => true
    | .micro _ | .tlbinv _ _ _ | .cachecfg _ => false)

/-- A micro-step of `mma8x` that has not run is dropped, and WAYPT names it (R214, R216, R371). -/
def dropMicro (s : State) (c id : Nat) : State :=
  match (s.cell (cellOf c)).mq.find? (·.id == id) with
  | none => s
  | some o =>
    let s := s.modCell (cellOf c) fun x => { x with mq := x.mq.filter (·.id != id) }
    entryFrees (s.modCtx c fun x => { x with waypt := wayWord wpMicro o.pos }) (coreOf c)

/-- A `cachecfg` in progress is cancelled: CONV is what it was, and the next request starts; those of a launch that is to be pre-empted issue
again when it resumes (R62, R367, R376). -/
def cancelCfg (s : State) (c old : Nat) : State :=
  let g := clusterOfCell (cellOf c)
  let s := s.modCluster g fun k => { k with conv := old, busy := false, cfgCtx := none }
  nextCfg g ((s.cluster g).cfgWait.filter fun e => !stopsFor s e.1) s

/-- A context stops at its boundary: it becomes HALTED; a `tlbinv` or a `cachecfg` in progress is cancelled and issues again, and `mma8x`
stops between its micro-steps (R371, R401). -/
def stopContext (s : State) (c : Nat) : State :=
  let s := match (s.ctx c).block with
    | .micro id => dropMicro s c id
    | .cachecfg old => cancelCfg s c old
    | _ => s
  let precise := (s.ctx c).bkHit || allStopped s (cellOf c)
  s.modCtx c fun x => { x with stat := .halted, block := .none, midStop := false, bkHit := precise, held := !precise }

/-! ### PREEMPT_REQUEST (R371) -/

/-- Steps 1 to 3 of R371 have ended for these cells: no context is ELIGIBLE, every access has been performed and acknowledged, every reply
is written, the pilot core has taken every `launch` request, and no division or logbook read is under way. (DEDUCED, log 40.) -/
def quiet (s : State) (cells : List Nat) : Bool :=
  let mine (c : Nat) : Bool := cells.contains (cellOf c)
  !(s.turns.any mine) && !(s.accs.any fun a => mine a.ctx) && !(s.mboxes.any fun m => mine m.sender) &&
    !(s.reqs.any fun r => mine r.ctx && r.status.isNone) && !(s.depMsgs.any fun m => !depAway s m && cells.contains (depHome s m)) &&
    !(s.posts.any fun p => p.acc.any mine) &&
    cells.all fun n => (s.cell n).pend.isEmpty && logSettled s n && (ctxsOfCell n).all fun c =>
      (s.ctx c).stat != .eligible && (s.ctx c).spadReq.isNone && (s.ctx c).divs.isEmpty

/-- A trap that became pending while the context stood still is entered before the image is taken (R371). -/
def enterPending (s : State) (c : Nat) : State :=
  match (s.ctx c).pendTrap with
  | [] => s
  | t :: r => if (s.ctx c).held then trapEntry (s.modCtx c fun x => { x with pendTrap := r }) c t (t.pc.getD (s.ctx c).groupPc) else s

/-- A context as its record keeps it (R371, R374, R43): one that the pre-emption stopped is ELIGIBLE at the start of its unit, one that is
parked keeps its cause; a task's failed steals are no longer known (R402). One that is parked in `semp` or `mlock` behind hint words, which
R376 resumes without issuing the instruction again, keeps the instruction's own PC, not its first hint's (DESIGN CHOICE, log 95). -/
def saveCtx (s : State) (c : Nat) : Ctx :=
  let x := s.ctx c
  let y : Ctx := if x.held ∧ x.stat = .halted then { x with stat := .eligible } else x
  { y with
    pc := if x.stat = .parked ∧ (x.park = .semaphore ∨ x.park = .mutex) then x.pc else x.groupPc,
    hints := [], ignoring := false, arrived := true, walkErr := none, block := .none, ticket := none, midStop := false, held := false,
    task := x.task.map fun t => { t with fails := 65535 } }

/-- A queued matrix instruction as its record keeps it (R331). -/
def saveMx (f : Nat → Nat) (o : MxOp) : MxOp := { o with ctx := reCtx f o.ctx, started := false, resumed := true, ticket := none, kept := [] }

/-- A cell as its image keeps it: the logbook cache is discarded and counted, and its tasks are known as caught (R279, R373, R402). -/
def saveCell (f : Nat → Nat) (x : CellSt) : CellSt :=
  { x with log := [], logQ := [], late := [], deque := x.deque.map fun t => { t with caught := true }, lbDrop := satN (x.lbDrop + (x.log.filter fun e => decide (e.ev > 0)).length) 65535,
           mq := x.mq.map (saveMx f), mxFault := none, launch := none, last := none, wakes := [] }

/-- The bytes of an operation's first commands in its core's queue (R344). -/
def EngOp.firstBytes (o : EngOp) : Nat :=
  match o.kind with
  | .copy | .copym => max 1 (min (2 ^ 32) (o.e0 * o.e1 * o.e2))
  | _ => 64

/-- A cancelled engine operation: its command and what it has already applied (R99, R343). -/
def saveOp (f : Nat → Nat) (o : EngOp) : EngOp :=
  { o with ctx := reCtx f o.ctx, todo := o.firstBytes, credit := 0, started := false, pieces := [], status := none, banks := [],
           hdrNew := none, dstAt := [], ticket := none, retry := false, kept := [] }

/-- The clusters that a launch covers and has begun in: one whose cells have all ended is among them (R375). -/
def begunClusters (l : Launch) (running : List Nat) : List Nat :=
  ((l.cells.filter fun n => running.contains n || l.ended.contains n).map (· / 16)).eraseDups

/-- The clusters that a launch's cells need. -/
def neededClusters (l : Launch) : List Nat := (l.cells.map (· / 16)).eraseDups

/-- The cells of a launch that hold something of it: those whose part runs, and those whose part has ended and in which nothing else has begun
since (R375). -/
def imageCells (s : State) (l : Launch) : List Nat :=
  l.cells.filter fun n =>
    let x := s.cell (l.placeOf n)
    x.launch == some l.id || (x.launch.isNone && x.last == some l.id)

/-- The bank region of a cluster as the launch's process has left it: zero where another process was there last (R187, R375). -/
def bankImage (s : State) (l : Launch) (h : Nat) : SpadImage :=
  let k := s.cluster h
  let own := match s.proc l.proc with
    | some p => k.lastVf == some (ptVf p.ptRoot, ptAsid p.ptRoot)
    | none => false
  if own then { bank := k.spad.filter (fun e => decide (e.1 < 0x400000)), poison := k.spoison.filter (fun p => decide (p < 0x400000)),
                counted := k.counted, barClk := k.barClk }
  else { bank := [], poison := [], counted := [] }

/-- The stacks' blocks, which serve every launch: their numbers are the same wherever a launch runs (R398, R406). -/
def stackBlocks : List (Nat × Nat) := (List.range 12).map fun k => (stackBlock k, stackBlock k)

/-- The blocks that count for a launch in its cells and clusters, by its own numbers, and where they are now (R376, R406). -/
def launchBlocks (l : Launch) (ns gs : List Nat) : List (Nat × Nat) :=
  ns.map (fun n => (n, l.placeOf n)) ++ gs.map fun g => (copyBlock g, copyBlock (l.placeOf (16 * g) / 16))

/-- The image of a launch (R373 to R375). -/
def takeImage (s : State) (l : Launch) : SavedImage :=
  let ns := imageCells s l
  let ps := ns.map l.placeOf
  let num (p : Nat) : Nat := (s.cell p).cellNo
  let gs := begunClusters l ns
  let bs := launchBlocks l ns gs ++ stackBlocks
  { launch := l.id,
    ctxs := ns.flatMap fun n => (List.range 33).map fun i => (33 * n + i, saveCtx s (33 * l.placeOf n + i)),
    cells := ns.map fun n => (n, saveCell num (s.cell (l.placeOf n))),
    resvs := ns.flatMap fun n => (List.range 3).map fun k => (3 * n + k, (s.core (3 * l.placeOf n + k)).resv),
    knows := ns.flatMap fun n => (List.range 3).flatMap fun k => (s.core (3 * l.placeOf n + k)).knows,
    spads := (neededClusters l).map fun g => (g, bankImage s l (l.placeOf (16 * g) / 16)),
    convs := gs.map fun g =>
      let k := s.cluster (l.placeOf (16 * g) / 16)
      (g, if k.convBy = some l.id then k.conv else 0, k.epoch),
    ops := (s.ops.filter fun o => ps.contains (cellOf o.ctx)).map (saveOp num),
    reqs := (s.reqs.filter fun r => ps.contains (cellOf r.ctx)).map fun r => { r with ctx := reCtx num r.ctx },
    counters := bs.flatMap fun b => (s.host.counters.filter fun e => e.1 / 8 == l.vf * 2048 + b.2).map fun e => (8 * b.1 + e.1 % 8, e.2),
    events := bs.filterMap fun b => (Map.find s.host.events (l.vf * 2048 + b.2)).map fun e => (b.1, e) }

/-! ### What leaves the cells (R63, R371, R376) -/

/-- A launch leaves a cluster: a `cachecfg` that it runs there is cancelled, the ways that it converted return to the cache, and the requests of
other launches go on (R62, R63, R367). Ways that another launch of the process is just changing are left to that one (DESIGN CHOICE, log 51). -/
def leaveWays (s : State) (g id : Nat) (mine : Nat → Bool) : State :=
  let s := if (s.cluster g).cfgCtx.any mine then
      s.modCluster g fun k => { k with conv := k.cfgOld, busy := false, cfgCtx := none }
    else s
  let k := s.cluster g
  let s := if k.convBy ≠ some id then s
    else if k.busy then s.modCluster g fun x => { x with convBy := k.cfgCtx.bind fun c => (s.cell (cellOf c)).launch }
    else returnWays s g
  let rest := k.cfgWait.filter fun e => !mine e.1
  if (s.cluster g).busy then s.modCluster g fun x => { x with cfgWait := rest } else nextCfg g rest s

/-- Everything of a launch leaves these cells: contexts, caches, engine work, waits at barriers, converted ways; other launches' WAKEs
stay. Its contexts stay HALTED while the launch is pre-empted, and are FREE after a discard (R63, R176, R371). -/
def clearCells (s : State) (id : Nat) (cells : List Nat) (kept : Bool) : State :=
  let mine (c : Nat) : Bool := cells.contains (cellOf c)
  let gone (p : BarPost) : Bool := match p.eng with
    | some (op, _) => s.ops.any fun o => o.id == op && mine o.ctx
    | none => p.acc.any mine
  let gone' (i : Nat) : Bool := (s.ops.any fun o => o.id == i && mine o.ctx) || (s.reqs.any fun r => r.id == i && mine r.ctx) ||
    cells.any fun n => (s.cell n).mq.any (·.id == i)
  let s := (cells.map clusterOfCell).eraseDups.foldl (fun s g => (forgetEngErrs (leaveWays s g id mine) g gone').modCluster g fun k =>
    { k with waiters := k.waiters.filter fun w => !mine w.ctx,
             banks := k.banks.map fun b => (b.1, { b.2 with forfeit := b.2.forfeit.filter fun r => !mine r.ctx,
                                                            present := b.2.present.filter fun r => !mine r.ctx }) }) s
  let s := { s with ops := s.ops.filter (fun o => !mine o.ctx), accs := s.accs.filter (fun a => !mine a.ctx),
                    mboxes := s.mboxes.filter (fun m => !mine m.sender), reqs := s.reqs.filter (fun r => !mine r.ctx),
                    turns := s.turns.filter (fun c => !mine c), depMsgs := s.depMsgs.filter (fun m => m.launch != some id),
                    walks := s.walks.map (fun w => { w with waiters := w.waiters.filter fun e => !mine e.1,
                                                            prefs := w.prefs.filter fun e => !mine e.1,
                                                            engs := w.engs.filter fun i => !gone' i && !(i ≥ 2 ^ 64 && mine (i - 2 ^ 64)) }),
                    posts := s.posts.filter fun p => !gone p }
  cells.foldl (fun s n =>
    let x := s.cell n
    let s := s.setCell n { CellSt.reset with cpWgt := x.cpWgt, wakes := x.wakes, faultSeq := x.faultSeq, tokSeq := x.tokSeq }
    let s := (List.range 3).foldl (fun s k => s.modCore (3 * n + k) fun y => { CoreSt.reset with cyc := y.cyc, saw := y.saw }) s
    (ctxsOfCell n).foldl (fun s c =>
      s.setCtx c { Ctx.reset with stat := if kept ∧ (s.ctx c).stat ≠ .free then .halted else .free }) s) s |> flushFaults

/-- A cell whose WAKE waits has nothing to keep: the WAKE comes again with the resumption. -/
def dropWakes (s : State) (l : Launch) : State :=
  l.cells.foldl (fun s n => s.modCell (l.placeOf n) fun x => { x with wakes := x.wakes.filter (· != l.id) }) s

/-! ### The image in the save area (R371, R373 to R375) -/

/-- STATE of a context record (R374). -/
def stateWord (x : Ctx) : Nat :=
  let st := match x.stat with | .free => 0 | .eligible => 1 | .parked => 2 | .halted => 3
  let cause := match x.park with
    | .none => 0 | .syncRead => 1 | .semaphore => 2 | .mutex => 3 | .barrier => 4 | .mailbox => 5 | .matrixBatch => 6
    | .sendQueue => 7 | .wayConversion => 8
  let num := if x.park = .semaphore ∨ x.park = .mutex then x.parkNum % 256 else 0
  if x.stat = .parked then st + cause * 16 + num * 256 + x.parkSeq % 2 ^ 32 * 65536 else st

/-- A context record (R374). -/
def ctxRecord (x : Ctx) : List Byte :=
  let w (v : Word) : List Byte := leBytes 8 v.toNat
  ((List.range 32).flatMap fun n => w (x.reg n)) ++ leBytes 8 x.full.toNat ++ w x.pc ++ leBytes 8 (stateWord x) ++
    w x.waypt ++ w x.loopPc ++ w x.loopCnt ++ w x.loopSl ++ w x.trCause ++ w x.trPc ++ w x.trVa ++ w x.trWay ++ w x.trLoop ++
    w x.trVec ++ w x.trScr ++ w x.mbatch ++ ((List.range 4).flatMap fun i => w (x.mbox.getD i (0, 0)).1) ++
    leBytes 8 (x.mbFrom % 2 ^ 17 * 2 ^ 32 + x.mbox.length)

/-- The bytes of a region of which the manual gives the contents without their layout (R373, R375; DESIGN CHOICE, log 61). -/
def openBytes (region : Nat) (contents : List Nat) (n : Nat) : List Byte := (List.range n).map fun i => Config.imageByte region contents i

/-- The contents of the cell-wide block: semaphore counts, mutex holders, dependence counters, DEPUNF, RESV per core, `swap` count, fault SEQ,
LBSTAT, and each context's store that failed an extent check (R373). -/
def cellWide (x : CellSt) (ctx : Nat → Ctx) (resv : Nat → Nat) : List Nat :=
  (List.range 16).map (Map.at x.sems · 0) ++ ((List.range 8).map fun k => match Map.find x.mtx k with | some c => c + 1 | none => 0) ++
    (List.range 64).map (Map.at x.deps · 0) ++ [x.depUnf.toNat] ++ (List.range 3).map resv ++ [x.swaps, x.faultSeq, x.lbDet.toNat, x.lbClash, x.lbDrop] ++
    (List.range 33).map fun i => match (ctx i).failed with | f :: _ => f.va.toNat | [] => 0

/-- The contents of an operand of a queued matrix instruction. -/
def MxOperand.contents : MxOperand → List Nat
  | .tile r t => [0, r, t.toNat]
  | .spad b f r c rot p st => [1, b.toNat, f, r, c, rot, p, st]

/-- The contents of a matrix-queue record (R331, R373). -/
def MxOp.contents (o : MxOp) : List Nat :=
  let k := match o.kind with | .mma => 0 | .mmas => 1 | .mmab => 2 | .azero => 3 | .ald => 4 | .ast => 5 | .swap => 6 | .micro => 7
  [k, o.ctx % 33, o.pc.toNat, o.batch, o.acc, o.accTag.toNat, o.koff, o.kc, o.base.toNat, o.pitch.toNat, o.pos] ++ o.a.contents ++ o.b.contents

/-- The contents of an engine slot: the captured command, its token binding, the counts already applied (R343, R373). -/
def EngOp.contents (o : EngOp) (x : Ctx) : List Nat :=
  let k := match o.kind with | .copy => 0 | .copym => 1 | .sound => 2 | .snddot => 3 | .sndfill => 4
  [k, o.ctx % 33, o.dim, o.fmt] ++ o.shape.toList.map (·.toNat) ++ o.args.map (·.toNat) ++
    ((x.tokens.filter fun t => t.2 == o.id).map (·.1)) ++ o.added ++ o.appliedCounts.flatMap fun e => [e.1, e.2]

/-- The bytes of a tile register's storage. -/
def tileBytes (x : CellSt) (r n : Nat) : List Byte := Memory.bytes (Map.at x.tiles r TileReg.zero).data 0 n

/-- A cell's image (R373), from the cell, its context records, its cores' RESV and its engine operations. -/
def cellBytes (x : CellSt) (ctx : Nat → Ctx) (resv : Nat → Nat) (ops : List EngOp) : List Byte :=
  let task (t : TaskRec) : List Byte := [t.w0, t.arg1, t.arg2, t.arg3].flatMap fun w => leBytes 8 w.toNat
  ((List.range 12).flatMap fun r => tileBytes x r 32768) ++ ((List.range 4).flatMap fun r => tileBytes x (12 + r) 65536) ++
    ((List.range 8).flatMap fun r => tileBytes x (16 + r) 2048) ++
    ((List.range 24).flatMap fun r => leBytes 8 (Map.at x.tiles r TileReg.zero).tag.toNat) ++ List.replicate 64 0 ++
    openBytes 0 (cellWide x ctx resv) 512 ++
    (let d := x.deque.flatMap task; d ++ List.replicate (2048 - d.length) 0) ++
    ((List.range 16).flatMap fun i => match x.mq[i]? with | some o => openBytes 1 o.contents 96 | none => List.replicate 96 0) ++
    ((List.range 12).flatMap fun i => match ops[i]? with | some o => openBytes 2 (o.contents (ctx (o.ctx % 33))) 128 | none => List.replicate 128 0) ++
    (let qs := ops.filter fun o => o.kind == .sound || o.kind == .snddot
     (List.range 4).flatMap fun i => match qs[i]? with | some o => openBytes 3 (o.query.map (·.toNat)) 1024 | none => List.replicate 1024 0) ++
    ((List.range 33).flatMap fun i => ctxRecord (ctx i)) ++
    ((List.range 11).flatMap fun i => (ctx (22 + i)).cp.toList.flatMap fun w => leBytes 8 w.toNat) ++
    List.replicate 160 0

/-- The dump of a cell as it stands (R401). -/
def cellImage (s : State) (cell : Nat) : List Byte :=
  cellBytes (s.cell cell) (fun i => saveCtx s (33 * cell + i)) (fun k => (s.core (3 * cell + k)).resv)
    (s.ops.filter fun o => cellOf o.ctx == cell)

/-- The names of what a dump holds: its contexts and, under their own engines, the operations and matrix instructions in flight (R396,
R397). -/
def cellNames (s : State) (cell : Nat) : List (List Word) :=
  ((ctxsOfCell cell).filter fun c => (s.ctx c).stat != .free).map (ctxName s) ++
    ((s.ops.filter fun o => cellOf o.ctx == cell).flatMap (opNames s)) ++
    (s.cell cell).mq.map fun o => ctxNameAs s o.ctx (engMatrix (s.cell cell).cellNo)

/-- A covered cluster's part of an image: its cells, its bank region, its header (launch record, PTROOT, WINLEN, CONV, EPOCH, VF and the
layout version 1), zeros (R375). -/
def clusterBytes (l : Launch) (p : Proc) (img : SavedImage) (g : Nat) : List Byte :=
  let cell (i : Nat) : List Byte := match Map.find img.cells (16 * g + i) with
    | none => List.replicate 0xAA000 0
    | some x => cellBytes x (fun j => Map.at img.ctxs (33 * (16 * g + i) + j) Ctx.reset) (fun k => Map.at img.resvs (3 * (16 * g + i) + k) 0)
        (img.ops.filter fun o => cellOf o.ctx == 16 * g + i)
  let bank : Memory := match Map.find img.spads g with
    | some i => i.bank
    | none => []
  let (conv, epoch) := Map.at img.convs g (0, 0)
  let head := l.record.map (·.toNat) ++ [p.ptRoot.toNat, p.lbSlots * 2 ^ 32 + p.manCount, conv, epoch, l.vf, 1]
  ((List.range 16).flatMap cell) ++ Memory.bytes bank 0 0x400000 ++ openBytes 4 head 4096 ++ List.replicate 0x5F000 0

/-- Pilot firmware writes bytes through the function's addresses under its key. -/
def pilotBytes (s : State) (vf off : Nat) : List Byte → State
  | [] => s
  | b :: r =>
    let s := match hostAddr s vf (off / 8 * 8) with
      | none => s
      | some pa => engineWrite (if off % 8 = 0 then noteKey s pa else s) (.mem pa) (mergeBytes (readMem s pa) (.ofNat 64 (b.toNat * 256 ^ (off % 8))) (byteMask (off % 8) 1))
          (off % 8 == 7) (6, 0)
    pilotBytes s vf (off + 1) r

/-- The pilot core writes the image into the save area that the hypervisor names, if it names one (R371, step 5). -/
def writeImage (s : State) (l : Launch) (img : SavedImage) : State :=
  match Map.find s.host.saves l.vf, s.proc l.proc with
  | some base, some p => pilotBytes s l.vf base ((neededClusters l).flatMap (clusterBytes l p img))
  | _, _ => s

/-- The events that a cell loses with its logbook cache count as dropped (R279, R405). -/
def countDrops (s : State) (cell : Nat) : State :=
  let x := s.cell cell
  s.count cell 17 7 ((x.log.map fun e => e.ev + e.waiting.length).sum + x.logQ.length + x.late.length)

/-- A launch is pre-empted (R371). -/
def preempt (s : State) (l : Launch) : State :=
  let ps := (imageCells s l).map l.placeOf
  let s := ps.foldl countDrops s
  let s := (ps.flatMap ctxsOfCell).foldl enterPending s
  match Map.find s.host.launches l.id with
  | none => s
  | some l =>
    let img := takeImage s l
    let bs := (launchBlocks l (imageCells s l) (begunClusters l (runningCells s l))).map fun b => l.vf * 2048 + b.2
    let s := clearCells (dropWakes s l) l.id ps true
    let s := (s.setLaunch { l with stat := .preempted, stopping := false }).modHost fun h =>
      { h with images := Map.put h.images l.id img, counters := h.counters.filter fun e => !bs.contains (e.1 / 8) }
    writeImage s l img

/-- A launch's contexts have stopped, and its image can be taken. -/
def canPreempt (s : State) (l : Launch) : Bool := l.stat == .running && quiet s ((runningCells s l).map l.placeOf)

/-- A pre-emption request at a launch: it reaches the cells, and once their contexts have stopped and released the launch leaves them
(R371). -/
def preemptStep (s : State) (l : Launch) : State :=
  if canPreempt s l then preempt s l else if l.stat = .running then requestStop s l else s

/-- PREEMPT_REQUEST: every covered context stops, releases, its engine work is cancelled and the image is kept (R371). -/
def execPreemptRequest (launch : Nat) (s : State) : Host.Outcome State Fault Refusal :=
  .next (match Map.find s.host.launches launch with
    | none => s
    | some l => preemptStep s l)

/-- Another function of the class has a launch that waits to start or to go on, so that the slice passes to it (R411). -/
def sliceRival (s : State) (vf : Nat) : Bool :=
  s.host.launches.any fun e => e.2.vf != vf && sliceClass s e.2.vf == sliceClass s vf && (e.2.stat == .accepted || e.2.stat == .preempted)

/-- TIME_SLICE_EXPIRY: a function has had a slice; where another of its class waits, its running launches are pre-empted (R411; DEDUCED,
log 55). -/
def execTimeSliceExpiry (vf : Nat) (s : State) : Host.Outcome State Fault Refusal :=
  let t := s.modHost fun h => { h with sliceRun := Map.put h.sliceRun vf (Map.at h.sliceRun vf 0 + 1) }
  .next (if sliceRival s vf then
      (t.host.launches.filter fun e => e.2.vf == vf && e.2.stat == .running).foldl (fun s e => preemptStep s e.2) t
    else t)

/-! ### RESUME (R63, R376) -/

/-- Every cluster that the launch needs has a free, unfenced cluster of its own: no launch runs in any cell of it (R376). -/
def placeOk (s : State) (l : Launch) (place : List (Nat × Nat)) : Bool :=
  let m := { l with place := place }
  let hs := (neededClusters l).map fun g => m.placeOf (16 * g) / 16
  decide (hs.eraseDups.length = hs.length) &&
    hs.all (fun h => decide (h < 64) && !(s.cluster h).fenced && !(s.cluster h).fencing) &&
    !(clustersTaken s m) && hs.all fun h => (List.range 16).all fun i => (s.cell (16 * h + i)).launch.isNone

/-- A cluster is restored: the bank region, CONV converted again and zeroed, EPOCH one higher (R63, R376). -/
def restoreCluster (s : State) (img : SavedImage) (p : Proc) (g h : Nat) : State :=
  let i : SpadImage := Map.at img.spads g { bank := [], poison := [], counted := [] }
  let (conv, epoch) := Map.at img.convs g (0, 0)
  let s := dropSpadHist (emptyWays s h (16 - conv)) h
  s.modCluster h fun k =>
    { k with spad := i.bank, spoison := i.poison, counted := i.counted, barClk := i.barClk, waiters := [], conv := conv,
             convBy := if conv = 0 then none else some img.launch, epoch := (epoch + 1) % 2 ^ 32,
             busy := false, cfgCtx := none, cfgWait := [], tlb := [], engErrs := [], lastVf := some (ptVf p.ptRoot, ptAsid p.ptRoot) }

/-- The bank region of a covered cluster in which the launch has not begun: what an earlier kernel of the process left there (R187, R376,
R377). Where the launch stays on the cluster and the process is still the last there, what stands there now is kept, since a kernel that came
first may have gone on meanwhile (DESIGN CHOICE, log 103). -/
def restoreBanks (s : State) (img : SavedImage) (p : Proc) (stays : Bool) (g h : Nat) : State :=
  let own := some (ptVf p.ptRoot, ptAsid p.ptRoot)
  if stays ∧ (s.cluster h).lastVf = own then s
  else
    let i : SpadImage := Map.at img.spads g { bank := [], poison := [], counted := [] }
    (zeroBanks s h).modCluster h fun k =>
      { k with spad := i.bank, spoison := i.poison, counted := i.counted, barClk := i.barClk, lastVf := own }

/-- A context as a resumption begins it (R43, R72, R376): parked on a semaphore or mutex it stays so, parked otherwise it issues its
instruction again; one with failed stores, wherever it was parked, reports them before it issues anything, and goes on where it stands. -/
def resumeCtx (x : Ctx) : Ctx :=
  let y := if (x.park = .semaphore ∨ x.park = .mutex) ∧ x.failed = [] then x else x.wake
  { y with faultWait := none, tell := x.failed != [] }

/-- What happens before what the contexts of core k of cell n do next, as the image keeps it (R101, R152). -/
def knowsOf (img : SavedImage) (n k : Nat) : Map Clock := img.knows.filter fun e => e.1 % 2 ^ 16 / 11 == 3 * n + k

/-- A cell, its cores and its contexts are restored (R376). -/
def restoreCell (s : State) (img : SavedImage) (l : Launch) (p : Proc) (n : Nat) (x : CellSt) : State :=
  let h := l.placeOf n
  let y := s.cell h
  let f := l.placeOf
  let s := s.setCell h
    { x with cpWgt := y.cpWgt, wakes := y.wakes, launch := if l.ended.contains n then none else some l.id, last := some l.id, manPa := l.man, logPa := p.logPa, ptRoot := p.ptRoot,
             mq := x.mq.map fun o => { o with ctx := reCtx f o.ctx } }
  let s := (List.range 3).foldl (fun s k => s.modCore (3 * h + k) fun c =>
    { CoreSt.reset with cyc := c.cyc, knows := knowsOf img n k, saw := c.saw, resv := Map.at img.resvs (3 * n + k) 0 }) s
  (List.range 33).foldl (fun s i => s.setCtx (33 * h + i) (resumeCtx (Map.at img.ctxs (33 * n + i) Ctx.reset))) s

/-- A WAKE takes its place among those that a cell holds, in the order in which their launches started (R186). -/
def addWake (s : State) (l : Launch) (cell : Nat) : State :=
  let older (k : Nat) : Bool := match Map.find s.host.launches k with
    | some e => decide (e.start < l.start)
    | none => true
  s.modCell cell fun x => { x with wakes := x.wakes.filter older ++ l.id :: x.wakes.filter fun k => !older k }

/-- The physical address, with key, of a leaf's page. -/
def leafPa (s : State) (root leaf : Word) : Option Nat :=
  let key := fieldN leaf 48 6
  (stage2 s (ptVf root) (fieldN leaf 43 5 * 2 ^ 45 + fieldN leaf 11 29 * 2 ^ 16) key).map fun a => key * 2 ^ 50 + a

/-- The physical address, word and level of the leaf that maps an address, whatever it allows: none when there is none. -/
def leafFound (s : State) (root : Word) (va : Nat) : Nat → Nat → Option (Nat × Word × Nat)
  | 0, _ => none
  | n + 1, tbl =>
    let level := 3 - n
    match stage2 s (ptVf root) (s.dev.devno * 2 ^ 45 + (tbl + 8 * walkIndex va level) % 2 ^ 45) (ptKey root) with
    | none => none
    | some sa =>
      let pa := ptKey root * 2 ^ 50 + sa
      let w := readMem s pa
      if w.getLsbD 0 = false then none
      else if w.getLsbD 1 = false then leafFound s root va n (fieldN w 11 29 * 2 ^ 16)
      else if level = 1 then none else some (pa, w, level)

/-- The leaf and level under which a process's page stands; a page on its way to another frame stands under its old one (R419). -/
def procLeaf (s : State) (root : Word) (va : Nat) : Option (Word × Nat) :=
  match s.host.moves.find? fun m => m.root == root && m.va / 65536 == va / 65536 with
  | some m => some (m.leaf, 3)
  | none => (leafFound s root va 3 (ptRootAddr root)).map (·.2)

/-- The physical address, with key, of a process's word at an address. -/
def procPa (s : State) (root : Word) (va : Nat) : Option Nat :=
  (procLeaf s root va).bind fun e => (leafPa s root e.1).map fun pa => pa + va % 2 ^ pageBits e.2 / 8 * 8

/-- Resource i of a process holds these bytes (R424). -/
def resourceHolds (s : State) (p : Proc) (i : Nat) (data : Memory) : Bool :=
  let w (j : Nat) : Nat := (readMem s (p.manPa + 64 * i + 8 * j)).toNat
  (List.range ((w 1 + 7) / 8)).all fun k =>
    let n := min 8 (w 1 - 8 * k)
    (procPa s p.ptRoot (w 0 + 8 * k)).any fun pa => fieldN (readMem s pa) 0 (8 * n) == leNat (Memory.bytes data (8 * k) n)

/-- What must stand here before a launch that the host brought from another device resumes: the same binary with its code where it was, every
resource where it was and with the bytes that it held, and the FEATMASK values of its function, leaf by leaf (R424). Its numbers are none that
this machine still uses. -/
def Brought.ready (s : State) (b : Brought) (p : Proc) : Bool :=
  p.bin == b.bin && p.codeBase == b.codeBase && (Map.find s.host.launches b.launch.id).isNone &&
    decide (b.bases.length = p.manCount ∧ b.bytes.length = p.manCount ∧ b.featmask.length = 64) &&
    ((List.range p.manCount).all fun i => readMem s (p.manPa + 64 * i) == b.bases.getD i 0 && resourceHolds s p i (b.bytes.getD i [])) &&
    ((List.range 64).all fun i => Map.at s.dev.featmask (p.vf * 64 + i) (BitVec.allOnes 64) == b.featmask.getD i 0) &&
    ((b.image.ops.map (·.id) ++ b.image.reqs.map (·.id) ++ b.image.cells.flatMap fun n => n.2.mq.map (·.id)).all fun i => decide (s.fresh ≤ i))

/-- The launch of a number that may resume, with its image and process: one that was pre-empted here, or one that the host brought. -/
def resumable (s : State) (launch : Nat) : Option (Launch × SavedImage × Proc) :=
  match Map.find s.host.launches launch, Map.find s.host.images launch with
  | some l, some img => (s.proc l.proc).bind fun p => if l.stat = .preempted then some (l, img, p) else none
  | _, _ =>
    (s.host.brought.find? (·.launch.id == launch)).bind fun b => (s.proc b.proc).bind fun p =>
      if b.ready s p then
        some ({ b.launch with vf := p.vf, proc := b.proc, man := copyPlace s b.proc p, stat := .preempted, start := s.fresh }, b.image, p)
      else none

/-- RESUME: a launch is placed on free clusters and goes on from its image, on the device that took it or another (R376, R424), when no launch
that waits comes before it; where only launches of lower classes are in its way they are pre-empted (R411). The cells that it left are no longer
its own (R176). A stack's counters go on here where they stand; what another device counted is added (R406). -/
def execResume (launch : Nat) (place : List (Nat × Nat)) (s : State) : Host.Outcome State Fault Refusal :=
  .next (match resumable s launch with
    | none => s
    | some (l, img, p) =>
      let m := { l with place := place, stat := .running }
      if outranked s m then s
      else if placeOk s l place = false then preemptLower s m
      else
        let here := (Map.find s.host.images launch).isSome
        let s := copyManifest ((freeCtxs s l.places).setLaunch m) p m.man
        let s := (img.convs.map (·.1)).foldl (fun s g => restoreCluster s img p g (m.placeOf (16 * g) / 16)) s
        let s := (img.spads.filter fun e => (Map.find img.convs e.1).isNone).foldl (fun s e =>
          restoreBanks s img p (here && m.placeOf (16 * e.1) == l.placeOf (16 * e.1)) e.1 (m.placeOf (16 * e.1) / 16)) s
        let s := img.cells.foldl (fun s e => restoreCell s img m p e.1 e.2) s
        let s := { s with ops := s.ops ++ (img.ops.map fun (o : EngOp) => { o with ctx := reCtx m.placeOf o.ctx }),
                          reqs := s.reqs ++ (img.reqs.map fun (r : LaunchReq) => { r with ctx := reCtx m.placeOf r.ctx }),
                          fresh := ((img.ops.map (·.id) ++ img.reqs.map (·.id) ++ img.cells.flatMap fun n => n.2.mq.map (·.id)).foldl
                            (fun a i => max a (i + 1)) s.fresh) }
        let waiting := m.cells.filter fun n => !m.ended.contains n && (Map.find img.cells n).isNone
        let s := waiting.foldl (fun s n => addWake s m (m.placeOf n)) s
        let bs := launchBlocks m (img.cells.map (·.1)) (img.convs.map (·.1))
        let at_ (b : Nat) : Nat := m.vf * 2048 + ((bs.find? (·.1 == b)).map (·.2)).getD b
        s.modHost fun h =>
          { h with images := Map.drop h.images launch, brought := h.brought.filter (·.launch.id != launch),
                   events := img.events.foldl (fun t e => if (Map.find t (at_ e.1)).isSome then t else Map.put t (at_ e.1) e.2) h.events,
                   counters := img.counters.foldl (fun (t : Map Nat) (e : Nat × Nat) =>
                     let k := 8 * at_ (e.1 / 8) + e.1 % 8
                     if stackBlocks.any (·.1 == e.1 / 8) then Map.put t k (if here then Map.at t k e.2 else satN (Map.at t k 0 + e.2) (2 ^ 48 - 1))
                     else Map.put t k e.2) h.counters })

/-! ### Hardware faults (R129, R378) -/

/-- A location whose write was discarded: the selected bytes are unspecified (R378). -/
def loseLoc (s : State) (l : Loc) (bm : BitVec 8) : State :=
  let v : Word := .ofNat 64 (leNat ((List.range 8).map fun i => Config.lostByte s.fresh (l.key + i)))
  engineWrite s l (mergeBytes (readLoc s l) v bm) false (6, 0)

/-- The leaves that walks of these addresses would find for a context now. -/
def leavesOf (s : State) (c : Nat) (l : List Word) : List TlbEnt :=
  let root := (s.cell (cellOf c)).ptRoot
  l.filterMap fun va => match walk s root va 0 with
    | .ok (w, level) => some (tlbEnt root va w level)
    | .error _ => none

/-- A copy that has not started, as its start would leave it now: no pieces where its arguments or its first addresses are bad (R338, R339,
R378). -/
def startedCopy (s : State) (o : EngOp) : EngOp :=
  let vas := (copyRuns o).flatMap fun e => if o.kind = .copym then [e.2.2.1] else [e.2.2.1, e.2.2.2]
  let o := { o with kept := leavesOf s o.ctx vas }
  let s := putOp s o
  if o.added = [] ∧ copyBadArg s o ≠ 0 then o
  else
    { o with pieces := ((if o.kind = .copym then o.receivers.map some else [none]).flatMap fun r => (cutPieces s o r).2.1).map fun p =>
        { p with counted := o.appliedCounts.contains p.key } }

/-- A sounding that has not started, as its start would leave it now: no banks where a check fails (R83, R378). -/
def startedSound (s : State) (o : EngOp) : EngOp :=
  let n := min 4096 (rangeCount (o.arg 2))
  let list := leavesOf s o.ctx (rangePoints (o.arg 0) (8 * n) ++ rangePoints (o.arg 1) (dstBytes o n n))
  let s := putOp s { o with kept := list }
  let descs := (List.range n).filterMap fun k => match (engWord s o (o.arg 0 + .ofNat 64 (8 * k))).2 with
    | .ok (w, _) => some w
    | .error _ => none
  let o := { o with kept := list ++ leavesOf s o.ctx descs }
  match soundChecks (putOp s o) o with
  | (_, .ok o) => o
  | _ => o

/-- The word that a `sndfill` would write, where its checks pass (R89). -/
def fillWord (s : State) (o : EngOp) : Option Nat :=
  if o.hdrNew.isSome then some o.hdrPa
  else if fieldN (o.arg 0) 0 6 ≠ 0 ∨ fieldN (o.arg 0) 56 8 ≠ 0 ∨ (o.arg 1).toNat > 32 then none
  else match peekBy s o.ctx .atomic (o.arg 0) (s.cluster (clusterOfCell (cellOf o.ctx))).tlb with
    | .ok x => (blockPa s x.loc 8).filter fun pa => !poisoned s (.mem pa) && hdrOk (readMem s pa)
    | _ => none

/-- The bytes of a piece that has not been performed are lost, and its count with the barrier word that it was for (R378). -/
def losePiece (s : State) (o : EngOp) (p : Piece) : State :=
  let s := if p.performed then s
    else ((List.range (pieceDst o p).length).zip (pieceDst o p)).foldl (fun s (k, l) =>
      let lo := if k = 0 then p.db else 0
      let i := if k = 0 then 0 else 8 * k - p.db
      loseLoc s l (byteMask lo (min (8 - lo) (p.len - i)))) s
  if p.counted then s
  else match pieceBar s o p with
    | some (g, w) => loseLoc s (.spad g w) 255
    | none => s

/-- What a discarded operation would have written, one that has not started too: a copy's pieces and counts, a multicast's receivers in ARR, a
sounding's records, the HDR word of a `sndfill` (R378). -/
def loseOp (s : State) (o : EngOp) : State :=
  match o.kind with
  | .copy | .copym =>
    let o' := if o.started then o else startedCopy s o
    let s := o'.pieces.foldl (fun s p => losePiece s o' p) s
    (match (if o.kind = .copym ∧ o.barEn ∧ o.added = [] ∧ o'.pieces ≠ [] then o.bar s else none) with
     | some (g, w) => loseLoc s (.spad g w) 255
     | none => s)
  | .sndfill =>
    (match fillWord s o with
     | some pa => loseLoc s (.mem pa) 255
     | none => s)
  | .sound | .snddot =>
    let o := if o.started then o else startedSound s o
    ((List.range o.banks.length).zip o.banks).foldl (fun (s : State) (x : Nat × BankScan) =>
      if x.2.phase = .written then s
      else (recordWrites o x.1 x.2).foldl (fun (s : State) (e : Word × List Byte) =>
        let l := (List.range e.2.length).map fun i => Config.lostByte s.fresh (e.1.toNat + i)
        putDst s o e.1 l (6, 0)) s) s

/-- The bytes of a word that a step writes. -/
def WordOp.bytes : WordOp → BitVec 8
  | .read => 0
  | .write _ bm => bm
  | .amo _ n off _ _ _ => byteMask off n
  | .barInit _ | .barExpect _ | .barArrive | .barAck | .barWait _ | .barAdd _ | .barCount _ => 255

/-- A store, an atomic or a step of a barrier in flight that is not yet performed is lost with its launch (R378). -/
def loseAcc (s : State) (a : Acc) : State :=
  if a.phase = .performed ∨ a.op.bytes = 0 then s else loseLoc s a.loc a.op.bytes

/-- One that waits at a bank likewise. -/
def loseBank (s : State) (g : Nat) (r : BankReq) : State :=
  if r.op.bytes = 0 then s else loseLoc s (.spad g r.phys) r.op.bytes

/-- The rows that a queued `ast` would have stored (R321, R378). -/
def loseMx (s : State) (o : MxOp) : State :=
  if o.kind ≠ .ast then s
  else
    let s := putMx s (cellOf o.ctx) { o with kept := leavesOf s o.ctx ((accRuns o).flatMap fun r => rangePoints r.1 r.2.1) }
    (List.range (tagRows o.accTag)).foldl (fun s i =>
    let va := accRowVa o i
    mxWrite s o.ctx o.id va ((List.range (4 * tagCols o.accTag)).map fun j => Config.lostByte s.fresh (va.toNat + j)) (6, 0)) s

/-- A request that the pilot core has not yet taken is taken whatever happens to its issuer (R368). -/
def takeNow (s : State) (r : LaunchReq) : State :=
  if r.status.isSome then s
  else match peekBy s r.ctx .read r.va (s.cluster (clusterOfCell (cellOf r.ctx))).tlb with
    | .ok x => (takeRecord s r x).1
    | _ => s

/-- A launch is discarded with no image (R378). -/
def discardLaunch (s : State) (l : Launch) : State :=
  let ps := (runningCells s l).map l.placeOf
  let mine (c : Nat) : Bool := ps.contains (cellOf c)
  let s := (s.reqs.filter fun r => mine r.ctx).foldl takeNow s
  let s := (s.accs.filter fun a => mine a.ctx).foldl loseAcc s
  let s := ((ps.map clusterOfCell).eraseDups.flatMap fun g => (s.cluster g).banks.flatMap fun b =>
    ((b.2.forfeit ++ b.2.present).filter fun r => mine r.ctx).map fun r => (g, r)).foldl (fun s e => loseBank s e.1 e.2) s
  let s := (s.ops.filter fun o => mine o.ctx).foldl loseOp s
  let s := (ps.flatMap fun n => (s.cell n).mq).foldl loseMx s
  let s := (s.posts.filter fun p => p.acc.any mine).foldl (fun s p => loseLoc s (.spad p.cluster p.phys) 255) s
  let s := ps.foldl countDrops s
  (clearCells (dropWakes s l) l.id ps false).bump

/-- A partition uses a failed unit: it has a running launch that covers the unit, or the unit serves all memory. (DEDUCED, log 63.) -/
def usesUnit (s : State) (vf : Nat) (u : FailUnit) : Bool :=
  let ls := s.host.launches.filter fun e => e.2.vf == vf && e.2.stat == .running
  let cells := ls.flatMap fun e => e.2.places
  match u with
  | .cluster g => cells.any fun n => clusterOfCell n == g
  | .die d => cells.any fun n => n / 256 == d
  | .pilot p => cells.any (fun n => pilotOfCell n == p) || ls.any fun e => e.2.q % 16 == p
  | .slice _ | .stack _ | .link _ | .bridge _ => true

/-- Ends every running launch of a partition with HWFAULT; the tasks that are discarded count (R378, R410). -/
def failPartition (s : State) (vf : Nat) : State :=
  let ls := s.host.launches.filter fun e => e.2.vf == vf && e.2.stat == .running
  ls.foldl (fun s e =>
    let tasks := (((runningCells s e.2).map e.2.placeOf).map fun n => (s.cell n).deque.length).sum
    endLaunch (discardLaunch s e.2) { e.2 with hwfault := true, orphan := e.2.orphan + tasks }) s

/-- A failed unit holds part of a launch's image: a stack, or a die's stacks, that a granule of the save area lies in (R1, R78, R378). -/
def holdsImage (s : State) (u : FailUnit) (l : Launch) : Bool :=
  match Map.find s.host.saves l.vf with
  | none => false
  | some base => (List.range (240 * (l.cells.map (· / 16)).eraseDups.length)).any fun i =>
    match hostAddr s l.vf (base + 65536 * i) with
    | none => false
    | some pa => isHbm s (paLocal pa) && (match u with
        | .stack k => (bankParts (hbmBank (paLocal pa)).1).1 == k
        | .die d => (bankParts (hbmBank (paLocal pa)).1).1 / 3 == d
        | _ => false)

/-- A pre-empted launch whose image a failed unit holds cannot resume, and ends with HWFAULT; the tasks in its image count as discarded (R378,
R410). -/
def failImages (s : State) (u : FailUnit) : State :=
  (s.host.launches.filter fun e => e.2.stat == .preempted && holdsImage s u e.2).foldl (fun s e =>
    let tasks := match Map.find s.host.images e.1 with
      | some img => (img.cells.map fun n => n.2.deque.length).sum
      | none => 0
    endLaunch s { e.2 with hwfault := true, orphan := e.2.orphan + tasks }) s

/-- HARDWARE_FAULT (R378). -/
def execHardwareFault (u : FailUnit) (s : State) : Host.Outcome State Fault Refusal :=
  let t := (List.range 33).foldl (fun t vf => if usesUnit s vf u then failPartition t vf else t) s
  .next (((failImages t u).modDev fun d => { d with failed := u :: d.failed.filter (· != u) }).emit (.hwFault u))

/-- FLIT_CRC_FAIL: the link retransmits, and nothing else changes (R126). -/
def execFlitCrcFail (_link : Nat) (s : State) : Host.Outcome State Fault Refusal := .next s

/-- The unit that a path's number names: the 18 tether links, then the six bridges that join two of the four dies (R126). (DEDUCED, log 63.) -/
def pathUnit (n : Nat) : FailUnit := if n < 18 then .link n else .bridge (n - 18)

/-- RETRANSMIT_LIMIT: a bridge or a tether link is a hardware fault of the partitions with work in flight on it (R129). -/
def execRetransmitLimit (link : Nat) (vfs : List Nat) (s : State) : Host.Outcome State Fault Refusal :=
  let u := pathUnit link
  let t := vfs.eraseDups.foldl failPartition s
  .next ((t.modDev fun d => { d with failed := u :: d.failed.filter (· != u) }).emit (.hwFault u))

/-- A link leaves every set of the route table. -/
def dropLink (s : State) (link : Nat) : State :=
  s.modDev fun d => { d with routes := d.routes.map fun e => (e.1, setBit e.2 link false),
                             recal := Map.drop d.recal link }

/-- LINK_DOWN (R413). -/
def execLinkDown (link : Nat) (s : State) : Host.Outcome State Fault Refusal := .next (dropLink s link)

/-- HWFAULT_RECOVERY: the failed unit is fenced or recalibrated, and launches may start again (R378). -/
def execHwfaultRecovery (u : FailUnit) (s : State) : Host.Outcome State Fault Refusal :=
  .next (if s.dev.failed.contains u = false then s
    else
      let s := s.modDev fun d => { d with failed := d.failed.filter (· != u) }
      match u with
      | .cluster g => s.modCluster g fun k => { k with fenced := true }
      | .link l => dropLink s l
      | _ => s)

/-- Every event of a cell meets its entry now, and every entry is merged (R276, R279). -/
def settleLog : Nat → Nat → State → State
  | 0, cell, s => mergeAll s cell
  | n + 1, cell, s =>
    if logSettled s cell then mergeAll s cell
    else settleLog n cell (((s.cell cell).log.filter (·.fetching)).foldl (fun s e => logFetched s cell e.slot) s)

/-- HOST_ENDS_LAUNCH: the host ends a replay launch whose atomics wait for a requester that never comes; it is discarded, with its logbook
events merged (R279), and no report is written (R404). (DEDUCED, log 64.) -/
def execHostEndsLaunch (launch : Nat) (s : State) : Host.Outcome State Fault Refusal :=
  .next (match Map.find s.host.launches launch with
    | none => s
    | some l =>
      if l.stat ≠ .running ∨ s.host.replayed.contains l.vf = false then s
      else
        let s := ((runningCells s l).map l.placeOf).foldl (fun s n => (let s := flushLate s n none; settleLog ((s.cell n).logQ.length + 1) n s)) s
        endLaunch (discardLaunch s l) { l with reports := false })

/-! ### Precise stops (R401) -/

/-- HOST_RESUME_STOP: every stopped context goes on, and does not match the same breakpoint again (R401). -/
def execHostResumeStop (launch : Nat) (s : State) : Host.Outcome State Fault Refusal :=
  .next (match Map.find s.host.launches launch with
    | none => s
    | some l =>
      (((runningCells s l).map l.placeOf).flatMap ctxsOfCell).foldl (fun s c =>
        let x := s.ctx c
        if x.bkHit = false then s
        else if x.stat = .halted then s.setCtx c { x with stat := .eligible, bkHit := false, arrived := x.arrived || x.hints = [] }
        else s.setCtx c { x with bkHit := false }) (s.setLaunch { l with allStop := false }))

/-- HOST_DUMP_READ: the dump of a stopped cell, with the names of the contexts and of the engine operations that it holds (R396, R401). -/
def execHostDumpRead (cell : Nat) (s : State) : Host.Outcome State Fault Refusal :=
  .next (if (ctxsOfCell cell).any (stoppedAt s) || allStopped s cell then (s.emit (.dump cell (cellNames s cell) (cellImage s cell))).bump else s)

end Sys2Proof.Machine
end

