-- ==== Sys2Proof/Machine/Signature.lean ====
section
/-! DEFINITION. The signature of binaries and firmware (R387): SHA-256 (FIPS 180-4), and the verification of RSASSA-PSS (RFC 8017) with
RSA-3072, MGF1 with SHA-256 and a salt of 32 bytes. -/

namespace Sys2Proof.Machine

/-! ### SHA-256 -/

/-- A word of the hash. -/
abbrev HWord := BitVec 32

/-- The round constants: the fractional parts of the cube roots of the first 64 primes. -/
def shaK : List HWord :=
  [0x428A2F98, 0x71374491, 0xB5C0FBCF, 0xE9B5DBA5, 0x3956C25B, 0x59F111F1, 0x923F82A4, 0xAB1C5ED5,
   0xD807AA98, 0x12835B01, 0x243185BE, 0x550C7DC3, 0x72BE5D74, 0x80DEB1FE, 0x9BDC06A7, 0xC19BF174,
   0xE49B69C1, 0xEFBE4786, 0x0FC19DC6, 0x240CA1CC, 0x2DE92C6F, 0x4A7484AA, 0x5CB0A9DC, 0x76F988DA,
   0x983E5152, 0xA831C66D, 0xB00327C8, 0xBF597FC7, 0xC6E00BF3, 0xD5A79147, 0x06CA6351, 0x14292967] ++
  [0x27B70A85, 0x2E1B2138, 0x4D2C6DFC, 0x53380D13, 0x650A7354, 0x766A0ABB, 0x81C2C92E, 0x92722C85,
   0xA2BFE8A1, 0xA81A664B, 0xC24B8B70, 0xC76C51A3, 0xD192E819, 0xD6990624, 0xF40E3585, 0x106AA070,
   0x19A4C116, 0x1E376C08, 0x2748774C, 0x34B0BCB5, 0x391C0CB3, 0x4ED8AA4A, 0x5B9CCA4F, 0x682E6FF3,
   0x748F82EE, 0x78A5636F, 0x84C87814, 0x8CC70208, 0x90BEFFFA, 0xA4506CEB, 0xBEF9A3F7, 0xC67178F2]

/-- The initial hash value: the fractional parts of the square roots of the first 8 primes. -/
def shaH : List HWord :=
  [0x6A09E667, 0xBB67AE85, 0x3C6EF372, 0xA54FF53A, 0x510E527F, 0x9B05688C, 0x1F83D9AB, 0x5BE0CD19]

/-- The eight working variables. -/
structure ShaVars where
  a : HWord
  b : HWord
  c : HWord
  d : HWord
  e : HWord
  f : HWord
  g : HWord
  h : HWord
deriving DecidableEq, Repr

/-- A rotation to the right. -/
def rotr (x : HWord) (n : Nat) : HWord := x >>> n ||| x <<< (32 - n)

/-- One round with the sum of its constant and its schedule word. -/
def shaRound (v : ShaVars) (kw : HWord) : ShaVars :=
  let s1 := rotr v.e 6 ^^^ rotr v.e 11 ^^^ rotr v.e 25
  let ch := (v.e &&& v.f) ^^^ (~~~v.e &&& v.g)
  let t1 := v.h + s1 + ch + kw
  let s0 := rotr v.a 2 ^^^ rotr v.a 13 ^^^ rotr v.a 22
  let maj := (v.a &&& v.b) ^^^ (v.a &&& v.c) ^^^ (v.b &&& v.c)
  { a := t1 + (s0 + maj), b := v.a, c := v.b, d := v.c, e := v.d + t1, f := v.e, g := v.f, h := v.g }

/-- The schedule, newest word first: n words more. -/
def shaSchedule : Nat → List HWord → List HWord
  | 0, l => l
  | n + 1, l =>
    let w (i : Nat) : HWord := l.getD i 0
    let s0 := rotr (w 14) 7 ^^^ rotr (w 14) 18 ^^^ w 14 >>> 3
    let s1 := rotr (w 1) 17 ^^^ rotr (w 1) 19 ^^^ w 1 >>> 10
    shaSchedule n ((s1 + w 6 + s0 + w 15) :: l)

/-- A word of big-endian bytes. -/
def beWord (l : List Byte) : HWord := .ofNat 32 (l.foldl (fun a b => a * 256 + b.toNat) 0)

/-- One block of 64 bytes. -/
def shaBlock (h : List HWord) (block : List Byte) : List HWord :=
  let m := (List.range 16).map fun i => beWord ((block.drop (4 * i)).take 4)
  let w := (shaSchedule 48 m.reverse).reverse
  let x (i : Nat) : HWord := h.getD i 0
  let v := (List.zipWith (· + ·) shaK w).foldl shaRound
    { a := x 0, b := x 1, c := x 2, d := x 3, e := x 4, f := x 5, g := x 6, h := x 7 }
  List.zipWith (· + ·) h [v.a, v.b, v.c, v.d, v.e, v.f, v.g, v.h]

/-- A number as n big-endian bytes. -/
def beBytes (n v : Nat) : List Byte := (leBytes n v).reverse

/-- The message with its padding: a one bit, zeros, and its length in bits. -/
def shaPad (m : List Byte) : List Byte :=
  m ++ 0x80 :: List.replicate ((119 - m.length % 64) % 64) 0 ++ beBytes 8 (8 * m.length)

/-- SHA-256 of some bytes. -/
def sha256 (m : List Byte) : List Byte :=
  let p := shaPad m
  ((List.range (p.length / 64)).foldl (fun h i => shaBlock h ((p.drop (64 * i)).take 64)) shaH).flatMap fun w => beBytes 4 w.toNat

/-! ### RSASSA-PSS (RFC 8017, 8.1.2 and 9.1.2) -/

/-- Big-endian bytes as a number. -/
def beNat (l : List Byte) : Nat := l.foldl (fun a b => a * 256 + b.toNat) 0

/-- b to the power e modulo n, from the exponent's highest bit down. -/
def powMod (n b e : Nat) : Nat :=
  (List.range (Nat.log2 e + 1)).foldr (fun i a => a * a % n * (if e.testBit i then b else 1) % n) (1 % n)

/-- MGF1 with SHA-256: n bytes of mask. -/
def mgf1 (seed : List Byte) (n : Nat) : List Byte :=
  ((List.range ((n + 31) / 32)).flatMap fun i => sha256 (seed ++ beBytes 4 i)).take n

/-- The encoded message of 384 bytes, of 3,071 bits, agrees with the hash of the message. -/
def pssAgrees (mHash em : List Byte) : Bool :=
  let db := em.take 351
  let h := (em.drop 351).take 32
  let mask := mgf1 h 351
  let d := match List.zipWith (· ^^^ ·) db mask with
    | b :: r => (b &&& 0x7F) :: r
    | [] => []
  em.length == 384 && em.getD 383 0 == 0xBC && decide ((em.getD 0 0).toNat < 128) &&
    (d.take 318).all (· == 0) && d.getD 318 0 == 1 && sha256 (List.replicate 8 0 ++ mHash ++ d.drop 319) == h

/-- A signature of 384 bytes verifies for a message under a key whose modulus has 3,072 bits. -/
def pssGood (k : SignKey) (m sig : List Byte) : Bool :=
  let s := beNat sig
  decide (2 ^ 3071 ≤ k.modulus ∧ k.modulus < 2 ^ 3072) && decide (s < k.modulus) &&
    pssAgrees (sha256 m) (beBytes 384 (powMod k.modulus s k.exponent))

/-! ### The signature section (R387, R388) -/

/-- What a signature section says of a message under some keys: it verifies or not, or its key is none of them. -/
inductive SigRes where
  | good | bad | unknown
deriving DecidableEq, Repr

/-- The verification of a signature section of 448 bytes: the digest of the signer's key, the signature, zeros. The message that is signed is
the SHA-256 hash of the parts (R387, R388; DEDUCED, log 45). -/
def verifySig (keys : List SignKey) (parts sec : List Byte) : SigRes :=
  if sec.length ≠ 448 ∨ (sec.drop 416).any (· != 0) then .bad
  else match keys.find? fun k => sha256 k.der == sec.take 32 with
    | none => .unknown
    | some k => if pssGood k (sha256 parts) ((sec.drop 32).take 384) then .good else .bad

end Sys2Proof.Machine
end

