-- ==== Sys2Proof/Machine/Service.lean ====
section
/-! DEFINITION. Live service, keys, errors and power (R66, R74, R378, R413 to R416, R419, R423). -/

namespace Sys2Proof.Machine

/-! ### Keys and errors (R74, R423) -/

/-- KEY_SLOT_REPLACE: every line of the slices and of the memory-side cache that is tagged with the slot is written back and dropped,
then the new key is loaded (R74). -/
def execKeySlotReplace (slot material : Nat) (s : State) : Host.Outcome State Fault Refusal :=
  let tagged (tag : Nat) : Bool := paKey (tag * 64) == slot
  let s := dropLines s fun tag _ => tagged tag
  let t := (s.mem.msc.filter fun e => tagged e.1).foldl (fun s e => mscEvict s e.1) s
  .next (t.modDev fun d => { d with keys := Map.put d.keys slot material })

/-- The aligned word of a partition's HBM that an offset of a process's resource names, in a partition with error injection enabled (R423). -/
def injectPa (s : State) (x : InjectAt) : Option Nat :=
  (s.proc x.proc).bind fun p =>
    let w (j : Nat) : Nat := (readMem s (p.manPa + 64 * x.entry + 8 * j)).toNat
    if s.host.injects.contains p.vf = false ∨ x.entry ≥ p.manCount ∨ x.off / 8 * 8 + 8 > w 1 then none
    else (procPa s p.ptRoot (w 0 + x.off)).bind fun pa =>
      if isHbm s (paLocal pa) ∧ paHome pa = s.dev.devno then some (paAddr pa) else none

/-- ERROR_INJECT: arms one corrected-error event at a word of HBM that a resource and an offset name (R423); `hard` asks for an uncorrectable
error instead, after which the word is poisoned (R76). (DEDUCED, log 66.) -/
def execErrorInject (word : InjectAt) (hard : Nat) (s : State) : Host.Outcome State Fault Refusal :=
  .next (match injectPa s word with
    | none => s
    | some a =>
      if hard = 0 then s.modMem fun m => { m with softErr := m.softErr ++ [a] }
      else s.modMem fun m => { m with poison := a :: m.poison.filter (· != a) })

/-! ### Service actions (R66, R414) -/

/-- A firmware image verifies under a key that firmware may be signed with (R387, R414, R416). -/
def firmwareGood (d : DevSt) (image sig : List Byte) : Bool := verifySig d.fwKeys image sig == .good

/-- PILOT_FIRMWARE_REPLACE: an image that verifies takes the old one's place; requests to the pilot core wait meanwhile, and none is lost
(R414). -/
def execPilotFirmwareReplace (fw : PilotImage) (s : State) : Host.Outcome State Fault Refusal :=
  .next (if firmwareGood s.dev fw.image fw.sig then s.emit (.serviced fw.pilot) else s)

/-- The running launches that cover a cluster. -/
def launchesOn (s : State) (cluster : Nat) : List Launch :=
  (s.host.launches.filter fun e => e.2.stat == .running && e.2.places.any fun n => clusterOfCell n == cluster).map (·.2)

/-- CLUSTER_FENCE: from now on the cluster takes no launch; every launch that covers it is pre-empted, and once none runs there the
cluster is fenced (R414). -/
def execClusterFence (cluster : Nat) (s : State) : Host.Outcome State Fault Refusal :=
  let s := (launchesOn s cluster).foldl preemptStep s
  let done := (launchesOn s cluster).isEmpty
  .next (s.modCluster cluster fun k => { k with fenced := k.fenced || done, fencing := !done })

/-- PSEUDO_CHANNEL_RECAL: accesses and scans of the pseudo-channel pause; programs see latency only (R414). -/
def execPseudoChannelRecal (_stack _pch : Nat) (s : State) : Host.Outcome State Fault Refusal := .next s

/-- LINK_RECAL: the link leaves its route sets for the duration (R414). -/
def execLinkRecal (link : Nat) (s : State) : Host.Outcome State Fault Refusal :=
  let held := (s.dev.routes.filter fun e => e.2.getLsbD link).map (·.1)
  .next (if (Map.find s.dev.recal link).isSome then s
    else s.modDev fun d =>
      { d with routes := d.routes.map fun e => (e.1, setBit e.2 link false), recal := Map.put d.recal link held })

/-- LINK_RECAL_END: the link rejoins its sets (R414). -/
def execLinkRecalEnd (link : Nat) (s : State) : Host.Outcome State Fault Refusal :=
  .next (match Map.find s.dev.recal link with
    | none => s
    | some held => s.modDev fun d =>
        { d with routes := d.routes.map fun e => if held.contains e.1 then (e.1, setBit e.2 link true) else e,
                 recal := Map.drop d.recal link })

/-- CHART_BANK_RETIRE: the bank's window faults NOT_MAPPED from the next launch on (R66). -/
def execChartBankRetire (die bank : Nat) (s : State) : Host.Outcome State Fault Refusal :=
  let b := die * 4096 + bank
  .next (s.modDev fun d => { d with retired := if (Map.find d.retired b).isSome then d.retired else Map.put d.retired b s.fresh })

/-! ### Power (R415, R416) -/

/-- What is left of a module after its power was cut: what the outside has seen and still asks for, and the keys of its firmware; its
timebases begin anew (R395, R415). -/
def afterCut (s : State) : State :=
  { State.reset with agenda := s.agenda, time := s.time, fresh := s.fresh, host := { HostSt.reset with out := s.host.out },
                     dev := { DevSt.reset with fwKeys := s.dev.fwKeys, ttb0 := s.time } }

/-- Valid check bits are written into every word of HBM and second-tier memory: no such word is poisoned or awaits an error (R416, R426). -/
def writeCheckBits (s : State) : State :=
  s.modMem fun m => { m with poison := m.poison.filter fun a => isCxl (a % 2 ^ 45), softErr := [] }

/-- POWER_ON: firmware is verified, and without that the module does not go on; memories and links are trained, check bits written, DEVNO,
MSCCFG and the key slots set, and the module reports ready (R416). After a cut the machine starts from reset. (DEDUCED, log 65.) -/
def execPowerOn (devno mscSize : Nat) (boot : BootSet) (s : State) : Host.Outcome State Fault Refusal :=
  .next (if (s.dev.ready ∧ s.dev.off = false) ∨ firmwareGood s.dev boot.image boot.sig = false then s
    else
      ((writeCheckBits (if s.dev.off then afterCut s else s)).modDev fun d =>
        { d with devno := devno, mscSize := mscSize, ready := true,
                 keys := boot.keys.foldl (fun m e => if e.1 < 64 then Map.put m e.1 e.2 else m) d.keys }).emit .ready)

/-- POWER_LIMIT: matrix engine issue cycles are withheld while measured input power would exceed the limit (R415). -/
def execPowerLimit (exceeds : Bool) (s : State) : Host.Outcome State Fault Refusal :=
  .next (s.modDev fun d => { d with power := exceeds })

/-- DIE_OVERTEMP: a host event, and no further launch starts (R415). -/
def execDieOvertemp (die : Nat) (s : State) : Host.Outcome State Fault Refusal :=
  .next ((s.modDev fun d => { d with hot := die :: d.hot.filter (· != die) }).emit (.hotDie die))

/-- DIE_CRITICAL_TEMP: the module's power is cut (R415). -/
def execDieCriticalTemp (_die : Nat) (s : State) : Host.Outcome State Fault Refusal :=
  .next (s.modDev fun d => { d with off := true, ready := false })

/-! ### Pages that move (R419) -/

/-- The physical address and word of the level-3 leaf that maps an address: none when there is none. -/
def leafWord (s : State) (root : Word) (va n tbl : Nat) : Option (Nat × Word) :=
  (leafFound s root va n tbl).bind fun e => if e.2.2 = 3 then some (e.1, e.2.1) else none

/-- Every cell whose core or cluster may hold a translation. -/
def allCells (s : State) : List Nat :=
  ((s.cells.map fun (e : Nat × CellSt) => e.1) ++ s.cores.map fun (e : Nat × CoreSt) => e.1 / 3).eraseDups

/-- The cells that run launches of a process. -/
def procCells (s : State) (root : Word) : List Nat :=
  (s.cells.filter fun e => e.2.launch.isSome && e.2.ptRoot == root).map (·.1)

/-- What is known of a word's earlier values and releases goes with it to another frame, and of a block's appends (R90, R101, R138, R419). -/
def moveHist (s : State) (a b : Nat) : State :=
  let go {α : Type} (m : Map α) : Map α := match Map.find m a with
    | some v => Map.put m b v
    | none => Map.drop m b
  s.modMem fun m => { m with hist := go m.hist, rels := go m.rels, pubs := go m.pubs }

/-- Copies words at their homes; poison goes with them, and what is known of their earlier values. -/
def copyWords (s : State) (src dst n : Nat) : State :=
  (List.range n).foldl (fun s i =>
    let a := src + 8 * i
    let b := dst + 8 * i
    let bad := poisoned s (.mem a)
    let (s, w) := pilotRead s a
    let s := moveHist (pilotWrite s b w (6, 0)) a b
    if bad then s.modMem fun m => { m with poison := paAddr b :: m.poison.filter (· != paAddr b) } else s) s

/-- RETRY answers each fault message of these cells that names a page; a store that such a message reported is not reported again (R72,
R419). -/
def retryPage (s : State) (cells : List Nat) (page : Nat) : State :=
  let s := (cells.flatMap ctxsOfCell).foldl (fun s c =>
    match (s.ctx c).faultWait with
    | some f => if f.va.toNat / 65536 = page then
        s.modCtx c fun x => { x.wake with faultWait := none, failed := if f.report then x.failed.drop 1 else x.failed } else s
    | none => s) s
  cells.foldl (fun s n =>
    match (s.cell n).mxFault with
    | some f => if f.va.toNat / 65536 = page then s.modCell n fun x => { x with mxFault := none } else s
    | none => s) s

/-- The placement records of a frame's lines are cleared, once its lines have been written back (R57). -/
def clearFrame (s : State) (pa : Nat) : State :=
  let mine (line : Nat) : Bool := line / 1024 == paAddr pa / 65536
  (dropLines s fun tag _ => mine (paAddr (tag * 64) / 64)).modMem fun m => { m with first := m.first.filter fun e => !mine e.1 }

/-- A frame of 64 KiB that the function may map and that nothing uses (R382, R419). -/
def frameFree (s : State) (pa : Nat) : Bool :=
  (paHome pa != s.dev.devno || isMappable s (paLocal pa)) && blocksFree (heldBlocks s) [(paAddr pa, 65536)]

/-- A process has taken a frame (R419). -/
def holdFrame (h : HostSt) (root : Word) (pa : Nat) : HostSt :=
  { h with procs := h.procs.map fun e => if e.2.ptRoot = root then (e.1, { e.2 with held := e.2.held ++ [(paAddr pa, 65536)] }) else e }

/-- Step 1 of a page's move to a frame that is free: its leaf is written with V = 0 (R419). -/
def moveStart (s : State) (root : Word) (cell core va frame : Nat) : State :=
  let s := touchWalk s (clusterOfCell cell) root (.ofNat 64 va)
  match leafWord s root va 3 (ptRootAddr root) with
  | none => s
  | some (pa, w) =>
    match leafPa s root w, leafPa s root (setField w 11 29 frame) with
    | some _, some dst =>
      if frameFree s dst = false then s
      else (pilotWrite s pa (setField w 0 1 0) (6, 0)).modHost fun h =>
      { holdFrame h root dst with moves := h.moves ++ [{ root := root, cell := cell, core := core, va := va, leaf := w, pa := pa, frame := frame, phase := .unmapped }] }
    | _, _ => s

/-- Steps 2 and 3: a `tlbinv` covers the page in every core and cluster TLB, once the accesses that R34 names have ended, and the page is copied
at the homes (R419). -/
def moveCopy (s : State) (m : PageMove) : State :=
  let cells := procCells s m.root
  let lo := m.va / 65536 * 65536
  match leafPa s m.root m.leaf, leafPa s m.root (setField m.leaf 11 29 m.frame) with
  | some src, some dst =>
    if invReady s cells lo (lo + 65536) = false then s
    else
      let s := invalidate (overtake s cells) (allCells s) (ptVf m.root) (ptAsid m.root) lo (lo + 65536)
      let s := clearFrame (copyWords (clearFrame s dst) src dst 8192) src
      s.modHost fun h => { h with moves := h.moves.map fun n => if n = m then { n with phase := .copied } else n }
  | _, _ => s

/-- A fault message that names a page is still on its way to its pilot core, or the reply would overtake others (R126). -/
def pageEarly (s : State) (cells : List Nat) (page : Nat) : Bool :=
  let early (c cell : Nat) (f : FaultWait) : Bool := decide (f.va.toNat / 65536 = page) && replyEarly s c cell f
  cells.any fun n => (ctxsOfCell n).any (fun c => (s.ctx c).faultWait.any (early c n)) ||
    (match (s.cell n).mq.head? with
     | some o => (s.cell n).mxFault.any (early o.ctx n)
     | none => false)

/-- Steps 4 and 5: the leaf is written again with the new frame, and only then the page's fault messages get their reply (R419). -/
def moveEnd (s : State) (m : PageMove) : State :=
  if pageEarly s (procCells s m.root) (m.va / 65536) then s else
  let s := pilotWrite s m.pa (setField m.leaf 11 29 m.frame) (6, 0)
  retryPage (s.modHost fun h => { h with moves := h.moves.filter (· != m) }) (procCells s m.root) (m.va / 65536)

/-- The next step of a move that has begun. -/
def moveOn (s : State) (m : PageMove) : State :=
  match m.phase with
  | .unmapped => moveCopy s m
  | .copied => moveEnd s m

/-- PAGE_MIGRATION: a page of a partition with page migration enabled moves to a new frame; the event takes the move's next step: the leaf is
written with V = 0; the page is invalidated and copied; the leaf is written again and its faults are answered (R57, R419). `core` is the core
that pilot firmware invalidates through. (DESIGN CHOICE, log 67.) -/
def execPageMigration (cell core va frame : Nat) (s : State) : Host.Outcome State Fault Refusal :=
  let root := (s.cell cell).ptRoot
  .next (match s.host.moves.find? fun m => m.root == root && m.va / 65536 == va / 65536 with
    | some m => moveOn s m
    | none => if s.host.migrates.contains (ptVf root) then moveStart s root cell core va frame else s)

end Sys2Proof.Machine
end

