-- ==== Sys2Proof/Machine/Loader.lean ====
section
/-! DEFINITION. The loader (R26, R379 to R389, R422, R425): the checks of a binary, the placement of its code, resources,
manifest and logbook image, and the move of a resource. -/

namespace Sys2Proof.Machine

/-! ### The file (R379, R380) -/

/-- The n bytes of a file from an offset, as a number. -/
def fileNat (f : List Byte) (off n : Nat) : Nat := leNat ((f.drop off).take n)

/-- The n bytes of a file from an offset. -/
def fileBytes (f : List Byte) (off n : Nat) : List Byte := (f.drop off).take n

/-- A section: KIND, OFFSET, SIZE, and whether its reserved fields are 0. -/
structure Section where
  kind : Nat
  off  : Nat
  size : Nat
  ok   : Bool
deriving DecidableEq, Repr

/-- The section table (R379). -/
def sectionsOf (f : List Byte) : List Section :=
  (List.range (fileNat f 16 4)).map fun i =>
    let b := 64 + 32 * i
    { kind := fileNat f b 4, off := fileNat f (b + 8) 8, size := fileNat f (b + 16) 8,
      ok := fileNat f (b + 4) 4 == 0 && fileNat f (b + 24) 8 == 0 }

/-- The section of a KIND; an absent one is empty. -/
def sectionOf (f : List Byte) (k : Nat) : Section :=
  ((sectionsOf f).find? (·.kind == k)).getD { kind := k, off := 0, size := 0, ok := true }

/-- Check 1: MAGIC and VERSION. -/
def magicOk (f : List Byte) : Bool :=
  decide (64 ≤ f.length) && fileNat f 0 8 == 0x5759096042494E01 && fileNat f 8 4 == 1

/-- Check 2: the header's reserved bits and a well-formed section table (R380). -/
def tableOk (f : List Byte) : Bool :=
  let n := fileNat f 16 4
  let l := sectionsOf f
  fileNat f 12 4 / 2 == 0 && fileNat f 20 4 == 0 && fileNat f 56 8 == 0 && decide (4 ≤ n ∧ n ≤ 6 ∧ 64 + 32 * n ≤ f.length) &&
    l.all (fun x => x.ok && decide (1 ≤ x.kind ∧ x.kind ≤ 6) && x.off % 64 == 0 && decide (x.off + x.size ≤ f.length)) &&
    decide ((l.map (·.kind)).eraseDups.length = n) && [1, 3, 4, 6].all (fun k => l.any (·.kind == k)) &&
    l.all (fun x => l.all fun y => x.kind == y.kind || decide (x.off + x.size ≤ y.off ∨ y.off + y.size ≤ x.off)) &&
    decide ((sectionOf f 1).size ≠ 0 ∧ (sectionOf f 1).size % 4 = 0) &&
    decide ((sectionOf f 3).size % 64 = 0 ∧ (sectionOf f 3).size ≤ 65536) &&
    decide ((sectionOf f 4).size % 8 = 0 ∧ (sectionOf f 4).size ≤ 2 ^ 29) && (sectionOf f 6).size == 448

/-- The parts that a signature covers: header, section table, and the sections other than LOGBOOK and SIGNATURE in the table's order (R388). -/
def signedParts (f : List Byte) : List Byte :=
  let body := (sectionsOf f).filter fun x => x.kind != 4 && x.kind != 6
  fileBytes f 0 (64 + 32 * fileNat f 16 4) ++ body.flatMap fun x => fileBytes f x.off x.size

/-- Check 3: the signature, under the hypervisor's policy: which keys it trusts, and whether it loads a binary whose key it does not trust
(R387, R388). -/
def signatureGood (s : State) (f : List Byte) : Bool :=
  let sig := sectionOf f 6
  match verifySig s.host.signKeys (signedParts f) (fileBytes f sig.off sig.size) with
  | .good => true
  | .bad => false
  | .unknown => s.host.signAny

/-- Check 4: FEATREQ under the function's masks (R237). -/
def featGood (s : State) (vf : Nat) (f : List Byte) : Bool :=
  ((List.range 4).zip [2, 3, 6, 7]).all fun e =>
    let need : Word := .ofNat 64 (fileNat f (24 + 8 * e.1) 8)
    let mask := if vf = 0 then BitVec.allOnes 64 else Map.at s.dev.featmask (vf * 64 + e.2) (BitVec.allOnes 64)
    need &&& featLeaf e.2 &&& mask == need

/-! ### Manifest entries (R381) -/

/-- The eight words of entry i of the file's manifest. -/
def entryWords (f : List Byte) (i : Nat) : List Word :=
  (List.range 8).map fun j => .ofNat 64 (fileNat f ((sectionOf f 3).off + 64 * i + 8 * j) 8)

/-- The leaf of a resource's pages before its PPN (R382). -/
def resLeaf (e : List Word) : Word :=
  let a := e.getD 2 0
  .ofNat 64 (fieldN (e.getD 3 0) 43 21 * 2 ^ 43 + (if a.getLsbD 3 then 32 else 0) + (if a.getLsbD 1 then 8 else 0) +
    (if a.getLsbD 0 then 4 else 0) + 3)

/-- The placement part of an entry as a leaf of its own: what check 5 holds against R28 and R30 (R389). -/
def placeLeaf (e : List Word) : Word := setField (resLeaf e) 2 2 3

/-- Check 5 of one entry (R381). (DEDUCED, log 68.) -/
def entryOk (s : State) (vf : Nat) (f : List Byte) (e : List Word) : Bool :=
  let w (i : Nat) : Word := e.getD i 0
  let leaf := placeLeaf e
  let seg := Map.at s.dev.s2seg vf 0
  fieldN (w 2) 4 60 == 0 && fieldN (w 3) 0 43 == 0 && w 6 == 0 && w 7 == 0 && w 0 == 0 && leafOk leaf 3 &&
    decide ((w 1).toNat ≤ 2 ^ 40 ∧ (w 5).toNat ≤ (w 1).toNat ∧ (w 4).toNat + (w 5).toNat ≤ (sectionOf f 2).size) &&
    (vf == 0 || ((Map.at s.dev.s2keys vf 0).getLsbD (fieldN leaf 48 6) &&
      (fieldN leaf 43 5 == s.dev.devno || seg.getLsbD 62)))

/-! ### Memory for what is placed (R382, R422) -/

/-- A word that the loader writes: as a host write, at its home and in HBM (R145, R422). -/
def loadWord (s : State) (pa : Nat) (v : Word) : State := pilotWrite s pa v (6, 0)

/-- The 64 KiB frames of a range of pages, in order. -/
structure Pages where
  va     : Nat
  leaf   : Word
  level  : Nat
  frames : List Nat
deriving DecidableEq, Repr

/-- The page size that a resource of a length uses, and its number of pages (R382). -/
def pagesFor (len : Nat) : Nat × Nat := if len ≥ 2 ^ 29 then (2, (len + 2 ^ 29 - 1) / 2 ^ 29) else (3, (len + 65535) / 65536)

/-- The physical address, with key, of a page's frame: none when the frame is not memory that the function may map. -/
def framePa (s : State) (root leaf : Word) (frame : Nat) : Option Nat :=
  match leafPa s root (setField leaf 11 29 frame) with
  | none => none
  | some pa => if paHome pa ≠ s.dev.devno ∨ isMappable s (paLocal pa) then some pa else none

/-- Why something is not placed: memory does not suffice (check 6), or the choice is none that a loader makes: a range that is not one of
free pages, a frame that is none or is in use. -/
inductive NotPlaced where
  | short | barred
deriving DecidableEq, Repr

/-- The memory of 64 KiB frames that tables take. -/
def tableBlocks (s : State) (root : Word) (frames : List Nat) : List (Nat × Nat) :=
  frames.filterMap fun f => (stage2 s (ptVf root) (s.dev.devno * 2 ^ 45 + f * 65536) (ptKey root)).map fun a => (a, 65536)

/-- A table entry's physical address: the tables lie in the device's own memory, behind the second stage (R26, R36). -/
def tableEntry (s : State) (root : Word) (tbl va level : Nat) : Option Nat :=
  (stage2 s (ptVf root) (s.dev.devno * 2 ^ 45 + (tbl + 8 * walkIndex va level) % 2 ^ 45) (ptKey root)).map
    fun a => ptKey root * 2 ^ 50 + a

/-- The entry that would map an address at a level stands already, or a leaf above it does (R382). -/
def entryUsed (s : State) (root : Word) (va level : Nat) : Nat → Nat → Bool
  | 0, _ => false
  | n + 1, tbl =>
    match tableEntry s root tbl va (3 - n) with
    | none => false
    | some pa =>
      let w := readMem s pa
      w.getLsbD 0 && (3 - n == level || w.getLsbD 1 || entryUsed s root va level n (fieldN w 11 29 * 2 ^ 16))

/-- Some page of a range is mapped, be it that it is on its way to another frame, or a table stands where a leaf of the range would (R382,
R419). -/
def rangeUsed (s : State) (root : Word) (va level n : Nat) : Bool :=
  ((List.range n).any fun i => entryUsed s root (va + i * 2 ^ pageBits level) level 3 (ptRootAddr root)) ||
    s.host.moves.any fun m => m.root == root && decide (va < m.va / 65536 * 65536 + 65536 ∧ m.va / 65536 * 65536 < va + n * 2 ^ pageBits level)

/-- Takes the pages of a resource from the free frames. The first 64 KiB are never mapped, and the windows begin at 0xF0_0000_0000_0000
(R19, R382). -/
def takePages (s : State) (root : Word) (frames : List Nat) (va len : Nat) (leaf : Word) : Except NotPlaced (Pages × List Nat) :=
  let (level, n) := pagesFor len
  let fs := frames.take n
  if va < 65536 ∨ va % 2 ^ pageBits level ≠ 0 ∨ va + n * 2 ^ pageBits level > 0xF0 * 2 ^ 48 ∨
      fs.any (fun f => (framePa s root leaf f).isNone || (level == 2 && f % 8192 != 0)) then .error .barred
  else if fs.length < n then .error .short
  else .ok ({ va := va, leaf := leaf, level := level, frames := fs }, frames.drop n)

/-- The memory of a range of pages: address and length of each. -/
def Pages.blocks (s : State) (root : Word) (p : Pages) : List (Nat × Nat) :=
  p.frames.filterMap fun f => (framePa s root p.leaf f).map fun a => (paAddr a, 2 ^ pageBits p.level)

/-- Writes words from an address on. -/
def loadWords (s : State) (pa : Nat) : List Word → State
  | [] => s
  | w :: r => loadWords (loadWord s pa w) (pa + 8) r

/-- Zeroes n words. -/
def zeroWords (s : State) (pa n : Nat) : State := (List.range n).foldl (fun s i => loadWord s (pa + 8 * i) 0) s

/-- Maps one page: missing tables are taken from the free frames, zeroed and linked (R26, R27). -/
def mapPage (s : State) (root : Word) (va : Nat) (leaf : Word) (level : Nat) (frames : List Nat) :
    Nat → Nat → Except NotPlaced (State × List Nat)
  | 0, _ => .error .barred
  | n + 1, tbl =>
    let here := 3 - n
    match tableEntry s root tbl va here with
    | none => .error .barred
    | some pa =>
      if here = level then .ok (loadWord s pa leaf, frames)
      else
        let (s, w) := pilotRead s pa
        if w.getLsbD 0 then mapPage s root va leaf level frames n (fieldN w 11 29 * 2 ^ 16)
        else match frames with
          | [] => .error .short
          | f :: rest =>
            match stage2 s (ptVf root) (s.dev.devno * 2 ^ 45 + f * 65536) (ptKey root) with
            | none => .error .barred
            | some a =>
              let s := zeroWords s (ptKey root * 2 ^ 50 + a) 8192
              let s := loadWord s pa (.ofNat 64 (f * 2 ^ 11 + 1))
              mapPage s root va leaf level rest n (f * 65536)

/-- Maps a range of pages. -/
def mapPages (s : State) (root : Word) (p : Pages) (frames : List Nat) : Except NotPlaced (State × List Nat) :=
  (List.range p.frames.length).foldl (fun (r : Except NotPlaced (State × List Nat)) i =>
    match r with
    | .error e => .error e
    | .ok (s, fr) =>
      mapPage s root (p.va + i * 2 ^ pageBits p.level) (setField p.leaf 11 29 (p.frames.getD i 0)) p.level fr 3 (ptRootAddr root))
    (.ok (s, frames))

/-- Fills the start of a range of pages with bytes and zeroes the rest (R382). -/
def fillPages (s : State) (root : Word) (p : Pages) (bytes : List Byte) : State :=
  let n := 2 ^ pageBits p.level / 8
  (List.range p.frames.length).foldl (fun s i =>
    match framePa s root p.leaf (p.frames.getD i 0) with
    | none => s
    | some pa => (List.range n).foldl (fun s j =>
        loadWord s (pa + 8 * j) (.ofNat 64 (leNat ((bytes.drop (8 * (n * i + j))).take 8)))) s) s

/-! ### BINARY_LOAD (R389) -/

/-- PTROOT of a process (R26). -/
def rootWord (s : State) (vf : Nat) (ch : LoadChoice) : Word :=
  .ofNat 64 (ch.asid % 2 ^ 16 * 2 ^ 48 + bitsAt ch.root 17 28 * 2 ^ 17 + vf % 64 * 64 + Map.at s.host.fkey vf 0 % 64)

/-- The used entries of a manifest, with their words (R381). -/
def usedEntries (f : List Byte) : List (Nat × List Word) :=
  ((List.range ((sectionOf f 3).size / 64)).map fun i => (i, entryWords f i)).filter fun e => e.2.getD 1 0 != 0

/-- Pages for the code and for every used resource (check 6). -/
def planPages (s : State) (root : Word) (f : List Byte) (ch : LoadChoice) : Except NotPlaced (List (Pages × List Byte) × List Nat) :=
  let code := sectionOf f 1
  let data := sectionOf f 2
  let want : List (Nat × Nat × Word × List Byte) :=
    (ch.codeBase, code.size, .ofNat 64 (Map.at s.host.fkey (ptVf root) 0 % 64 * 2 ^ 48 + s.dev.devno * 2 ^ 43 + 0x17),
      fileBytes f code.off code.size) ::
    ((usedEntries f).zip ch.bases).map fun e =>
      let w (i : Nat) : Word := e.1.2.getD i 0
      (e.2, (w 1).toNat, resLeaf e.1.2,
        if (w 2).getLsbD 2 then fileBytes f (data.off + (w 4).toNat) (w 5).toNat else [])
  if ch.bases.length < (usedEntries f).length then .error .barred
  else want.foldl (fun (r : Except NotPlaced (List (Pages × List Byte) × List Nat)) e =>
    match r with
    | .error e => .error e
    | .ok (l, fr) =>
      match takePages s root fr e.1 e.2.1 e.2.2.1 with
      | .error e => .error e
      | .ok (p, fr) =>
        if l.any fun q => decide (p.va < q.1.va + q.1.frames.length * 2 ^ pageBits q.1.level ∧
            q.1.va < p.va + p.frames.length * 2 ^ pageBits p.level) then .error .barred
        else .ok (l ++ [(p, e.2.2.2)], fr)) (.ok ([], ch.frames))

/-- Maps and fills every planned range. (DESIGN CHOICE, log 69.) -/
def placePages (s : State) (root : Word) (plan : List (Pages × List Byte)) (frames : List Nat) : Except NotPlaced (State × List Nat) :=
  plan.foldl (fun (r : Except NotPlaced (State × List Nat)) e =>
    match r with
    | .error e => .error e
    | .ok (s, fr) => (mapPages s root e.1 fr).map fun (t, fr) => (fillPages t root e.1 e.2, fr)) (.ok (s, frames))

/-- A slot word that the loader clears (R384). -/
def slotCleared (w : Word) : Bool := decide (fieldN w 60 4 ≥ 4) || (fieldN w 60 4 == 1 && fieldN w 56 4 != 0)

/-- The words of a file's logbook section. -/
def logWords (f : List Byte) : List Word :=
  (List.range ((sectionOf f 4).size / 8)).map fun i => .ofNat 64 (fileNat f ((sectionOf f 4).off + 8 * i) 8)

/-- The image that the functions which may share a binary's logbook already have of this binary (R385). -/
def sharedImage (s : State) (f : List Byte) : Option Nat :=
  ((s.host.procs.find? fun e => e.2.shared && e.2.bin == signedParts f).map fun e => e.2.logPa)

/-- Places a new logbook image, its slots checked (R280, R384). -/
def placeLog (s : State) (f : List Byte) (pa : Nat) : State :=
  loadWords s pa ((logWords f).map fun w => if slotCleared w then 0 else w)

/-- Writes the process manifest with every used entry's BASE (R382). -/
def placeManifest (s : State) (f : List Byte) (ch : LoadChoice) (pa : Nat) : State :=
  let bases := ((usedEntries f).map (·.1)).zip ch.bases
  (List.range ((sectionOf f 3).size / 64)).foldl (fun s i =>
    let base : Nat := match bases.find? (·.1 == i) with
      | some (_, b) => b
      | none => 0
    loadWords s (pa + 64 * i) (.ofNat 64 base :: (entryWords f i).drop 1)) s

/-- The first check that a binary fails (R389), 0 when it passes the first five. -/
def loadCode (s : State) (vf : Nat) (f : List Byte) : Nat :=
  if magicOk f = false then 1
  else if tableOk f = false then 2
  else if signatureGood s f = false then 3
  else if featGood s vf f = false then 4
  else if (List.range ((sectionOf f 3).size / 64)).any (fun i => !entryOk s vf f (entryWords f i)) then 5
  else 0

/-- Places a binary that has passed the first five checks (R382 to R385, R425), and counts the slots that it clears (R384). Where the binary's
image is shared already it is used; every block of memory that is taken lies apart from those in use. (DEDUCED, log 76.) -/
def placeBinary (s : State) (vf : Nat) (f : List Byte) (ch : LoadChoice) : Except NotPlaced (State × Nat) :=
  let root := rootWord s vf ch
  let key := ptKey root
  let own := s.dev.devno * 2 ^ 45
  let shared := fileNat f 12 4 % 2 == 1 && s.host.shareLb.contains vf
  let old := if shared then sharedImage s f else none
  let logPa := old.getD ((if shared then ch.logKey % 64 else key) * 2 ^ 50 + own + ch.logBase)
  let manPa := key * 2 ^ 50 + own + ch.manBase
  match planPages s root f ch, stage2 s vf (own + ptRootAddr root) key with
  | .error e, _ => .error e
  | .ok _, none => .error .barred
  | .ok (plan, frames), some rootPa =>
    let t := zeroWords s (key * 2 ^ 50 + rootPa) 16384
    match placePages t root plan frames with
    | .error e => .error e
    | .ok (t, left) =>
      let blocks := plan.flatMap (fun e => e.1.blocks s root) ++ tableBlocks s root (frames.take (frames.length - left.length)) ++
        [(rootPa, 131072), (own + ch.manBase, 131072)] ++ (if old.isNone then [(own + ch.logBase, (sectionOf f 4).size)] else [])
      if blocksFree (heldBlocks s) blocks = false then .error .barred
      else
        let t := placeManifest t f ch manPa
        let t := if old.isNone then placeLog t f logPa else t
        let p : Proc :=
          { vf := vf, asid := ptAsid root, ptRoot := root, codeBase := ch.codeBase, codeSize := (sectionOf f 1).size,
            manPa := manPa, manCount := (sectionOf f 3).size / 64, manCopy := manPa + 65536, logPa := logPa,
            lbSlots := (sectionOf f 4).size / 8, frames := left, bin := signedParts f, shared := shared, held := blocks }
        let id := t.fresh
        .ok (t.bump.modHost (fun h => { h with procs := Map.put h.procs id p }), ((logWords f).filter slotCleared).length)

/-- BINARY_LOAD: the checks in their order; a binary that fails one is reported and nothing of it is placed (R389). The loader
serves a module that is ready, takes an ASID that no process of the function holds, and chooses free ranges and free memory: another choice is
none of its own, and changes nothing (log 69). -/
def execBinaryLoad (vf : Nat) (file : List Byte) (ch : LoadChoice) (s : State) : Host.Outcome State Fault Refusal :=
  .next (if s.dev.ready = false ∨ s.host.procs.any (fun e => e.2.vf == vf && e.2.asid == ch.asid % 2 ^ 16) then s
    else
      let code := loadCode s vf file
      if code ≠ 0 then s.emit (.loadReport vf code 0)
      else match placeBinary s vf file ch with
        | .error .short => s.emit (.loadReport vf 6 0)
        | .error .barred => s
        | .ok (t, cleared) => t.emit (.loadReport vf 0 cleared))

/-! ### RESOURCE_MOVE (R383) -/

/-- The word of a process at an address, as its pages hold it, whatever its leaf allows and be the page on its way to another frame; the read
reaches its home (R73, R419, R423). -/
def procWord (s : State) (root : Word) (va : Nat) : State × Word :=
  match procPa s root va with
  | none => (s, 0)
  | some pa => pilotRead s pa

/-- The words of a process from an address on. -/
def procWords (s : State) (root : Word) (va n : Nat) : State × List Word :=
  (List.range n).foldl (fun (s, l) i => let (s, w) := procWord s root (va + 8 * i); (s, l ++ [w])) (s, [])

/-- RESOURCE_MOVE: the resource's bytes are copied, its new range is mapped and BASE is rewritten in the process manifest. A running launch
keeps its own copy; while a launch of the process is pre-empted no entry is rewritten (R383). -/
def execResourceMove (proc entry : Nat) (ch : LoadChoice) (s : State) : Host.Outcome State Fault Refusal :=
  let busy := s.host.launches.any fun e => e.2.proc == proc && e.2.stat == .preempted
  .next (match s.proc proc, ch.bases with
    | some p, base :: _ =>
      let e := (List.range 8).map fun j => readMem s (p.manPa + 64 * entry + 8 * j)
      let len := (e.getD 1 0).toNat
      if busy ∨ entry ≥ p.manCount ∨ len = 0 ∨ rangeUsed s p.ptRoot base (pagesFor len).1 (pagesFor len).2 then s
      else
        let (u, words) := procWords s p.ptRoot (e.getD 0 0).toNat ((len + 7) / 8)
        let bytes := (words.flatMap fun w => leBytes 8 w.toNat).take len
        let all := ch.frames ++ p.frames
        (match takePages s p.ptRoot all base len (resLeaf e) with
         | .error _ => s
         | .ok (pg, frames) =>
           match placePages u p.ptRoot [(pg, bytes)] frames with
           | .error _ => s
           | .ok (t, left) =>
             let blocks := pg.blocks s p.ptRoot ++ tableBlocks s p.ptRoot (frames.take (frames.length - left.length))
             if blocksFree (heldBlocks s) blocks = false then s
             else
               let t := loadWord t (p.manPa + 64 * entry) (.ofNat 64 base)
               t.modHost fun h => { h with procs := Map.put h.procs proc { p with frames := left, held := p.held ++ blocks } })
    | _, _ => s)

end Sys2Proof.Machine
end

