-- ==== Sys2Proof/Machine/Dispatch.lean ====
section
/-! DEFINITION. The dispatch of instructions and events to their meanings, one arm per constructor. -/

namespace Sys2Proof.Machine

def exec (i : Instr) (s : State) : Host.Outcome State Fault Refusal :=
  match i with
  | .add d a b => Sys2Proof.Machine.execAdd d a b s
  | .sub d a b => Sys2Proof.Machine.execSub d a b s
  | .mul d a b => Sys2Proof.Machine.execMul d a b s
  | .mulhI d a b => Sys2Proof.Machine.execMulhI d a b s
  | .mulhN d a b => Sys2Proof.Machine.execMulhN d a b s
  | .divI d a b => Sys2Proof.Machine.execDivI d a b s
  | .divN d a b => Sys2Proof.Machine.execDivN d a b s
  | .remI d a b => Sys2Proof.Machine.execRemI d a b s
  | .remN d a b => Sys2Proof.Machine.execRemN d a b s
  | .and d a b => Sys2Proof.Machine.execAnd d a b s
  | .or d a b => Sys2Proof.Machine.execOr d a b s
  | .xor d a b => Sys2Proof.Machine.execXor d a b s
  | .sll d a b => Sys2Proof.Machine.execSll d a b s
  | .srl d a b => Sys2Proof.Machine.execSrl d a b s
  | .sra d a b => Sys2Proof.Machine.execSra d a b s
  | .rol d a b => Sys2Proof.Machine.execRol d a b s
  | .ror d a b => Sys2Proof.Machine.execRor d a b s
  | .minI d a b => Sys2Proof.Machine.execMinI d a b s
  | .maxI d a b => Sys2Proof.Machine.execMaxI d a b s
  | .minN d a b => Sys2Proof.Machine.execMinN d a b s
  | .maxN d a b => Sys2Proof.Machine.execMaxN d a b s
  | .clz d a => Sys2Proof.Machine.execClz d a s
  | .ctz d a => Sys2Proof.Machine.execCtz d a s
  | .popc d a => Sys2Proof.Machine.execPopc d a s
  | .sext1 d a => Sys2Proof.Machine.execSext1 d a s
  | .sext2 d a => Sys2Proof.Machine.execSext2 d a s
  | .sext4 d a => Sys2Proof.Machine.execSext4 d a s
  | .zext1 d a => Sys2Proof.Machine.execZext1 d a s
  | .zext2 d a => Sys2Proof.Machine.execZext2 d a s
  | .zext4 d a => Sys2Proof.Machine.execZext4 d a s
  | .cmpEq d a b => Sys2Proof.Machine.execCmpEq d a b s
  | .cmpNe d a b => Sys2Proof.Machine.execCmpNe d a b s
  | .cmpLtI d a b => Sys2Proof.Machine.execCmpLtI d a b s
  | .cmpGeI d a b => Sys2Proof.Machine.execCmpGeI d a b s
  | .cmpLtN d a b => Sys2Proof.Machine.execCmpLtN d a b s
  | .cmpGeN d a b => Sys2Proof.Machine.execCmpGeN d a b s
  | .sel d a b c => Sys2Proof.Machine.execSel d a b c s
  | .bfx d a p l => Sys2Proof.Machine.execBfx d a p l s
  | .bfi d a p l => Sys2Proof.Machine.execBfi d a p l s
  | .fadd d a b => Sys2Proof.Machine.execFadd d a b s
  | .fmul d a b => Sys2Proof.Machine.execFmul d a b s
  | .fcmpEq d a b => Sys2Proof.Machine.execFcmpEq d a b s
  | .fcmpNe d a b => Sys2Proof.Machine.execFcmpNe d a b s
  | .fcmpLt d a b => Sys2Proof.Machine.execFcmpLt d a b s
  | .fcmpLe d a b => Sys2Proof.Machine.execFcmpLe d a b s
  | .fcvtF32I64 d a => Sys2Proof.Machine.execFcvtF32I64 d a s
  | .fcvtF32N64 d a => Sys2Proof.Machine.execFcvtF32N64 d a s
  | .fcvtF32F16 d a => Sys2Proof.Machine.execFcvtF32F16 d a s
  | .fcvtF32Bf16 d a => Sys2Proof.Machine.execFcvtF32Bf16 d a s
  | .fcvtI64F32 d a => Sys2Proof.Machine.execFcvtI64F32 d a s
  | .fcvtN64F32 d a => Sys2Proof.Machine.execFcvtN64F32 d a s
  | .fcvtF16F32 d a => Sys2Proof.Machine.execFcvtF16F32 d a s
  | .fcvtBf16F32 d a => Sys2Proof.Machine.execFcvtBf16F32 d a s
  | .ffma d a b c => Sys2Proof.Machine.execFfma d a b c s
  | .addi d a imm => Sys2Proof.Machine.execAddi d a imm s
  | .andi d a imm => Sys2Proof.Machine.execAndi d a imm s
  | .ori d a imm => Sys2Proof.Machine.execOri d a imm s
  | .xori d a imm => Sys2Proof.Machine.execXori d a imm s
  | .slli d a n => Sys2Proof.Machine.execSlli d a n s
  | .srli d a n => Sys2Proof.Machine.execSrli d a n s
  | .srai d a n => Sys2Proof.Machine.execSrai d a n s
  | .roli d a n => Sys2Proof.Machine.execRoli d a n s
  | .rori d a n => Sys2Proof.Machine.execRori d a n s
  | .ld1 d a imm => Sys2Proof.Machine.execLd1 d a imm s
  | .ld2 d a imm => Sys2Proof.Machine.execLd2 d a imm s
  | .ld4 d a imm => Sys2Proof.Machine.execLd4 d a imm s
  | .ld8 d a imm => Sys2Proof.Machine.execLd8 d a imm s
  | .st1 b a imm => Sys2Proof.Machine.execSt1 b a imm s
  | .st2 b a imm => Sys2Proof.Machine.execSt2 b a imm s
  | .st4 b a imm => Sys2Proof.Machine.execSt4 b a imm s
  | .st8 b a imm => Sys2Proof.Machine.execSt8 b a imm s
  | .ldIndex d a b z => Sys2Proof.Machine.execLdIndex d a b z s
  | .stIndex b a c z => Sys2Proof.Machine.execStIndex b a c z s
  | .ldRes d a n z => Sys2Proof.Machine.execLdRes d a n z s
  | .stRes b a n z => Sys2Proof.Machine.execStRes b a n z s
  | .ldAcq d a imm => Sys2Proof.Machine.execLdAcq d a imm s
  | .stRel b a imm => Sys2Proof.Machine.execStRel b a imm s
  | .amoAdd d a b z => Sys2Proof.Machine.execAmoAdd d a b z s
  | .amoAnd d a b z => Sys2Proof.Machine.execAmoAnd d a b z s
  | .amoOr d a b z => Sys2Proof.Machine.execAmoOr d a b z s
  | .amoXor d a b z => Sys2Proof.Machine.execAmoXor d a b z s
  | .amoMinI d a b z => Sys2Proof.Machine.execAmoMinI d a b z s
  | .amoMaxI d a b z => Sys2Proof.Machine.execAmoMaxI d a b z s
  | .amoMinN d a b z => Sys2Proof.Machine.execAmoMinN d a b z s
  | .amoMaxN d a b z => Sys2Proof.Machine.execAmoMaxN d a b z s
  | .amoSwap d a b z => Sys2Proof.Machine.execAmoSwap d a b z s
  | .famoAdd d a b => Sys2Proof.Machine.execFamoAdd d a b s
  | .cas d a b c z => Sys2Proof.Machine.execCas d a b c z s
  | .pref a imm => Sys2Proof.Machine.execPref a imm s
  | .beqz a o => Sys2Proof.Machine.execBeqz a o s
  | .bnez a o => Sys2Proof.Machine.execBnez a o s
  | .bltz a o => Sys2Proof.Machine.execBltz a o s
  | .bgez a o => Sys2Proof.Machine.execBgez a o s
  | .jal d o => Sys2Proof.Machine.execJal d o s
  | .jr d a imm => Sys2Proof.Machine.execJr d a imm s
  | .loop a o => Sys2Proof.Machine.execLoop a o s
  | .bexpMaj c o => Sys2Proof.Machine.execBexpMaj c o s
  | .bexpLast c o => Sys2Proof.Machine.execBexpLast c o s
  | .selxMaj d a b c => Sys2Proof.Machine.execSelxMaj d a b c s
  | .selxLast d a b c => Sys2Proof.Machine.execSelxLast d a b c s
  | .unrx d m c => Sys2Proof.Machine.execUnrx d m c s
  | .pfx d m c => Sys2Proof.Machine.execPfx d m c s
  | .start d a b => Sys2Proof.Machine.execStart d a b s
  | .spawn a b => Sys2Proof.Machine.execSpawn a b s
  | .depSet a b => Sys2Proof.Machine.execDepSet a b s
  | .depDec a => Sys2Proof.Machine.execDepDec a s
  | .helpres d a imm => Sys2Proof.Machine.execHelpres d a imm s
  | .semp k => Sys2Proof.Machine.execSemp k s
  | .semv k => Sys2Proof.Machine.execSemv k s
  | .mlock k => Sys2Proof.Machine.execMlock k s
  | .munlock k => Sys2Proof.Machine.execMunlock k s
  | .tshape t a => Sys2Proof.Machine.execTshape t a s
  | .tld t a p r imm => Sys2Proof.Machine.execTld t a p r imm s
  | .tst t a p r imm => Sys2Proof.Machine.execTst t a p r imm s
  | .tldT t a p r imm => Sys2Proof.Machine.execTldT t a p r imm s
  | .tgath t a x r imm => Sys2Proof.Machine.execTgath t a x r imm s
  | .tzero d e m => Sys2Proof.Machine.execTzero d e m s
  | .tfill d a e m => Sys2Proof.Machine.execTfill d a e m s
  | .tmov d a => Sys2Proof.Machine.execTmov d a s
  | .tseqCol d e m => Sys2Proof.Machine.execTseqCol d e m s
  | .tseqRow d e m => Sys2Proof.Machine.execTseqRow d e m s
  | .tseqLin d e m => Sys2Proof.Machine.execTseqLin d e m s
  | .tadd d a b y e m => Sys2Proof.Machine.execTadd d a b y e m s
  | .tsub d a b y e m => Sys2Proof.Machine.execTsub d a b y e m s
  | .tmul d a b y e m => Sys2Proof.Machine.execTmul d a b y e m s
  | .tmin d a b y e m => Sys2Proof.Machine.execTmin d a b y e m s
  | .tmax d a b y e m => Sys2Proof.Machine.execTmax d a b y e m s
  | .tabs d a y e m => Sys2Proof.Machine.execTabs d a y e m s
  | .tneg d a y e m => Sys2Proof.Machine.execTneg d a y e m s
  | .tand d a b y e m => Sys2Proof.Machine.execTand d a b y e m s
  | .tor d a b y e m => Sys2Proof.Machine.execTor d a b y e m s
  | .txor d a b y e m => Sys2Proof.Machine.execTxor d a b y e m s
  | .tsll d a b y e m => Sys2Proof.Machine.execTsll d a b y e m s
  | .tsrl d a b y e m => Sys2Proof.Machine.execTsrl d a b y e m s
  | .tsra d a b y e m => Sys2Proof.Machine.execTsra d a b y e m s
  | .tcmpEq d a b y e m => Sys2Proof.Machine.execTcmpEq d a b y e m s
  | .tcmpNe d a b y e m => Sys2Proof.Machine.execTcmpNe d a b y e m s
  | .tcmpLt d a b y e m => Sys2Proof.Machine.execTcmpLt d a b y e m s
  | .tcmpLe d a b y e m => Sys2Proof.Machine.execTcmpLe d a b y e m s
  | .tsel d a b k => Sys2Proof.Machine.execTsel d a b k s
  | .tfma d a b y c e m => Sys2Proof.Machine.execTfma d a b y c e m s
  | .tfms d a b y c e m => Sys2Proof.Machine.execTfms d a b y c e m s
  | .texp2 d a y e m => Sys2Proof.Machine.execTexp2 d a y e m s
  | .trcp d a y e m => Sys2Proof.Machine.execTrcp d a y e m s
  | .trsq d a y e m => Sys2Proof.Machine.execTrsq d a y e m s
  | .trsum d a y e m => Sys2Proof.Machine.execTrsum d a y e m s
  | .trmax d a y e m => Sys2Proof.Machine.execTrmax d a y e m s
  | .trmin d a y e m => Sys2Proof.Machine.execTrmin d a y e m s
  | .tcsum d a y e m => Sys2Proof.Machine.execTcsum d a y e m s
  | .tcmax d a y e m => Sys2Proof.Machine.execTcmax d a y e m s
  | .tcmin d a y e m => Sys2Proof.Machine.execTcmin d a y e m s
  | .tbcastRow d a e m => Sys2Proof.Machine.execTbcastRow d a e m s
  | .tbcastCol d a e m => Sys2Proof.Machine.execTbcastCol d a e m s
  | .tbcastOne d a e m => Sys2Proof.Machine.execTbcastOne d a e m s
  | .trng d a b => Sys2Proof.Machine.execTrng d a b s
  | .trngU d a b => Sys2Proof.Machine.execTrngU d a b s
  | .tcvt d a y => Sys2Proof.Machine.execTcvt d a y s
  | .tqnt d a b => Sys2Proof.Machine.execTqnt d a b s
  | .tdeq d a y => Sys2Proof.Machine.execTdeq d a y s
  | .fixmerge d a b => Sys2Proof.Machine.execFixmerge d a b s
  | .fixnorm d a => Sys2Proof.Machine.execFixnorm d a s
  | .mset m a => Sys2Proof.Machine.execMset m a s
  | .msetZ m a => Sys2Proof.Machine.execMsetZ m a s
  | .mand m x y => Sys2Proof.Machine.execMand m x y s
  | .mor m x y => Sys2Proof.Machine.execMor m x y s
  | .mnot m x => Sys2Proof.Machine.execMnot m x s
  | .mcnt d x => Sys2Proof.Machine.execMcnt d x s
  | .mtestAny d x => Sys2Proof.Machine.execMtestAny d x s
  | .mtestAll d x => Sys2Proof.Machine.execMtestAll d x s
  | .mtestBit d x a => Sys2Proof.Machine.execMtestBit d x a s
  | .tget t d a b => Sys2Proof.Machine.execTget t d a b s
  | .tput t d a b => Sys2Proof.Machine.execTput t d a b s
  | .mma c x a y b => Sys2Proof.Machine.execMma c x a y b s
  | .mmas c x a y b k j => Sys2Proof.Machine.execMmas c x a y b k j s
  | .mmab c x a y b k j => Sys2Proof.Machine.execMmab c x a y b k j s
  | .azero c => Sys2Proof.Machine.execAzero c s
  | .ald c a b => Sys2Proof.Machine.execAld c a b s
  | .ast c a b => Sys2Proof.Machine.execAst c a b s
  | .commit d => Sys2Proof.Machine.execCommit d s
  | .mmaw a k => Sys2Proof.Machine.execMmaw a k s
  | .swap t => Sys2Proof.Machine.execSwap t s
  | .cpsetSrc a => Sys2Proof.Machine.execCpsetSrc a s
  | .cpsetDst a => Sys2Proof.Machine.execCpsetDst a s
  | .cpsetExt a => Sys2Proof.Machine.execCpsetExt a s
  | .cpsetSs a => Sys2Proof.Machine.execCpsetSs a s
  | .cpsetDs a => Sys2Proof.Machine.execCpsetDs a s
  | .cpsetAttr a => Sys2Proof.Machine.execCpsetAttr a s
  | .cpsetBar a => Sys2Proof.Machine.execCpsetBar a s
  | .cpsetMask a => Sys2Proof.Machine.execCpsetMask a s
  | .copy d => Sys2Proof.Machine.execCopy d s
  | .copym d => Sys2Proof.Machine.execCopym d s
  | .barInit a b => Sys2Proof.Machine.execBarInit a b s
  | .barExpect a b => Sys2Proof.Machine.execBarExpect a b s
  | .barArrive d a => Sys2Proof.Machine.execBarArrive d a s
  | .barAck a => Sys2Proof.Machine.execBarAck a s
  | .barWait a b => Sys2Proof.Machine.execBarWait a b s
  | .sound d a b imm f q => Sys2Proof.Machine.execSound d a b imm f q s
  | .sndfill d a b => Sys2Proof.Machine.execSndfill d a b s
  | .snddot d a b imm f q => Sys2Proof.Machine.execSnddot d a b imm f q s
  | .fenceX src d => Sys2Proof.Machine.execFenceX src d s
  | .chartLd t a p imm => Sys2Proof.Machine.execChartLd t a p imm s
  | .chartWin d a => Sys2Proof.Machine.execChartWin d a s
  | .sysrd d n => Sys2Proof.Machine.execSysrd d n s
  | .syswr a n => Sys2Proof.Machine.execSyswr a n s
  | .trap a imm => Sys2Proof.Machine.execTrap a imm s
  | .feat d a imm => Sys2Proof.Machine.execFeat d a imm s
  | .mboxSend d a b => Sys2Proof.Machine.execMboxSend d a b s
  | .mboxRecv d => Sys2Proof.Machine.execMboxRecv d s
  | .tlbinvPage a => Sys2Proof.Machine.execTlbinvPage a s
  | .tlbinvRange a b => Sys2Proof.Machine.execTlbinvRange a b s
  | .cachecfg d a => Sys2Proof.Machine.execCachecfg d a s
  | .launch d a => Sys2Proof.Machine.execLaunch d a s
  | .tldx t a p imm => Sys2Proof.Machine.execTldx t a p imm s
  | .mma8x c x a y b => Sys2Proof.Machine.execMma8x c x a y b s
  | .hintLog src => Sys2Proof.Machine.execHintLog src s
  | .hintImm p => Sys2Proof.Machine.execHintImm p s
  | .hintSched l a => Sys2Proof.Machine.execHintSched l a s
  | .hintMod r => Sys2Proof.Machine.execHintMod r s
  | .hintUnknown p => Sys2Proof.Machine.execHintUnknown p s
  | .unassignedWord w => Sys2Proof.Machine.execUnassignedWord w s
  | .fieldsIllegal w => Sys2Proof.Machine.execFieldsIllegal w s
  | .ignoredHint w => Sys2Proof.Machine.execIgnoredHint w s
  | .divideComplete c r => Sys2Proof.Machine.execDivideComplete c r s
  | .logbookEntryFetch cell slot => Sys2Proof.Machine.execLogbookEntryFetch cell slot s
  | .matrixExecStart cell => Sys2Proof.Machine.execMatrixExecStart cell s
  | .matrixSegmentEnd cell => Sys2Proof.Machine.execMatrixSegmentEnd cell s
  | .swapExchange cell => Sys2Proof.Machine.execSwapExchange cell s
  | .matrixFaultReply cell reply => Sys2Proof.Machine.execMatrixFaultReply cell reply s
  | .copyStart op => Sys2Proof.Machine.execCopyStart op s
  | .copyPiecePerformed op k => Sys2Proof.Machine.execCopyPiecePerformed op k s
  | .copyFinish op => Sys2Proof.Machine.execCopyFinish op s
  | .copyArbRound cluster => Sys2Proof.Machine.execCopyArbRound cluster s
  | .barAckAtBank id => Sys2Proof.Machine.execBarAckAtBank id s
  | .barByteCount id => Sys2Proof.Machine.execBarByteCount id s
  | .soundStart op => Sys2Proof.Machine.execSoundStart op s
  | .qbcast op k => Sys2Proof.Machine.execQbcast op k s
  | .scan op k => Sys2Proof.Machine.execScan op k s
  | .scanYield op k => Sys2Proof.Machine.execScanYield op k s
  | .fixrd op k => Sys2Proof.Machine.execFixrd op k s
  | .fixRecordWrite op k => Sys2Proof.Machine.execFixRecordWrite op k s
  | .sndfillAtHome op => Sys2Proof.Machine.execSndfillAtHome op s
  | .fillw op => Sys2Proof.Machine.execFillw op s
  | .hbmRefresh stack collides => Sys2Proof.Machine.execHbmRefresh stack collides s
  | .retry stack => Sys2Proof.Machine.execRetry stack s
  | .chartRefreshEnd die bank => Sys2Proof.Machine.execChartRefreshEnd die bank s
  | .mboxArrival id => Sys2Proof.Machine.execMboxArrival id s
  | .mboxSendStatus id => Sys2Proof.Machine.execMboxSendStatus id s
  | .tlbinvComplete c => Sys2Proof.Machine.execTlbinvComplete c s
  | .cachecfgComplete cluster => Sys2Proof.Machine.execCachecfgComplete cluster s
  | .launchTokenComplete id => Sys2Proof.Machine.execLaunchTokenComplete id s
  | .trapEntry c => Sys2Proof.Machine.execTrapEntry c s
  | .barrelCycle core => Sys2Proof.Machine.execBarrelCycle core s
  | .spadBankCycle cluster bank => Sys2Proof.Machine.execSpadBankCycle cluster bank s
  | .storeAtHome id => Sys2Proof.Machine.execStoreAtHome id s
  | .storeOwned id => Sys2Proof.Machine.execStoreOwned id s
  | .revoke id => Sys2Proof.Machine.execRevoke id s
  | .atomicAtHome id => Sys2Proof.Machine.execAtomicAtHome id s
  | .lineFill core line => Sys2Proof.Machine.execLineFill core line s
  | .loadValueArrival id => Sys2Proof.Machine.execLoadValueArrival id s
  | .walkComplete id => Sys2Proof.Machine.execWalkComplete id s
  | .faultReply cell reply => Sys2Proof.Machine.execFaultReply cell reply s
  | .taskDispatch core => Sys2Proof.Machine.execTaskDispatch core s
  | .stealProbe core => Sys2Proof.Machine.execStealProbe core s
  | .depDecRemote id => Sys2Proof.Machine.execDepDecRemote id s
  | .hostLaunchRecord vf q tag => Sys2Proof.Machine.execHostLaunchRecord vf q tag s
  | .launchRecordStart vf q => Sys2Proof.Machine.execLaunchRecordStart vf q s
  | .wake cell => Sys2Proof.Machine.execWake cell s
  | .cellPartEnd cell => Sys2Proof.Machine.execCellPartEnd cell s
  | .hostApertureWrite vf ap off bytes => Sys2Proof.Machine.execHostApertureWrite vf ap off bytes s
  | .hostApertureRead vf ap off len => Sys2Proof.Machine.execHostApertureRead vf ap off len s
  | .hostAtomicop vf ap off size op p cmp => Sys2Proof.Machine.execHostAtomicop vf ap off size op p cmp s
  | .registerWrite reg v => Sys2Proof.Machine.execRegisterWrite reg v s
  | .extentRelease base len => Sys2Proof.Machine.execExtentRelease base len s
  | .extentForcedRemoval base len => Sys2Proof.Machine.execExtentForcedRemoval base len s
  | .extentAdd base len => Sys2Proof.Machine.execExtentAdd base len s
  | .preemptRequest launch => Sys2Proof.Machine.execPreemptRequest launch s
  | .timeSliceExpiry vf => Sys2Proof.Machine.execTimeSliceExpiry vf s
  | .resume launch place => Sys2Proof.Machine.execResume launch place s
  | .hardwareFault u => Sys2Proof.Machine.execHardwareFault u s
  | .flitCrcFail link => Sys2Proof.Machine.execFlitCrcFail link s
  | .retransmitLimit link vfs => Sys2Proof.Machine.execRetransmitLimit link vfs s
  | .linkDown link => Sys2Proof.Machine.execLinkDown link s
  | .hostMarkRequest pilot => Sys2Proof.Machine.execHostMarkRequest pilot s
  | .markLatch block => Sys2Proof.Machine.execMarkLatch block s
  | .hostResumeStop launch => Sys2Proof.Machine.execHostResumeStop launch s
  | .hostDumpRead cell => Sys2Proof.Machine.execHostDumpRead cell s
  | .profileSessionOpen vf events => Sys2Proof.Machine.execProfileSessionOpen vf events s
  | .binaryLoad vf file ch => Sys2Proof.Machine.execBinaryLoad vf file ch s
  | .resourceMove proc entry ch => Sys2Proof.Machine.execResourceMove proc entry ch s
  | .pageMigration cell core va frame => Sys2Proof.Machine.execPageMigration cell core va frame s
  | .errorInject word hard => Sys2Proof.Machine.execErrorInject word hard s
  | .keySlotReplace slot material => Sys2Proof.Machine.execKeySlotReplace slot material s
  | .pilotFirmwareReplace fw => Sys2Proof.Machine.execPilotFirmwareReplace fw s
  | .clusterFence cluster => Sys2Proof.Machine.execClusterFence cluster s
  | .pseudoChannelRecal stack pch => Sys2Proof.Machine.execPseudoChannelRecal stack pch s
  | .linkRecal link => Sys2Proof.Machine.execLinkRecal link s
  | .chartBankRetire die bank => Sys2Proof.Machine.execChartBankRetire die bank s
  | .powerOn devno mscSize boot => Sys2Proof.Machine.execPowerOn devno mscSize boot s
  | .powerLimit exceeds => Sys2Proof.Machine.execPowerLimit exceeds s
  | .dieOvertemp die => Sys2Proof.Machine.execDieOvertemp die s
  | .dieCriticalTemp die => Sys2Proof.Machine.execDieCriticalTemp die s
  | .tileOpComplete cell id => Sys2Proof.Machine.execTileOpComplete cell id s
  | .hbmWritebackAck line => Sys2Proof.Machine.execHbmWritebackAck line s
  | .linkRecalEnd link => Sys2Proof.Machine.execLinkRecalEnd link s
  | .hwfaultRecovery u => Sys2Proof.Machine.execHwfaultRecovery u s
  | .hostEndsLaunch launch => Sys2Proof.Machine.execHostEndsLaunch launch s
  | .retire => Sys2Proof.Machine.execRetire s
  | .fenceAcq => Sys2Proof.Machine.execFenceAcq s
  | .fenceRel => Sys2Proof.Machine.execFenceRel s
  | .fenceSc => Sys2Proof.Machine.execFenceSc s
  | .eret => Sys2Proof.Machine.execEret s
  | .halt => Sys2Proof.Machine.execHalt s
  | .mark => Sys2Proof.Machine.execMark s
  | .tlbinvAll => Sys2Proof.Machine.execTlbinvAll s
  | .nop => Sys2Proof.Machine.execNop s
  | .markInEdge => Sys2Proof.Machine.execMarkInEdge s

end Sys2Proof.Machine
end

