-- ==== Sys2Proof/Machine/Turn.lean ====
section
/-! DEFINITION. A context's turn (R180, R181, R331, R358, R401), and what happens when neither a turn nor a scheduled event
is due: the first internal event that can happen, in a fixed order, and otherwise a cycle of a core (DESIGN CHOICE, log 1). -/

namespace Sys2Proof.Machine

/-! ### A turn -/

/-- The matrix queue of a cell still runs instructions that a resumption brought back: no A core context of the cell takes a
turn (R331). -/
def heldByQueue (s : State) (c : Nat) : Bool := kindOf c == .a && (s.cell (cellOf c)).mq.any (·.resumed)

/-- A context stops precisely before its unit and is reported under the lowest register that matches; with ALLSTOP in any of them every other
context of its launch stops at its own next boundary. It does not match again once resumed (R400, R401). -/
def stopAtBreakpoint (s : State) (c i : Nat) : State :=
  let x := s.ctx c
  let s := s.emit (.stopReport c (ctxName s c) x.pc i)
  let all := (bkptHits s c).any fun j => (Map.at s.dev.bkpt (ptVf (s.cell (cellOf c)).ptRoot * 4 + j) 0).getLsbD 62
  let s := stopContext (s.setCtx c { x with bkHit := true, bkSkip := true }) c
  if ¬ all then s
  else match launchOf s (cellOf c) with
    | none => s
    | some l => (((runningCells s l).map l.placeOf).flatMap ctxsOfCell).foldl (fun s d =>
        let y := s.ctx d
        if y.stat = .eligible ∨ y.stat = .parked then s.setCtx d { y with bkHit := true } else s) (s.setLaunch { l with allStop := true })

/-- An instruction of the table of R213 that transfers in units, which a pre-emption may stop at one of them; or a hint before it. -/
def stopsAtUnit : Instr → Bool
  | .tld _ _ _ _ _ | .tst _ _ _ _ _ | .tldT _ _ _ _ _ | .tgath _ _ _ _ _ | .tldx _ _ _ _ => true
  | .hintLog _ | .hintImm _ | .hintSched _ _ | .hintMod _ | .hintUnknown _ | .ignoredHint _ => true
  | _ => false

/-- A turn that only passed: the context stands before its instruction, which has not issued. -/
def idled (s t : State) (c : Nat) : Bool :=
  let x := s.ctx c
  let y := t.ctx c
  y.stat == .eligible && y.pc == x.pc && y.hints == x.hints && y.block == .none && y.spadReq.isNone && y.ticket.isNone

/-- Runs a word that was fetched. A context that is to stop issues only what it may still issue, and one whose instruction has to wait stops
before it (R371, R401). -/
def runWord (c : Nat) (w : IWord) (s : State) : Host.Outcome State Fault Refusal :=
  if stopDue s c = false then exec (decode w) s
  else if (s.ctx c).midUnit = false ∧ stopsAtUnit (decode w) = false then .next (stopContext s c)
  else match exec (decode w) s with
    | .next t => .next (if idled s t c then stopContext t c else t)
    | o => o

/-- Fetches at the PC and runs the word; a breakpoint that matches stops the context first, unless its instruction has issued (R400). -/
def issueTurn (c : Nat) (s : State) : Host.Outcome State Fault Refusal :=
  match (if (s.ctx c).midInstr then none else bkptHit s c) with
  | some i => .next (stopAtBreakpoint s c i)
  | none =>
    match fetch s c with
    | .stop t => .next (if stopDue t c && idled s t c then stopContext t c else t)
    | .word w t => runWord c w t

/-- A resumed context with failed stores reports the oldest; with none left it goes on (R72). -/
def tellFailed (s : State) (c : Nat) : State :=
  match (s.ctx c).failed with
  | f :: _ => reportFailed s c f
  | [] => s.modCtx c fun x => { x with tell := false }

/-- What comes before a turn of context c: events that its core's instructions recorded outside their turns reach the logbook cache (R275), and
the gathers of its cell go on (R116). -/
def turnBegins (c : Nat) (s : State) : State :=
  freshUnit { gathersGoOn (flushLate s (cellOf c) (some (coreOf c))) (cellOf c) with cur := c } c

/-- The turn of context c, which the barrel or its bank has granted. A context that is no longer ELIGIBLE loses it (R181). -/
def turn (c : Nat) (s : State) : Host.Outcome State Fault Refusal :=
  let s := turnBegins c s
  let x := s.ctx c
  let stops := stopDue s c && !x.midUnit
  if x.stat ≠ .eligible then .next s
  else if heldByQueue s c then .next (if stops then stopContext s c else s)
  else if x.pendStop.isSome then .next (tryHalt s c)
  else if x.pendTrap ≠ [] ∧ x.midInstr = false then execTrapEntry c s
  else if stops ∧ x.midStop = false then .next (stopContext s c)
  else if x.tell then .next (tellFailed s c)
  else issueTurn c s

/-! ### The default order of events (DESIGN CHOICE, log 1) -/

/-- The state after an event. -/
def after (o : Host.Outcome State Fault Refusal) (s : State) : State :=
  match o with
  | .next t => t
  | .fault _ => s
  | .refused _ => s

/-- The first event of a list that changes the state. -/
def firstChange (s : State) : List (State → Host.Outcome State Fault Refusal) → Option State
  | [] => none
  | f :: r => let t := after (f s) s
              if t = s then firstChange s r else some t

/-- Banks with an access that waits or is presented. -/
def busyBanks (s : State) : List (Nat × Nat) :=
  s.clusters.flatMap fun g => (g.2.banks.filter fun b =>
    !b.2.present.isEmpty || !b.2.forfeit.isEmpty || !b.2.engine.isEmpty).map fun b => (g.1, b.1)

/-- The events of the memory system: banks, stores, atomics, loads, fills, walks, divisions, tile writes. -/
def memoryEvents (s : State) : List (State → Host.Outcome State Fault Refusal) :=
  ((busyBanks s).map fun b => execSpadBankCycle b.1 b.2) ++
  (s.accs.map fun a => match a.phase with
    | .sent => (match a.op with
      | .read => execLoadValueArrival a.id
      | .write _ _ => execStoreAtHome a.id
      | _ => execAtomicAtHome a.id)
    | .revoking _ => execRevoke a.id
    | .accepted => execStoreAtHome a.id
    | .performed => execStoreOwned a.id) ++
  (s.cores.flatMap fun k => k.2.fills.map fun l => execLineFill k.1 l.1) ++
  (s.walks.map fun w => execWalkComplete w.id) ++
  (s.ctxs.flatMap fun c => c.2.divs.map fun d => execDivideComplete c.1 d.1) ++
  (s.cells.flatMap fun n => n.2.pend.map fun p => execTileOpComplete n.1 p.id)

/-- The events of the matrix engines, copy engines and sounders. -/
def engineEvents (s : State) : List (State → Host.Outcome State Fault Refusal) :=
  ((s.cells.filter fun n => !n.2.mq.isEmpty).flatMap fun n =>
    [execMatrixExecStart n.1, execMatrixSegmentEnd n.1, execSwapExchange n.1]) ++
  (s.posts.map fun p => match p.op with
    | .barAck => execBarAckAtBank p.id
    | _ => execBarByteCount p.id) ++
  (s.ops.flatMap fun o => match o.kind with
    | .copy | .copym =>
      execCopyStart o.id :: (o.pieces.map fun p => execCopyPiecePerformed o.id p.idx) ++ [execCopyFinish o.id]
    | .sndfill => [execSndfillAtHome o.id, execFillw o.id]
    | _ => execSoundStart o.id :: (List.range o.banks.length).flatMap fun k =>
        [execQbcast o.id k, execScanYield o.id k, execScan o.id k, execFixrd o.id k, execFixRecordWrite o.id k]) ++
  (((s.ops.filter fun o => o.todo != 0).map fun o => clusterOfCell (cellOf o.ctx)).eraseDups.map execCopyArbRound)

/-- The events of messages, system instructions, tasks and launches. -/
def controlEvents (s : State) : List (State → Host.Outcome State Fault Refusal) :=
  (s.dev.refresh.map execRetry) ++
  (s.mboxes.flatMap fun m => [execMboxArrival m.id, execMboxSendStatus m.id]) ++
  (s.reqs.map fun r => execLaunchTokenComplete r.id) ++
  (s.depMsgs.map fun m => execDepDecRemote m.id) ++
  (s.ctxs.flatMap fun c => match c.2.block with
    | .tlbinv _ _ _ => [execTlbinvComplete c.1]
    | .cachecfg _ => [execCachecfgComplete (clusterOfCell (cellOf c.1))]
    | .writebacks l => l.map execHbmWritebackAck
    | _ => []) ++
  (s.cells.flatMap fun n => (n.2.log.filter (·.fetching)).map fun e => execLogbookEntryFetch n.1 e.slot) ++
  ((s.cells.filter fun n => !n.2.deque.isEmpty).flatMap fun n =>
    ((List.range 3).map fun k => execTaskDispatch (3 * n.1 + k)) ++ (stealers s n.1).map execStealProbe) ++
  (idleProbers s).map execStealProbe ++
  (s.host.queues.map fun q => execLaunchRecordStart (q.1 / 256) (q.1 % 256)) ++
  (s.cells.flatMap fun n => (if n.2.wakes.isEmpty then [] else [execWake n.1]) ++
    (if n.2.launch.isSome then [execCellPartEnd n.1] else [])) ++
  (s.dev.marking.map execMarkLatch) ++
  ((s.host.launches.filter fun e => e.2.stopping).map fun e => execPreemptRequest e.1) ++
  ((s.clusters.filter fun g => g.2.fencing).map fun g => execClusterFence g.1) ++
  ((s.mem.extents.filter (·.releasing)).map fun e => execExtentRelease e.base e.len) ++
  (s.host.moves.map fun m => fun s => .next (moveOn s m))

/-- The chart banks that something waits for: loads, fills, tile reads and pieces of copies. -/
def chartWaits (s : State) : List (Nat × Nat) :=
  let locs := (s.accs.map (·.loc)) ++ (s.cores.flatMap fun k => k.2.fills.map fun l => locOfKey (l.1 * 64)) ++
    (s.ops.flatMap fun o => o.pieces.flatMap fun p => if p.performed then [] else (pieceSrc o p).take 1)
  (locs.filterMap fun l => match l with
    | .chart d q => some (d, q / 2 ^ 16)
    | _ => none) ++ s.cells.flatMap fun n => n.2.pend.flatMap (·.chart)

/-- When no core acts, time goes to the end of a refresh that something waits for (R65). -/
def idleEvents (s : State) : List (State → Host.Outcome State Fault Refusal) :=
  (chartWaits s).map fun e => execChartRefreshEnd e.1 e.2

/-- The next state when nothing is scheduled: an internal event, or a core's cycle, or nothing at all (DESIGN CHOICE, log 1). -/
def defaultStep (s : State) : State :=
  match firstChange s (memoryEvents s) with
  | some t => t
  | none => match firstChange s (engineEvents s) with
    | some t => t
    | none => match firstChange s (controlEvents s) with
      | some t => t
      | none => match (activeCores s).find? (coreDue s) with
        | some k => after (execBarrelCycle k s) s
        | none => (firstChange s (idleEvents s)).getD s

/-! ### A word placed where the next step fetches (the host's probe) -/

/-- The context 0 that may run an opcode: the A core's, the C core's or the M core's (R230). -/
def probeCtx (op : Nat) : Nat :=
  match opOwner op with
  | some .c => 11
  | some .m => 22
  | _ => 0

/-- A code page's translation for the probe: executable, at frame 1 of this device's memory under key 0. -/
def probeTlb (s : State) : TlbEnt :=
  { vf := 0, asid := 0, vpn := 1, level := 3, leaf := .ofNat 64 (s.dev.devno * 2 ^ 43 + 2 ^ 11 + 0x17) }

/-- Places a word at the PC of a context and makes its turn the next step's. -/
def placeWord (s : State) (w : Nat) : State :=
  let c := probeCtx (w % 2 ^ 32 / 2 ^ 25)
  let a := s.dev.devno * 2 ^ 45 + 0x10000
  let s := s.modCell 0 fun x => { x with ptRoot := 0, codeBase := 0x10000, codeSize := 65536 }
  let s := s.modCore (coreOf c) fun k => { k with itlb := [probeTlb s], icache := Map.drop k.icache (a / 64) }
  let s := s.modCtx c fun x =>
    { x with stat := .eligible, park := .none, pc := 0x10000, pendTrap := [], pendStop := none, bkHit := false, bkSkip := true,
             tell := false }
  let s := s.modDev fun d =>
    { d with keys := (match Map.find d.keys 0 with
               | some _ => d.keys
               | none => Map.put d.keys 0 1), off := false }
  let s := s.modMem fun m =>
    { m with ram := m.ram.setWord a (.ofNat 64 (w % 2 ^ 32)), keyed := Map.drop m.keyed (a / 64),
             written := m.written.add a (a + 64), slines := Map.drop m.slines (a / 64), poison := m.poison.filter (· != a) }
  { s with turns := [c] }

end Sys2Proof.Machine
end

