-- ==== Sys2Proof/Machine/Step.lean ====
section
/-! DEFINITION. One step of the machine. -/

namespace Sys2Proof.Machine

/-- One step. A module without power takes only POWER_ON (R415, R416). Otherwise a granted turn comes first; then the head of
the agenda, which must be a well-formed event; then the machine's own next event (DESIGN CHOICE, log 1). -/
def step (s : State) : Host.Outcome State Fault Refusal :=
  match s.dev.off, s.turns, s.agenda with
  | true, _, .powerOn n m b :: rest => exec (.powerOn n m b) { s with agenda := rest }
  | true, _, _ => .fault .powerCut
  | false, c :: rest, _ => turn c { s with turns := rest }
  | false, [], i :: rest =>
    if i.isEvent && i.wellFormed then exec i { s with agenda := rest } else .refused .illFormedEvent
  | false, [], [] => .next (defaultStep s)

/-- The state with an instruction's word placed where the next step fetches (DEDUCED, log 6). -/
def State.withFetchWord (s : State) (_nbits w : Nat) : State := placeWord s w

end Sys2Proof.Machine
end

