-- ==== Sys2Proof/Safety.lean ====
section
/-! DEFINITION. What counts as a safe run, and the terms in which claims speak of the machine: when an instruction meets no
check and no wait, what a completed instruction leaves alone, and where the PC goes. -/

namespace Sys2Proof.Machine

/-! ### Runs and the form of memory -/

/-- Memory in canonical form, in every part of the state that holds bytes of memory: RAM, every scratchpad, every tile register, and the
images of launches that were pre-empted here or brought by the host (DESIGN CHOICE, log 3). -/
def State.memWf (s : State) : Bool :=
  Memory.wf s.mem.ram && s.clusters.all (fun g => Memory.wf g.2.spad) &&
    s.cells.all (fun n => tilesWf n.2) &&
    s.host.images.all (fun m => m.2.memWf) && s.host.brought.all (·.memWf)

/-- A step that goes on. -/
def goesTo (s t : State) : Prop := step s = .next t

/-- A state that the machine reaches from s. -/
inductive Reaches (s : State) : State → Prop where
  | here : Reaches s s
  | next (t u : State) : Reaches s t → goesTo t u → Reaches s u

/-! ### Before an instruction -/

/-- The checks of `Decode` that depend on the context pass (R231, R237), no source or destination awaits a result (R105), and
every synchronised source is full (R219). Sources are field values: 32 and above carries the S bit. -/
structure Clear (s : State) (op : Nat) (owner : Option CoreKind) (srcs plain : List Nat) : Prop where
  shown : featHidden s s.cur op = false
  home  : owner = none ∨ owner = some (kindOf s.cur)
  idle  : ∀ r, r ∈ plain ∨ r ∈ srcs.map (· % 32) → s.me.isBusy r = false
  full  : ∀ a ∈ srcs, 32 ≤ a → s.me.isFull (a % 32) = true

/-- The instruction that stands at the PC ends a live hardware loop's body (R266). -/
def AtLoopEnd (s : State) (c : Nat) : Prop :=
  fieldN (s.ctx c).loopSl 25 1 = 1 ∧ wordOff s c (s.ctx c).pc = fieldN (s.ctx c).loopPc 32 32

/-- Its completion exits a hardware loop that is bound to a logbook slot, which records the trip count (R266, R274). -/
def LogsLoop (s : State) (c : Nat) : Prop :=
  AtLoopEnd s c ∧ fieldN (s.ctx c).loopCnt 0 32 ≤ 1 ∧ fieldN (s.ctx c).loopSl 24 1 = 1

/-- The operations whose completion the synchronised reads of these sources observe (R106, R139). -/
def observed (x : Ctx) (srcs : List Nat) : List Nat :=
  (x.filled.filter fun e => (sMask srcs).getLsbD e.1).map (·.2)

/-- The full bits that an instruction which has issued clears when it completes (R219). -/
def heldBits (x : Ctx) (by_ : ClearBy) : BitVec 32 :=
  match x.clears.find? (·.1 == by_) with
  | some e => e.2
  | none => 0

/-! ### After an instruction -/

/-- The scalar registers of the running context after an instruction that writes sd: other registers keep their values, and
their full bits but for those of synchronised sources, which are cleared (R219). -/
structure RegsKept (s t : State) (srcs : List Nat) (d : Nat) : Prop where
  values : ∀ r, r < 32 → r ≠ d → t.me.reg r = s.me.reg r
  fulls  : ∀ r, r < 32 → r ≠ 0 → r ≠ d → t.me.isFull r = (s.me.isFull r && !srcs.contains (r + 32))
  busy   : ∀ r, r < 32 → r ≠ d → t.me.isBusy r = s.me.isBusy r

/-- The rest of the running context: every special register is kept but for WAYPT, the loop registers, which the loop-back step
changes (R266), and what the caller names; the hint latch is discarded (R229). -/
structure SpecialsButWay (s t : State) : Prop where
  latch  : t.me.hints = [] ∧ t.me.ignoring = false
  loopPc : t.me.loopPc = s.me.loopPc
  traps  : t.me.trCause = s.me.trCause ∧ t.me.trPc = s.me.trPc ∧ t.me.trVa = s.me.trVa ∧ t.me.trWay = s.me.trWay ∧
    t.me.trLoop = s.me.trLoop ∧ t.me.trVec = s.me.trVec ∧ t.me.trScr = s.me.trScr ∧ t.me.pendTrap = s.me.pendTrap ∧
    t.me.pendStop = s.me.pendStop
  copy   : t.me.cp = s.me.cp
  boxes  : t.me.mbox = s.me.mbox ∧ t.me.mbFrom = s.me.mbFrom ∧ t.me.mbatch = s.me.mbatch
  run    : t.me.stat = s.me.stat ∧ t.me.task = s.me.task ∧ t.me.failed = s.me.failed

/-- The same, and of WAYPT only ARM changes: it is consumed (R216). -/
structure SpecialsKept (s t : State) : Prop extends SpecialsButWay s t where
  arm    : t.me.waypt = setField s.me.waypt 59 1 0

/-- An aligned word that shares no line of memory with the word at `p`. -/
def AwayFrom (p : Nat) (l : Loc) : Prop :=
  ∀ q, l = .mem q → q % 8 = 0 ∧ paAddr q / 64 ≠ paAddr p / 64 ∧ paAddr q / 64 ≠ paAddr p / 64 + 1

/-- The state at the moment at which an instruction's synchronised reads have observed their operations: nothing of it differs but the count of
moments (R106). -/
def afterReads (s : State) (srcs : List Nat) : State := { s with fresh := (observe s s.cur (sMask srcs)).fresh }

/-- What completes outside the running context, when the instruction has no effect of its own there: other contexts, other
cores, engines, scratchpads and device registers stay; the own core changes only by the acquire of an observed operation
(R106); host state changes only in profiling counters (R406). Cells, memory, and the counts of missing keys and corrected errors change only
when a bound loop exits; then at most one word n of the logbook image is merged at its home (R276), and every aligned word outside
its line reads as before, or as it does once the home has been reached for that word (its slice may give up another line, R55). Other
cores keep every cached word. -/
structure OutsideKept (s t : State) (srcs : List Nat) : Prop where
  rest     : t = { s with ctxs := t.ctxs, cores := t.cores, cells := t.cells, mem := t.mem, fresh := t.fresh, host := t.host,
                          dev := t.dev }
  others   : ∀ j, j ≠ s.cur → t.ctx j = s.ctx j
  cores    : ∀ k, k ≠ coreOf s.cur ∨ observed s.me srcs = [] →
    (¬ LogsLoop s s.cur → t.core k = s.core k) ∧ (t.core k).icache = (s.core k).icache ∧ ∀ l, cacheWord t k l = cacheWord s k l
  counters : t.host = { s.host with counters := t.host.counters }
  keys     : t.dev = { s.dev with keyMiss := t.dev.keyMiss, ceCount := t.dev.ceCount }
  still    : ¬ LogsLoop s s.cur → t.cells = s.cells ∧ t.mem = s.mem ∧ t.dev = s.dev ∧ (observed s.me srcs = [] → t.fresh = s.fresh)
  chart    : t.mem.chart = s.mem.chart
  words    : (∀ l, readLoc t l = readLoc s l) ∨
    ∃ n, (n = fieldN s.me.loopSl 0 24 ∨ n ∈ s.myCell.log.map (·.slot)) ∧ ∀ l, AwayFrom (slotPa s (cellOf s.cur) n) l →
      readLoc t l = readLoc (plainTouch (afterReads s srcs) (slotPa s (cellOf s.cur) n) (clusterOfCell (cellOf s.cur))) l

/-- Fall-through (R266): away from a loop's end the PC moves to the next word; at the end of a body with trips left it moves
to the body's start and the trip count moves; at the last trip the loop ends. -/
structure FallsThrough (s t : State) : Prop where
  plain : ¬ AtLoopEnd s s.cur → t.me.pc = s.me.pc + 4 ∧ t.me.loopCnt = s.me.loopCnt ∧ t.me.loopSl = s.me.loopSl
  back  : AtLoopEnd s s.cur → 1 < fieldN s.me.loopCnt 0 32 →
            t.me.pc = codeAddr s s.cur (fieldN s.me.loopPc 0 32) ∧ t.me.loopSl = s.me.loopSl ∧
            fieldN t.me.loopCnt 0 32 = fieldN s.me.loopCnt 0 32 - 1
  exit  : AtLoopEnd s s.cur → fieldN s.me.loopCnt 0 32 ≤ 1 →
            t.me.pc = s.me.pc + 4 ∧ fieldN t.me.loopCnt 0 32 = 0 ∧ fieldN t.me.loopSl 25 1 = 0

/-- A taken branch, a jump or a return: the PC is the target, and no loop-back step is taken (R266). -/
structure Jumps (s t : State) (target : Word) : Prop where
  pc   : t.me.pc = target
  loop : t.me.loopCnt = s.me.loopCnt ∧ t.me.loopSl = s.me.loopSl

/-- An instruction completes with v in sd and nothing else: s0 discards it (R8, R238). -/
def YieldsReg (i : Instr) (s : State) (srcs : List Nat) (d : BitVec 5) (v : Word) : Prop :=
  ∃ t, exec i s = .next t ∧ t.me.reg d.toNat = (if d = 0 then 0 else v) ∧ t.me.isFull d.toNat = true ∧
    t.me.isBusy d.toNat = s.me.isBusy d.toNat ∧
    RegsKept s t srcs d.toNat ∧ SpecialsKept s t ∧ OutsideKept s t srcs ∧ FallsThrough s t

/-! ### Traps -/

/-- A trap can be taken now: none is being handled and the context has a handler (R358). -/
def CanTrap (s : State) : Prop := fieldN s.me.trCause 40 1 = 0 ∧ s.me.trVec ≠ 0

/-- The running context has entered its handler (R356, R358): the cause, the PC of the trapping unit, the address, WAYPT (as
`way` gives it) and LOOPSL are saved, WAYPT is 0, the loop is inactive, the latch is empty and the PC stands at TRVEC. Registers,
full bits and everything outside the context stay, but for what the instruction's synchronised reads observed; memory is that of `m`. -/
structure EntersHandler (s t : State) (code : Nat) (va : Word) (kind : Nat) (way : Word) (m : State := s) : Prop where
  cause  : t.me.trCause = .ofNat 64 (2 ^ 40 + kind % 4 * 2 ^ 32 + code % 256)
  saved  : t.me.trPc = s.me.groupPc ∧ t.me.trVa = va ∧ t.me.trWay = way ∧ t.me.trLoop = s.me.loopSl
  now    : t.me.waypt = 0 ∧ t.me.loopSl = setField s.me.loopSl 25 1 0 ∧ t.me.pc = .ofNat 64 (s.me.trVec.toNat / 4 * 4) ∧
    t.me.hints = [] ∧ t.me.ignoring = false
  kept   : t.me.regs = s.me.regs ∧ t.me.full = s.me.full ∧ t.me.stat = s.me.stat ∧ t.me.loopPc = s.me.loopPc ∧
    t.me.loopCnt = s.me.loopCnt ∧ t.me.trVec = s.me.trVec ∧ t.me.trScr = s.me.trScr ∧ t.me.cp = s.me.cp
  rest   : t = { m with ctxs := t.ctxs, cores := t.cores, fresh := t.fresh, host := { s.host with counters := t.host.counters } }
  others : ∀ j, j ≠ s.cur → t.ctx j = s.ctx j
  cores  : ∀ k, k ≠ coreOf s.cur → t.core k = s.core k

/-- An instruction takes a trap before any effect, with ARM left as it stands (R209, R231). -/
def TrapsAtDecode (i : Instr) (s : State) (code : Nat) : Prop :=
  ∃ t, exec i s = .next t ∧ EntersHandler s t code 0 0 s.me.waypt

/-- An issued instruction takes a trap, having consumed ARM (R216). -/
def TrapsIssued (i : Instr) (s : State) (code : Nat) (va : Word) (kind : Nat) (m : State := s) : Prop :=
  ∃ t, exec i s = .next t ∧ EntersHandler s t code va kind (setField s.me.waypt 59 1 0) m

/-! ### Scalar memory instructions -/

/-- What a scalar load, store or atomic asks: its opcode, its source fields, its destination, its operand and its size. -/
structure MemForm where
  op   : Nat
  srcs : List Nat
  dest : BitVec 5
  addr : MemOperand
  size : Nat

/-- The loads in their operand forms (R222, R239, R252, R254): base and scaled immediate, base and index, or an offset into a
manifest entry. -/
def loadForm (s : State) : Instr → Option MemForm
  | .ld1 d a i => some ⟨0x10, [a.toNat], d, .ok (s.me.reg (a.toNat % 32) + wordOfInt (s.me.imm i)), 1⟩
  | .ld2 d a i => some ⟨0x11, [a.toNat], d, .ok (s.me.reg (a.toNat % 32) + wordOfInt (s.me.imm i * 2)), 2⟩
  | .ld4 d a i => some ⟨0x12, [a.toNat], d, .ok (s.me.reg (a.toNat % 32) + wordOfInt (s.me.imm i * 4)), 4⟩
  | .ld8 d a i => some ⟨0x13, [a.toNat], d, .ok (s.me.reg (a.toNat % 32) + wordOfInt (s.me.imm i * 8)), 8⟩
  | .ldIndex d a b z =>
    some ⟨0x18, [a.toNat, b.toNat], d, .ok (s.me.reg (a.toNat % 32) + s.me.reg (b.toNat % 32)), 2 ^ z.toNat⟩
  | .ldRes d a n z => some ⟨0x1A, [a.toNat], d, resAddr s s.cur n.toNat (s.me.reg (a.toNat % 32)) (2 ^ z.toNat) .read, 2 ^ z.toNat⟩
  | .ldAcq d a i => some ⟨0x1C, [a.toNat], d, .ok (s.me.reg (a.toNat % 32) + wordOfInt (s.me.imm i * 8)), 8⟩
  | _ => none

/-- The stores in their operand forms (R253, R254), and the value stored. A store has no destination. -/
def storeForm (s : State) : Instr → Option (MemForm × Word)
  | .st1 b a i => some (⟨0x14, [b.toNat, a.toNat], 0, .ok (s.me.reg a.toNat + wordOfInt (s.me.imm i)), 1⟩, s.me.reg (b.toNat % 32))
  | .st2 b a i => some (⟨0x15, [b.toNat, a.toNat], 0, .ok (s.me.reg a.toNat + wordOfInt (s.me.imm i * 2)), 2⟩, s.me.reg (b.toNat % 32))
  | .st4 b a i => some (⟨0x16, [b.toNat, a.toNat], 0, .ok (s.me.reg a.toNat + wordOfInt (s.me.imm i * 4)), 4⟩, s.me.reg (b.toNat % 32))
  | .st8 b a i => some (⟨0x17, [b.toNat, a.toNat], 0, .ok (s.me.reg a.toNat + wordOfInt (s.me.imm i * 8)), 8⟩, s.me.reg (b.toNat % 32))
  | .stIndex b a c z =>
    some (⟨0x19, [b.toNat, a.toNat, c.toNat], 0, .ok (s.me.reg (a.toNat % 32) + s.me.reg (c.toNat % 32)), 2 ^ z.toNat⟩,
      s.me.reg (b.toNat % 32))
  | .stRes b a n z =>
    some (⟨0x1B, [b.toNat, a.toNat], 0, resAddr s s.cur n.toNat (s.me.reg (a.toNat % 32)) (2 ^ z.toNat) .write, 2 ^ z.toNat⟩,
      s.me.reg (b.toNat % 32))
  | .stRel b a i => some (⟨0x1D, [b.toNat, a.toNat], 0, .ok (s.me.reg a.toNat + wordOfInt (s.me.imm i * 8)), 8⟩, s.me.reg (b.toNat % 32))
  | _ => none

/-- The atomics (R256 to R258): form, operation, operand, comparand and rounding mode code. -/
def atomForm (s : State) : Instr → Option (MemForm × AmoOp × Word × Word × Nat)
  | .amoAdd d a b z => some (amo d a b z, .add, s.me.reg (b.toNat % 32), 0, s.me.rmode.code)
  | .amoAnd d a b z => some (amo d a b z, .and, s.me.reg (b.toNat % 32), 0, s.me.rmode.code)
  | .amoOr d a b z => some (amo d a b z, .or, s.me.reg (b.toNat % 32), 0, s.me.rmode.code)
  | .amoXor d a b z => some (amo d a b z, .xor, s.me.reg (b.toNat % 32), 0, s.me.rmode.code)
  | .amoMinI d a b z => some (amo d a b z, .minI, s.me.reg (b.toNat % 32), 0, s.me.rmode.code)
  | .amoMaxI d a b z => some (amo d a b z, .maxI, s.me.reg (b.toNat % 32), 0, s.me.rmode.code)
  | .amoMinN d a b z => some (amo d a b z, .minN, s.me.reg (b.toNat % 32), 0, s.me.rmode.code)
  | .amoMaxN d a b z => some (amo d a b z, .maxN, s.me.reg (b.toNat % 32), 0, s.me.rmode.code)
  | .amoSwap d a b z => some (amo d a b z, .swap, s.me.reg (b.toNat % 32), 0, s.me.rmode.code)
  | .famoAdd d a b => some (⟨0x1E, [a.toNat, b.toNat], d, .ok (s.me.reg (a.toNat % 32)), 4⟩, .fadd, s.me.reg (b.toNat % 32), 0,
      s.me.rmode.code)
  | .cas d a b c z => some (⟨0x1F, [a.toNat, b.toNat, c.toNat], d, .ok (s.me.reg (a.toNat % 32)), if z = 0 then 4 else 8⟩, .cas,
      s.me.reg (c.toNat % 32), s.me.reg (b.toNat % 32), 0)
  | _ => none
where
  amo (d : BitVec 5) (a b : BitVec 6) (z : BitVec 1) : MemForm :=
    ⟨0x1E, [a.toNat, b.toNat], d, .ok (s.me.reg (a.toNat % 32)), if z = 0 then 4 else 8⟩

/-- A scalar access passes its checks and reaches a location (R239): aligned, not held behind an acquire, and translated. -/
structure Meets (s : State) (k : AccessKind) (n : Nat) (va : Word) (x : Xlat) : Prop where
  aligned : va.toNat % n = 0
  free    : acqPending s s.cur = false
  fresh   : s.me.spadReq = none
  ok      : translate s s.cur k va = .ok x

/-- The state once a resource-relative access has its manifest entry, read at its home unless the core holds it (R37, R38). -/
def manSeen (s : State) : Instr → State
  | .ldRes _ _ n _ => if n.toNat ≥ fieldN s.myCell.winLen 0 11 then s else fillManifest s s.cur n.toNat
  | .stRes _ _ n _ => if n.toNat ≥ fieldN s.myCell.winLen 0 11 then s else fillManifest s s.cur n.toNat
  | _ => s

/-- What a memory instruction leaves alone outside its context when it completes: other contexts and cores, memory and cells
(but for the logbook, when a bound loop exits or a log slot is bound, and for the note that the context has read the newest value of a word,
R103), and everything in flight but its own access. `m` is the state whose memory it finds: s, or s once the manifest entry has been read. -/
structure AccessKept (s t : State) (m : State := s) : Prop where
  rest   : t = { s with ctxs := t.ctxs, cores := t.cores, cells := t.cells, clusters := t.clusters, mem := t.mem,
                        fresh := t.fresh, accs := t.accs, host := t.host, dev := t.dev }
  others : ∀ j, j ≠ s.cur → t.ctx j = s.ctx j
  cores  : ∀ k, k ≠ coreOf s.cur → (∀ l, cacheWord t k l = cacheWord s k l) ∧
    (¬ LogsLoop s s.cur → lastLog none s.me.hints = none → t.core k = s.core k)
  still  : ¬ LogsLoop s s.cur → lastLog none s.me.hints = none → t.cells = s.cells ∧ t.mem = { m.mem with hist := t.mem.hist } ∧ t.dev = m.dev

/-- A control instruction leaves alone what an access would, and sends none. -/
structure ControlKept (s t : State) : Prop extends AccessKept s t where
  sent     : t.accs = s.accs
  clusters : t.clusters = s.clusters

/-- An instruction completes from s, falls through, and changes nothing else: registers other than sd, special registers,
everything outside. Where the instruction has an effect of its own outside the registers, s is the state with that effect. -/
structure Completes (s t : State) (srcs : List Nat) (d : Nat) : Prop where
  regs    : RegsKept s t srcs d
  special : SpecialsKept s t
  pc      : FallsThrough s t
  outside : OutsideKept s t srcs

/-- An instruction of the matrix group completes likewise, and neither reads nor writes WAYPT (R328). -/
structure CompletesMx (s t : State) (srcs : List Nat) (d : Nat) : Prop where
  regs    : RegsKept s t srcs d
  special : SpecialsButWay s t
  way     : t.me.waypt = s.me.waypt
  pc      : FallsThrough s t
  outside : OutsideKept s t srcs

/-- An instruction of the matrix group joins the queue and its context goes on: the full bits of its synchronised reads stay until `by_` has
completed (R217, R219, R323), and WAYPT is neither read nor written (R328). s is the state with the instruction in the queue. -/
structure IssuesMx (s t : State) (srcs : List Nat) (by_ : ClearBy) : Prop where
  regs    : RegsKept s t [] 0
  special : SpecialsButWay s t
  way     : t.me.waypt = s.me.waypt
  pc      : FallsThrough s t
  outside : OutsideKept s t srcs
  held    : sMask srcs ≠ 0 → heldBits t.me by_ = sMask srcs

/-- A context other than c stays, or it waited for an entry of the send queue of c's core and looks again (R182). -/
def OthersKept (s t : State) (c : Nat) : Prop :=
  ∀ j, j ≠ c → t.ctx j = s.ctx j ∨ (coreOf j = coreOf c ∧ (s.ctx j).park = .sendQueue ∧ t.ctx j = (s.ctx j).wake)

/-- The same of an instruction that acquires or orders: its own core's caches may change as well (R108). -/
structure CompletesSync (s t : State) (srcs : List Nat) (d : Nat) : Prop where
  regs    : RegsKept s t srcs d
  special : SpecialsKept s t
  pc      : FallsThrough s t
  kept    : ControlKept s t

/-- Core k has acquired: each word that its cache still holds is a word that it owns (R108). -/
def Acquired (t : State) (k : Nat) : Prop :=
  ∀ line c j, Map.find (t.core k).dcache line = some c → c.valid.getLsbD j = true → c.owned.getLsbD j = true

/-- No line of the slices is newer than what lies behind it, and no memory-side cache stands there: a line that is given up for
another changes no word. -/
def CleanHomes (s : State) : Prop :=
  s.dev.mscSize = 0 ∧ ∀ tag l, Map.find s.mem.slines tag = some l →
    l.dirty = 0 ∧ ∀ i, i < 8 → l.words.getD i 0 = backWord s (tag * 64 + 8 * i)

/-! ### Tile instructions -/

/-- A tile instruction meets no check of `Decode`, no wait for the context's own tile writes or acquire (R285, R108) and no hazard
(R325): `reads` and `writes` are its registers, and an accumulator is named on an A core only (R231). -/
structure TileReady (s : State) (op : Nat) (owner : Option CoreKind) (srcs plain reads writes : List Nat) : Prop extends
    Clear s op owner srcs plain where
  written : ∀ p ∈ s.myCell.pend, p.ctx ≠ s.cur
  free    : acqPending s s.cur = false
  safe    : hazard s s.cur reads writes = false
  onA     : ∀ r ∈ reads ++ writes, 12 ≤ r → r < 16 → kindOf s.cur = .a

/-- An instruction that has issued and completes later: the context goes on with its registers as they were, but for sd, and the full
bits of its synchronised reads stay until `by_` has completed (R219). s is the state with the instruction's own effect. -/
structure Issues (s t : State) (srcs : List Nat) (d : Nat) (by_ : ClearBy) : Prop where
  regs    : RegsKept s t [] d
  special : SpecialsKept s t
  pc      : FallsThrough s t
  outside : OutsideKept s t srcs
  held    : sMask srcs ≠ 0 → heldBits t.me by_ = sMask srcs

/-- A tile instruction issues: its writes begin, and nothing else changes (R285, R287). -/
def IssuesTile (i : Instr) (s : State) (srcs : List Nat) (ws : List TileWrite) : Prop :=
  let u := afterReads s srcs
  ∃ t, exec i s = .next t ∧
    Issues (u.bump.modMyCell fun x => { x with pend := x.pend ++ [{ id := u.fresh, ctx := s.cur, writes := ws }] }) t srcs 0 (.tile u.fresh)

/-- An instruction of one cycle: its tile writes are performed at once (R287), and sd receives a value where it has one. -/
def WritesTile (i : Instr) (s : State) (srcs : List Nat) (ws : List TileWrite) (d : BitVec 5) (v : Word) : Prop :=
  ∃ t, exec i s = .next t ∧ Completes (applyTiles s.bump (cellOf s.cur) ws) t srcs d.toNat ∧
    t.me.reg d.toNat = if d = 0 then 0 else v

/-- What a tile load asks (R290 to R293, R369): opcode, sources, registers read and written, whether its tag and alignment pass,
its base, the kind of its waypoints, how it reads, and its units. -/
structure TileForm where
  op    : Nat
  srcs  : List Nat
  reads : List Nat
  reg   : Nat
  legal : Bool
  base  : TmBase
  kind  : Nat
  how   : TileRead
  trans : Bool
  units : List TileUnit

/-- The tile loads in a state: rows or T6 blocks at a pitch, columns, gathered rows, or micro-steps of 16 rows at two pitches. -/
def tileLoadForm (s : State) : Instr → Option TileForm
  | .tld t a p r i =>
    let w := (s.look t.toNat).tag
    let b := tmBase s a r i
    let pitch := tmPitch s p (tagRowBytes w)
    some ⟨0x41, [a.toNat, p.toNat], [], t.toNat, w != 0 && tmAligned s b (fmtSize (tagFmt w)) [pitch], b, tileKind w, .load,
      false, tileUnits s b .read w pitch⟩
  | .tldT t a p r i =>
    let w := (s.look t.toNat).tag
    let b := tmBase s a r i
    let f := tagFmt w
    let rb := tagRows w * fmtSize f
    let pitch := tmPitch s p rb
    some ⟨0x43, [a.toNat, p.toNat], [], t.toNat, w != 0 && f != fmtT6 && f != fmtBal && decide (tagCols w ≤ 128) &&
      tmAligned s b (fmtSize f) [pitch], b, wpRow, .load, true,
      (List.range (tagCols w)).map fun j => rowUnit s b .read f rb (pitch * .ofNat 64 j) j 0 (tagRows w)⟩
  | .tgath t a x r i =>
    let w := (s.look t.toNat).tag
    let y := s.look x.toNat
    let b := tmBase s a r i
    let f := tagFmt w
    some ⟨0x44, [a.toNat], [x.toNat], t.toNat, decide (x.toNat < 12) && w != 0 &&
      [fmtI32, fmtI64, fmtN32, fmtN64].contains (tagFmt y.tag) && decide (tagRows w ≤ tagRows y.tag), b, wpRow, .gather, false,
      (List.range (tagRows w)).map fun k =>
        let u := rowUnit s b .read f (tagRowBytes w) (gatherOff y k) k 0 (tagCols w)
        { u with mis := u.spans.head?.bind fun sp => if sp.va.toNat % fmtSize f = 0 then none else some sp.va }⟩
  | .tldx t a p i =>
    let w := (s.look t.toNat).tag
    let b := tmBase s a 0 i
    let f := tagFmt w
    let rb := tagRowBytes w
    let lo : Word := if p.toNat % 32 = 0 then .ofNat 64 rb else .ofNat 64 (fieldN (s.me.reg (p.toNat % 32)) 0 32)
    let hi : Word := if p.toNat % 32 = 0 then .ofNat 64 (16 * rb) else .ofNat 64 (fieldN (s.me.reg (p.toNat % 32)) 32 32)
    some ⟨0x7C, [a.toNat, p.toNat], [], t.toNat, w != 0 && f != fmtT6 && tmAligned s b (fmtSize f) [lo, hi], b, wpMicro, .load,
      false, (List.range (ceilDiv (tagRows w) 16)).map fun q =>
        let us := (List.range (min 16 (tagRows w - 16 * q))).map fun k =>
          rowUnit s b .read f rb (hi * .ofNat 64 q + lo * .ofNat 64 k) (16 * q + k) 0 (tagCols w)
        { res := us.findSome? (·.res), mis := none, spans := us.flatMap (·.spans) }⟩
  | _ => none

/-- The accesses of a tile instruction have had their turn in the engine queues of the scratchpad banks, or none goes there (R53). -/
def BanksServed (s : State) (parts : List TilePart) : Prop :=
  match s.me.ticket with
  | some t => s.atBank t = false
  | none => ∀ p ∈ parts, ∀ g o, p.x.loc ≠ .spad g o

/-- The state in which it goes on. -/
def banksDone (s : State) : State := if s.me.ticket.isSome then s.modMe fun x => { x with ticket := none } else s

/-- The units of a list from a position on, numbered (R213, R216). -/
def unitsFrom (l : List TileUnit) (pos : Nat) : List (Nat × TileUnit) :=
  ((List.range l.length).zip l).filter fun e => decide (pos ≤ e.1)

end Sys2Proof.Machine
end

