-- ==== Sys2Proof/Certificates/Slice0/Obligations.lean ====
section
/-! DEFINITION. The statements about the model that the provers take up: one definition each. Each says in its docstring which
rules of spec/ it formalises. Register instructions are stated through `Clear` (the checks and waits that an instruction
passes) and `YieldsReg` (its result with its whole frame) of Safety. -/

open Sys2Proof Sys2Proof.Machine

/-! ### Encoding and the step -/

/-- Decoding the word that the encoder writes gives the instruction back, for every well-formed instruction that has a word
(R219 to R232); a word of fate FIELDS_ILLEGAL must be one whose fields name no instruction. -/
def Obligations.DecodeEncode : Prop :=
  ∀ (i : Instr) (w : IWord), i.wellFormed = true → (∀ v, i = .fieldsIllegal v → fieldsRejected v = true) →
    encode i = some w → decode w = i

/-- Words written out from the encodings of R224 and R230 decode to the instructions they stand for, some of every group of the
opcode table: each is the sum of its fields at their places. -/
def Obligations.DecodedWords : Prop :=
  decode (.ofNat 32 (0x01 * 2 ^ 25 + 5 * 2 ^ 20 + 6 * 2 ^ 14 + 39 * 2 ^ 8 + 0x01)) = .sub 5 6 39 ∧
  decode (.ofNat 32 (0x09 * 2 ^ 25 + 3 * 2 ^ 20 + 4 * 2 ^ 14 + 16383)) = .addi 3 4 16383 ∧
  decode (.ofNat 32 (0x13 * 2 ^ 25 + 7 * 2 ^ 20 + 2 * 2 ^ 14 + 9)) = .ld8 7 2 9 ∧
  decode (.ofNat 32 (0x17 * 2 ^ 25 + 38 * 2 ^ 19 + 2 * 2 ^ 14 + 9)) = .st8 38 2 9 ∧
  decode (.ofNat 32 0xE4000005) = .trap 0 5 ∧ decode (.ofNat 32 0xEC500001) = .feat 5 0 1 ∧
  decode (.ofNat 32 0xD0850000) = .chartLd 4 10 0 0 ∧ decode (.ofNat 32 0xD2528000) = .chartWin 5 10 ∧
  decode (.ofNat 32 (0x1E * 2 ^ 25 + 21 * 2 ^ 20 + 9 * 2 ^ 14 + 51 * 2 ^ 8 + 2 ^ 4)) = .amoAdd 21 9 51 1 ∧
  decode (.ofNat 32 (0x28 * 2 ^ 25 + 38 * 2 ^ 19 + 173507)) = .beqz 38 173507 ∧
  decode (.ofNat 32 (0x33 * 2 ^ 25 + 21 * 2 ^ 20 + 9 * 2 ^ 14 + 51 * 2 ^ 8)) = .start 21 9 51 ∧
  decode (.ofNat 32 (0x41 * 2 ^ 25 + 5 * 2 ^ 21 + 9 * 2 ^ 15 + 51 * 2 ^ 9 + 2 ^ 8 + 165)) = .tld 5 9 51 1 165 ∧
  decode (.ofNat 32 (0x47 * 2 ^ 25 + 5 * 2 ^ 21 + 9 * 2 ^ 17 + 2 * 2 ^ 13 + 10 * 2 ^ 9 + 2 ^ 3 + 5)) = .tadd 5 9 2 10 1 5 ∧
  decode (.ofNat 32 (0x58 * 2 ^ 25 + 13 * 2 ^ 21 + 2 ^ 20 + 51 * 2 ^ 14 + 2 ^ 13 + 38 * 2 ^ 7)) = .mma 13 1 51 1 38 ∧
  decode (.ofNat 32 (0x63 * 2 ^ 25 + 21 * 2 ^ 20 + 9 * 2 ^ 14 + 0x02)) = .barArrive 21 9 ∧
  decode 0 = .unassignedWord 0 ∧ decode (.ofNat 32 0xFFFFFFFF) = .unassignedWord (.ofNat 32 0xFFFFFFFF)

/-- A turn fetches the word at the PC and runs the instruction that it decodes to (R180, R181, R218). The turn of an ELIGIBLE
context with nothing pending takes the word from the instruction cache or, where that does not hold it, from its home; the
instruction's meaning is applied to the state in which the turn is spent (a context that stands at the start of another hint group has
left the hints of an earlier one behind, R227; events that its core recorded outside its turns have reached the logbook cache, R275; the
gathers of its cell have gone on, R116), the home has been reached for the word that the cache lacked,
and the core's instruction cache holds the word. Nothing else differs.
The model's choices in it: log 13, log 44. -/
def Obligations.StepRunsDecoded : Prop :=
  ∀ (s u v : State) (c : Nat) (rest : List Nat) (x : Xlat) (w : Word),
    s.dev.off = false → s.turns = c :: rest → u = turnBegins c { s with turns := rest } → v = fillCoreTlb u c .exec (u.ctx c).pc →
    (u.ctx c).stat = .eligible → heldByQueue u c = false → stopDue u c = false → (u.ctx c).tell = false → (u.ctx c).pendStop = none →
    (u.ctx c).pendTrap = [] → ((u.ctx c).midInstr = true ∨ bkptHit u c = none) →
    translate u c .exec (u.ctx c).pc = .ok x → inCode u c (u.ctx c).pc = true →
    (icacheWord u (coreOf c) x.loc = some w ∨
      (icacheWord u (coreOf c) x.loc = none ∧ homeCheck u c x.loc = none ∧ poisoned u x.loc = false ∧
        readLoc (touchHome v x.loc x.pl (clusterOfCell (cellOf c)) x.uc) x.loc = w)) →
    ∃ t, step s = exec (decode (halfAt w (u.ctx c).pc.toNat)) t ∧
      (((s.cell (cellOf c)).late = [] ∧ ∀ p ∈ (s.cell (cellOf c)).pend, p.gather = []) → u = freshUnit { s with turns := rest, cur := c } c) ∧
      t = { u with cores := t.cores, mem := t.mem, dev := t.dev, fresh := t.fresh } ∧
      (icacheWord u (coreOf c) x.loc = some w → t.mem = u.mem ∧ t.dev = u.dev) ∧
      (icacheWord u (coreOf c) x.loc = none →
        t.mem = (touchHome v x.loc x.pl (clusterOfCell (cellOf c)) x.uc).mem ∧
        t.dev = (touchHome v x.loc x.pl (clusterOfCell (cellOf c)) x.uc).dev) ∧
      (∀ k, k ≠ coreOf c → t.core k = u.core k) ∧
      t.core (coreOf c) = { u.core (coreOf c) with itlb := (t.core (coreOf c)).itlb, icache := (t.core (coreOf c)).icache } ∧
      icacheWord t (coreOf c) x.loc = some w

/-- Where no turn is granted, the step is the event at the head of the schedule, applied to the state without it (log 1); what
is no well-formed event is refused by name. -/
def Obligations.StepRunsEvent : Prop :=
  ∀ (s : State) (i : Instr) (rest : List Instr), s.dev.off = false → s.turns = [] → s.agenda = i :: rest →
    (i.isEvent = true → i.wellFormed = true → step s = exec i { s with agenda := rest }) ∧
    (i.isEvent = false ∨ i.wellFormed = false → step s = .refused .illFormedEvent)

/-- A step keeps every byte store of the machine in canonical form (log 3): whatever instruction or event it runs, if memory,
scratchpads, tile registers and images are lists with rising addresses and no listed default, they stay so. -/
def Obligations.StepKeepsMemory : Prop :=
  ∀ (s t : State), s.memWf = true → step s = .next t → t.memWf = true

/-- The machine right after reset has every byte store in canonical form. What reset leaves where the spec gives the value:
every context FREE with every full bit set (R176, R178), WAYPT 0 (R212), tiles, accumulators and masks of zeros with tag 0
(R202), CPWGT 0x218 (R344), QSTAT and QCFG 0 (R408), device registers of R35, R56 and R68, and no context's turn granted.
The model's choices in it: log 2. -/
def Obligations.ResetState : Prop :=
  (State.reset.memWf = true) ∧
  ((∀ c, (State.reset.ctx c).stat = .free ∧ (∀ r, (State.reset.ctx c).isFull r = (decide (r < 32))) ∧
      (State.reset.ctx c).waypt = 0) ∧
    (∀ n, (State.reset.cell n).cpWgt = 0x218 ∧ ∀ r, Map.at (State.reset.cell n).tiles r TileReg.zero = TileReg.zero) ∧
    (∀ v q, (State.reset.queue v q).qcfg = 0 ∧ (State.reset.queue v q).rhead = 0) ∧
    State.reset.dev.mscSize = 0 ∧ State.reset.dev.s2seg = [] ∧ State.reset.dev.s2keys = [] ∧ State.reset.dev.slsub = [] ∧
    State.reset.turns = [])


/-! ### Scalar integer and F32 instructions -/

/-- The results of OPR (R241, R242) in exact arithmetic: each of the seventeen instructions without a division writes its value
to sD and changes nothing else; shift and rotate amounts count modulo 64. -/
def Obligations.AluResults : Prop :=
  ∀ (s : State) (d : BitVec 5) (a b : BitVec 6), Clear s 0x01 none [a.toNat, b.toNat] [d.toNat] →
    let x := s.me.reg (a.toNat % 32)
    let y := s.me.reg (b.toNat % 32)
    let r := [a.toNat, b.toNat]
    YieldsReg (.add d a b) s r d (x + y) ∧
    YieldsReg (.sub d a b) s r d (x - y) ∧
    YieldsReg (.mul d a b) s r d (x * y) ∧
    YieldsReg (.mulhI d a b) s r d (.ofInt 64 (x.toInt * y.toInt / 2 ^ 64)) ∧
    YieldsReg (.mulhN d a b) s r d (.ofNat 64 (x.toNat * y.toNat / 2 ^ 64)) ∧
    YieldsReg (.and d a b) s r d (x &&& y) ∧
    YieldsReg (.or d a b) s r d (x ||| y) ∧
    YieldsReg (.xor d a b) s r d (x ^^^ y) ∧
    YieldsReg (.sll d a b) s r d (x <<< (y.toNat % 64)) ∧
    YieldsReg (.srl d a b) s r d (x >>> (y.toNat % 64)) ∧
    YieldsReg (.sra d a b) s r d (x.sshiftRight (y.toNat % 64)) ∧
    YieldsReg (.rol d a b) s r d (x.rotateLeft (y.toNat % 64)) ∧
    YieldsReg (.ror d a b) s r d (x.rotateRight (y.toNat % 64)) ∧
    YieldsReg (.minI d a b) s r d (if x.slt y then x else y) ∧
    YieldsReg (.maxI d a b) s r d (if x.slt y then y else x) ∧
    YieldsReg (.minN d a b) s r d (if x.ult y then x else y) ∧
    YieldsReg (.maxN d a b) s r d (if x.ult y then y else x)

/-- A division completes at issue without its result: sD awaits it, and every other register, the memory and the rest of the
machine are as a completed instruction leaves them (R105, R242); the full bits of its synchronised reads stay until it completes
(R219), and the exit event of a bound loop that it ends waits for that too (R275). A division into s0 has nothing to await. DIVIDE_COMPLETE writes the result of a division in progress to its register, which
then is full and awaits nothing, wakes a context that parks for it, and clears the full bits that the division holds; every other register and
context stays, and where the division owes no exit event everything else does (R242). With no such division nothing happens.
The model's choices in it: log 10, log 12. -/
def Obligations.Divisions : Prop :=
  (∀ (s : State) (d : BitVec 5) (a b : BitVec 6) (i : Instr) (v : Word), Clear s 0x01 none [a.toNat, b.toNat] [d.toNat] →
      let x := s.me.reg (a.toNat % 32)
      let y := s.me.reg (b.toNat % 32)
      (i = .divI d a b ∧ v = (if y = 0 then BitVec.allOnes 64 else x.sdiv y) ∨
       i = .divN d a b ∧ v = (if y = 0 then BitVec.allOnes 64 else x / y) ∨
       i = .remI d a b ∧ v = (if y = 0 then x else x.srem y) ∨
       i = .remN d a b ∧ v = (if y = 0 then x else x % y)) →
      ∃ t, exec i s = .next t ∧ t.me.isBusy d.toNat = decide (d ≠ 0) ∧
        t.me.divs = (if d = 0 then s.me.divs else (d.toNat, v) :: s.me.divs) ∧ (∀ r, t.me.reg r = s.me.reg r) ∧
        t.me.clears = (if d = 0 ∨ sMask [a.toNat, b.toNat] = 0 then s.me.clears
          else (.div d.toNat, sMask [a.toNat, b.toNat]) :: s.me.clears) ∧
        t.me.exits = (if d = 0 then s.me.exits else match loopExit s s.cur with
          | none => s.me.exits
          | some e => (.div d.toNat, e) :: s.me.exits) ∧
        RegsKept s t (if d = 0 then [a.toNat, b.toNat] else []) d.toNat ∧ SpecialsKept s t ∧
        OutsideKept s t [a.toNat, b.toNat] ∧ FallsThrough s t) ∧
  (∀ (s : State) (c r : Nat) (v : Word), 0 < r → r < 32 →
      ((s.ctx c).divs.find? (·.1 == r) = some (r, v) →
        ∃ t, exec (.divideComplete c r) s = .next t ∧ (t.ctx c).reg r = v ∧ (t.ctx c).isFull r = true ∧
          (t.ctx c).isBusy r = false ∧ (t.ctx c).divs = (s.ctx c).divs.filter (·.1 != r) ∧ (t.ctx c).pc = (s.ctx c).pc ∧
          (∀ q, q ≠ r → (t.ctx c).reg q = (s.ctx c).reg q ∧ (q ≠ 0 → (t.ctx c).isFull q =
            ((s.ctx c).isFull q && !((heldBits (s.ctx c) (.div r)).getLsbD q)))) ∧
          (∀ j, j ≠ c → t.ctx j = s.ctx j) ∧ ((s.ctx c).stat = .parked → (s.ctx c).park = .syncRead → (s.ctx c).parkNum = r →
            (t.ctx c).stat = .eligible) ∧ (t.ctx c).exits = (s.ctx c).exits.filter (·.1 != .div r) ∧
          ((s.ctx c).owed (.div r) = none → t = { s with ctxs := t.ctxs }) ∧
          ∀ k l, cacheWord t k l = cacheWord s k l) ∧
      ((s.ctx c).divs.find? (·.1 == r) = none → exec (.divideComplete c r) s = .next s))


/-- UNARY (R245): counts of leading and trailing zeros are those positions whose lower or higher bits are all clear; `popc`
counts set bits; `sext` and `zext` keep the low 8, 16 or 32 bits. CMP (R246): 1 when the relation holds and 0 otherwise.
BFX and BFI (R248): the field of l + 1 bits at p is extracted with zeros above it, or replaced by the low bits of S(a),
with sD read plainly. Every word with another func, with a b field that is not 0 in UNARY, or with a field past bit 63 stands
for no instruction, and traps ILLEGAL_OP; so does one of opcode 0x04 whose func is not 0.
The model's choices in it: log 5. -/
def Obligations.ScalarResults : Prop :=
  (∀ (s : State) (d : BitVec 5) (a : BitVec 6), Clear s 0x02 none [a.toNat] [d.toNat] →
      let x := s.me.reg (a.toNat % 32)
      let r := [a.toNat]
      (∃ n : Nat, n ≤ 64 ∧ x.toNat < 2 ^ (64 - n) ∧ (n < 64 → 2 ^ (63 - n) ≤ x.toNat) ∧
        YieldsReg (.clz d a) s r d (.ofNat 64 n)) ∧
      (∃ n : Nat, n ≤ 64 ∧ (∀ j, j < n → x.getLsbD j = false) ∧ (n < 64 → x.getLsbD n = true) ∧
        YieldsReg (.ctz d a) s r d (.ofNat 64 n)) ∧
      YieldsReg (.popc d a) s r d (.ofNat 64 ((List.range 64).countP fun j => x.getLsbD j)) ∧
      YieldsReg (.sext1 d a) s r d ((x.setWidth 8).signExtend 64) ∧
      YieldsReg (.sext2 d a) s r d ((x.setWidth 16).signExtend 64) ∧
      YieldsReg (.sext4 d a) s r d ((x.setWidth 32).signExtend 64) ∧
      YieldsReg (.zext1 d a) s r d ((x.setWidth 8).setWidth 64) ∧
      YieldsReg (.zext2 d a) s r d ((x.setWidth 16).setWidth 64) ∧
      YieldsReg (.zext4 d a) s r d ((x.setWidth 32).setWidth 64)) ∧
  (∀ (s : State) (d : BitVec 5) (a b : BitVec 6), Clear s 0x03 none [a.toNat, b.toNat] [d.toNat] →
      let x := s.me.reg (a.toNat % 32)
      let y := s.me.reg (b.toNat % 32)
      let r := [a.toNat, b.toNat]
      YieldsReg (.cmpEq d a b) s r d (if x = y then 1 else 0) ∧
      YieldsReg (.cmpNe d a b) s r d (if x = y then 0 else 1) ∧
      YieldsReg (.cmpLtI d a b) s r d (if x.slt y then 1 else 0) ∧
      YieldsReg (.cmpGeI d a b) s r d (if x.slt y then 0 else 1) ∧
      YieldsReg (.cmpLtN d a b) s r d (if x.ult y then 1 else 0) ∧
      YieldsReg (.cmpGeN d a b) s r d (if x.ult y then 0 else 1)) ∧
  (∀ (s : State) (d : BitVec 5) (a p l : BitVec 6),
      (p.toNat + l.toNat + 1 ≤ 64 →
        (Clear s 0x05 none [a.toNat] [d.toNat] → ∃ v : Word, YieldsReg (.bfx d a p l) s [a.toNat] d v ∧
          ∀ j, v.getLsbD j = (decide (j ≤ l.toNat) && (s.me.reg (a.toNat % 32)).getLsbD (p.toNat + j))) ∧
        (Clear s 0x06 none [a.toNat] [d.toNat] → ∃ v : Word, YieldsReg (.bfi d a p l) s [a.toNat] d v ∧
          ∀ j, v.getLsbD j = if p.toNat ≤ j ∧ j ≤ p.toNat + l.toNat then (s.me.reg (a.toNat % 32)).getLsbD (j - p.toNat)
            else (s.me.reg d.toNat).getLsbD j)) ∧
      (64 < p.toNat + l.toNat + 1 → (Instr.bfx d a p l).wellFormed = false ∧ (Instr.bfi d a p l).wellFormed = false)) ∧
  (∀ (d : BitVec 5) (a b : BitVec 6) (f : BitVec 8),
      let w : IWord := .ofNat 32 (0x02 * 2 ^ 25 + d.toNat * 2 ^ 20 + a.toNat * 2 ^ 14 + b.toNat * 2 ^ 8 + f.toNat)
      decode w =
        if b ≠ 0 then .fieldsIllegal w else if f = 0x00 then .clz d a else if f = 0x01 then .ctz d a
        else if f = 0x02 then .popc d a else if f = 0x04 then .sext1 d a else if f = 0x05 then .sext2 d a
        else if f = 0x06 then .sext4 d a else if f = 0x08 then .zext1 d a else if f = 0x09 then .zext2 d a
        else if f = 0x0A then .zext4 d a else .fieldsIllegal w) ∧
  (∀ (d : BitVec 5) (a b : BitVec 6) (f : BitVec 8),
      let w : IWord := .ofNat 32 (0x03 * 2 ^ 25 + d.toNat * 2 ^ 20 + a.toNat * 2 ^ 14 + b.toNat * 2 ^ 8 + f.toNat)
      decode w =
        if f = 0x00 then .cmpEq d a b else if f = 0x01 then .cmpNe d a b else if f = 0x02 then .cmpLtI d a b
        else if f = 0x03 then .cmpGeI d a b else if f = 0x04 then .cmpLtN d a b else if f = 0x05 then .cmpGeN d a b
        else .fieldsIllegal w) ∧
  (∀ (d : BitVec 5) (a p l : BitVec 6) (op : Bool),
      let w : IWord := .ofNat 32 ((if op then 0x06 else 0x05) * 2 ^ 25 + d.toNat * 2 ^ 20 + a.toNat * 2 ^ 14 + p.toNat * 2 ^ 8 +
        l.toNat * 2 ^ 2)
      decode w = if 64 < p.toNat + l.toNat + 1 then .fieldsIllegal w else if op then .bfi d a p l else .bfx d a p l) ∧
  ∀ (s : State) (w : IWord), w.toNat / 2 ^ 25 ∈ [0x02, 0x03, 0x04, 0x05, 0x06] →
    exec (.fieldsIllegal w) s = .next (trapPlain s s.cur tcIllegalOp)

/-- SEL (R247): the instruction reads all three sources, under their S bits, and yields S(a) where S(c) is not 0 and S(b) where
it is; a func of 1 to 3 decodes to FIELDS_ILLEGAL, which takes the trap ILLEGAL_OP where a trap can be taken, at once or at the context's next
turn, and writes no register; the words with func 0 are SEL's. -/
def Obligations.SelectRule : Prop :=
  (∀ (s : State) (d : BitVec 5) (a b c : BitVec 6), Clear s 0x04 none [a.toNat, b.toNat, c.toNat] [d.toNat] →
    YieldsReg (.sel d a b c) s [a.toNat, b.toNat, c.toNat] d
      (if s.me.reg (c.toNat % 32) = 0 then s.me.reg (b.toNat % 32) else s.me.reg (a.toNat % 32))) ∧
  (∀ (d : BitVec 5) (a b c : BitVec 6) (f : BitVec 2),
    decode (.ofNat 32 (0x04 * 2 ^ 25 + d.toNat * 2 ^ 20 + a.toNat * 2 ^ 14 + b.toNat * 2 ^ 8 + c.toNat * 2 ^ 2 + f.toNat)) =
      if f = 0 then .sel d a b c else
        .fieldsIllegal (.ofNat 32 (0x04 * 2 ^ 25 + d.toNat * 2 ^ 20 + a.toNat * 2 ^ 14 + b.toNat * 2 ^ 8 + c.toNat * 2 ^ 2 + f.toNat))) ∧
  ∀ (s : State) (w : IWord), w.toNat / 2 ^ 25 = 0x04 → CanTrap s →
    ∃ t, exec (.fieldsIllegal w) s = .next t ∧ t.me.regs = s.me.regs ∧
      (fieldN t.me.trCause 0 8 = tcIllegalOp ∨ ∃ r ∈ t.me.pendTrap, r.code = tcIllegalOp)

/-- ADDI, ANDI, ORI and XORI (R243): the words of the four opcodes in format I; the result of S(a) and the immediate, which is the
sign-extended field or, in a group with `hint.imm` words, the signed value of their payloads and the field together, wrapped to 64 bits (R228);
each completes and never traps. SHI (R244) with the amount that stands in the word. -/
def Obligations.ImmediateResults : Prop :=
  ∀ (s : State) (d : BitVec 5) (a n : BitVec 6) (i : BitVec 14),
    let x := s.me.reg (a.toNat % 32)
    let v := wordOfInt (s.me.imm i)
    let r := [a.toNat]
    let ps := immHints s.me.hints
    let width := 22 * ps.length + 14
    let u : Nat := ps.foldl (fun (n : Nat) p => n * 2 ^ 22 + p.toNat) 0 * 2 ^ 14 + i.toNat
    let word (op : Nat) : IWord := .ofNat 32 (op * 2 ^ 25 + d.toNat * 2 ^ 20 + a.toNat * 2 ^ 14 + i.toNat)
    (decode (word 0x09) = .addi d a i ∧ decode (word 0x0A) = .andi d a i ∧ decode (word 0x0B) = .ori d a i ∧ decode (word 0x0C) = .xori d a i) ∧
    (v = .ofInt 64 (if u < 2 ^ (width - 1) then (u : Int) else (u : Int) - 2 ^ width)) ∧
    (ps = [] → v = i.signExtend 64) ∧
    (Clear s 0x09 none r [d.toNat] → YieldsReg (.addi d a i) s r d (x + v)) ∧
    (Clear s 0x0A none r [d.toNat] → YieldsReg (.andi d a i) s r d (x &&& v)) ∧
    (Clear s 0x0B none r [d.toNat] → YieldsReg (.ori d a i) s r d (x ||| v)) ∧
    (Clear s 0x0C none r [d.toNat] → YieldsReg (.xori d a i) s r d (x ^^^ v)) ∧
    (Clear s 0x0D none r [d.toNat] →
      YieldsReg (.slli d a n) s r d (x <<< n.toNat) ∧ YieldsReg (.srli d a n) s r d (x >>> n.toNat) ∧
      YieldsReg (.srai d a n) s r d (x.sshiftRight n.toNat) ∧ YieldsReg (.roli d a n) s r d (x.rotateLeft n.toNat) ∧
      YieldsReg (.rori d a n) s r d (x.rotateRight n.toNat))

/-- FOP and FFMA (R249, R250): exact values of the F32 patterns in bits [31:0], rounded once in the mode that the hint group
names (R155), zero-extended; comparisons give 1 or 0, and with a NaN only `ne` holds (R156). -/
def Obligations.FloatResults : Prop :=
  ∀ (s : State) (d : BitVec 5) (a b c : BitVec 6),
    let x := s.me.reg (a.toNat % 32)
    let y := s.me.reg (b.toNat % 32)
    let z := s.me.reg (c.toNat % 32)
    let m := s.me.rmode
    let val (v : Word) := f32.decode (v.toNat % 2 ^ 32)
    let r := [a.toNat, b.toNat]
    (Clear s 0x07 none r [d.toNat] →
      YieldsReg (.fadd d a b) s r d (.ofNat 64 (f32.round m (FVal.add m (val x) (val y)))) ∧
      YieldsReg (.fmul d a b) s r d (.ofNat 64 (f32.round m (FVal.mul (val x) (val y)))) ∧
      YieldsReg (.fcmpEq d a b) s r d (if FRel.holds .eq (val x) (val y) then 1 else 0) ∧
      YieldsReg (.fcmpNe d a b) s r d (if FRel.holds .eq (val x) (val y) then 0 else 1) ∧
      YieldsReg (.fcmpLt d a b) s r d (if FRel.holds .lt (val x) (val y) then 1 else 0) ∧
      YieldsReg (.fcmpLe d a b) s r d (if FRel.holds .le (val x) (val y) then 1 else 0)) ∧
    (Clear s 0x07 none [a.toNat] [d.toNat] →
      YieldsReg (.fcvtF32I64 d a) s [a.toNat] d (.ofNat 64 (f32.round m (FVal.ofInt x.toInt 0))) ∧
      YieldsReg (.fcvtF32N64 d a) s [a.toNat] d (.ofNat 64 (f32.round m (.fin false x.toNat 0))) ∧
      YieldsReg (.fcvtF32F16 d a) s [a.toNat] d (.ofNat 64 (f32.round m (f16.decode (x.toNat % 2 ^ 16)))) ∧
      YieldsReg (.fcvtF32Bf16 d a) s [a.toNat] d (.ofNat 64 (f32.round m (bf16.decode (x.toNat % 2 ^ 16)))) ∧
      YieldsReg (.fcvtI64F32 d a) s [a.toNat] d (.ofInt 64 (FVal.toInt m (-(2 ^ 63)) (2 ^ 63 - 1) (val x))) ∧
      YieldsReg (.fcvtN64F32 d a) s [a.toNat] d (.ofInt 64 (FVal.toInt m 0 (2 ^ 64 - 1) (val x))) ∧
      YieldsReg (.fcvtF16F32 d a) s [a.toNat] d (.ofNat 64 (f16.round m (val x))) ∧
      YieldsReg (.fcvtBf16F32 d a) s [a.toNat] d (.ofNat 64 (bf16.round m (val x)))) ∧
    (Clear s 0x08 none [a.toNat, b.toNat, c.toNat] [d.toNat] →
      YieldsReg (.ffma d a b c) s [a.toNat, b.toNat, c.toNat] d
        (.ofNat 64 (f32.round m (FVal.add m (FVal.mul (val x) (val y)) (val z)))))

/-! ### Scalar memory -/

/-- A load that finds its word in the core's data cache completes at once (R47, R102, R252): sD receives the addressed bytes,
zero-extended, and nothing else changes but what AccessKept names. It does so for every operand form but that of `ld.acq`, on a
write-back page, where no release, atomic or load of the context to the word is still on its way and the cached word is what the home and the
core's own stores make of it; the home is not asked (R44). `u` is the state after the synchronised reads have observed their operations (R106), `m` that state once a resource-relative load has its manifest entry (R38).
The model's choices in it: log 9, log 78, log 86. -/
def Obligations.LoadHits : Prop :=
  ∀ (s u m : State) (i : Instr) (f : MemForm) (va : Word) (x : Xlat) (w : Word),
    u = observe s s.cur (sMask f.srcs) → m = manSeen u i → loadForm u i = some f → f.op ≠ 0x1C → f.addr = .ok va →
    Clear s f.op none f.srcs [f.dest.toNat] → Meets m .read f.size va x → ownSpad m x.loc = false →
    x.uc = false → behindOwn m x.loc = false → cacheWord m (coreOf s.cur) x.loc = some w →
    (splitPending m (coreOf s.cur) x.loc = false ∨ w = expectWord m (coreOf s.cur) x.loc) →
    ∃ t, exec i s = .next t ∧
      t.me.reg f.dest.toNat =
        (if f.dest = 0 then 0 else .ofNat 64 (w.toNat / 2 ^ (8 * (va.toNat % 8)) % 2 ^ (8 * f.size))) ∧
      t.me.isFull f.dest.toNat = true ∧ t.me.isBusy f.dest.toNat = false ∧ t.accs = s.accs ∧ t.clusters = s.clusters ∧
      RegsKept s t f.srcs f.dest.toNat ∧ SpecialsKept s t ∧ FallsThrough s t ∧ AccessKept s t m

/-- A load whose word the core's cache does not supply completes without its value (R48, R102, R105, R252, R254): while its core has an
entry of the send queue free (R199), a read of that word is on its way to its home, sD awaits it, no register changes, and the full bits
of its synchronised reads stay until the value arrives (R219). Only a load of a write-back page other than `ld.acq`, and without the
hint that leaves the line unallocated (R255), asks for the line as well. One to another cluster's scratchpad joins the end of its bank's engine
queue at its issue (R53).
The model's choices in it: log 9, log 10, log 11, log 81, log 86. -/
def Obligations.LoadMisses : Prop :=
  ∀ (s u m v : State) (i : Instr) (f : MemForm) (va : Word) (x : Xlat),
    u = observe s s.cur (sMask f.srcs) → m = manSeen u i → v = fillCoreTlb m s.cur .read va → loadForm u i = some f → f.addr = .ok va →
    Clear s f.op none f.srcs [f.dest.toNat] → Meets m .read f.size va x → ownSpad m x.loc = false →
    homeCheck v s.cur x.loc = none → sendUsed m (coreOf s.cur) < 16 →
    (f.op = 0x1C ∨ x.uc = true ∨ loadHit m x.loc = none) →
    ∃ t, exec i s = .next t ∧
      t.accs = s.accs ++ [{ id := v.fresh, ctx := s.cur, loc := x.loc, va := va, op := .read, uc := x.uc, pl := x.pl,
                            dest := f.dest.toNat, size := f.size, off := va.toNat % 8, acq := decide (f.op = 0x1C), rel := false,
                            sbits := sMask f.srcs, slot := logSlot s s.cur, exitEv := loopExit s s.cur, issued := s.time,
                            phase := .sent, entry := x.entry, ga := x.ga }] ∧
      t.me.isBusy f.dest.toNat = decide (f.dest ≠ 0) ∧ (∀ r, t.me.reg r = s.me.reg r) ∧
      t.me.clears = (if sMask f.srcs = 0 then s.me.clears else (.acc v.fresh, sMask f.srcs) :: s.me.clears) ∧
      ((Map.find (t.core (coreOf s.cur)).fills (x.loc.key / 64)).isSome ↔
        (f.op ≠ 0x1C ∧ x.uc = false ∧ lastAlloc 0 s.me.hints ≠ 1) ∨
          (Map.find (s.core (coreOf s.cur)).fills (x.loc.key / 64)).isSome) ∧
      (∀ g p, x.loc = .spad g p →
        t.clusters = (s.modBank g (bankOf p) fun b => { b with engine := b.engine ++ [v.fresh] }).clusters) ∧
      ((∀ g p, x.loc ≠ .spad g p) → t.clusters = s.clusters) ∧
      RegsKept s t [] f.dest.toNat ∧ SpecialsKept s t ∧ FallsThrough s t ∧ AccessKept s t m

/-- A misaligned scalar access traps MISALIGN with its address and its access kind and has no other effect (R239, R358), in
every operand form of every load, store and atomic; `st.rel` finds it once its release has ended.
The model's choices in it: log 5, log 22. -/
def Obligations.MisalignedAccessTraps : Prop :=
  ∀ (s u : State) (i : Instr) (f : MemForm) (va : Word), u = observe s s.cur (sMask f.srcs) → f.addr = .ok va →
    va.toNat % f.size ≠ 0 → CanTrap s →
    (loadForm u i = some f → Clear s f.op none f.srcs [f.dest.toNat] → TrapsIssued i s tcMisalign va 0 (manSeen u i)) ∧
    (∀ v, storeForm u i = some (f, v) → Clear s f.op none f.srcs [] →
      (f.op = 0x1D → u.me.spadReq = none ∧ drained u s.cur = true ∧ s.me.failed = []) →
      TrapsIssued i s tcMisalign va 1 (manSeen u i)) ∧
    (∀ o v w m, atomForm u i = some (f, o, v, w, m) → Clear s f.op none f.srcs [f.dest.toNat] →
      TrapsIssued i s tcMisalign va 2)

/-- LOAD_VALUE_ARRIVAL fixes a load's value at its home (R76, R102, R252, R254): the register that awaits it receives the word's
addressed bytes and its full bit, the full bits that the load holds are cleared, the access ends, and memory is as the home leaves it
when it is reached. The value is the newest, or one that writes of the engines replaced which nothing orders before the load (R138, R144).
`ld.acq` makes every word that the core does not own invalid. Of a word whose error cannot be corrected the register
keeps its old value, the full bits stay, and a MEMERR trap joins those that are pending. The exit event of a loop that the load ends takes its
place among those that the cell's logbook cache gets, in either case (R275).
The model's choices in it: log 8, log 10, log 16, log 78. -/
def Obligations.LoadValueArrives : Prop :=
  ∀ (s h : State) (id : Nat) (a : Acc), s.accs.find? (·.id == id) = some a → a.op = .read → (∀ g p, a.loc ≠ .spad g p) →
    blockedAcc s a = false → locBusy s a.loc = false → 0 < a.dest → a.dest < 32 → (s.ctx a.ctx).isBusy a.dest = true →
    h = touchHome s a.loc a.pl (clusterOfCell (cellOf a.ctx)) a.uc →
    let late (t : State) : Prop := a.slot = none → (t.cell (cellOf a.ctx)).late = match a.exitEv with
      | none => (s.cell (cellOf a.ctx)).late
      | some (n, trip) => insertLate { cyc := lateCycle s (coreOf a.ctx), core := coreOf a.ctx, slot := n, ev := .loop trip }
          (s.cell (cellOf a.ctx)).late
    (poisoned s a.loc = false →
      ∃ t w, exec (.loadValueArrival id) s = .next t ∧ (w = readLoc h a.loc ∨ w ∈ loadOlds h a.loc a.ctx) ∧
        (t.ctx a.ctx).reg a.dest = .ofNat 64 (w.toNat / 2 ^ (8 * a.off) % 2 ^ (8 * a.size)) ∧
        (t.ctx a.ctx).isFull a.dest = true ∧ (t.ctx a.ctx).isBusy a.dest = false ∧ (t.ctx a.ctx).pc = (s.ctx a.ctx).pc ∧
        (∀ r, r ≠ a.dest → (t.ctx a.ctx).reg r = (s.ctx a.ctx).reg r ∧ (r ≠ 0 → (t.ctx a.ctx).isFull r =
          ((s.ctx a.ctx).isFull r && !((heldBits (s.ctx a.ctx) (.acc id)).getLsbD r)))) ∧
        OthersKept s t a.ctx ∧
        t.accs = s.accs.filter (·.id != id) ∧ t.clusters = s.clusters ∧
        t.mem = { h.mem with hist := t.mem.hist } ∧ (loadOlds h a.loc a.ctx = [] → t.mem = h.mem) ∧
        (∀ k, k ≠ coreOf a.ctx → t.core k = s.core k) ∧ late t ∧
        (a.acq = true → ∀ l, cacheWord t (coreOf a.ctx) l = none ∨
          ∃ c, Map.find (t.core (coreOf a.ctx)).dcache (l.key / 64) = some c ∧ c.owned.getLsbD (l.key / 8 % 8) = true)) ∧
    (poisoned s a.loc = true →
      ∃ t r, exec (.loadValueArrival id) s = .next t ∧ (t.ctx a.ctx).pendTrap = (s.ctx a.ctx).pendTrap ++ [r] ∧
        r.code = tcMemerr ∧ r.late = true ∧ r.reg = a.dest ∧ r.va = a.va ∧
        (∀ n, (t.ctx a.ctx).reg n = (s.ctx a.ctx).reg n ∧ (n ≠ a.dest → (t.ctx a.ctx).isFull n = (s.ctx a.ctx).isFull n)) ∧
        (t.ctx a.ctx).isFull a.dest = true ∧ OthersKept s t a.ctx ∧ t.accs = s.accs.filter (·.id != id) ∧ t.mem = h.mem ∧ late t)

/-- A store completes at issue (R47, R102, R112, R253): while its core has an entry of the send queue free (R199), its bytes are on their
way to their home, and no memory changes yet. A plain store to a write-back page changes the word of a line that is present in the core's
cache at once: a whole store replaces it, and one of some bytes joins them to what the line holds of the word. `st.rel` waits until every
earlier access has ended, and carries what its context has before it to the acquire that will read it (R101). The full bits of the synchronised
reads, and the exit event of a loop that the store ends, wait until the store is owned (R219, R255, R275). One to another cluster's scratchpad
joins the end of its bank's engine queue at its issue (R53).
The model's choices in it: log 9, log 10, log 11, log 22, log 81. -/
def Obligations.StoreIssues : Prop :=
  ∀ (s u m : State) (i : Instr) (f : MemForm) (v va : Word) (x : Xlat),
    u = observe s s.cur (sMask f.srcs) → m = manSeen u i → storeForm u i = some (f, v) → f.addr = .ok va → Clear s f.op none f.srcs [] →
    Meets m .write f.size va x → ownSpad m x.loc = false → (f.op = 0x1D → drained u s.cur = true ∧ s.me.failed = []) →
    sendUsed m (coreOf s.cur) < 16 →
    let w : Word := .ofNat 64 (v.toNat % 2 ^ (8 * f.size) * 2 ^ (8 * (va.toNat % 8)))
    let bm : BitVec 8 := .ofNat 8 ((2 ^ f.size - 1) * 2 ^ (va.toNat % 8))
    let id := (fillCoreTlb m s.cur .write va).fresh
    ∃ t, exec i s = .next t ∧
      t.accs = s.accs ++ [{ id := id, ctx := s.cur, loc := x.loc, va := va, op := .write w bm, uc := x.uc, pl := x.pl,
                            dest := 0, size := f.size, off := va.toNat % 8, acq := false, rel := decide (f.op = 0x1D),
                            sbits := sMask f.srcs, slot := none, exitEv := loopExit s s.cur, issued := s.time, phase := .sent,
                            entry := x.entry, ga := x.ga,
                            clock := if f.op = 0x1D then releaseClock (fillCoreTlb m s.cur .write va) s.cur else [] }] ∧
      t.me.clears = (if sMask f.srcs = 0 then s.me.clears else (.acc id, sMask f.srcs) :: s.me.clears) ∧
      (x.uc = false → f.op ≠ 0x1D →
        (f.size = 8 → linePresent m (coreOf s.cur) x.loc = true → cacheWord t (coreOf s.cur) x.loc = some w) ∧
        (f.size ≠ 8 → cacheWord t (coreOf s.cur) x.loc = (cacheWord m (coreOf s.cur) x.loc).map (mergeBytes · w bm))) ∧
      (∀ l, x.uc = true ∨ f.op = 0x1D ∨ l.key / 8 ≠ x.loc.key / 8 →
        cacheWord t (coreOf s.cur) l = cacheWord m (coreOf s.cur) l) ∧
      (∀ g p, x.loc = .spad g p → t.clusters = (s.modBank g (bankOf p) fun b => { b with engine := b.engine ++ [id] }).clusters) ∧
      ((∀ g p, x.loc ≠ .spad g p) → t.clusters = s.clusters) ∧
      RegsKept s t [] 0 ∧ SpecialsKept s t ∧ FallsThrough s t ∧ AccessKept s t m

/-- STORE_AT_HOME performs a store (R45, R47, R102): with `h` the state in which the home has been reached, the word at the home gets the
bytes that the store names, every other word of its line under its key and every word of any other line reads as in h, and the
access stands performed; other cores keep every cached word, and so does the storing core, but for its own copy of this word where that is
no longer what the home and its own stores make of it (R103). A word that another core owns stays as it is until that core's bit is revoked
(R113); the store is then accepted, and not checked again (R70). A store that fails the checks at its home is never performed (R25, R72): no
word changes, the access ends, and the failure takes its place among those that the context has still to report, the oldest store first, with
the address and entry that a fault found here would name.
The model's choices in it: log 9, log 23. -/
def Obligations.StoresAtHome : Prop :=
  (∀ (s h : State) (id pa k : Nat) (a : Acc) (v : Word) (bm : BitVec 8), s.accs.find? (·.id == id) = some a → a.op = .write v bm →
      a.loc = .mem pa → pa % 8 = 0 → (a.phase = .sent ∧ homeCheck s a.ctx a.loc = none ∨ a.phase = .accepted) → blockedAcc s a = false →
      keyMat s (paKey pa) = some k →
      h = touchHome s a.loc a.pl (clusterOfCell (cellOf a.ctx)) a.uc →
      (ownerOf s a.loc = none ∨ ownerOf s a.loc = some (coreOf a.ctx) →
        ∃ t, exec (.storeAtHome id) s = .next t ∧ readLoc t a.loc = mergeBytes (readLoc h a.loc) v bm ∧
          (∀ l, (∀ q, l = .mem q → q % 8 = 0 ∧ (paAddr q / 64 ≠ paAddr pa / 64 ∨ (q / 64 = pa / 64 ∧ q ≠ pa))) →
            readLoc t l = readLoc h l) ∧
          (∀ l, l ≠ a.loc → poisoned s l = true → (∀ q, l = .mem q → paAddr q ≠ paAddr pa) → poisoned t l = true) ∧
          t.clusters = s.clusters ∧ (∀ j, (t.ctx j).wake = (s.ctx j).wake) ∧
          (∀ j l, j ≠ coreOf a.ctx ∨ l.key ≠ a.loc.key → cacheWord t j l = cacheWord s j l) ∧
          cacheWord t (coreOf a.ctx) a.loc = (if a.uc ∨ a.rel then cacheWord s (coreOf a.ctx) a.loc
            else (cacheWord s (coreOf a.ctx) a.loc).filter (· == expectWord t (coreOf a.ctx) a.loc)) ∧
          (a.uc = false → ownerOf t a.loc = some (coreOf a.ctx)) ∧
          t.accs = s.accs.map (fun b => if b.id = id then { b with phase := .performed } else b)) ∧
      (∀ o, ownerOf s a.loc = some o → o ≠ coreOf a.ctx →
        exec (.storeAtHome id) s =
          .next { s with accs := s.accs.map fun b => if b.id = id then { b with phase := .revoking o } else b })) ∧
  (∀ (s : State) (id pa cause : Nat) (a : Acc) (v : Word) (bm : BitVec 8), s.accs.find? (·.id == id) = some a →
      a.op = .write v bm → a.loc = .mem pa → a.phase = .sent → blockedAcc s a = false → homeCheck s a.ctx a.loc = some cause →
      ∃ t, exec (.storeAtHome id) s = .next t ∧ t.mem = s.mem ∧ t.accs = s.accs.filter (·.id != id) ∧
        (t.ctx a.ctx).failed = (s.ctx a.ctx).failed.filter (fun e => decide (e.id < id)) ++
          { id := id, va := a.va, cause := cause, entry := if cause = fcExtentGone then 0 else a.entry,
            aux := if cause = fcExtentGone then 0 else a.ga } :: (s.ctx a.ctx).failed.filter (fun e => !decide (e.id < id)) ∧
        (t.ctx a.ctx).regs = (s.ctx a.ctx).regs ∧ OthersKept s t a.ctx)


/-- REVOKE clears the former owner's bit of the word and drops its record, and the home has then accepted the store (R70, R113). STORE_OWNED
ends a performed store: the full bits that it held are cleared (R219, R255). Where the home's record names the core, for this store or a later
plain one, the word of a present line is owned, and it is what the home and the core's own stores make of it (R47, R102, R111); where another
core or party has taken the record, the core gains nothing, and a copy older than a release's word leaves its cache (R103, R112, R113). Neither
changes a word of memory or another context.
The model's choices in it: log 9. -/
def Obligations.OwnershipMoves : Prop :=
  ∀ (s : State) (id : Nat) (a : Acc), s.accs.find? (·.id == id) = some a →
    (∀ o, a.phase = .revoking o →
      ∃ t, exec (.revoke id) s = .next t ∧
        (∀ c, Map.find (t.core o).dcache (a.loc.key / 64) = some c → c.owned.getLsbD (a.loc.key / 8 % 8) = false) ∧
        t.accs = s.accs.map (fun b => if b.id = id then { b with phase := .accepted } else b) ∧
        t.mem = { s.mem with owner := t.mem.owner } ∧ ownerOf t a.loc ≠ some o ∧
        (∀ l, l.key ≠ a.loc.key → ownerOf t l = ownerOf s l) ∧
        t.ctxs = s.ctxs ∧ ∀ k, k ≠ o → t.core k = s.core k) ∧
    (a.phase = .performed →
      let u : State := { s with accs := s.accs.filter (·.id != id) }
      ∃ t, exec (.storeOwned id) s = .next t ∧ t.accs = s.accs.filter (·.id != id) ∧ t.mem = s.mem ∧
        t.ctx a.ctx = (s.ctx a.ctx).completes (.acc id) ∧ (∀ j, j ≠ a.ctx → t.ctx j = s.ctx j) ∧
        (∀ k, k ≠ coreOf a.ctx ∨ a.uc = true → t.core k = s.core k) ∧
        (a.uc = false → recordOf u a.loc (coreOf a.ctx) = true → poisoned s a.loc = false → linePresent s (coreOf a.ctx) a.loc = true →
          cacheWord t (coreOf a.ctx) a.loc = some (expectWord t (coreOf a.ctx) a.loc) ∧
            ∃ c, Map.find (t.core (coreOf a.ctx)).dcache (a.loc.key / 64) = some c ∧ c.owned.getLsbD (a.loc.key / 8 % 8) = true) ∧
        (a.uc = false → recordOf u a.loc (coreOf a.ctx) = false →
          (a.rel = false → t.core (coreOf a.ctx) = s.core (coreOf a.ctx)) ∧
          (a.rel = true → cacheWord t (coreOf a.ctx) a.loc =
            (cacheWord s (coreOf a.ctx) a.loc).filter (· == expectWord t (coreOf a.ctx) a.loc))))

/-- An atomic completes at issue (R105, R256 to R259): once every earlier access has ended, and while its core has an entry of the send
queue free (R199), its one step is on its way to the word's home, sD awaits the old value, no register or memory changes yet, and the
full bits of its synchronised reads, and the exit event of a loop that it ends, stay until the value arrives (R219, R275). It carries what its
context has before it to the acquire that will read its word (R101). One to another cluster's scratchpad joins the end of its bank's engine
queue at its issue (R53).
The model's choices in it: log 10, log 11, log 81. -/
def Obligations.AtomicIssues : Prop :=
  ∀ (s u v : State) (i : Instr) (f : MemForm) (o : AmoOp) (p c va : Word) (m : Nat) (x : Xlat),
    u = observe s s.cur (sMask f.srcs) → v = fillCoreTlb u s.cur .atomic va → atomForm u i = some (f, o, p, c, m) → f.addr = .ok va →
    Clear s f.op none f.srcs [f.dest.toNat] → Meets u .atomic f.size va x → homeCheck v s.cur x.loc = none → ownSpad u x.loc = false →
    drained u s.cur = true → s.me.failed = [] → sendUsed u (coreOf s.cur) < 16 →
    ∃ t, exec i s = .next t ∧
      t.accs = s.accs ++ [{ id := v.fresh, ctx := s.cur, loc := x.loc, va := va, op := .amo o f.size (va.toNat % 8) p c m,
                            uc := x.uc, pl := x.pl, dest := f.dest.toNat, size := f.size, off := va.toNat % 8, acq := true,
                            rel := true, sbits := sMask f.srcs, slot := none, exitEv := loopExit s s.cur, issued := s.time, phase := .sent,
                            entry := x.entry, ga := x.ga, clock := releaseClock v s.cur }] ∧
      t.me.isBusy f.dest.toNat = decide (f.dest ≠ 0) ∧ (∀ r, t.me.reg r = s.me.reg r) ∧
      t.me.clears = (if sMask f.srcs = 0 then s.me.clears else (.acc v.fresh, sMask f.srcs) :: s.me.clears) ∧
      (∀ g q, x.loc = .spad g q →
        t.clusters = (s.modBank g (bankOf q) fun b => { b with engine := b.engine ++ [v.fresh] }).clusters) ∧
      ((∀ g q, x.loc ≠ .spad g q) → t.clusters = s.clusters) ∧
      RegsKept s t [] f.dest.toNat ∧ SpecialsKept s t ∧ FallsThrough s t ∧ AccessKept s t

/-- ATOMIC_AT_HOME is one step on the word at its home (R75, R256 to R258): with `h` the state in which the home has been reached, the
addressed bytes become the operation's value of the old bytes and the operand, every other byte of the word, every other word of its
line under its key and every word of any other line reads as in h, and the register that awaits it receives the old bytes,
zero-extended, while the full bits that the atomic holds are cleared (R219). A `cas` whose comparand differs leaves the bytes. The
core's copy of the line is dropped, and the core acquires (R108). The words are those of a home whose slice keeps no log (R403). The values of the atomics on 8 bytes (R256 to R258), and of
`famo.add`, one F32 sum in the mode that the access carries.
The model's choices in it: log 10, log 24. -/
def Obligations.AtomicsAtHome : Prop :=
  (∀ (s h : State) (id pa k m n off : Nat) (a : Acc) (o : AmoOp) (p c : Word), s.accs.find? (·.id == id) = some a →
      a.op = .amo o n off p c m → (n = 4 ∨ n = 8) → off + n ≤ 8 → a.off = off → a.size = n → a.loc = .mem pa → pa % 8 = 0 →
      a.phase = .sent → a.acq = true → blockedAcc s a = false →
      (ordersHere s pa = false ∨ replayHolds s (ptVf (s.cell (cellOf a.ctx)).ptRoot) pa (requester s a.ctx) = false) → poisoned s a.loc = false →
      keyMat s (paKey pa) = some k → 0 < a.dest → a.dest < 32 → (s.ctx a.ctx).isBusy a.dest = true →
      h = touchHome s a.loc a.pl (clusterOfCell (cellOf a.ctx)) a.uc →
      let old := fieldN (readLoc h a.loc) (8 * off) (8 * n)
      ∃ t, exec (.atomicAtHome id) s = .next t ∧
        ((ordersHere s pa = false ∨ Map.find s.host.logs (sliceOf h pa a.pl) = none) →
          readLoc t a.loc = setField (readLoc h a.loc) (8 * off) (8 * n)
            (amoNew o n old (p.toNat % 2 ^ (8 * n)) (c.toNat % 2 ^ (8 * n)) (RMode.ofCode m)) ∧
          ∀ l, (∀ q, l = .mem q → q % 8 = 0 ∧ (paAddr q / 64 ≠ paAddr pa / 64 ∨ (q / 64 = pa / 64 ∧ q ≠ pa))) → readLoc t l = readLoc h l) ∧
        (t.ctx a.ctx).reg a.dest = .ofNat 64 old ∧ (t.ctx a.ctx).isFull a.dest = true ∧ (t.ctx a.ctx).isBusy a.dest = false ∧
        (t.ctx a.ctx).pc = (s.ctx a.ctx).pc ∧
        (∀ r, r ≠ a.dest → (t.ctx a.ctx).reg r = (s.ctx a.ctx).reg r ∧ (r ≠ 0 → (t.ctx a.ctx).isFull r =
          ((s.ctx a.ctx).isFull r && !((heldBits (s.ctx a.ctx) (.acc id)).getLsbD r)))) ∧
        OthersKept s t a.ctx ∧ t.accs = s.accs.filter (·.id != id) ∧ t.clusters = s.clusters ∧
        linePresent t (coreOf a.ctx) a.loc = false ∧ Acquired t (coreOf a.ctx)) ∧
  (∀ (x p c : Word) (m : RMode),
      let v (o : AmoOp) : Word := .ofNat 64 (amoNew o 8 x.toNat p.toNat c.toNat m)
      v .add = x + p ∧ v .and = x &&& p ∧ v .or = x ||| p ∧ v .xor = x ^^^ p ∧ v .swap = p ∧
      v .minI = (if p.slt x then p else x) ∧ v .maxI = (if x.slt p then p else x) ∧
      v .minN = (if p.ult x then p else x) ∧ v .maxN = (if x.ult p then p else x) ∧
      v .cas = (if x = c then p else x) ∧
      ∀ y q, amoNew .fadd 4 y q 0 m = f32.round m (FVal.add m (f32.decode y) (f32.decode q)))


/-- A scalar load, store or atomic of the own cluster's scratchpad is presented at its bank, once no access of the context that its bank has
still to serve stands before it, and its context waits at the instruction (R53, R54, R118); `st.rel` and an atomic have awaited every
earlier access before. Once the bank has performed it, the instruction's next turn completes it: a load and an atomic write the bytes that
were found there, a store writes no register, and an atomic and `ld.acq` acquire (R108). A word whose error cannot be corrected leaves the
register of a load or an atomic as it is, and a MEMERR trap joins those that are pending (R76).
The model's choices in it: log 10, log 16, log 20, log 86. -/
def Obligations.ScratchpadAccess : Prop :=
  ∀ (s u m : State) (i : Instr) (f : MemForm) (va : Word) (x : Xlat) (g p : Nat) (k : AccessKind) (op : WordOp),
    u = observe s s.cur (sMask f.srcs) → m = manSeen u i → f.addr = .ok va → x.loc = .spad g p →
    (loadForm u i = some f ∧ k = .read ∧ op = .read ∨
      (∃ v : Word, storeForm u i = some (f, v) ∧ k = .write ∧
        op = .write (.ofNat 64 (v.toNat % 2 ^ (8 * f.size) * 2 ^ (8 * (va.toNat % 8)))) (.ofNat 8 ((2 ^ f.size - 1) * 2 ^ (va.toNat % 8)))) ∨
      ∃ o v c md, atomForm u i = some (f, o, v, c, md) ∧ k = .atomic ∧ op = .amo o f.size (va.toNat % 8) v c md) →
    Clear s f.op none f.srcs (if k = .write then [] else [f.dest.toNat]) →
    (Meets m k f.size va x → g = clusterOfCell (cellOf s.cur) → sentAhead m x.loc = false →
      (k = .atomic ∨ f.op = 0x1D → drained u s.cur = true ∧ s.me.failed = []) →
      ∃ t, exec i s = .next t ∧ t.me.spadReq = some { cluster := g, phys := p, op := op, result := none, rel := decide (f.op = 0x1D) } ∧
        t.me.pc = s.me.pc ∧ (∀ r, t.me.reg r = s.me.reg r ∧ t.me.isFull r = s.me.isFull r) ∧ t.mem = m.mem ∧ t.accs = s.accs ∧
        (t.cluster g).spad = (s.cluster g).spad ∧
        (Map.at (t.cluster g).banks (bankOf p) Bank.reset).present =
          (Map.at (s.cluster g).banks (bankOf p) Bank.reset).present ++ [{ ctx := s.cur, phys := p, op := op }]) ∧
    (∀ r w b, va.toNat % f.size = 0 → acqPending u s.cur = false → u.me.spadReq = some r → r.result = some (w, b, false) →
      ∃ t, exec i s = .next t ∧ t.me.spadReq = none ∧
        t.me.reg f.dest.toNat =
          (if f.dest = 0 then 0 else .ofNat 64 (w.toNat / 2 ^ (8 * (va.toNat % 8)) % 2 ^ (8 * f.size))) ∧
        (k = .atomic ∨ f.op = 0x1C → Acquired t (coreOf s.cur)) ∧
        RegsKept s t f.srcs f.dest.toNat ∧ SpecialsKept s t ∧ FallsThrough s t ∧ (¬ LogsLoop s s.cur → logSlot s s.cur = none →
          t.mem = m.mem) ∧ t.clusters = s.clusters) ∧
    ∀ q w b, va.toNat % f.size = 0 → acqPending u s.cur = false → k ≠ .write → u.me.spadReq = some q → q.result = some (w, b, true) →
      ∃ t r, exec i s = .next t ∧ t.me.spadReq = none ∧ t.me.pendTrap = s.me.pendTrap ++ [r] ∧ r.code = tcMemerr ∧ r.late = true ∧
        r.reg = f.dest.toNat ∧ r.va = va ∧ (∀ n, t.me.reg n = s.me.reg n) ∧ FallsThrough s t ∧ t.clusters = s.clusters

/-- LINE_FILL brings a line that was asked for into its core's cache (R47, R102): words already valid stay, the others become the
home's words with the bytes of the core's own stores on their way over them; no word becomes owned, memory is as the home leaves it when it
is reached, and nothing else changes outside the cache. It waits for loads of the core to the line that are
still on their way, and room for the line unless stores of the core are on their way to four other lines of the set (R46). PREF completes and changes no register, no memory and no access (R260): of a write-back page whose line is absent
it asks for a fill, a missing translation it has walked without waiting (R43), and of anything else it asks for nothing.
The model's choices in it: log 9, log 19. -/
def Obligations.LineFills : Prop :=
  (∀ (s h : State) (core line pl : Nat), Map.find (s.core core).fills line = some pl → line * 64 < 2 ^ 58 →
      (∀ l ∈ lineLocs line, locBusy s l = false ∧ homeCheck s (11 * core) l = none ∧ poisoned s l = false) →
      (∀ a ∈ s.accs, coreOf a.ctx = core → a.loc.key / 64 = line → a.op = .read → a.uc = true) →
      ((s.core core).dcache.filter fun e => e.1 % 128 == line % 128 && e.1 != line && storeToLine s core e.1).length < 4 →
      h = touchHome s (locOfKey (line * 64)) pl (clusterOfCell (core / 3)) false →
      ∃ t c, exec (.lineFill core line) s = .next t ∧ Map.find (t.core core).dcache line = some c ∧
        Map.find (t.core core).fills line = none ∧
        (∀ j l, j < 8 → (lineLocs line)[j]? = some l →
          c.valid.getLsbD j = true ∧
          c.words.getD j 0 = match Map.find (s.core core).dcache line with
            | some o => if o.valid.getLsbD j then o.words.getD j 0 else expectWord h core l
            | none => expectWord h core l) ∧
        (∀ j, c.owned.getLsbD j = match Map.find (s.core core).dcache line with
          | some o => o.owned.getLsbD j
          | none => false) ∧
        t.mem = h.mem ∧ t.ctxs = s.ctxs ∧ t.accs = s.accs ∧ ∀ k, k ≠ core → t.core k = s.core k) ∧
  (∀ (s u : State) (a : BitVec 6) (i : BitVec 14), u = observe s s.cur (sMask [a.toNat]) →
      Clear s 0x20 none [a.toNat] [] →
      let va := u.me.reg (a.toNat % 32) + wordOfInt (u.me.imm i * 64)
      ∃ t, exec (.pref a i) s = .next t ∧
        (∀ x, translateBy u s.cur .read va (tlbOf u s.cur .read) = .ok x →
          homeCheck (fillCoreTlb u s.cur .read va) s.cur x.loc = none → va.toNat < 0xF0 * 2 ^ 48 →
          x.uc = false → linePresent u (coreOf s.cur) x.loc = false →
          (Map.find (t.core (coreOf s.cur)).fills (x.loc.key / 64)).isSome) ∧
        (translateBy u s.cur .read va (tlbOf u s.cur .read) = .miss →
          ∃ w ∈ t.walks, w.page = va.toNat / 2 ^ 16 ∧ w.cluster = clusterOfCell (cellOf s.cur) ∧ (s.cur, va) ∈ w.prefs) ∧
        (translateBy u s.cur .read va (tlbOf u s.cur .read) ≠ .miss → t.walks = s.walks) ∧
        t.accs = s.accs ∧ t.clusters = s.clusters ∧
        RegsKept s t [a.toNat] 0 ∧ SpecialsKept s t ∧ FallsThrough s t ∧ AccessKept { s with walks := t.walks } t)

/-- WALK_COMPLETE ends a walk that one of its cluster's four walkers works on (R29, R31, R32): a leaf enters the cluster's TLB and the TLBs of the
cores that wait for it, an operation that has not started keeps it, and what earlier walks of the page told contexts and operations of
the cluster is void; a fault is told to each waiting context, gather and engine operation. Memory is as the homes of the walk's entries leave
it when they are reached, and of every context nothing but such a note changes. A walk that a `tlbinv` overtook gives nothing (R34).
The model's choices in it: log 7, log 43, log 80, log 87. -/
def Obligations.WalkCompletes : Prop :=
  ∀ (s h : State) (id : Nat) (w : WalkRec), s.walks.find? (·.id == id) = some w → (walking s w.cluster).contains w = true →
    h = touchWalk s w.cluster w.root w.va →
    ∃ t, exec (.walkComplete id) s = .next t ∧ t.walks = s.walks.filter (·.id != id) ∧ t.mem = h.mem ∧ t.accs = s.accs ∧
      (∀ j, t.ctx j = { s.ctx j with walkErr := (t.ctx j).walkErr }) ∧
      (w.discard = true → t.ctxs = s.ctxs ∧ t.cores = s.cores ∧ t.clusters = s.clusters ∧ t.ops = s.ops) ∧
      (∀ leaf level, w.discard = false → walk h w.root w.va 0 = .ok (leaf, level) →
        let e := tlbEnt w.root w.va leaf level
        tlbFind (t.cluster w.cluster).tlb w.root w.va = some e ∧
        (∀ c x, (c, x) ∈ w.waiters → tlbFind (if x then (t.core (coreOf c)).itlb else (t.core (coreOf c)).dtlb) w.root w.va = some e) ∧
        t.ops = s.ops.map (fun o => if w.engs.contains o.id && !o.started then { o with kept := e :: o.kept } else o) ∧
        (∀ j r, clusterOfCell (cellOf j) = w.cluster → (t.ctx j).walkErr = some r →
          r.page * 2 ^ 16 / 2 ^ pageBits level ≠ w.va.toNat % 2 ^ 56 / 2 ^ pageBits level ∧ (s.ctx j).walkErr = some r) ∧
        ∀ r ∈ (t.cluster w.cluster).engErrs, r.2.page * 2 ^ 16 / 2 ^ pageBits level ≠ w.va.toNat % 2 ^ 56 / 2 ^ pageBits level) ∧
      (∀ f, w.discard = false → walk h w.root w.va 0 = .error f →
        let e : WalkErr := { page := w.page, cause := f.cause, level := f.level, entry := f.entry, aux := f.aux }
        t.cores = s.cores ∧ t.ops = s.ops ∧ (∀ g, g ≠ w.cluster → t.cluster g = s.cluster g) ∧
        t.cluster w.cluster = { s.cluster w.cluster with
          engErrs := ((w.engs.filter (· < 2 ^ 64)).map fun o => (o, e)) ++ (s.cluster w.cluster).engErrs } ∧
        (∀ c x, (c, x) ∈ w.waiters → (t.ctx c).walkErr = some e) ∧ (∀ c, gatherId c ∈ w.engs → (t.ctx c).walkErr = some e) ∧
        ∀ j, (∀ x, (j, x) ∉ w.waiters) → gatherId j ∉ w.engs → t.ctx j = s.ctx j)

/-! ### Control and the logbook's readers -/

/-- The conditional branches on one register (R223, R263): a taken branch goes to PC + 4 × Signed(off, 19), another falls
through; no register changes but the full bits of synchronised sources. JAL and JR (R264): sD receives PC + 4, and the PC
the target; that of `jr` is S(a) + 4 × imm, read before sD is written, with bits [1:0] taken as 0. LOOP (R265, R266): a count of 1 or more makes the loop live with the words after the instruction as its body and trip 1, and
goes on into the body; a count of 0 leaves no live loop and goes past the body. The count is capped at 2^32 - 1. A log slot that the group binds (24 bits,
R225) is bound to the loop.
The model's choices in it: log 73. -/
def Obligations.BranchesAndJumps : Prop :=
  ((∀ (s : State) (a : BitVec 6) (o : BitVec 19) (i : Instr) (op : Nat) (taken : Bool),
        let x := s.me.reg (a.toNat % 32)
        (i = .beqz a o ∧ op = 0x28 ∧ taken = (x == 0) ∨ i = .bnez a o ∧ op = 0x29 ∧ taken = (x != 0) ∨
         i = .bltz a o ∧ op = 0x2A ∧ taken = x.msb ∨ i = .bgez a o ∧ op = 0x2B ∧ taken = !x.msb) →
        Clear s op none [a.toNat] [] →
        ∃ t, exec i s = .next t ∧
          (taken = true → Jumps s t (s.me.pc + (o.signExtend 64 <<< 2))) ∧ (taken = false → FallsThrough s t) ∧
          RegsKept s t [a.toNat] 0 ∧ SpecialsKept s t ∧ ControlKept s t) ∧
    (∀ (s : State) (d : BitVec 5) (a : BitVec 6) (o : BitVec 19) (i : BitVec 14),
        (Clear s 0x2C none [] [d.toNat] →
          ∃ t, exec (.jal d o) s = .next t ∧ t.me.reg d.toNat = (if d = 0 then 0 else s.me.pc + 4) ∧
            Jumps s t (s.me.pc + (o.signExtend 64 <<< 2)) ∧ RegsKept s t [] d.toNat ∧ SpecialsKept s t ∧ ControlKept s t) ∧
        (Clear s 0x2D none [a.toNat] [d.toNat] →
          ∃ t, exec (.jr d a i) s = .next t ∧ t.me.reg d.toNat = (if d = 0 then 0 else s.me.pc + 4) ∧
            Jumps s t ((s.me.reg (a.toNat % 32) + wordOfInt (4 * s.me.imm i)) &&& ~~~3) ∧
            RegsKept s t [a.toNat] d.toNat ∧ SpecialsKept s t ∧ ControlKept s t))) ∧
  (∀ (s : State) (a : BitVec 6) (o : BitVec 19), Clear s 0x2E none [a.toNat] [] → 1 ≤ o.toInt →
      (∀ k, logSlot s s.cur = some k → k < 2 ^ 24) →
      let n := min (s.me.reg (a.toNat % 32)).toNat (2 ^ 32 - 1)
      let w := wordOff s s.cur s.me.pc
      ∃ t, exec (.loop a o) s = .next t ∧
        fieldN t.me.loopPc 0 32 = (w + 1) % 2 ^ 32 ∧ fieldN t.me.loopPc 32 32 = (w + o.toInt.toNat) % 2 ^ 32 ∧
        fieldN t.me.loopSl 25 1 = (if n = 0 then 0 else 1) ∧
        (logSlot s s.cur = none → fieldN t.me.loopSl 24 1 = 0) ∧
        (∀ k, logSlot s s.cur = some k → fieldN t.me.loopSl 24 1 = 1 ∧ fieldN t.me.loopSl 0 24 = k) ∧
        (n ≠ 0 → t.me.pc = s.me.pc + 4 ∧ fieldN t.me.loopCnt 0 32 = n ∧ fieldN t.me.loopCnt 32 32 = 1) ∧
        (n = 0 → t.me.pc = codeAddr s s.cur ((w + o.toInt.toNat) % 2 ^ 32 + 1) ∧ t.me.loopCnt = 0) ∧
        t.me.waypt = setField s.me.waypt 59 1 0 ∧ t.me.hints = [] ∧ RegsKept s t [a.toNat] 0 ∧ ControlKept s t)


/-- What the logbook decides (R281): with no BRANCH record the default c; `maj` the more frequent outcome and c on a tie;
`last` the latest outcome. UNRX and PFX (R283): an unroll factor from a LOOP record's average, a prefetch distance from a
LOAD record's latency and miss rate, and the given default, each capped, where the slot holds no such record. What the logbook records
(R274 to R277): an event that meets its entry with HOME known adds to the entry's delta by its field rules, applied to the view, and counts
in EV; one of another KIND than the entry's events or HOME is dropped and counted in CLASH; the one that brings EV to 4096 merges the entry
with the slot word at its home, or meets a clash there. A branch on a register records its outcome when it resolves, and the last
instruction of a bound loop's body the loop's exit; the event of a load that missed takes its place among those that come between turns when the
value arrives. Those stand in the order of cycles and of the A, C and M cores, and a core's turn takes in all that stand before it (R275).
The model's choices in it: log 10, log 12 (the latency of a load is left free). -/
def Obligations.LogbookReaders : Prop :=
  (∀ (s u : State) (c : BitVec 1) (o : BitVec 19) (d : BitVec 5) (a b : BitVec 6) (v : SlotVal),
      let maj : Bool := if v.kind = 1 ∧ v.x ≠ v.y then decide (v.y < v.x) else c == 1
      let last : Bool := if v.kind = 1 ∧ v.x + v.y ≠ 0 then v.h % 2 == 1 else c == 1
      let r := [a.toNat, b.toNat]
      (logView s s.cur = (s, some v) → Clear s 0x2F none [] [] →
        ∀ i take, (i = .bexpMaj c o ∧ take = maj ∨ i = .bexpLast c o ∧ take = last) →
        ∃ t, exec i s = .next t ∧ (take = true → Jumps s t (s.me.pc + (o.signExtend 64 <<< 2))) ∧
          (take = false → FallsThrough s t) ∧ RegsKept s t [] 0 ∧ SpecialsKept s t ∧ OutsideKept s t []) ∧
      (u = observe s s.cur (sMask r) → logView u s.cur = (u, some v) → Clear s 0x30 none r [d.toNat] →
        YieldsReg (.selxMaj d a b c) s r d (if maj then s.me.reg (a.toNat % 32) else s.me.reg (b.toNat % 32)) ∧
        YieldsReg (.selxLast d a b c) s r d (if last then s.me.reg (a.toNat % 32) else s.me.reg (b.toNat % 32)))) ∧
  (∀ (s : State) (d : BitVec 5) (m c : BitVec 4) (m' c' : BitVec 6) (v : SlotVal), logView s s.cur = (s, some v) →
      (Clear s 0x31 none [] [d.toNat] → m.toNat ≤ 8 → c.toNat ≤ 8 →
        YieldsReg (.unrx d m c) s [] d
          (1 <<< (if v.kind = 3 ∧ v.av ≠ 0 then min (Nat.log2 v.av) m.toNat else min c.toNat m.toNat))) ∧
      (Clear s 0x32 none [] [d.toNat] →
        YieldsReg (.pfx d m' c') s [] d (.ofNat 64
          (if v.kind = 2 ∧ v.x + v.y ≠ 0 then min m'.toNat ((v.h * v.y + (32 * (v.x + v.y) - 1)) / (32 * (v.x + v.y)))
           else min c'.toNat m'.toNat)))) ∧
  (∀ (s : State) (cell slot : Nat) (ev : LogEvent) (e : LogEntry), slot < fieldN (s.cell cell).winLen 32 27 →
      (s.cell cell).logQ.any (·.1 == slot) = false → (s.cell cell).log.find? (·.slot == slot) = some e → e.fetching = false →
      let t := logEvent s cell slot ev
      let v := e.view
      let clash := e.ev ≠ 0 ∧ e.delta.kind ≠ ev.kind ∨ e.home.kind ≠ 0 ∧ e.home.kind ≠ ev.kind
      (clash → (t.cell cell).lbClash = min ((s.cell cell).lbClash + 1) 65535 ∧ (t.cell cell).log = (s.cell cell).log ∧ t.mem = s.mem) ∧
      (¬ clash → ∃ d : SlotVal, d.kind = ev.kind ∧
        (∀ b, ev = .branch b → d.x = e.delta.x + (if b then 1 else 0) ∧ d.y = e.delta.y + (if b then 0 else 1) ∧
          d.h = (2 * v.h + (if b then 1 else 0)) % 2 ^ 8) ∧
        (∀ hit lat, ev = .load hit lat → d.x = e.delta.x + (if hit then 1 else 0) ∧ d.y = e.delta.y + (if hit then 0 else 1) ∧
          (d.h : Int) = if v.x + v.y = 0 then ((min lat 4095 : Nat) : Int) else (v.h : Int) + (((min lat 4095 : Nat) : Int) - v.h).fdiv 8) ∧
        (∀ trip, ev = .loop trip → d.h = min trip (2 ^ 20 - 1) ∧ d.mx = max v.mx (min trip (2 ^ 20 - 1)) ∧
          (d.av : Int) = if v.kind = 0 then ((min trip (2 ^ 20 - 1) : Nat) : Int) else (v.av : Int) + (((min trip (2 ^ 20 - 1) : Nat) : Int) - v.av).fdiv 8) ∧
        (e.ev + 1 < 4096 → t.mem = s.mem ∧ (t.cell cell).lbClash = (s.cell cell).lbClash ∧
          (t.cell cell).log.find? (·.slot == slot) = some { e with delta := d, ev := e.ev + 1 }) ∧
        (4096 ≤ e.ev + 1 →
          let u := plainTouch s (slotPa s cell slot) (clusterOfCell cell)
          let h := slotOfWord (readMem u (slotPa s cell slot))
          let m : SlotVal := { kind := d.kind, x := min (h.x + d.x) (2 ^ 24 - 1), y := min (h.y + d.y) (2 ^ 24 - 1), h := d.h,
                               mx := max h.mx d.mx, av := d.av }
          (h.kind ≠ 0 ∧ h.kind ≠ d.kind → t.mem = u.mem ∧ (t.cell cell).lbClash = min ((s.cell cell).lbClash + 1) 65535 ∧
            (t.cell cell).log.find? (·.slot == slot) = some { e with home := h, delta := SlotVal.cold, ev := 0 }) ∧
          (h.kind = 0 ∨ h.kind = d.kind →
            (t.cell cell).log.find? (·.slot == slot) = some { e with home := m, delta := SlotVal.cold, ev := 0 } ∧
            ((keyMat s (paKey (slotPa s cell slot))).isSome → slotPa s cell slot % 8 = 0 →
              readMem t (slotPa s cell slot) = wordOfSlot m))))) ∧
  (∀ (s u : State) (a : BitVec 6) (o : BitVec 19) (i : Instr) (op n : Nat) (taken : Bool),
      let x := s.me.reg (a.toNat % 32)
      (i = .beqz a o ∧ op = 0x28 ∧ taken = (x == 0) ∨ i = .bnez a o ∧ op = 0x29 ∧ taken = (x != 0) ∨
       i = .bltz a o ∧ op = 0x2A ∧ taken = x.msb ∨ i = .bgez a o ∧ op = 0x2B ∧ taken = !x.msb) →
      u = observe s s.cur (sMask [a.toNat]) → Clear s op none [a.toNat] [] → logSlot s s.cur = some n → taken = true ∨ ¬ LogsLoop s s.cur →
      let w := logEvent u (cellOf s.cur) n (.branch taken)
      ∃ t, exec i s = .next t ∧ t = { w with ctxs := t.ctxs, host := t.host }) ∧
  (∀ (s h : State) (id n : Nat) (a : Acc), s.accs.find? (·.id == id) = some a → a.op = .read → (∀ g p, a.loc ≠ .spad g p) →
      blockedAcc s a = false → locBusy s a.loc = false → h = touchHome s a.loc a.pl (clusterOfCell (cellOf a.ctx)) a.uc →
      poisoned h a.loc = false → a.slot = some n → a.exitEv = none →
      let x := s.cell (cellOf a.ctx)
      let e (lat : Nat) : LateEv := { cyc := lateCycle s (coreOf a.ctx), core := coreOf a.ctx, slot := n, ev := .load false lat }
      ∃ t lat, exec (.loadValueArrival id) s = .next t ∧ t.cell (cellOf a.ctx) = { x with late := insertLate (e lat) x.late }) ∧
  (∀ (e : LateEv) (l : List LateEv),
      let before (a b : LateEv) : Prop := a.cyc < b.cyc ∨ a.cyc = b.cyc ∧ a.core ≤ b.core
      l.Pairwise before → (insertLate e l).Pairwise before ∧ ∀ x, x ∈ insertLate e l ↔ x = e ∨ x ∈ l) ∧
  (∀ (s : State) (cell k : Nat), ((flushLate s cell (some k)).cell cell).late =
      (s.cell cell).late.filter fun e => decide (s.time < e.cyc) || (e.cyc == s.time && decide (k < e.core))) ∧
  ∀ (s : State), Clear s 0x7B none [] [] → LogsLoop s s.cur →
    ∃ w, exec .nop s = .next (logEvent w (cellOf s.cur) (fieldN s.me.loopSl 0 24) (.loop (fieldN s.me.loopCnt 32 32))) ∧
      w = { s with ctxs := w.ctxs, host := w.host }


/-- A hint word joins the latch of its group (R225 to R229): the last six of a run count (a seventh hint drops the first that the latch
holds), a run entered in its middle is ignored,
and a hint that the device does not know or that is reserved or hidden is kept as one without effect. The PC moves to the next
word without a loop-back step, and WAYPT, registers, full bits and everything outside the context stay.
The model's choices in it: log 14, log 18. -/
def Obligations.HintsJoin : Prop :=
  ∀ (s : State) (i : Instr) (h : Hint),
    ((∃ n : BitVec 24, i = .hintLog n ∧ h = if hintHidden s 1 then .ignored else .log n.toNat) ∨
     (∃ p, i = .hintImm p ∧ h = .imm p) ∨ (∃ l a, i = .hintSched l a ∧ h = if hintHidden s 2 then .ignored else .sched a.toNat) ∨
     (∃ r : BitVec 2, i = .hintMod r ∧ h = .mod r.toNat) ∨ (∃ p, i = .hintUnknown p ∧ h = .ignored) ∨
     (∃ w, i = .ignoredHint w ∧ h = .ignored)) →
    ∃ t, exec i s = .next t ∧ t.me.pc = s.me.pc + 4 ∧
      (s.me.ignoring = false → s.me.arrived = false ∨ prevIsHint s s.cur s.me.pc = false →
        t.me.ignoring = false ∧ t.me.hints = (s.me.hints ++ [({ pc := s.me.pc, hint := h } : HintRec)]).drop (s.me.hints.length - 5)) ∧
      (s.me.ignoring = true ∨ (s.me.arrived = true ∧ prevIsHint s s.cur s.me.pc = true) →
        t.me.ignoring = true ∧ t.me.hints = []) ∧ t.me.hints.length ≤ 6 ∧
      t.me = { s.me with hints := t.me.hints, ignoring := t.me.ignoring, arrived := false, bkSkip := s.me.bkSkip && !t.me.ignoring,
                           midStop := s.me.midStop && !t.me.ignoring, pc := t.me.pc } ∧
      t = { s with ctxs := t.ctxs, host := t.host } ∧ ∀ j, j ≠ s.cur → t.ctx j = s.ctx j

/-! ### System instructions and traps -/

/-- SYSRD (R355) yields the value that R354 gives the register for the context, by its number: CTXID, CELLNO, LPOS, DEVNO, PTROOT,
WINLEN, LBSTAT, DEPUNF, SPCFG, MSCCFG, CPWGT, the sixteen SLSUB, the twelve SNDCNT, WAYPT, the loop registers, MBATCH (0 on the C and M
cores), the copy registers (0 on the A and C cores), the trap registers and MBSTAT. An unassigned number traps SYSARG.
The model's choices in it: log 5, log 94 (the reserved fields of CPEXT and CPATTR read 0). -/
def Obligations.SysReads : Prop :=
  ∀ (s : State) (d : BitVec 5) (n : BitVec 12), Clear s 0x70 none [] [d.toNat] →
    (∀ v, sysValue s s.cur n.toNat = some v → YieldsReg (.sysrd d n) s [] d v) ∧
    (sysValue s s.cur n.toNat = none → CanTrap s → TrapsIssued (.sysrd d n) s tcSysArg 0 0) ∧
    (∀ k c i, s.cur = (k * 3 + c) * 11 + i → c < 3 → i < 11 →
      sysValue s s.cur 0x000 = some (.ofNat 64 (c * 2 ^ 4 + i))) ∧
    sysValue s s.cur 0x001 = some (.ofNat 64 s.myCell.cellNo) ∧ sysValue s s.cur 0x002 = some s.myCell.lpos ∧
    sysValue s s.cur 0x003 = some (.ofNat 64 s.dev.devno) ∧ sysValue s s.cur 0x004 = some s.myCell.ptRoot ∧
    sysValue s s.cur 0x005 = some s.myCell.winLen ∧
    sysValue s s.cur 0x006 = some (.ofNat 64 ((if s.myCell.lbDet then 2 ^ 63 else 0) + s.myCell.lbClash % 2 ^ 16 * 2 ^ 16 +
      s.myCell.lbDrop % 2 ^ 16)) ∧
    sysValue s s.cur 0x007 = some s.myCell.depUnf ∧
    (let g := s.cluster (clusterOfCell (cellOf s.cur))
     sysValue s s.cur 0x008 = some (.ofNat 64 (g.epoch % 2 ^ 32 * 2 ^ 8 + (if g.busy then 2 ^ 5 else 0) + g.conv))) ∧
    sysValue s s.cur 0x009 = some (.ofNat 64 s.dev.mscSize) ∧ sysValue s s.cur 0x00A = some s.myCell.cpWgt ∧
    (∀ k, k < 16 → sysValue s s.cur (0x010 + k) = some (Map.at s.dev.slsub k (BitVec.allOnes 64))) ∧
    (∀ k, k < 12 → sysValue s s.cur (0x020 + k) = some (Map.at s.dev.sndcnt k 0)) ∧
    (∀ k, k < 8 → sysValue s s.cur (0x038 + k) =
      some (if kindOf s.cur = .m then s.me.cp.getD k 0 &&& (if k = 2 then 0xFFFFFFFF00FFFFFF else if k = 5 then 0x000007FFFFC3FFFF
        else BitVec.allOnes 64) else 0)) ∧
    sysValue s s.cur 0x048 = some (.ofNat 64 (s.me.mbFrom % 2 ^ 17 * 2 ^ 32 + s.me.mbox.length)) ∧
    sysValue s s.cur 0x030 = some s.me.waypt ∧ sysValue s s.cur 0x031 = some s.me.loopPc ∧
    sysValue s s.cur 0x032 = some s.me.loopCnt ∧ sysValue s s.cur 0x033 = some s.me.loopSl ∧
    sysValue s s.cur 0x040 = some s.me.trCause ∧ sysValue s s.cur 0x041 = some s.me.trPc ∧
    sysValue s s.cur 0x042 = some s.me.trVa ∧ sysValue s s.cur 0x043 = some s.me.trWay ∧
    sysValue s s.cur 0x044 = some s.me.trLoop ∧ sysValue s s.cur 0x045 = some s.me.trVec ∧
    sysValue s s.cur 0x046 = some s.me.trScr ∧ sysValue s s.cur 0x034 = some (if kindOf s.cur = .a then s.me.mbatch else 0)

/-- SYSWR (R355) writes the register that it names and no other, keeping reserved and read-only fields; one that is not writable
(every number of R354 but DEPUNF 0x007, 0x030 to 0x033 and 0x040 to 0x046) traps SYSARG. A write of DEPUNF clears the bits that are 1. The
completion's loop-back step and what it leaves alone are those of any instruction, with the loop registers as the write has left them: one that
makes a loop live whose body ends here goes back, or leaves it.
The model's choices in it: log 5, log 74. -/
def Obligations.SysWrites : Prop :=
  ∀ (s : State) (a : BitVec 6) (n : BitVec 12), Clear s 0x71 none [a.toNat] [] →
    let v := s.me.reg (a.toNat % 32)
    let writable := n = 0x007 ∨ 0x030 ≤ n.toNat ∧ n.toNat ≤ 0x033 ∨ 0x040 ≤ n.toNat ∧ n.toNat ≤ 0x046
    (¬ writable → CanTrap s → TrapsIssued (.syswr a n) s tcSysArg 0 0) ∧
    (writable → ∃ t, exec (.syswr a n) s = .next t ∧
      t.me.trCause = (if n = 0x040 then setField s.me.trCause 0 40 (fieldN v 0 40) else s.me.trCause) ∧
      t.me.trPc = (if n = 0x041 then v else s.me.trPc) ∧ t.me.trVa = (if n = 0x042 then v else s.me.trVa) ∧
      t.me.trWay = (if n = 0x043 then v else s.me.trWay) ∧ t.me.trLoop = (if n = 0x044 then v else s.me.trLoop) ∧
      t.me.trVec = (if n = 0x045 then v else s.me.trVec) ∧ t.me.trScr = (if n = 0x046 then v else s.me.trScr) ∧
      t.me.loopPc = (if n = 0x031 then v else s.me.loopPc) ∧
      (fieldN s.me.loopSl 25 1 = 0 → n ≠ 0x033 →
        t.me.loopCnt = (if n = 0x032 then v else s.me.loopCnt) ∧ t.me.loopSl = s.me.loopSl ∧ t.me.pc = s.me.pc + 4) ∧
      (n = 0x033 → fieldN v 25 1 = 0 → t.me.loopSl = setField s.me.loopSl 0 26 (fieldN v 0 26) ∧ t.me.pc = s.me.pc + 4) ∧
      (n ≠ 0x030 → t.me.waypt = setField s.me.waypt 59 1 0) ∧
      (n = 0x030 → fieldN t.me.waypt 59 5 = fieldN v 59 5 ∧ fieldN t.me.waypt 0 16 = fieldN v 0 16 ∧
        fieldN t.me.waypt 16 43 = fieldN s.me.waypt 16 43) ∧
      (let w := s.modMe fun x => { x with
         loopPc := (if n = 0x031 then v else x.loopPc), loopCnt := (if n = 0x032 then v else x.loopCnt),
         loopSl := (if n = 0x033 then setField x.loopSl 0 26 (fieldN v 0 26) else x.loopSl) }
       FallsThrough w t ∧ ControlKept { w with cells := t.cells } t ∧ (n ≠ 0x007 → ¬ LogsLoop w s.cur → t.cells = s.cells)) ∧
      t.me.cp = s.me.cp ∧ t.me.mbatch = s.me.mbatch ∧ t.me.mbox = s.me.mbox ∧ t.me.mbFrom = s.me.mbFrom ∧
      t.me.pendTrap = s.me.pendTrap ∧ t.me.stat = s.me.stat ∧ t.me.hints = [] ∧
      (¬ LogsLoop s s.cur → n ≠ 0x031 → n ≠ 0x032 → n ≠ 0x033 →
        (t.cell (cellOf s.cur)).depUnf = if n = 0x007 then s.myCell.depUnf &&& ~~~v else s.myCell.depUnf) ∧
      RegsKept s t [a.toNat] 0 ∧ t.accs = s.accs ∧ ∀ j, j ≠ s.cur → t.ctx j = s.ctx j)

/-- TRAP (R361) raises USER with ARG := Wrap(S(a) + imm, 16); for USER alone TRPC is the address of the word after the `trap`, so
that `eret` continues the program. It is written in format I with d = 0, its field is no operand of R228, and `trap 5` is
0xE4000005.
The model's choices in it: log 5. -/
def Obligations.TrapRule : Prop :=
  (∀ (s : State) (a : BitVec 6) (i : BitVec 14), Clear s 0x72 none [a.toNat] [] → CanTrap s →
    ∃ t, exec (.trap a i) s = .next t ∧
      fieldN t.me.trCause 0 8 = tcUser ∧ fieldN t.me.trCause 8 16 =
        (s.me.reg (a.toNat % 32) + i.signExtend 64).toNat % 2 ^ 16 ∧ fieldN t.me.trCause 40 1 = 1 ∧
      t.me.trPc = s.me.pc + 4 ∧ t.me.trWay = setField s.me.waypt 59 1 0 ∧ t.me.waypt = 0 ∧ t.me.trLoop = s.me.loopSl ∧
      t.me.loopSl = setField s.me.loopSl 25 1 0 ∧ t.me.pc = .ofNat 64 (s.me.trVec.toNat / 4 * 4) ∧
      t.me.regs = s.me.regs ∧ t.me.full = s.me.full ∧ t.me.hints = [] ∧ t.mem = s.mem ∧ t.accs = s.accs ∧
      ∀ j, j ≠ s.cur → t.ctx j = s.ctx j) ∧
  decode (.ofNat 32 0xE4000005) = .trap 0 5 ∧
  ∀ (d : BitVec 5) (a : BitVec 6) (i : BitVec 14), decode (.ofNat 32 (0x72 * 2 ^ 25 + d.toNat * 2 ^ 20 + a.toNat * 2 ^ 14 + i.toNat)) =
    if d = 0 then .trap a i else
      .fieldsIllegal (.ofNat 32 (0x72 * 2 ^ 25 + d.toNat * 2 ^ 20 + a.toNat * 2 ^ 14 + i.toNat))

/-- ERET (R359): when INH = 0 it traps SYSARG; otherwise WAYPT := TRWAY and LOOPSL := TRLOOP (their reserved
bits read 0, R16), INH := 0 and PC := TRPC with bits [1:0]
cleared, the latch is empty for the group of the instruction there, and WAYPT stands as it was restored.
The model's choices in it: log 5. -/
def Obligations.TrapReturn : Prop :=
  ∀ (s : State), Clear s 0x73 none [] [] →
    (fieldN s.me.trCause 40 1 = 0 → s.me.trVec ≠ 0 → TrapsIssued .eret s tcSysArg 0 0) ∧
    (fieldN s.me.trCause 40 1 = 1 →
      ∃ t, exec .eret s = .next t ∧ t.me.waypt = wayptOf s.me.trWay ∧ t.me.loopSl = loopSlOf s.me.trLoop ∧
        (∀ lo w, lo + w ≤ 16 ∨ 59 ≤ lo ∧ lo + w ≤ 64 → fieldN t.me.waypt lo w = fieldN s.me.trWay lo w) ∧
        fieldN t.me.waypt 16 43 = 0 ∧ fieldN t.me.loopSl 0 26 = fieldN s.me.trLoop 0 26 ∧ fieldN t.me.loopSl 26 38 = 0 ∧
        fieldN t.me.trCause 40 1 = 0 ∧
        t.me.pc = s.me.trPc &&& ~~~3 ∧ t.me.hints = [] ∧ t.me.ignoring = false ∧
        t.me = { s.me with waypt := wayptOf s.me.trWay, loopSl := loopSlOf s.me.trLoop, trCause := t.me.trCause, pc := t.me.pc, hints := [],
                           ignoring := false, arrived := true, bkSkip := false } ∧
        (∀ j, j ≠ s.cur → t.ctx j = s.ctx j) ∧ t = { s with ctxs := t.ctxs, host := t.host })

/-- HALT waits for its release and then stops the context for good (R362); MARK completes at issue, counts a new mark that
every block will latch, and changes no other architectural state, of its own context, core and cell or of any other (R362, R399); NOP completes (R362). FEAT (R363) writes
leaf Wrap(S(a) + imm, 16) of R234, whose leaves 0 to 15 stand here by number, under the mask of the function, all ones for function 0 and as FEATMASK holds it for
another; a leaf above 63 reads 0. A word that stands for no instruction traps ILLEGAL_OP, and one of another core's opcode
ILLEGAL_ENGINE (R231, R232).
The model's choices in it: log 5. -/
def Obligations.HaltMarkNopFeat : Prop :=
  (∀ (s : State),
      (Clear s 0x74 none [] [] → drained s s.cur = true → s.me.failed = [] →
        ∃ t, exec .halt s = .next t ∧ t.me.stat = .halted ∧ t.me.pc = s.me.pc ∧ t.me.regs = s.me.regs ∧ t.mem = s.mem ∧
          t.accs = s.accs ∧ ∀ j, j ≠ s.cur → t.ctx j = s.ctx j) ∧
      (Clear s 0x74 none [] [] → drained s s.cur = false → exec .halt s = .next s) ∧
      (Clear s 0x75 none [] [] →
        ∃ t, exec .mark s = .next t ∧ (s.dev.marking = [] → t.dev.markSeq = s.dev.markSeq + 1 ∧ t.dev.marking ≠ []) ∧
          (s.dev.marking ≠ [] → t.dev.markSeq = s.dev.markSeq ∧ t.dev.marking = s.dev.marking) ∧
          RegsKept s t [] 0 ∧ SpecialsKept s t ∧ FallsThrough s t ∧
          OutsideKept { s with dev := { s.dev with markSeq := t.dev.markSeq, marking := t.dev.marking } } t []) ∧
      (Clear s 0x7B none [] [] →
        ∃ t, exec .nop s = .next t ∧ RegsKept s t [] 0 ∧ SpecialsKept s t ∧ OutsideKept s t [] ∧ FallsThrough s t)) ∧
  (∀ (s : State) (d : BitVec 5) (a : BitVec 6) (i : BitVec 14), Clear s 0x76 none [a.toNat] [d.toNat] →
      let l := (s.me.reg (a.toNat % 32) + wordOfInt (s.me.imm i)).toNat % 2 ^ 16
      let vf := ptVf s.myCell.ptRoot
      YieldsReg (.feat d a i) s [a.toNat] d
        (if 63 < l then 0 else if vf = 0 then featLeaf l else
          featLeaf l &&& Map.at s.dev.featmask (vf * 64 + l) (BitVec.allOnes 64)) ∧
      [featLeaf 0, featLeaf 1, featLeaf 2, featLeaf 3, featLeaf 4, featLeaf 5, featLeaf 6, featLeaf 7, featLeaf 8] =
        [0x5759096000023F01, 0x040040410BC48408, 0x03FFFF01FFFF3FFE, 0xBFFF03FF3F1FFFFF, 0, 0x3000000000000000, 0xF,
         0x0000000F001FFFFE, 0x03C0040001001000] ∧
      ∀ k, 9 ≤ k → k ≤ 15 ∨ 63 < k → featLeaf k = 0) ∧
  (∀ (s : State) (w : IWord), CanTrap s →
      let owner := opOwner (w.toNat / 2 ^ 25)
      TrapsAtDecode (.unassignedWord w) s tcIllegalOp ∧
      (featHidden s s.cur (w.toNat / 2 ^ 25) = false → owner = none ∨ owner = some (kindOf s.cur) →
        wordTa w = false ∨ kindOf s.cur = .a → TrapsAtDecode (.fieldsIllegal w) s tcIllegalOp) ∧
      (featHidden s s.cur (w.toNat / 2 ^ 25) = false → owner ≠ none → owner ≠ some (kindOf s.cur) →
        TrapsAtDecode (.fieldsIllegal w) s tcIllegalEngine))


/-! ### Events of cores and memory -/

/-- FAULT_REPLY (R42, R43): RETRY makes the parked context ELIGIBLE at its instruction, SIGNAL makes a MEMFAULT trap with the
message's PC, address and cause pending behind those that wait, STOP a halt, which fails the launch unless it has failed before; a reply that no parked context awaits is discarded, and none comes before the message itself has arrived, nor before earlier replies of
its pilot core to the core (R126). TRAP_ENTRY (R358) enters
the handler of the oldest pending trap, when no issued instruction keeps its turns: cause, PC, address, WAYPT and LOOPSL are saved, and registers stay.
The model's choices in it: log 5, log 16. -/
def Obligations.RepliesAndEntry : Prop :=
  ∀ (s : State) (cell c : Nat) (r : Word),
    (faultWaiter s cell (fieldN r 2 32) = none → exec (.faultReply cell r) s = .next s) ∧
    (∀ f, faultWaiter s cell (fieldN r 2 32) = some (c, f) → replyEarly s c cell f = true → exec (.faultReply cell r) s = .next s) ∧
    (∀ f, faultWaiter s cell (fieldN r 2 32) = some (c, f) → replyEarly s c cell f = false → (s.ctx c).stat = .parked →
      ∃ t, exec (.faultReply cell r) s = .next t ∧ (t.ctx c).stat = .eligible ∧ (t.ctx c).faultWait = none ∧
        (t.ctx c).pc = (s.ctx c).pc ∧ (t.ctx c).regs = (s.ctx c).regs ∧
        (fieldN r 0 2 = 0 → (t.ctx c).pendTrap = (s.ctx c).pendTrap ∧ (t.ctx c).pendStop = (s.ctx c).pendStop) ∧
        (fieldN r 0 2 = 1 → ∃ q, (t.ctx c).pendTrap = (s.ctx c).pendTrap ++ [q] ∧ q.code = tcMemfault ∧ q.pc = some f.pc ∧ q.va = f.va ∧
          q.fcause = f.cause ∧ q.kind = f.kind) ∧
        (2 ≤ fieldN r 0 2 → (t.ctx c).pendTrap = (s.ctx c).pendTrap ∧ (t.ctx c).pendStop = some (.faultStop f.cause)) ∧
        (f.report = true → (t.ctx c).failed = (s.ctx c).failed.drop 1) ∧
        (fieldN r 0 2 < 2 → t.host = s.host) ∧
        (∀ l, 2 ≤ fieldN r 0 2 → launchOf s cell = some l → l.fail = none → cellOf c = cell →
          Map.find t.host.launches l.id = some { l with fail := some (tcMemfault, f.cause, (s.cell cell).cellNo) }) ∧
        (∀ j, j ≠ c → t.ctx j = s.ctx j) ∧ t = { s with ctxs := t.ctxs, host := t.host }) ∧
    (∀ q rest, (s.ctx c).pendTrap = q :: rest → (s.ctx c).stat = .eligible → (s.ctx c).spadReq = none → (s.ctx c).block = .none →
      fieldN (s.ctx c).trCause 40 1 = 0 → (s.ctx c).trVec ≠ 0 →
      ∃ t, exec (.trapEntry c) s = .next t ∧ (t.ctx c).trCause = causeWord q ∧
        (t.ctx c).trPc = q.pc.getD (s.ctx c).groupPc ∧ (t.ctx c).trVa = q.va ∧ (t.ctx c).trWay = (s.ctx c).waypt ∧
        (t.ctx c).trLoop = (s.ctx c).loopSl ∧ (t.ctx c).waypt = 0 ∧ fieldN (t.ctx c).loopSl 25 1 = 0 ∧
        (t.ctx c).pc = .ofNat 64 ((s.ctx c).trVec.toNat / 4 * 4) ∧ (t.ctx c).pendTrap = rest ∧
        (t.ctx c).regs = (s.ctx c).regs ∧ (t.ctx c).full = (s.ctx c).full ∧ (∀ j, j ≠ c → t.ctx j = s.ctx j) ∧
        t = { s with ctxs := t.ctxs })

/-- BARREL_CYCLE (R179): when the cycle is that core's to act, its cycle count and the time move on, and the first context after PTR in cyclic order that is
ELIGIBLE and has not issued in the last five cycles gets a turn; with none, no turn is granted. Out of its turn a core waits, and for a new
cycle until the idle cores have probed in the present one (R196). CHART_REFRESH_END (R65)
moves time, while no core acts, to the end of the window that a chart bank is in; an idle core that finds a task meanwhile ends that. LOGBOOK_ENTRY_FETCH (R275) brings HOME into an entry being fetched.
HBM_WRITEBACK_ACK (R143) leaves a line of a slice valid and clean, with its dirty words in memory behind it; every word reads as
before.
The model's choices in it: log 1, log 12, log 42, log 48. -/
def Obligations.TimeAndWritebacks : Prop :=
  ∀ (s : State) (core die bank cell slot line : Nat),
    (coreDue s core = false ∨ s.time < nextCycle s core ∧ idleProbers s ≠ [] → exec (.barrelCycle core) s = .next s) ∧
    (coreDue s core = true → (s.time < nextCycle s core → idleProbers s = []) →
     let cyc := nextCycle s core
     let may (x : Nat) : Prop := (s.ctx (11 * core + x)).stat = .eligible ∧ (s.core core).last.getD x 0 + 6 ≤ (cyc : Int)
     ∃ t, exec (.barrelCycle core) s = .next t ∧ t.time = cyc ∧ (t.core core).cyc = cyc ∧ t.ctxs = s.ctxs ∧ t.mem = s.mem ∧
       ((∀ x, x < 11 → ¬ may x) → t.turns = s.turns ∧ (t.core core).ptr = (s.core core).ptr) ∧
       (∀ j, j < 11 → may (((s.core core).ptr + 1 + j) % 11) → (∀ i, i < j → ¬ may (((s.core core).ptr + 1 + i) % 11)) →
         let x := ((s.core core).ptr + 1 + j) % 11
         t.turns = s.turns ++ [11 * core + x] ∧ (t.core core).ptr = x ∧ (t.core core).last.getD x 0 = cyc)) ∧
    (let at' := (s.time + Config.chartOffset die + 40000 * 125 - 320 * (bank % 125)) % 40000
     let left := if at' < 320 ∧ activeCores s = [] then 320 - at' else 0
     ∃ t, exec (.chartRefreshEnd die bank) s = .next t ∧ t.mem = s.mem ∧ t.accs = s.accs ∧ s.time ≤ t.time ∧ t.time ≤ s.time + left ∧
       (t.time < s.time + left → activeCores t ≠ [] ∨ idleProbers t ≠ []) ∧
       ((∀ k, coreIdle s k = false) → t.time = s.time + left ∧ t.ctxs = s.ctxs)) ∧
    (∀ e, (s.cell cell).log.find? (·.slot == slot) = some e → e.fetching = true → e.waiting = [] → (s.cell cell).logQ = [] →
      let u := plainTouch s (slotPa s cell slot) (clusterOfCell cell)
      ∃ t, exec (.logbookEntryFetch cell slot) s = .next t ∧ t.mem = u.mem ∧ t.ctxs = s.ctxs ∧
        (t.cell cell).log.find? (·.slot == slot) =
          some { e with fetching := false, home := slotOfWord (readMem u (slotPa s cell slot)), waiting := [] }) ∧
    (∃ t, exec (.hbmWritebackAck line) s = .next t ∧ t.ctxs = s.ctxs ∧
      (∀ g, g ≠ line → Map.find t.mem.slines g = Map.find s.mem.slines g) ∧ (∀ pa, pa / 64 = line → readMem t pa = readMem s pa) ∧
      (s.dev.mscSize = 0 → ∀ pa, pa % 8 = 0 → paAddr pa / 64 ≠ paAddr (line * 64) / 64 → readMem t pa = readMem s pa) ∧
      (∀ l, Map.find s.mem.slines line = some l → heldWords s line = 0 →
        Map.find t.mem.slines line = some { l with dirty := 0, writers := [] } ∧
        (s.dev.mscSize = 0 → (keyMat s (paKey (line * 64))).isSome → ∀ i, i < 8 → l.dirty.getLsbD i = true →
          mediaWord t (paKey (line * 64)) (paAddr (line * 64 + 8 * i)) = l.words.getD i 0)))

/-- SPAD_BANK_CYCLE (R53, R54): with empty queues a lone new access succeeds; a store then writes its bytes of the word and no
other, a load finds the word, and the context gets the rest of its turn with the answer at its instruction, with what
the word's value brings to an acquire (R101). Otherwise a queue is
served and the new access joins the forfeit queue: the first of the forfeit queue is performed in the same way and its context gets its
answer; the first of the engine queue, when that is the queue whose turn it is, a load or a store of another cluster, is performed there:
the load's register takes the bytes, or the store's bytes are written, and the access has ended.
The model's choices in it: log 20. -/
def Obligations.BankServes : Prop :=
  ∀ (s : State) (g b : Nat) (r : BankReq) (q : SpadReq),
    let k := Map.at (s.cluster g).banks b Bank.reset
    let merged (t : State) (p : Nat) (v : Word) (bm : BitVec 8) : Prop :=
      (∀ j, j < 8 → Memory.byte (t.cluster g).spad (p + j) =
        if bm.getLsbD j then .ofNat 8 (v.toNat / 256 ^ j) else Memory.byte (s.cluster g).spad (p + j)) ∧
      (∀ a, a < p ∨ p + 8 ≤ a → Memory.byte (t.cluster g).spad a = Memory.byte (s.cluster g).spad a) ∧
      t.mem = { s.mem with hist := t.mem.hist, rels := t.mem.rels }
    let answered (q : SpadReq) (p : Nat) : SpadReq :=
      { q with result := some (Memory.word (s.cluster g).spad p, false, false),
               got := if relNow s (.spad g p) = [] then q.got else relNow s (.spad g p) }
    let forfeits (t : State) : Prop :=
      t.turns = s.turns ∧ (Map.at (t.cluster g).banks b Bank.reset).present = []
    k.present = [r] → coreInCluster r.ctx < 48 → (s.ctx r.ctx).spadReq = some q →
    (k.forfeit = [] → k.engine = [] → poisoned s (.spad g r.phys) = false →
      (r.op = .read → ∃ t, exec (.spadBankCycle g b) s = .next t ∧ t.turns = s.turns ++ [r.ctx] ∧
        (t.ctx r.ctx).spadReq = some (answered q r.phys) ∧
        (t.ctx r.ctx).regs = (s.ctx r.ctx).regs ∧ (t.cluster g).spad = (s.cluster g).spad ∧ t.mem = s.mem) ∧
      (∀ v bm, r.op = .write v bm → ∃ t, exec (.spadBankCycle g b) s = .next t ∧ t.turns = s.turns ++ [r.ctx] ∧
        merged t r.phys v bm)) ∧
    (∀ f rest q', k.forfeit = f :: rest → k.engine = [] ∨ k.servedForfeit = false → f.ctx ≠ r.ctx → poisoned s (.spad g f.phys) = false →
      (s.ctx f.ctx).spadReq = some q' →
      (f.op = .read → ∃ t, exec (.spadBankCycle g b) s = .next t ∧ forfeits t ∧
        (Map.at (t.cluster g).banks b Bank.reset).forfeit = rest ++ [r] ∧
        (t.ctx f.ctx).spadReq = some (answered q' f.phys) ∧ (t.cluster g).spad = (s.cluster g).spad ∧ t.mem = s.mem) ∧
      (∀ v bm, f.op = .write v bm → ∃ t, exec (.spadBankCycle g b) s = .next t ∧ forfeits t ∧
        (Map.at (t.cluster g).banks b Bank.reset).forfeit = rest ++ [r] ∧
        (t.ctx f.ctx).spadReq = some (answered q' f.phys) ∧ merged t f.phys v bm)) ∧
    ∀ id rest a p, k.engine = id :: rest → k.forfeit = [] ∨ k.servedForfeit = true → s.accs.find? (·.id == id) = some a →
      a.loc = .spad g p →
      (a.op = .read → poisoned s (.spad g p) = false → 0 < a.dest → a.dest < 32 → (s.ctx a.ctx).isBusy a.dest = true →
        ∃ t, exec (.spadBankCycle g b) s = .next t ∧ forfeits t ∧ (Map.at (t.cluster g).banks b Bank.reset).engine = rest ∧
          (Map.at (t.cluster g).banks b Bank.reset).forfeit = k.forfeit ++ [r] ∧ t.accs = s.accs.filter (·.id != id) ∧
          (t.ctx a.ctx).reg a.dest = .ofNat 64 ((Memory.word (s.cluster g).spad p).toNat / 2 ^ (8 * a.off) % 2 ^ (8 * a.size)) ∧
          (t.ctx a.ctx).isFull a.dest = true ∧ (t.ctx a.ctx).isBusy a.dest = false ∧
          (t.cluster g).spad = (s.cluster g).spad ∧ t.mem = s.mem) ∧
      (∀ v bm, a.op = .write v bm →
        ∃ t, exec (.spadBankCycle g b) s = .next t ∧ forfeits t ∧ (Map.at (t.cluster g).banks b Bank.reset).engine = rest ∧
          (Map.at (t.cluster g).banks b Bank.reset).forfeit = k.forfeit ++ [r] ∧ t.accs = s.accs.filter (·.id != id) ∧
          (t.ctx a.ctx).regs = (s.ctx a.ctx).regs ∧ merged t p v bm)

/-! ### Tasks, semaphores and mutexes -/

/-- START (R267), SPAWN (R269), HELPRES (R271), DEP_SET and DEP_DEC (R270) complete: a free helper of the core begins at the given
word of the code with its two arguments and the starter receives its number, or 0 when none is free; a task record joins the
cell's deque; RESV is exchanged; a dependence counter is set or decremented, one at 0 noting the underflow. A release goes before
`start`, `spawn` and `dep.dec`; what it brings stands in the task's record and at the counter (R117). TASKARG traps a word of `start` of
2^32 or more, a KIND of 3 or a set reserved bit in the word of `spawn`, a value of RESV outside 0 to 10, a counter above 63 and a value of
`dep.set` above 65,535.
The model's choices in it: log 5. -/
def Obligations.TaskInstructions : Prop :=
  ∀ (s u : State) (d : BitVec 5) (a b : BitVec 6) (i : BitVec 14),
    let x := s.me.reg (a.toNat % 32)
    let y := s.me.reg (b.toNat % 32)
    let n := b.toNat % 32
    let cell := cellOf s.cur
    let ab := [a.toNat, b.toNat]
    (u = observe s s.cur (sMask ab) → Clear s 0x33 none ab [d.toNat] → x.toNat < 2 ^ 32 → drained u s.cur = true →
      s.me.failed = [] →
      (takeHelper u (coreOf s.cur) false = none → YieldsReg (.start d a b) s ab d 0) ∧
      (∀ h, takeHelper u (coreOf s.cur) false = some h → h ≠ s.cur → coreOf h = coreOf s.cur →
        ∃ t, exec (.start d a b) s = .next t ∧ t.me.reg d.toNat = (if d = 0 then 0 else .ofNat 64 (slotOf h)) ∧
          (t.ctx h).stat = .eligible ∧ (t.ctx h).pc = codeAddr s s.cur x.toNat ∧ (t.ctx h).reg 1 = y ∧
          (t.ctx h).reg 2 = ctxId s.cur ∧ (∀ r, 2 < r → (t.ctx h).reg r = 0) ∧ (∀ j, j ≠ s.cur → j ≠ h → t.ctx j = s.ctx j) ∧
          RegsKept s t ab d.toNat ∧ SpecialsKept s t ∧ FallsThrough s t ∧ t.accs = s.accs)) ∧
    (u = observe s s.cur (sMask ab) → 1 ≤ n → n ≤ 29 → Clear s 0x35 none ab [n + 1, n + 2] → fieldN x 17 2 ≠ 3 →
      fieldN x 0 15 = 0 → drained u s.cur = true → s.me.failed = [] → s.myCell.deque.length < 64 →
      ∃ t e, exec (.spawn a b) s = .next t ∧ e.w0 = x ∧ e.arg1 = y ∧ e.arg2 = s.me.reg (n + 1) ∧ e.arg3 = s.me.reg (n + 2) ∧
        e.spawner = s.myCell.cellNo ∧ e.serial = s.myCell.spawned + 1 ∧ e.clock = releaseClock u s.cur ∧
        Completes (s.modCell cell fun z => { z with deque := z.deque ++ [e], spawned := z.spawned + 1 }) t ab 0) ∧
    (Clear s 0x37 none [a.toNat] [d.toNat] → 
      let v : Int := x.toNat + s.me.imm i
      (0 ≤ v → v ≤ 10 → ∃ t, exec (.helpres d a i) s = .next t ∧ t.myCore.resv = v.toNat ∧
        t.me.reg d.toNat = (if d = 0 then 0 else .ofNat 64 s.myCore.resv) ∧ CompletesSync s t [a.toNat] d.toNat) ∧
      (v < 0 ∨ 10 < v → CanTrap s → TrapsIssued (.helpres d a i) s tcTaskArg 0 0)) ∧
    (Clear s 0x36 none ab [] → x.toNat < 64 → y.toNat ≤ 65535 →
      ∃ t, exec (.depSet a b) s = .next t ∧ Completes (setDep (s.modMyCell fun z => { z with depOps := Map.drop z.depOps x.toNat, depClk := Map.drop z.depClk x.toNat }) cell x.toNat y.toNat)
        t ab 0) ∧
    (u = observe s s.cur (sMask [a.toNat]) → Clear s 0x36 none [a.toNat] [] → x.toNat < 64 → drained u s.cur = true →
      s.me.failed = [] →
      ∃ t, exec (.depDec a) s = .next t ∧ Completes (decDep (noteDec s cell x.toNat (releaseClock u s.cur)) cell x.toNat) t [a.toNat] 0 ∧
        (¬ LogsLoop s s.cur →
          (depVal s cell x.toNat = 0 → (t.cell cell).depUnf = setBit (s.cell cell).depUnf x.toNat true) ∧
          (depVal s cell x.toNat ≠ 0 → depVal t cell x.toNat = depVal s cell x.toNat - 1))) ∧
    (CanTrap s →
      (Clear s 0x33 none ab [d.toNat] → 2 ^ 32 ≤ x.toNat → TrapsIssued (.start d a b) s tcTaskArg 0 0) ∧
      (1 ≤ n → n ≤ 29 → Clear s 0x35 none ab [n + 1, n + 2] → fieldN x 17 2 = 3 ∨ fieldN x 0 15 ≠ 0 →
        TrapsIssued (.spawn a b) s tcTaskArg 0 0) ∧
      (Clear s 0x36 none ab [] → 64 ≤ x.toNat ∨ 65535 < y.toNat → TrapsIssued (.depSet a b) s tcTaskArg 0 0) ∧
      (Clear s 0x36 none [a.toNat] [] → 64 ≤ x.toNat → TrapsIssued (.depDec a) s tcTaskArg 0 0))

/-- SEMP, SEMV, MLOCK and MUNLOCK (R114, R115, R272): a count above 0 is taken with an acquire, and at 0 the context parks; a
release gives a unit back; a free mutex is taken with an acquire, for one that another holds the context parks, and its holder's release frees
it. A unit, or a mutex, for which contexts have parked goes to the one that parked first, whose `semp` or `mlock` then completes with an
acquire. The holder's second lock and another's unlock trap MTXERR, a count of 65,535 traps SEMOVF.
The model's choices in it: log 5, log 72. -/
def Obligations.Semaphores : Prop :=
  ∀ (s : State) (k : BitVec 4) (m : BitVec 3),
    let cell := cellOf s.cur
    let n := semVal s cell k.toNat
    let parks (i : Instr) (cause : ParkCause) (num : Nat) : Prop :=
      ∃ t, exec i s = .next t ∧ t.me.stat = .parked ∧ t.me.park = cause ∧ t.me.parkNum = num ∧
        t.me.pc = s.me.pc ∧ t.me.regs = s.me.regs ∧ t.mem = s.mem ∧ ∀ j, j ≠ s.cur → t.ctx j = s.ctx j
    let handsTo (t : State) (w : Nat) : Prop :=
      (t.ctx w).stat = .eligible ∧ (t.ctx w).regs = (s.ctx w).regs ∧ (¬ AtLoopEnd s w → (t.ctx w).pc = (s.ctx w).pc + 4) ∧
        (¬ LogsLoop s w → ¬ LogsLoop s s.cur → Acquired t (coreOf w)) ∧ RegsKept s t [] 0 ∧ SpecialsKept s t ∧ FallsThrough s t ∧
        ∀ j, j ≠ s.cur → j ≠ w → t.ctx j = s.ctx j
    (Clear s 0x38 none [] [] →
      (n ≠ 0 → ∃ t, exec (.semp k) s = .next t ∧ (¬ LogsLoop s s.cur → Acquired t (coreOf s.cur)) ∧
        CompletesSync (s.modCell cell fun x => { x with sems := Map.put x.sems k.toNat (n - 1) }) t [] 0) ∧
      (n = 0 → parks (.semp k) .semaphore k.toNat)) ∧
    (Clear s 0x38 none [] [] → drained s s.cur = true → s.me.failed = [] →
      (n < 65535 → (n = 0 → firstParked s cell .semaphore k.toNat = none) →
        ∃ t, exec (.semv k) s = .next t ∧
          Completes (s.modCell cell fun x => { x with
            sems := Map.put x.sems k.toNat (n + 1),
            semClk := Map.put x.semClk k.toNat (joinClock (Map.at x.semClk k.toNat []) (releaseClock s s.cur)) }) t [] 0) ∧
      (∀ w, n = 0 → firstParked s cell .semaphore k.toNat = some w → w ≠ s.cur →
        ∃ t, exec (.semv k) s = .next t ∧ semVal t cell k.toNat = 0 ∧ handsTo t w) ∧
      (65535 ≤ n → CanTrap s → TrapsIssued (.semv k) s tcSemOvf 0 0)) ∧
    (Clear s 0x39 none [] [] →
      (Map.find s.myCell.mtx m.toNat = none → ∃ t, exec (.mlock m) s = .next t ∧ (¬ LogsLoop s s.cur → Acquired t (coreOf s.cur)) ∧
        CompletesSync (s.modCell cell fun x => { x with mtx := Map.put x.mtx m.toNat (s.cur % 33) }) t [] 0) ∧
      (Map.find s.myCell.mtx m.toNat = some (s.cur % 33) → CanTrap s → TrapsIssued (.mlock m) s tcMtxErr 0 0) ∧
      (∀ h, Map.find s.myCell.mtx m.toNat = some h → h ≠ s.cur % 33 → parks (.mlock m) .mutex m.toNat) ∧
      (Map.find s.myCell.mtx m.toNat ≠ some (s.cur % 33) → CanTrap s → TrapsIssued (.munlock m) s tcMtxErr 0 0) ∧
      (Map.find s.myCell.mtx m.toNat = some (s.cur % 33) → drained s s.cur = true → s.me.failed = [] →
        (firstParked s cell .mutex m.toNat = none → ∃ t, exec (.munlock m) s = .next t ∧
          Completes (s.modCell cell fun x => { x with
            mtx := Map.drop x.mtx m.toNat, mtxClk := Map.put x.mtxClk m.toNat (releaseClock s s.cur) }) t [] 0) ∧
        (∀ w, firstParked s cell .mutex m.toNat = some w → w ≠ s.cur → ∃ t, exec (.munlock m) s = .next t ∧
          Map.find (t.cell cell).mtx m.toNat = some (w % 33) ∧ handsTo t w)))

/-- RETIRE (R195, R268): a context whose engine work has ended and whose stores are owned becomes FREE, or HALTED as context 0, and
its task, if it has one, ends: one that asks for it decrements DONE in the cell that spawned it, wherever the launch of that cell has been placed,
in the same step when that is its own cell, and by a message when the task was stolen. A mutex that it holds goes to the context that parked on it first, or is freed.
TASK_DISPATCH (R194) starts the oldest ready task of the core's own deque, at most one in a cycle; STEAL_PROBE (R196) probes the next
neighbour: the task that it takes there starts on the prober, and a probe that finds none, or whose turn at the deque it is not, counts as
failed. DEP_DEC_REMOTE (R195) is the decrement of a stolen task, after what the cell does in the cycle; that of a
pre-empted launch's cell waits until it has resumed (R376), and a cell that its launch has left has no such counter.
The model's choices in it: log 48. -/
def Obligations.TaskEvents : Prop :=
  ∀ (s : State) (core id i h o dir d' : Nat) (e : TaskRec) (m : DepMsg),
    (Clear s 0x34 none [] [] → engineIdle s s.cur = true → drained s s.cur = true → s.me.failed = [] → s.me.stat = .eligible →
      ∃ t, exec .retire s = .next t ∧ t.me.stat = (if slotOf s.cur = 0 then .halted else .free) ∧ t.me.task = none ∧
        t.me.regs = s.me.regs ∧
        (∀ k, k < 8 → Map.find s.myCell.mtx k = some (s.cur % 33) →
          Map.find t.myCell.mtx k = (firstParked s (cellOf s.cur) .mutex k).map (· % 33)) ∧
        (s.me.task = none → t.depMsgs = s.depMsgs ∧ ∀ n, depVal t (cellOf s.cur) n = depVal s (cellOf s.cur) n) ∧
        (∀ q, s.me.task = some q →
          let home := taskHome s q
          (q.doneEn = false → t.depMsgs = s.depMsgs ∧ ∀ n, depVal t (cellOf s.cur) n = depVal s (cellOf s.cur) n) ∧
          (q.doneEn = true → home = cellOf s.cur → t.depMsgs = s.depMsgs ∧ depVal t home q.done = depVal s home q.done - 1 ∧
            (depVal s home q.done = 0 → t.myCell.depUnf = setBit s.myCell.depUnf q.done true) ∧
            ∀ n, n ≠ q.done → depVal t home n = depVal s home n) ∧
          (q.doneEn = true → home ≠ cellOf s.cur →
            (∃ x k, t.depMsgs = s.depMsgs ++ [{ id := x, cell := q.spawner, dep := q.done, launch := q.launch, clock := k }]) ∧
            ∀ n, depVal t (cellOf s.cur) n = depVal s (cellOf s.cur) n)) ∧
        ((∀ k, k < 8 → Map.find s.myCell.mtx k ≠ some (s.cur % 33)) → (∀ l ∈ s.myCell.log, l.ev = 0) → s.me.exits = [] →
          (s.me.task = none ∨ Map.find s.host.trace (ptVf s.myCell.ptRoot) = none) →
          t.mem = s.mem ∧ ∀ j, j ≠ s.cur → t.ctx j = s.ctx j)) ∧
    (coreRuns s core = true → (s.core core).dispAt ≤ s.time → ownTask s core = some i →
      (s.cell (core / 3)).deque[i]? = some e → takeHelper s core (fieldN e.w0 16 1 == 1) = some h → cellOf h = core / 3 →
      ∃ t, exec (.taskDispatch core) s = .next t ∧ (t.ctx h).stat = .eligible ∧
        (t.ctx h).pc = codeAddr s h (fieldN e.w0 32 32) ∧ (t.ctx h).reg 1 = e.arg1 ∧ (t.ctx h).reg 2 = e.arg2 ∧
        (t.ctx h).reg 3 = e.arg3 ∧ (t.cell (core / 3)).deque = (s.cell (core / 3)).deque.eraseIdx i ∧
        (∃ q, (t.ctx h).task = some q ∧ q.stolen = false ∧ q.spawner = e.spawner ∧ q.serial = e.serial ∧
          q.done = fieldN e.w0 20 6 ∧ q.doneEn = (fieldN e.w0 19 1 == 1) ∧ q.launch = (s.cell (core / 3)).launch) ∧
        (t.core core).dispAt = s.time + 1 ∧ t.mem = s.mem) ∧
    (coreIdle s core = true → nextProbe (core / 3) (s.core core).probe = dir → neighbour (core / 3) dir = some o →
      (s.core core).probeAt ≤ s.time → probeTurn s o = some d' →
      (∀ j, j < 3 → coreRuns s (3 * o + j) = true → (s.core (3 * o + j)).dispAt ≤ s.time → ownTask s (3 * o + j) = none) →
      (stealable s o core = some i → (s.cell o).deque[i]? = some e → (s.cell o).probeAt ≤ s.time → neighbour o d' = some (core / 3) →
        takeHelper s core (fieldN e.w0 16 1 == 1) = some h → coreOf h = core →
        ∃ t, exec (.stealProbe core) s = .next t ∧ (t.ctx h).stat = .eligible ∧
          (t.ctx h).pc = codeAddr s h (fieldN e.w0 32 32) ∧ (t.ctx h).reg 1 = e.arg1 ∧ (t.ctx h).reg 2 = e.arg2 ∧
          (t.ctx h).reg 3 = e.arg3 ∧ (t.ctx h).reg 4 = .ofNat 64 e.spawner ∧
          (∃ q, (t.ctx h).task = some q ∧ q.stolen = true ∧ q.spawner = e.spawner ∧ q.launch = (s.cell o).launch) ∧
          (t.cell o).deque = (s.cell o).deque.eraseIdx i ∧ (t.cell (core / 3)).deque = (s.cell (core / 3)).deque ∧
          (t.core core).probe = dir ∧ (t.core core).probeAt = s.time + 1 ∧ (t.core core).fails = (s.core core).fails ∧ t.mem = s.mem) ∧
      (stealable s o core = none ∨ s.time < (s.cell o).probeAt ∨ neighbour o d' ≠ some (core / 3) →
        ∃ t, exec (.stealProbe core) s = .next t ∧ (t.core core).probe = dir ∧ (t.core core).probeAt = s.time + 1 ∧
          (∀ n, s.ttbCell (core / 3) = n → (∀ r ∈ (s.core core).fails, r.1 ≤ r.2 ∧ r.2 < n) →
            ∀ lo hi, lo ≤ n → n < hi → failsIn (t.core core).fails lo hi = failsIn (s.core core).fails lo hi + 1) ∧
          t.ctxs = s.ctxs ∧ t.mem = s.mem ∧ ∀ c, (t.cell c).deque = (s.cell c).deque)) ∧
    (s.depMsgs.find? (·.id == id) = some m →
      let home := depHome s m
      let x := s.cell home
      (cellActed s home = false ∨ depAway s m = true → exec (.depDecRemote id) s = .next s) ∧
      (cellActed s home = true → depAway s m = false →
        ∃ t, exec (.depDecRemote id) s = .next t ∧ t.depMsgs = s.depMsgs.filter (·.id != id) ∧ t.ctxs = s.ctxs ∧ t.mem = s.mem ∧
          (x.launch = m.launch ∨ x.last = m.launch →
            t.cells = (decDep (noteDec (s.modCell home fun x => { x with depAt := s.time + 1 }) home m.dep m.clock) home m.dep).cells) ∧
          (x.launch ≠ m.launch → x.last ≠ m.launch → t.cells = s.cells)))

/-! ### Fences, copy registers, barriers -/

/-- The fences (R106 to R108, R142, R143, R350): with earlier loads returned, or every earlier access ended, `fence.acq`,
`fence.rel` and `fence.sc` complete; the first and the last leave in the core's cache only words that it owns. `fence.x` with an
empty class set orders nothing and completes. `chart.win` yields BAD for an address outside the CHART window, of a die that the
launch does not cover or of a bank retired before the launch started, and otherwise NOW, START, GROUP and INWIN of the bank (R352). The
fence keeps its turns while accesses of its context are outstanding when its S holds LS, and while tile writes of its context are, a gather that
is still being read among them, when its S holds GATHER; with neither in S it awaits neither. It acquires when its D holds LS, and with SOUND in
D and dirty covered lines of HBM it keeps its turns until they are written back (R143).
The model's choices in it: log 4 and log 12 (which cycle of its period a die's chart stands in: NOW), log 78 (how the order that `fence.x`
makes is kept), log 22. -/
def Obligations.Fences : Prop :=
  ∀ (s : State) (x y : BitVec 6) (d : BitVec 5) (a : BitVec 6),
    (Clear s 0x67 none [] [] →
      (loadsBack s s.cur = true →
        ∃ t, exec .fenceAcq s = .next t ∧ (¬ LogsLoop s s.cur → Acquired t (coreOf s.cur)) ∧ CompletesSync s t [] 0) ∧
      (drained s s.cur = true → s.me.failed = [] →
        (∃ t, exec .fenceRel s = .next t ∧ Completes s t [] 0) ∧
        (∃ t, exec .fenceSc s = .next t ∧ (¬ LogsLoop s s.cur → Acquired t (coreOf s.cur)) ∧ CompletesSync s t [] 0)) ∧
      (let tileWrites := s.myCell.pend.any (fun q => q.ctx == s.cur)
       ((x.getLsbD 0 = true → drained s s.cur = true ∧ s.me.failed = []) → (x.getLsbD 3 = true → tileWrites = false) →
        (y.getLsbD 5 = false ∨ coveredLines s s.cur x = [] → ∃ t, exec (.fenceX x y) s = .next t ∧
          (x ≠ 0 → y.getLsbD 0 = true → ¬ LogsLoop s s.cur → Acquired t (coreOf s.cur)) ∧
          CompletesSync (if x = 0 ∨ y = 0 then s else orderWrites s s.cur x y) t [] 0) ∧
        (x ≠ 0 → y.getLsbD 5 = true → coveredLines s s.cur x ≠ [] →
          ∃ t, exec (.fenceX x y) s = .next t ∧ t.me = { s.me with block := .writebacks (coveredLines s s.cur x) } ∧
            (∀ j, j ≠ s.cur → t.ctx j = s.ctx j) ∧ t = { s with ctxs := t.ctxs })) ∧
       (y ≠ 0 → x.getLsbD 0 = true → drained s s.cur = false → exec (.fenceX x y) s = .next s) ∧
       (y ≠ 0 → x.getLsbD 0 = false → x.getLsbD 3 = true → tileWrites = true → exec (.fenceX x y) s = .next s)) ∧
      (x = 0 ∨ y = 0 → ∃ t, exec (.fenceX x y) s = .next t ∧ Completes s t [] 0) ∧
      (drained s s.cur = false → exec .fenceRel s = .next s)) ∧
    (Clear s 0x69 none [a.toNat] [d.toNat] →
      let va := (s.me.reg (a.toNat % 32)).toNat
      let o := va % 2 ^ 48
      let now := (s.time + Config.chartOffset (o / 2 ^ 28)) % 40000
      let grp := o % 2 ^ 28 / 2 ^ 16 % 125
      (va / 2 ^ 48 ≠ 0xF2 ∨ 0x40000000 ≤ o ∨ coversDie s (cellOf s.cur) (o / 2 ^ 28) = false ∨ bankRetired s (cellOf s.cur) (o / 2 ^ 16) = true →
        YieldsReg (.chartWin d a) s [a.toNat] d (.ofNat 64 (2 ^ 63))) ∧
      (va / 2 ^ 48 = 0xF2 → o < 0x40000000 → coversDie s (cellOf s.cur) (o / 2 ^ 28) = true → bankRetired s (cellOf s.cur) (o / 2 ^ 16) = false →
        ∃ v, YieldsReg (.chartWin d a) s [a.toNat] d v ∧ fieldN v 0 16 = now ∧ fieldN v 16 16 = 320 * grp ∧
          fieldN v 32 7 = grp ∧ fieldN v 39 1 = (if 320 * grp ≤ now ∧ now < 320 * grp + 320 then 1 else 0) ∧ fieldN v 40 24 = 0))

/-- The barrier instructions (R346, R347). In the own cluster's scratchpad the step is first presented at its bank, and the context
stays at the instruction, behind words that its core has sent to the same location. Once the bank has answered, BAR_INIT, BAR_EXPECT and BAR_ARRIVE complete, BAR_ARRIVE with the PHASE of the
word that the step found; a refused BAR_EXPECT traps BAROVF and a refused BAR_ARRIVE traps BARARG. BAR_WAIT completes with an
acquire, or parks when the bank has it among the word's waiters. To another cluster's scratchpad the step goes to the bank's engine
queue: BAR_INIT and BAR_ACK complete without waiting for it, and the full bits of their synchronised reads stay set until the bank has
performed the step (R219); the others wait for the answer. An aligned address outside the scratchpad windows traps BARARG, and so do other bits
set in the word of BAR_INIT.
The model's choices in it: log 5, log 10, log 11, log 21, log 70, log 72, log 81, log 86. -/
def Obligations.Barriers : Prop :=
  (∀ (s : State) (a b : BitVec 6), Clear s 0x63 none [a.toNat, b.toNat] [] → (s.me.reg (a.toNat % 32)).toNat % 8 = 0 →
      fieldN (s.me.reg (b.toNat % 32)) 56 8 ≠ 0 ∨ fieldN (s.me.reg (b.toNat % 32)) 24 16 ≠ 0 → CanTrap s →
      TrapsIssued (.barInit a b) s tcBarArg 0 0) ∧
  ∀ (s u : State) (i : Instr) (d : BitVec 5) (a b : BitVec 6) (srcs : List Nat) (op : WordOp) (k : AccessKind),
    u = observe s s.cur (sMask srcs) →
    (i = .barInit a b ∧ srcs = [a.toNat, b.toNat] ∧ d = 0 ∧ op = .barInit (s.me.reg (b.toNat % 32)) ∧ k = .write ∧
        fieldN (s.me.reg (b.toNat % 32)) 56 8 = 0 ∧ fieldN (s.me.reg (b.toNat % 32)) 24 16 = 0 ∨
      i = .barExpect a b ∧ srcs = [a.toNat, b.toNat] ∧ d = 0 ∧ op = .barExpect (s.me.reg (b.toNat % 32)) ∧ k = .atomic ∨
      i = .barArrive d a ∧ srcs = [a.toNat] ∧ op = .barArrive ∧ k = .atomic ∨
      i = .barWait a b ∧ srcs = [a.toNat, b.toNat] ∧ d = 0 ∧ op = .barWait (fieldN (s.me.reg (b.toNat % 32)) 0 1) ∧ k = .read ∨
      i = .barAck a ∧ srcs = [a.toNat] ∧ d = 0 ∧ op = .barAck ∧ k = .atomic) →
    Clear s 0x63 none srcs [d.toNat] →
    let va := s.me.reg (a.toNat % 32)
    (va.toNat / 2 ^ 48 ∉ [0xF0, 0xF1] → va.toNat % 8 = 0 →
      (op = .barArrive ∨ op = .barAck → s.me.spadReq = none ∧ drained s s.cur = true ∧ s.me.failed = []) → CanTrap s →
      TrapsIssued i s tcBarArg 0 0) ∧
    (va.toNat / 2 ^ 48 ∈ [0xF0, 0xF1] →
    (∀ x g p, Meets u k 8 va x → x.loc = .spad g p →
      (op = .barArrive ∨ op = .barAck → drained s s.cur = true ∧ s.me.failed = []) →
      (g = clusterOfCell (cellOf s.cur) → sentAhead u x.loc = false →
        ∃ t, exec i s = .next t ∧ t.me.spadReq = some { cluster := g, phys := p, op := op, result := none } ∧
          t.me.pc = s.me.pc ∧ t.me.regs = s.me.regs ∧ t.mem = s.mem ∧ t.accs = s.accs ∧
          (t.cluster g).spad = (s.cluster g).spad ∧
          (Map.at (t.cluster g).banks (bankOf p) Bank.reset).present =
            (Map.at (s.cluster g).banks (bankOf p) Bank.reset).present ++ [{ ctx := s.cur, phys := p, op := op }]) ∧
      (g ≠ clusterOfCell (cellOf s.cur) → sendUsed s (coreOf s.cur) < 16 →
        let f := fillCoreTlb u s.cur k va
        let queue (t : State) : List Nat := (Map.at (t.cluster g).banks (bankOf p) Bank.reset).engine
        let post : BarPost := { id := f.fresh, cluster := g, phys := p, op := .barAck, eng := none, acc := some s.cur, va := va,
                                clock := releaseClock f s.cur }
        ∃ t, exec i s = .next t ∧ queue t = queue s ++ [f.fresh] ∧
          (op = .barAck ∨ (∃ v, op = .barInit v) → t.me.clears = if sMask srcs = 0 then s.me.clears else (.acc f.fresh, sMask srcs) :: s.me.clears) ∧ (t.cluster g).spad = (s.cluster g).spad ∧
          (op = .barAck → CompletesSync (queueAt { f.bump with posts := s.posts ++ [post] } g p f.fresh) t [] 0) ∧
          (op ≠ .barAck → ∃ a, t.accs = s.accs ++ [a] ∧ a.id = f.fresh ∧ a.ctx = s.cur ∧ a.op = op ∧ a.loc = .spad g p ∧
            ((∃ v, op = .barInit v) → RegsKept s t [] 0 ∧ SpecialsKept s t ∧ FallsThrough s t) ∧
            ((∀ v, op ≠ .barInit v) → t.me.spadReq = some { cluster := g, phys := p, op := op, result := none } ∧
              t.me.pc = s.me.pc ∧ t.me.regs = s.me.regs)))) ∧
    (∀ g p r w ref, va.toNat % 8 = 0 → acqPending s s.cur = false → s.me.spadReq = some r → r.cluster = g → r.phys = p →
      r.result = some (w, ref, false) →
      let s' := s.modMe fun y => { y with spadReq := none }
      (((op = .barAck ∨ ∃ v, op = .barInit v) → ∃ t, exec i s = .next t ∧ Completes s' t srcs 0) ∧
       (∀ v, op = .barExpect v →
         (ref = false → ∃ t, exec i s = .next t ∧ Completes s' t srcs 0) ∧
         (ref = true → CanTrap s → TrapsIssued i s tcBarOvf 0 0)) ∧
       (op = .barArrive →
         (ref = false → ∃ t, exec i s = .next t ∧ Completes s' t srcs d.toNat ∧
           t.me.reg d.toNat = if d = 0 then 0 else .ofNat 64 (fieldN w 63 1)) ∧
         (ref = true → CanTrap s → TrapsIssued i s tcBarArg 0 0)) ∧
       (∀ v, op = .barWait v →
         ((∀ x ∈ (s.cluster g).waiters, ¬ (x.ctx = s.cur ∧ x.phys = p)) →
           ∃ t, exec i s = .next t ∧ CompletesSync s' t srcs 0 ∧ (¬ LogsLoop s s.cur → Acquired t (coreOf s.cur))) ∧
         ((∃ x ∈ (s.cluster g).waiters, x.ctx = s.cur ∧ x.phys = p) →
           ∃ t, exec i s = .next t ∧ t.me.stat = .parked ∧ t.me.park = .barrier ∧ t.me.pc = s.me.pc ∧
             t.me.regs = s.me.regs ∧ t.mem = s.mem)))))

/-- BAR_ACK_AT_BANK and BAR_BYTE_COUNT (R347): the posted step changes its barrier word and no other byte: an acknowledgement takes
1 from ARR, or sets ERR where ARR is 0; a byte count takes its bytes from EXPB; and where both are then 0, PHASE turns over and ARR
is INIT again (`barSettle`). An acknowledgement that a context posted completes there: the full bits that it held are cleared
(R219), and the exit event of a loop that it ended takes its place among those of its cell (R275). It waits for its turn in the bank's engine queue. A turned PHASE releases a context that waits for it, with an acquire. A count that would take EXPB out
of its range waits.
The model's choices in it: log 10, log 21. -/
def Obligations.BarrierEvents : Prop :=
  ∀ (s : State) (id bytes : Nat) (q : BarPost) (i : Instr) (n : Word), s.posts.find? (·.id == id) = some q →
    poisoned s (.spad q.cluster q.phys) = false →
    let w := (s.cluster q.cluster).spad.word q.phys
    (i = .barAckAtBank id ∧ q.op = .barAck ∧
        n = (if barArr w = 0 then setField w 62 1 1 else barSettle (setField w 24 16 (barArr w - 1))) ∨
      i = .barByteCount id ∧ q.op = .barCount bytes ∧ -(2 ^ 23) ≤ signedN (barExpb w) 24 - (bytes : Int) ∧
        n = barSettle (setField w 0 24 ((signedN (barExpb w) 24 - (bytes : Int)) % 2 ^ 24).toNat) →
      (i = .barAckAtBank id → s.accs.find? (·.id == id) = none ∧
        let k := Map.at (s.cluster q.cluster).banks (bankOf q.phys) Bank.reset
        k.engine.head? = some id ∧ (k.forfeit = [] ∨ k.servedForfeit = true)) →
      ((∀ x ∈ (s.cluster q.cluster).waiters, x.phys ≠ q.phys) →
        ∃ t, exec i s = .next t ∧ (t.cluster q.cluster).spad.word q.phys = n ∧
          (∀ a, a < q.phys ∨ q.phys + 8 ≤ a →
            Memory.byte (t.cluster q.cluster).spad a = Memory.byte (s.cluster q.cluster).spad a) ∧
          t.posts = s.posts.filter (·.id != id) ∧ (q.acc = none → t.ctxs = s.ctxs) ∧
          (∀ c, q.acc = some c → (t.ctx c).regs = (s.ctx c).regs ∧ (∀ j, j ≠ c → t.ctx j = s.ctx j) ∧
            ∀ r, r ≠ 0 → (t.ctx c).isFull r = ((s.ctx c).isFull r && !((heldBits (s.ctx c) (.acc id)).getLsbD r))) ∧
          t.mem = { s.mem with hist := t.mem.hist, rels := t.mem.rels } ∧
          ((∀ c, q.acc = some c → (s.ctx c).owed (.acc id) = none) → t.cells = s.cells)) ∧
      (∀ x, (s.cluster q.cluster).waiters = [x] → x.phys = q.phys → x.p ≠ barPhase n → (s.ctx x.ctx).stat = .parked →
        (s.ctx x.ctx).park = .barrier →
        q.acc ≠ some x.ctx →
        ∃ t, exec i s = .next t ∧ (t.cluster q.cluster).spad.word q.phys = n ∧ (t.ctx x.ctx).stat = .eligible ∧
          (t.ctx x.ctx).regs = (s.ctx x.ctx).regs ∧ (¬ LogsLoop s x.ctx → Acquired t (coreOf x.ctx)) ∧ (t.cluster q.cluster).waiters = [])) ∧
    (i = .barByteCount id → q.op = .barCount bytes → signedN (barExpb w) 24 - (bytes : Int) < -(2 ^ 23) →
      exec i s = .next s)

/-! ### Tile registers -/

/-- Element (i, c) of n bits lies at bit n x c of its row (R160, R201): after a write of a shape within a row, an element reads the
value that the write gave it, and every other element, and every byte beyond the shape's rows, reads as before (R210, R211). TILE_OP_COMPLETE (R285, R287): the writes of a tile instruction in progress are performed: each register it writes has the tag
and the bytes that it gives, those of a gather with the values that its words then have for it (`gatherEnds`), the full bits of the
instruction's synchronised reads are cleared (R219), and no other register, context or byte of memory changes; the instruction is in
progress no more.
The model's choices in it: log 25, log 78. -/
def Obligations.TileStorage : Prop :=
  (∀ (v : TileView) (n rows cols : Nat) (f : Nat → Nat → Option Nat), n = viewBits v → 0 < n → n * cols ≤ 8 * rowStride v.reg →
      tagRows v.tag = rows → tagCols v.tag = cols →
      let w : TileView := { v with data := putBytes v.data (shapeWrites v n rows cols f) }
      (∀ i c, i < rows → c < cols → w.elem i c = match f i c with | some x => x % 2 ^ n | none => v.elem i c) ∧
      (∀ a, rows * rowStride v.reg ≤ a → Memory.byte w.data a = Memory.byte v.data a) ∧
      (Memory.wf v.data = true → Memory.wf w.data = true)) ∧
  (∀ (s : State) (cell id : Nat) (p : PendTile), (s.cell cell).pend.find? (·.id == id) = some p →
      (p.writes.map (·.reg)).Nodup → (∀ e ∈ p.chart, chartRefreshing s e.1 (e.2 * 2 ^ 16) = false) → (s.ctx p.ctx).owed (.tile id) = none →
      let g := gatherEnds s p
      (p.gather = [] → g = (s, p.writes)) ∧
      (g.2.map fun w => (w.reg, w.tag, w.bytes.map (·.1))) = (p.writes.map fun w => (w.reg, w.tag, w.bytes.map (·.1))) ∧
      ∃ t, exec (.tileOpComplete cell id) s = .next t ∧
        (∀ w ∈ g.2, tileOf t cell w.reg =
          { tag := w.tag.getD (tileOf s cell w.reg).tag, data := putBytes (tileOf s cell w.reg).data w.bytes }) ∧
        (∀ r, r ∉ p.writes.map (·.reg) → tileOf t cell r = tileOf s cell r) ∧
        (t.cell cell).pend.map (·.id) = ((s.cell cell).pend.filter (·.id != id)).map (·.id) ∧
        (∀ k, k ≠ cell → t.cell k = s.cell k) ∧ t = { s with cells := t.cells, ctxs := t.ctxs, fresh := g.1.fresh + 1 } ∧
        (∀ j, j ≠ p.ctx → t.ctx j = s.ctx j) ∧
        (let x := t.ctx p.ctx
         x = { s.ctx p.ctx with full := x.full, filled := x.filled, clears := x.clears, exits := x.exits, stat := x.stat,
                                park := x.park, parkNum := x.parkNum }) ∧
        (∀ r, r < 32 → r ≠ 0 → (t.ctx p.ctx).isFull r =
          ((s.ctx p.ctx).isFull r && !(heldBits (s.ctx p.ctx) (.tile id)).getLsbD r)))

/-- TZERO, TFILL, TMOV (R294), TSEQ (R296), TBCAST (R297), TSHAPE (R289), TPUT and TGET (R295) complete. A move keeps td's tag and
gives each element inside its shape, under the mask, its value; TMOV gives td ta's tag and elements whole, with a ballast tile's index bytes; TSHAPE gives t the tag
S(a) and no byte, or traps FORMAT; TPUT writes one element, or traps FORMAT for the NONE tag; TGET reads one into sd. What a context sees of a
register while another writes it is as of the moment after its synchronised reads.
The model's choices in it: log 5, log 25, log 30. -/
def Obligations.TileMoves : Prop :=
  ∀ (s : State) (d a : BitVec 4) (sd : BitVec 5) (x y : BitVec 6) (e : BitVec 1) (m : BitVec 3) (i : Instr),
    let v := s.look d.toNat
    let w := s.look a.toNat
    let sees (srcs : List Nat) : TileView := (afterReads s srcs).look d.toNat
    let X := s.me.reg (x.toNat % 32)
    let Y := s.me.reg (y.toNat % 32)
    let fillOf (srcs : List Nat) (f : Nat → Nat → Nat) : List TileWrite :=
      let v := sees srcs
      [⟨d.toNat, some v.tag, shapeWrites v (viewBits v) (tagRows v.tag) (tagCols v.tag) fun i c =>
        if maskedIn ((afterReads s srcs).maskOf e m) i c then some (f i c) else none⟩]
    let fill := fillOf []
    (let z := (sees [x.toNat]).tag
     tagOk d.toNat z = true → z ≠ 0 → maskOk e m = true → TileReady s 0x45 none [x.toNat] [] (maskReg e m) [d.toNat] →
      IssuesTile (.tfill d x e m) s [x.toNat] (fillOf [x.toNat] fun _ _ => X.toNat)) ∧
    (tagOk d.toNat v.tag = true → v.tag ≠ 0 → maskOk e m = true →
      (TileReady s 0x45 none [] [] (maskReg e m) [d.toNat] → IssuesTile (.tzero d e m) s [] (fill fun _ _ => 0)) ∧
      (∀ f, TileReady s 0x46 (some .a) [] [] (maskReg e m) [d.toNat] → ekind (tagFmt v.tag) ≠ .other →
        (i = .tseqCol d e m ∧ f = (fun (_ c : Nat) => c) ∨ i = .tseqRow d e m ∧ f = (fun (r _ : Nat) => r) ∨
          i = .tseqLin d e m ∧ f = (fun r c : Nat => r * tagCols v.tag + c)) →
        IssuesTile i s [] (fill fun r c => intToFmt (tagFmt v.tag) (f r c))) ∧
      (∀ f, TileReady s 0x4D (some .a) [] [] (a.toNat :: maskReg e m) [d.toNat] → tagFmt w.tag ≠ 0 →
        tagFmt v.tag = tagFmt w.tag →
        (i = .tbcastRow d a e m ∧ f = (fun _ c : Nat => w.elem 0 c) ∨ i = .tbcastCol d a e m ∧ f = (fun r _ : Nat => w.elem r 0) ∨
          i = .tbcastOne d a e m ∧ f = (fun _ _ : Nat => w.elem 0 0)) →
        IssuesTile i s [] (fill f))) ∧
    (TileReady s 0x45 none [] [] [a.toNat] [d.toNat] → tagOk d.toNat w.tag = true → w.tag ≠ 0 →
      IssuesTile (.tmov d a) s [] [⟨d.toNat, some w.tag,
        shapeWrites v (viewBits w) (tagRows w.tag) (tagCols w.tag) (fun r c => some (w.elem r c)) ++ indexBytes w⟩]) ∧
    (TileReady s 0x40 none [x.toNat] [] [] [d.toNat] →
      (tagOk d.toNat X = true → WritesTile (.tshape d x) s [x.toNat] [{ reg := d.toNat, tag := some X, bytes := [] }] 0 0) ∧
      (tagOk d.toNat X = false → CanTrap s → TrapsAtDecode (.tshape d x) s tcFormat)) ∧
    (TileReady s 0x54 none [x.toNat, y.toNat] [sd.toNat] [] [d.toNat] →
      let v := sees [x.toNat, y.toNat]
      (v.tag = 0 → CanTrap s → TrapsAtDecode (.tput d sd x y) s tcFormat) ∧
      (v.tag ≠ 0 → WritesTile (.tput d sd x y) s [x.toNat, y.toNat] [⟨d.toNat, none,
        if X.toNat < tagRows v.tag ∧ Y.toNat < tagCols v.tag then
          rowWrites v (viewBits v) X.toNat [(Y.toNat, (s.me.reg sd.toNat).toNat)] else []⟩] 0 0)) ∧
    (TileReady s 0x54 none [x.toNat, y.toNat] [sd.toNat] [d.toNat] [] →
      let v := sees [x.toNat, y.toNat]
      WritesTile (.tget d sd x y) s [x.toNat, y.toNat] [] sd
        (if 4 ≤ tagFmt v.tag ∧ tagFmt v.tag ≤ 7 then wordOfInt (signedN (v.elem X.toNat Y.toNat) (viewBits v))
         else .ofNat 64 (v.elem X.toNat Y.toNat)))

/-- The MASK instructions (R310) complete on every core: MSET and MSET_Z give the mask the tag S(a) with every bit of its shape 1
or 0, and trap FORMAT when S(a) is no mask tag; MAND, MOR and MNOT take the shape of their first source; MCNT and the tests write
sd.
The model's choices in it: log 5, log 25. -/
def Obligations.MaskInstructions : Prop :=
  ∀ (s : State) (m x y : BitVec 3) (d : BitVec 5) (a : BitVec 6) (i : Instr) (v : Word),
    let u := s.look (16 + x.toNat)
    let z := s.look (16 + y.toNat)
    let A := s.me.reg (a.toNat % 32)
    let givesOf (srcs : List Nat) (tag : Word) (f : Nat → Nat → Bool) : List TileWrite := [⟨16 + m.toNat, some tag,
      shapeWrites ((afterReads s srcs).look (16 + m.toNat)) 1 (tagRows tag) (tagCols tag) fun r c => some (if f r c then 1 else 0)⟩]
    let gives := givesOf []
    (TileReady s 0x53 none [a.toNat] [] [] [16 + m.toNat] →
      (tagOk 16 A = true → WritesTile (.mset m a) s [a.toNat] (givesOf [a.toNat] A fun _ _ => true) 0 0 ∧
        WritesTile (.msetZ m a) s [a.toNat] (givesOf [a.toNat] A fun _ _ => false) 0 0) ∧
      (tagOk 16 A = false → CanTrap s → TrapsAtDecode (.mset m a) s tcFormat ∧ TrapsAtDecode (.msetZ m a) s tcFormat)) ∧
    (TileReady s 0x53 none [] [] [16 + x.toNat, 16 + y.toNat] [16 + m.toNat] →
      WritesTile (.mand m x y) s [] (gives u.tag fun r c => u.bit r c && z.bit r c) 0 0 ∧
      WritesTile (.mor m x y) s [] (gives u.tag fun r c => u.bit r c || z.bit r c) 0 0) ∧
    (TileReady s 0x53 none [] [] [16 + x.toNat] [16 + m.toNat] →
      WritesTile (.mnot m x) s [] (gives u.tag fun r c => !u.bit r c) 0 0) ∧
    (TileReady s 0x53 none [] [d.toNat] [16 + x.toNat] [] →
      (i = .mcnt d x ∧ v = .ofNat 64 (maskCount u) ∨ i = .mtestAny d x ∧ v = (if maskCount u = 0 then 0 else 1) ∨
        i = .mtestAll d x ∧ v = (if maskCount u = tagRows u.tag * tagCols u.tag then 1 else 0)) →
      WritesTile i s [] [] d v) ∧
    (TileReady s 0x53 none [a.toNat] [d.toNat] [16 + x.toNat] [] →
      WritesTile (.mtestBit d x a) s [a.toNat] [] d (if ((afterReads s [a.toNat]).look (16 + x.toNat)).bit (fieldN A 8 8) (fieldN A 0 8) then 1 else 0))

/-- Elementwise arithmetic (R298), fused multiply-add (R299), comparison (R300), selection (R301), functions (R302) and reductions
(R303, R172) issue on an A core: with sources of one format and shape and an element format that the operation takes, td receives
ta's tag (a reduction: a column or a row; a comparison: a mask of the shape) and each element, under the mask, its value. Sources of
different shapes trap FORMAT before any effect (R209).
The model's choices in it: log 5, log 25, log 26, log 33. -/
def Obligations.TileArithmetic : Prop :=
  ∀ (s : State) (d a b c y : BitVec 4) (md : BitVec 3) (e : BitVec 1) (m : BitVec 3) (i : Instr) (f : Nat),
    let u := s.look a.toNat
    let v := s.look b.toNat
    let w := s.look c.toNat
    let mk := s.maskOf e m
    let mode := s.me.rmode
    let gives (r : Nat) (tag : Word) (n : Nat) (g : Nat → Nat → Option Nat) : List TileWrite :=
      [⟨r, some tag, shapeWrites (s.look r) n (tagRows tag) (tagCols tag) g⟩]
    let under (g : Nat → Nat → Nat) (r k : Nat) : Option Nat := if maskedIn mk r k then some (g r k) else none
    let ready (op : Nat) (reads : List Nat) : Prop :=
      TileReady s op (some .a) [] [] (reads ++ maskReg e m) [d.toNat] ∧ maskOk e m = true ∧ tagOk d.toNat u.tag = true
    elemFmt u.tag y.toNat = some f → tagFmt u.tag ≠ 0 →
    (∀ op, ready 0x47 [a.toNat, b.toNat] → tewElem op f mode 0 0 ≠ none →
      (i, op) ∈ [(Instr.tadd d a b y e m, TewOp.add), (.tsub d a b y e m, .sub), (.tmul d a b y e m, .mul),
        (.tmin d a b y e m, .min), (.tmax d a b y e m, .max), (.tand d a b y e m, .and), (.tor d a b y e m, .or),
        (.txor d a b y e m, .xor), (.tsll d a b y e m, .sll), (.tsrl d a b y e m, .srl), (.tsra d a b y e m, .sra)] →
      (sameShape u.tag v.tag = true → IssuesTile i s [] (gives d.toNat u.tag (fmtBits f)
        (under fun r k => (tewElem op f mode (u.elem r k) (v.elem r k)).getD 0))) ∧
      (sameShape u.tag v.tag = false → CanTrap s → TrapsAtDecode i s tcFormat)) ∧
    (∀ op, ready 0x47 [a.toNat] → tewElem op f mode 0 0 ≠ none →
      (i, op) ∈ [(Instr.tabs d a y e m, TewOp.abs), (.tneg d a y e m, .neg)] →
      IssuesTile i s [] (gives d.toNat u.tag (fmtBits f)
        (under fun r k => (tewElem op f mode (u.elem r k) (u.elem r k)).getD 0))) ∧
    (∀ g sub, ready 0x4A [a.toNat, b.toNat, c.toNat] → ekind f = .ieee g → sameShape u.tag v.tag = true →
      sameShape u.tag w.tag = true → (i, sub) ∈ [(Instr.tfma d a b y c e m, false), (.tfms d a b y c e m, true)] →
      IssuesTile i s [] (gives d.toNat u.tag (1 + g.eb + g.fb)
        (under fun r k => fmaElem g sub mode (u.elem r k) (v.elem r k) (w.elem r k)))) ∧
    (∀ rel, TileReady s 0x48 (some .a) [] [] ([a.toNat, b.toNat] ++ maskReg e m) [16 + md.toNat] → maskOk e m = true →
      ekind f ≠ .other → sameShape u.tag v.tag = true → tagCols u.tag ≤ 128 → 1 ≤ tagRows u.tag →
      tagOk (16 + md.toNat) (mkTag 0 (tagRows u.tag) (tagCols u.tag)) = true →
      (i, rel) ∈ [(Instr.tcmpEq md a b y e m, FRel.eq), (.tcmpNe md a b y e m, .ne), (.tcmpLt md a b y e m, .lt),
        (.tcmpLe md a b y e m, .le)] →
      IssuesTile i s [] [⟨16 + md.toNat, some (mkTag 0 (tagRows u.tag) (tagCols u.tag)),
        shapeWrites (s.look (16 + md.toNat)) 1 (tagRows u.tag) (tagCols u.tag)
          (under fun r k => if cmpElem rel f (u.elem r k) (v.elem r k) then 1 else 0)⟩]) ∧
    (TileReady s 0x49 (some .a) [] [] [a.toNat, b.toNat, 16 + md.toNat] [d.toNat] → tagOk d.toNat u.tag = true →
      sameShape u.tag v.tag = true → IssuesTile (.tsel d a b md) s [] (gives d.toNat u.tag (viewBits u)
        fun r k => some (if (s.look (16 + md.toNat)).bit r k then u.elem r k else v.elem r k))) ∧
    (∀ g fn, ready 0x4B [a.toNat] → ekind f = .ieee g →
      (i = .texp2 d a y e m ∧ fn = FVal.exp2 ∨ i = .trcp d a y e m ∧ fn = FVal.rcp ∨ i = .trsq d a y e m ∧ fn = FVal.rsqrt) →
      IssuesTile i s [] (gives d.toNat u.tag (1 + g.eb + g.fb) (under fun r k => g.round mode (fn (u.val g r k))))) ∧
    (∀ op tag line, TileReady s 0x4C (some .a) [] [] (a.toNat :: maskReg e m) [d.toNat] → maskOk e m = true →
      ekind f ≠ .other → tagOk d.toNat tag = true →
      ((i, op) ∈ [(Instr.trsum d a y e m, TewOp.add), (.trmax d a y e m, .max), (.trmin d a y e m, .min)] ∧
          tag = mkTag (tagFmt u.tag) (tagRows u.tag) 1 ∧ line = (fun r _ : Nat =>
            ((List.range (tagCols u.tag)).filter fun k => maskedIn mk r k).map fun k => u.elem r k) ∨
        (i, op) ∈ [(Instr.tcsum d a y e m, TewOp.add), (.tcmax d a y e m, .max), (.tcmin d a y e m, .min)] ∧
          tag = mkTag (tagFmt u.tag) 1 (tagCols u.tag) ∧ line = (fun _ k : Nat =>
            ((List.range (tagRows u.tag)).filter fun r => maskedIn mk r k).map fun r => u.elem r k)) →
      IssuesTile i s [] (gives d.toNat tag (fmtBits f) fun r k => some (reduceLine op f mode (line r k))))

/-- Conversions (R304), dequantisation (R306, R171), quantisation (R305, R169), random words (R307) and fixes (R309) issue: TCVT
rounds each value into the format; TDEQ multiplies each narrow element by its scale, a diverted column coming from the ballast tile;
TQNT writes the narrow tile under its own tag and its scale tile, and the ballast tile where the tag names one; TRNG mixes the two
words of each place; FIXMERGE and FIXNORM merge two fixes and normalise one.
The model's choices in it: log 25, log 28, log 29, log 32, log 91 (TDEQ honours the rounding mode), log 92 (EMPTY is cleared otherwise). -/
def Obligations.TileConversions : Prop :=
  ∀ (s : State) (d a b y : BitVec 4),
    let u := s.look a.toNat
    let v := s.look b.toNat
    let mode := s.me.rmode
    let gives (tag : Word) (g : Nat → Nat → Nat) : List TileWrite :=
      [⟨d.toNat, some tag, shapeWrites (s.look d.toNat) (fmtBits (tagFmt tag)) (tagRows tag) (tagCols tag) fun r k => some (g r k)⟩]
    let tagAs (f : Nat) : Word := mkTag f (tagRows u.tag) (tagCols u.tag)
    d.toNat < 12 → a.toNat < 12 → b.toNat < 12 →
    (TileReady s 0x4F (some .c) [] [] [a.toNat] [d.toNat] → 1 ≤ y.toNat → y.toNat ≤ 13 → 1 ≤ tagFmt u.tag → tagFmt u.tag ≤ 13 →
      tagOk d.toNat (tagAs y.toNat) = true →
      IssuesTile (.tcvt d a y) s [] (gives (tagAs y.toNat) fun r k =>
        encodeElem y.toNat mode (decodeElem (tagFmt u.tag) (u.elem r k)))) ∧
    (∀ g, TileReady s 0x51 (some .c) [] [] [a.toNat] [d.toNat] → ekind y.toNat = .ieee g → fmtNarrow (tagFmt u.tag) = true →
      namedOk s u.tag = true → tagOk d.toNat (tagAs y.toNat) = true →
      let bal := s.look (tagBalReg u.tag)
      ∃ el : Nat → Nat → Nat, IssuesTile (.tdeq d a y) s [] (gives (tagAs y.toNat) el) ∧
        (∀ r k, (tagHasBal u.tag = false ∨ ∀ p ∈ divertedCols bal, p.2 ≠ k) →
          el r k = g.round mode ((decodeElem (tagFmt u.tag) (u.elem r k)).scaleE8 (scaleAt u.tag (s.look (tagScaleReg u.tag)) r k))) ∧
        (∀ r k p, tagHasBal u.tag = true → p ∈ divertedCols bal → p.2 = k → (∀ q ∈ divertedCols bal, q.2 = k → q = p) →
          el r k = g.round mode (bf16.decode (bal.elem r p.1)))) ∧
    (∀ g, TileReady s 0x50 (some .c) [] [] [a.toNat, b.toNat] [d.toNat] → ekind (tagFmt u.tag) = .ieee g →
      let w := (s.look d.toNat).tag
      fmtNarrow (tagFmt w) = true → tagAxis w = 1 ∨ tagAxis w = 2 → tagRows u.tag = tagRows w → tagCols u.tag = tagCols w →
      (tagHasBal w = true → tagFmt v.tag = fmtF32 ∧ tagBalReg w ≠ tagScaleReg w) →
      ∃ ws x sc, IssuesTile (.tqnt d a b) s [] ws ∧ ws[0]? = some x ∧ x.reg = d.toNat ∧ x.tag = some w ∧
        ws[1]? = some sc ∧ sc.reg = tagScaleReg w ∧ sc.tag = some (scaleTag w) ∧
        (tagHasBal w = false → ws.length = 2 ∧ (tagAxis w = 1 →
          let el (r k : Nat) : FVal := g.decode (u.elem r k)
          let kb := blkSize (tagBlk w)
          x.bytes = shapeWrites (s.look d.toNat) (fmtBits (tagFmt w)) (tagRows w) (tagCols w) fun r k => some
            (quantElem (tagFmt w) (el r k) (rowScale el (tagFmt w == fmtI8) (tagCols w) kb r (k / kb) [])))) ∧
        (tagHasBal w = true → ∃ q, ws[2]? = some q ∧ q.reg = tagBalReg w ∧ q.tag = some (ballastTag w) ∧ ws.length = 3)) ∧
    (TileReady s 0x4E (some .c) [] [] [a.toNat, b.toNat] [d.toNat] → tagFmt u.tag ∈ [fmtI32, fmtN32] →
      tagFmt v.tag ∈ [fmtI32, fmtN32] → tagRows u.tag = tagRows v.tag → tagCols u.tag = tagCols v.tag →
      (tagOk d.toNat u.tag = true → IssuesTile (.trng d a b) s [] (gives u.tag fun r k => mix (u.elem r k) (v.elem r k))) ∧
      (tagOk d.toNat (setField u.tag 36 4 fmtF32) = true →
        ∃ el : Nat → Nat → Nat, IssuesTile (.trngU d a b) s [] (gives (setField u.tag 36 4 fmtF32) el) ∧
          ∀ r k, el r k = f32.round .rne (.fin false (mix (u.elem r k) (v.elem r k) / 2 ^ 8) (-24)))) ∧
    (∀ n, TileReady s 0x52 (some .a) [] [] [a.toNat, b.toNat] [d.toNat] → fixDim u.tag = some n → fixDim v.tag = some n →
      tagOk d.toNat u.tag = true →
      ∃ out : List Nat, IssuesTile (.fixmerge d a b) s [] (gives u.tag fun r k => out.getD (64 * r + k) 0) ∧
        let f := (mergeFix (tileFix u n) (tileFix v n)).1
        out.getD 0 0 = f.m ∧ out.getD 1 0 = f.l ∧ (∀ j, j < n → out.getD (16 + j) 0 = f.acc.getD j 0) ∧
        out.getD 4 0 = min (fixElem u 4 + fixElem v 4) (2 ^ 32 - 1)) ∧
    (∀ n, TileReady s 0x52 (some .a) [] [] [a.toNat] [d.toNat] → fixDim u.tag = some n →
      tagOk d.toNat (mkTag fmtF32 (n / 64 + 1) 64) = true →
      ∃ out : List Nat, IssuesTile (.fixnorm d a) s [] (gives (mkTag fmtF32 (n / 64 + 1) 64) fun r k => out.getD (64 * r + k) 0) ∧
        ∀ j, j < n → out.getD j 0 = (normFix (tileFix u n)).getD j 0)

/-- The tile loads (R213, R215, R216, R290 to R293, R369) start at the unit that an armed waypoint of their kind names, else at the
first. When every unit from there can be transferred, the load completes for its context: the bytes that its reads give become the tile
write of an instruction in progress, which is performed when that ends (TileStorage states how), WAYPT becomes 0, nothing is stored, and
where no slice holds a word newer than memory every word of memory reads as before. When a unit faults, a gathered row is misaligned
(R293), a word has an uncorrectable error (R76), or a pre-emption stops the load at one (R371), the units before it are written to the
tile at once, WAYPT names the unit and arms the retry, and the fault is posted, the trap MISALIGN or MEMERR taken, or the context halts.
The model's choices in it: log 5, log 15, log 25 (the bytes are written when the instruction in progress ends, those of a stopped load at once),
log 27, log 31, log 40, log 42 (a refreshing chart bank delays that end), log 78 (the values that a gather finds are settled then), log 90. -/
def Obligations.TileLoads : Prop :=
  ∀ (s u : State) (i : Instr) (f : TileForm), u = observe s s.cur (sMask f.srcs) → tileLoadForm u i = some f → f.legal = true →
    f.reg < 12 → TileReady s f.op (some .m) f.srcs [] f.reads [f.reg] → (∀ a ∈ s.accs, a.ctx ≠ s.cur) →
    sendUsed s (coreOf s.cur) < 16 →
    let n := f.base.note u
    let l := unitsFrom f.units (n.me.startPos f.kind)
    let z := unitsXlat n (f.how == .gather) .read (cutUnit n l) l
    let banks := refreshBanks z.1 f.how (partsOf z.2.1)
    let r := readUnits (banksDone z.1) (u.look f.reg) f.how f.trans z.2.1
    let tw : TileWrite := ⟨f.reg, if r.2.1 = [] then none else some (u.look f.reg).tag, r.2.1⟩
    let way (k : Nat) : Word := .ofNat 64 (f.kind * 2 ^ 60 + 2 ^ 59 + k % 2 ^ 16)
    let written (t : State) : Prop := t.mem = r.1.mem ∧ t.accs = s.accs ∧ t.me.regs = s.me.regs ∧ t.me.full = s.me.full ∧
      tileOf t (cellOf s.cur) f.reg = tileOf (applyTiles r.1 (cellOf s.cur) [tw]) (cellOf s.cur) f.reg
    let trapped (t : State) (code k : Nat) (va : Word) : Prop := written t ∧ fieldN t.me.trCause 0 8 = code ∧ t.me.trVa = va ∧
      t.me.trWay = way k ∧ t.me.trPc = s.me.groupPc ∧ t.me.waypt = 0 ∧ t.me.pc = .ofNat 64 (s.me.trVec.toNat / 4 * 4)
    tileBehind z.1 f.how (partsOf z.2.1) = false → BanksServed z.1 (partsOf z.2.1) →
    r.1.accs = s.accs ∧ r.1.cells = s.cells ∧ (∀ j, j ≠ s.cur → r.1.ctx j = s.ctx j) ∧
    (CleanHomes s → ∀ pa, pa % 8 = 0 → readMem r.1 pa = readMem s pa) ∧
    (r.2.2 = none → z.2.2 = none →
     ∃ t, exec i s = .next t ∧
       CompletesSync ((r.1.bump.modMyCell fun x => { x with pend := x.pend ++ [⟨r.1.fresh, s.cur,
         [⟨f.reg, some (u.look f.reg).tag, r.2.1⟩], banks, gatherReads f.how z.2.1, (u.look f.reg).tag, clockOf r.1 s.cur⟩] }).modMe fun x => { x with waypt := 0 }) t [] 0 ∧
       t.me.waypt = 0 ∧ (sMask f.srcs ≠ 0 → heldBits t.me (.tile r.1.fresh) = sMask f.srcs)) ∧
    (r.2.2 = none → banks = [] → ∀ k, ((∃ why, z.2.2 = some (k, .fault why)) ∨ z.2.2 = some (k, .preempt)) →
     ∃ t, exec i s = .next t ∧ t.me.waypt = way k ∧ written t ∧
       (∀ why, z.2.2 = some (k, .fault why) → t.me.stat = .parked ∧
         (t.me.faultWait.map fun w => (w.cause, w.va, w.pc)) = some (why.cause, why.va, s.me.groupPc)) ∧
       (z.2.2 = some (k, .preempt) → t.me.stat = .halted ∧ t.me.held = true ∧ t.me.pc = s.me.groupPc)) ∧
    (∀ k va, r.2.2 = none → banks = [] → z.2.2 = some (k, .misalign va) → CanTrap s →
     ∃ t, exec i s = .next t ∧ trapped t tcMisalign k va) ∧
    (∀ k va, r.2.2 = some (k, va) → banks = [] ∨ z.2.2 = none → CanTrap s →
     ∃ t, exec i s = .next t ∧ trapped t tcMemerr k va)

/-- TST (R291) sends the bytes of its units, from the armed one on, as stores of the context, and completes with WAYPT 0. When a unit
faults, or a pre-emption stops it at one (R371), the bytes of the units before it are on their way, WAYPT names the unit and arms the retry,
and the fault is posted or the context halts. CHART_LD (R351) checks every byte, with the rest of each T6 group, reads its rows from chart
store, and completes for its context when none has an uncorrectable error: its rows become the write of an instruction in progress. An
uncorrectable error traps MEMERR (R76); an address outside the window, the covered dies or the banks in use faults, and leaves WAYPT as it
stands.
The model's choices in it: log 5, log 11, log 25 (the rows of CHART_LD are written when the instruction in progress ends), log 27, log 31, log 42
(a refreshing chart bank delays that end). -/
def Obligations.TileStores : Prop :=
  ∀ (s u : State) (t4 : BitVec 4) (a p : BitVec 6) (r : BitVec 1) (i : BitVec 8),
    u = observe s s.cur (sMask [a.toNat, p.toNat]) → t4.toNat < 12 → sendUsed s (coreOf s.cur) < 16 →
    let v := u.look t4.toNat
    let pitch := tmPitch u p (tagRowBytes v.tag)
    v.tag ≠ 0 →
    (let b := tmBase u a r i
     let n := b.note u
     let l := unitsFrom (tileUnits u b .write v.tag pitch) (n.me.startPos (tileKind v.tag))
     let z := unitsXlat n false .write (cutUnit n l) l
     let w := z.2.1.foldl (fun s e => e.2.foldl (fun s sp => writeSpan s sp.2 (spanData v sp.1)) s) z.1
     TileReady s 0x42 (some .m) [a.toNat, p.toNat] [] [t4.toNat] [] → tmAligned u b (fmtSize (tagFmt v.tag)) [pitch] = true →
     w.mem = n.mem ∧ w.cells = s.cells ∧ w.ctxs = u.ctxs ∧
     (∃ sent, w.accs = s.accs ++ sent ∧ ∀ x ∈ sent, x.ctx = s.cur ∧ x.phase = .sent ∧ ∃ d m, x.op = .write d m) ∧
     (z.2.2 = none → ∃ t, exec (.tst t4 a p r i) s = .next t ∧
       CompletesSync (w.modMe fun x => { x with waypt := 0 }) t [a.toNat, p.toNat] 0 ∧ t.me.waypt = 0) ∧
     (∀ k, (∃ why, z.2.2 = some (k, .fault why)) ∨ z.2.2 = some (k, .preempt) → sendUsed w (coreOf s.cur) < 16 →
       ∃ t, exec (.tst t4 a p r i) s = .next t ∧ t.me.waypt = .ofNat 64 (tileKind v.tag * 2 ^ 60 + 2 ^ 59 + k % 2 ^ 16) ∧
         t.accs = w.accs ∧ t.mem = n.mem ∧ t.me.regs = s.me.regs ∧ t.me.full = s.me.full ∧
         (∀ why, z.2.2 = some (k, .fault why) → t.me.stat = .parked ∧
           (t.me.faultWait.map fun w => (w.cause, w.va, w.pc)) = some (why.cause, why.va, s.me.groupPc)) ∧
         (z.2.2 = some (k, .preempt) → t.me.stat = .halted ∧ t.me.held = true ∧ t.me.pc = s.me.groupPc))) ∧
    (let b := tmBase u a 0 i
     let us := tileUnits u b .read v.tag pitch
     let parts := us.flatMap fun x => x.spans.flatMap fun sp => (spanParts sp.va (max sp.n sp.chk)).map (·.1)
     let z := unitsXlat u false .read none ((List.range us.length).zip us)
     TileReady s 0x68 (some .m) [a.toNat, p.toNat] [] [] [t4.toNat] → tmAligned u b (fmtSize (tagFmt v.tag)) [pitch] = true →
     (∀ x ∈ s.accs, x.ctx ≠ s.cur) →
     ((∀ va ∈ parts, chartOk u va = true) →
       let q := readUnits z.1 v .bank false z.2.1
       (q.2.2 = none →
         ∃ t, exec (.chartLd t4 a p i) s = .next t ∧
           CompletesSync (q.1.bump.modMyCell fun x => { x with pend := x.pend ++ [⟨q.1.fresh, s.cur,
             [⟨t4.toNat, some v.tag, q.2.1⟩], refreshBanks q.1 .bank (partsOf z.2.1), [], v.tag, clockOf q.1 s.cur⟩] }) t [] 0 ∧
           (sMask [a.toNat, p.toNat] ≠ 0 → heldBits t.me (.tile q.1.fresh) = sMask [a.toNat, p.toNat]) ∧ q.1.accs = s.accs) ∧
       (∀ k va, q.2.2 = some (k, va) → CanTrap s → TrapsIssued (.chartLd t4 a p i) s tcMemerr va 0 q.1)) ∧
     (∀ va, parts.find? (fun x => !chartOk u x) = some va → ∃ t, exec (.chartLd t4 a p i) s = .next t ∧ t.me.stat = .parked ∧
       (t.me.faultWait.map fun w => (w.cause, w.va)) = some (fcNotMapped, va) ∧ t.me.regs = s.me.regs ∧
       t.me.waypt = s.me.waypt ∧ t.mem = s.mem ∧ t.accs = s.accs))

/-! ### Matrix instructions -/

/-- The matrix products, accumulator moves and SWAP (R316 to R318, R321, R333) join the cell's matrix queue, in the context's open
batch, once their checks pass and an entry of the send queue is free; the context goes on with WAYPT as it stands (R328), and the full
bits of synchronised sources stay set until the engine has completed the instruction (R217, R219). Operands of wrong formats or shapes trap
FORMAT; a K window that does not fit traps MATARG. The instruction carries what happens before it in its context (R144); what a context sees of a
tile that another writes is as of the moment after its synchronised reads.
The model's choices in it: log 5, log 10, log 11, log 15, log 25, log 78. -/
def Obligations.MatrixInstructions : Prop :=
  ∀ (s : State) (i : Instr) (kind : MxKind) (op : Nat) (c t4 : BitVec 4) (x y : BitVec 1) (a b : BitVec 6) (k j : BitVec 2)
      (ka kb ko kc : Nat),
    let srcs := mxSrcs x a ++ mxSrcs y b
    let u := afterReads s srcs
    let tag (l : List Nat) : Word := ((afterReads s l).look c.toNat).tag
    let w := tag srcs
    let A := mxOperand u x a (gridRow s s.cur)
    let B := mxOperand u y b (gridCol s s.cur)
    let room := sendUsed s (coreOf s.cur) < 16
    let queued (l : List Nat) (o : MxOp) : MxOp := { o with
      id := (afterReads s l).fresh, ctx := s.cur, pc := s.me.groupPc, batch := fieldN s.me.mbatch 0 32, run := s.me.run,
      clock := clockOf s s.cur }
    let joins (i : Instr) (l : List Nat) (o : MxOp) : Prop := ∃ t, exec i s = .next t ∧
      IssuesMx ((afterReads s l).bump.modMyCell fun z => { z with mq := z.mq ++ [queued l o] }) t l (.matrix (afterReads s l).fresh)
    ((i, kind, op, ka, kb) ∈ [(Instr.mma c x a y b, MxKind.mma, 0x58, 0, 0), (.mmas c x a y b k j, .mmas, 0x59, k.toNat, j.toNat),
        (.mmab c x a y b k j, .mmab, 0x5A, k.toNat, j.toNat)] →
      accField c = true → mxOk x a = true → mxOk y b = true →
      TileReady s op (some .a) srcs (mxPlain x a ++ mxPlain y b) [] [] →
      (mxFormatOk kind w A.2 B.2 ka kb = false → CanTrap s → TrapsAtDecode i s tcFormat) ∧
      (mxFormatOk kind w A.2 B.2 ka kb = true → A.2.arg = true → B.2.arg = true →
        (kWindow (wordOfInt (s.me.imm (0#0))) A.2.cols = none → CanTrap s → TrapsAtDecode i s tcMatArg) ∧
        (kWindow (wordOfInt (s.me.imm (0#0))) A.2.cols = some (ko, kc) → A.2.align = true → B.2.align = true → room →
          joins i srcs { MxOp.blank kind c.toNat with accTag := w, a := A.1, b := B.1, koff := ko, kc := kc }))) ∧
    (accField c = true → room →
      let base := s.me.reg (a.toNat % 32)
      (TileReady s 0x5B (some .a) [] [] [] [] → tag [] ≠ 0 → joins (.azero c) [] { MxOp.blank .azero c.toNat with accTag := tag [] }) ∧
      (TileReady s 0x5B (some .a) [a.toNat, b.toNat] [] [] [] →
        let w := tag [a.toNat, b.toNat]
        let pitch : Word := if b.toNat % 32 = 0 then .ofNat 64 (4 * tagCols w) else s.me.reg (b.toNat % 32)
        w ≠ 0 → base.toNat % 4 = 0 → pitch.toNat % 4 = 0 →
        joins (.ald c a b) [a.toNat, b.toNat] { MxOp.blank .ald c.toNat with accTag := w, base := base, pitch := pitch } ∧
        joins (.ast c a b) [a.toNat, b.toNat] { MxOp.blank .ast c.toNat with accTag := w, base := base, pitch := pitch })) ∧
    (TileReady s 0x5D (some .a) [] [] [] [] → t4.toNat < 12 →
      ((coveredCells s (cellOf s.cur)).contains (swapPartner s.myCell.cellNo) = true → room →
        ∃ t, exec (.swap t4) s = .next t ∧ IssuesMx (s.bump.modMyCell fun z => { z with swaps := z.swaps + 1, mq := z.mq ++
          [queued [] { MxOp.blank .swap t4.toNat with pairing := s.myCell.swaps }] }) t [] (.matrix s.fresh)) ∧
      ((coveredCells s (cellOf s.cur)).contains (swapPartner s.myCell.cellNo) = false → CanTrap s →
        TrapsAtDecode (.swap t4) s tcMatArg))

/-- COMMIT yields OPEN and adds 1 to it (R324). MMAW completes for a complete batch, parks for one that is committed only, and traps
MATARG for another (R322, R324), and leaves WAYPT alone (R328); the batch then counts as observed (R139). MMA8X (R370) traps HAZARD against pending instructions of other
contexts on its tiles (R325), sends its micro-steps to the engine, stays at its instruction, and completes with
WAYPT 0 when the engine has ended them.
The model's choices in it: log 5, log 11, log 25, log 78. -/
def Obligations.MatrixBatches : Prop :=
  ∀ (s : State) (d : BitVec 5) (c : BitVec 4) (x y : BitVec 1) (a b k : BitVec 6),
    let own := fieldN s.me.mbatch 0 32
    (Clear s 0x5C (some .a) [] [d.toNat] → ∃ t, exec (.commit d) s = .next t ∧
      t.me.reg d.toNat = (if d = 0 then 0 else .ofNat 64 own) ∧ fieldN t.me.mbatch 0 32 = (own + 1) % 2 ^ 32 ∧
      RegsKept s t [] d.toNat ∧ FallsThrough s t ∧ t.me.waypt = s.me.waypt ∧
      (∀ j, j ≠ s.cur → (t.ctx j).regs = (s.ctx j).regs ∧ (t.ctx j).pc = (s.ctx j).pc) ∧ (¬ LogsLoop s s.cur → t.mem = s.mem)) ∧
    (Clear s 0x5C (some .a) [a.toNat] [] →
      let n := ((s.me.reg (a.toNat % 32)).toNat + k.toNat) % 2 ^ 32
      (batchCommitted s.me.mbatch n = false → CanTrap s → TrapsAtDecode (.mmaw a k) s tcMatArg) ∧
      (batchCommitted s.me.mbatch n = true →
        (batchComplete s.me.mbatch n = true → ∃ t, exec (.mmaw a k) s = .next t ∧ CompletesMx (noteSeen s s.cur [batchKey s.me.run n]) t [a.toNat] 0 ∧
          batchKey s.me.run n ∈ t.me.seen) ∧
        (batchComplete s.me.mbatch n = false → ∃ t, exec (.mmaw a k) s = .next t ∧ t.me.stat = .parked ∧
          t.me.park = .matrixBatch ∧ t.me.pc = s.me.pc ∧ t.me.regs = s.me.regs ∧ t.mem = s.mem))) ∧
    (let srcs := mxSrcs x a ++ mxSrcs y b
     let u := afterReads s srcs
     let w := (u.look c.toNat).tag
     let A := mxOperand u x a (gridRow s s.cur)
     let B := mxOperand u y b (gridCol s s.cur)
     accField c = true → mxOk x a = true → mxOk y b = true →
     TileReady s 0x7D (some .a) srcs (mxPlain x a ++ mxPlain y b) [] [] →
     (s.me.block = .microDone → ∃ t, exec (.mma8x c x a y b) s = .next t ∧
       Completes (s.modMe fun z => { z with block := .none, waypt := 0 }) t srcs 0) ∧
     let pending := hazard s s.cur (mxTiles u x a ++ mxTiles u y b) [c.toNat]
     (s.me.block = .none → (∀ o ∈ s.myCell.mq, o.ctx ≠ s.cur) → pending = true → CanTrap s →
       TrapsAtDecode (.mma8x c x a y b) s tcHazard) ∧
     (s.me.block = .none → pending = false → mxFormatOk .micro w A.2 B.2 0 0 = true → A.2.arg = true → B.2.arg = true → A.2.align = true →
       B.2.align = true → (∀ o ∈ s.myCell.mq, o.ctx ≠ s.cur) → sendUsed s (coreOf s.cur) < 16 →
       ∃ t o, exec (.mma8x c x a y b) s = .next t ∧ t.me.block = .micro u.fresh ∧ t.me.pc = s.me.pc ∧ t.me.regs = s.me.regs ∧
         t.myCell.mq = s.myCell.mq ++ [o] ∧ o.id = u.fresh ∧ o.run = s.me.run ∧ o.clock = clockOf s s.cur ∧ o.kind = .micro ∧ o.acc = c.toNat ∧ o.a = A.1 ∧ o.b = B.1 ∧
         o.kc = A.2.cols ∧ t.mem = s.mem))

/-- The matrix engine (R170, R319, R321, R323, R329, R333, R370). MATRIX_EXEC_START zeroes the accumulator of AZERO, starts a product, and
performs ALD and AST whole: the bytes of the rows into the accumulator's shape, or its rows to their homes. MATRIX_SEGMENT_END adds to each accumulator
element the exact sums of the next products of a row of A and a column of B, in groups rounded one by one: of 16 K indices, or 64 of a
micro-step, with the scales of the tiles of `mmas` and `mmab`; after them the diverted columns of `mmab`, one group with the ballast tile's values;
and it moves the position on, or ends the product. A scratchpad operand's elements are the bits of its rows under its rotation code (R314). SWAP_EXCHANGE
exchanges two tiles, tags and bytes; a write in progress there races with it (R116, R326). An instruction that completes clears the full
bits that it held (R217, R219). MATRIX_FAULT_REPLY retries the instruction, or ends it and its later ones with a trap or a halt.
The model's choices in it: log 16, log 25, log 35, log 78, log 82. -/
def Obligations.MatrixEvents : Prop :=
  (∀ (s : State) (cell : Nat) (o : MxOp) (reply : Word),
    let leaves (t : State) : Prop := (t.cell cell).mq = (s.cell cell).mq.filter (·.id != o.id) ∧
      (∀ r, r ≠ 0 → (t.ctx o.ctx).isFull r = ((s.ctx o.ctx).isFull r && !(heldBits (s.ctx o.ctx) (.matrix o.id)).getLsbD r)) ∧
      (o.kind = .micro → (s.ctx o.ctx).block = .micro o.id → (t.ctx o.ctx).block = .microDone)
    let otherTiles (t : State) : Prop := (∀ r, r ≠ o.acc → tileOf t cell r = tileOf s cell r) ∧
      (tileOf t cell o.acc).tag = (tileOf s cell o.acc).tag
    let scaled : Bool := o.kind == .mmas || o.kind == .mmab
    let byteAt (va : Word) (rot : Nat) : Nat := match translateBy s o.ctx .read (rotVa va rot) [] with
      | .ok x => (engValue s x.loc (o.reader s) s.fresh).toNat / 256 ^ (va.toNat % 8) % 256
      | _ => 0
    let value (d : MxOperand) (i j : Nat) : FVal := match d with
      | .tile r w => narrowVal (tagFmt w) ((capturedView s o.ctx r w).elem i j)
          (if scaled then scaleAt w (capturedView s o.ctx (tagScaleReg w) (scaleTag w)) i j else 127)
      | .spad base f _ _ rot pitch step =>
          let n := fmtBits f
          let va := base + .ofNat 64 (step + i * pitch) + .ofNat 64 (n * j / 8)
          narrowVal f ((byteAt va rot + 256 * byteAt (va + 1) rot) / 2 ^ (n * j % 8) % 2 ^ n) 127
    let served (l : List MxRun) : Prop := (l = [] ∧ o.ticket = none ∨ ∃ k, o.ticket = some k ∧ s.atBank k = false) ∧
      ∀ r ∈ l, ∀ j, j < r.2.1 → inSpadWin (r.1 + .ofNat 64 j) = true ∧
        ∃ x, translateBy s o.ctx .read (rotVa (r.1 + .ofNat 64 j) r.2.2) [] = .ok x ∧ poisoned s x.loc = false
    let elem (t : State) (i j : Nat) : Nat := TileView.elem ⟨o.acc, o.accTag, (tileOf t cell o.acc).data⟩ i j
    let accum : Prop := 12 ≤ o.acc ∧ o.acc < 16 ∧ tagFmt o.accTag = fmtF32 ∧ tagCols o.accTag ≤ 128
    (mxHead s cell = some o → cell = cellOf o.ctx → queueHeld s o.ctx = false → o.started = false →
      (o.kind = .azero → ∃ t, exec (.matrixExecStart cell) s = .next t ∧
        tileOf t cell o.acc = { tag := (tileOf s cell o.acc).tag, data := [] } ∧ otherTiles t ∧ t.mem = s.mem ∧ leaves t) ∧
      (o.kind ∈ [MxKind.mma, .mmas, .mmab, .micro] → ∃ t, exec (.matrixExecStart cell) s = .next t ∧
        { o with started := true } ∈ (t.cell cell).mq ∧ (∀ r, tileOf t cell r = tileOf s cell r) ∧ t.mem = s.mem ∧
        t.ctxs = s.ctxs) ∧
      (∀ k v l, (o.ticket = none ∧ mxLocs s o.ctx o.id k (accRuns o) = (v, .ok l) ∧ (∀ x ∈ l, ∀ g q, x ≠ .spad g q)) ∨
          (∃ n, o.ticket = some n ∧ s.atBank n = false) ∧ v = putMx s cell { o with ticket := none } →
        let e : MxOp := { o with ticket := none }
        (o.kind = .ald → k = .read → tagCols o.accTag ≤ 128 → ∀ u rows,
          (accRuns o).foldl (fun (z : State × Except MxErr (List (List Byte))) run => match z.2 with
            | .error _ => z
            | .ok q => match mxRead z.1 e v.fresh run with
              | (y, .ok d) => (y, .ok (q ++ [d]))
              | (y, .error x) => (y, .error x)) (v, .ok []) = (u, .ok rows) →
          ∃ t, exec (.matrixExecStart cell) s = .next t ∧ t.mem = u.mem ∧ otherTiles t ∧ leaves t ∧
            (∀ i j, i < tagRows o.accTag → j < 4 * tagCols o.accTag →
              Memory.byte (tileOf t cell o.acc).data (512 * i + j) = (rows.getD i []).getD j 0) ∧
            (∀ i j, j < 512 → tagRows o.accTag ≤ i ∨ 4 * tagCols o.accTag ≤ j →
              Memory.byte (tileOf t cell o.acc).data (512 * i + j) = Memory.byte (tileOf s cell o.acc).data (512 * i + j))) ∧
        (o.kind = .ast → k = .write → ∀ u q, mxLocs v o.ctx o.id .write (accRuns o) = (u, .ok q) →
          let w := (List.range (tagRows o.accTag)).foldl (fun z i => mxWrite z o.ctx o.id (o.base + o.pitch * .ofNat 64 i)
            (Memory.bytes (tileOf s cell o.acc).data (512 * i) (4 * tagCols o.accTag)) (2, batchKey o.run o.batch)) u
          ∃ t, exec (.matrixExecStart cell) s = .next t ∧ t.mem = w.mem ∧ (∀ g, (t.cluster g).spad = (w.cluster g).spad) ∧ leaves t ∧
            ∀ r, tileOf t cell r = tileOf s cell r))) ∧
    (mxHead s cell = some o → cell = cellOf o.ctx → o.started = true → o.kind ∈ [MxKind.mma, .mmas, .mmab, .micro] → accum →
      let n := if o.kind = .micro then 64 else 16
      let q := if o.kind = .micro then o.pos else o.pos / 16
      let k0 := o.koff + n * q
      let kn := min n (o.kc - n * q)
      let depth := if o.kind = .micro then 64 else groupDepth o.a.fmt
      let goesOn (t : State) (last : Nat) : Prop :=
        (q + 1 < last → { o with ticket := none, pos := if o.kind = .micro then q + 1 else 16 * (q + 1) } ∈ (t.cell cell).mq) ∧
        (last ≤ q + 1 → leaves t)
      let last := segCount o + if o.kind = .mmab then 1 else 0
      (q < segCount o → served (segRuns s o q) →
        ∃ t, exec (.matrixSegmentEnd cell) s = .next t ∧ t.mem = s.mem ∧ otherTiles t ∧ goesOn t last ∧
          ∀ i j, i < tagRows o.accTag → j < tagCols o.accTag →
            elem t i j = accAdd (elem s i j) depth ((List.range kn).map fun k => value o.a i (k0 + k))
              ((List.range kn).map fun k => value o.b (k0 + k) j) % 2 ^ 32) ∧
      (∀ ra wa, o.kind = .mmab → q = segCount o → o.a = .tile ra wa → served (segRuns s o q) →
        let bal := capturedView s o.ctx (tagBalReg wa) (ballastTag wa)
        let cols := (divertedCols bal).filter fun e => decide (o.koff ≤ e.2 ∧ e.2 < o.koff + o.kc)
        ∃ t, exec (.matrixSegmentEnd cell) s = .next t ∧ t.mem = s.mem ∧ otherTiles t ∧ leaves t ∧
          ∀ i j, i < tagRows o.accTag → j < tagCols o.accTag → elem t i j = if cols = [] then elem s i j else
            accAdd (elem s i j) cols.length (cols.map fun e => bf16.decode (bal.elem i e.1)) (cols.map fun e => value o.b e.2 j) % 2 ^ 32)) ∧
    (∀ q p, mxHead s cell = some o → o.kind = .swap → queueHeld s o.ctx = false → cellOf o.ctx = cell → cellOf q.ctx = p →
      p = placeCell s cell (swapPartner (s.cell cell).cellNo) → p ≠ cell → mxHead s p = some q → q.kind = .swap →
      q.pairing = o.pairing → (s.cell p).launch = (s.cell cell).launch →
      let still (c : Nat) (e : MxOp) : Prop := ∀ z ∈ (s.cell c).pend, z.ctx = e.ctx ∨ ∀ w ∈ z.writes, w.reg ≠ e.acc
      ∃ t, exec (.swapExchange cell) s = .next t ∧ tileOf t cell o.acc = (tileView s q.ctx q.acc).stored ∧
        tileOf t p q.acc = (tileView s o.ctx o.acc).stored ∧
        (still p q → tileOf t cell o.acc = tileOf s p q.acc) ∧ (still cell o → tileOf t p q.acc = tileOf s cell o.acc) ∧
        (t.cell cell).pend = (s.cell cell).pend.map (loseWhole s.fresh o.acc) ∧
        (t.cell p).pend = (s.cell p).pend.map (loseWhole s.fresh q.acc) ∧
        (∀ r, r ≠ o.acc → tileOf t cell r = tileOf s cell r) ∧ (∀ r, r ≠ q.acc → tileOf t p r = tileOf s p r) ∧
        (t.cell cell).mq = (s.cell cell).mq.filter (·.id != o.id) ∧ (t.cell p).mq = (s.cell p).mq.filter (·.id != q.id) ∧
        t.mem = s.mem) ∧
    (∀ f, (s.cell cell).mxFault = some f → (s.cell cell).mq.head? = some o → f.seq = fieldN reply 2 32 →
      (replyEarly s o.ctx cell f = true → exec (.matrixFaultReply cell reply) s = .next s) ∧
      (replyEarly s o.ctx cell f = false →
        ∃ t, exec (.matrixFaultReply cell reply) s = .next t ∧ (t.cell cell).mxFault = none ∧ t.mem = s.mem ∧
          (fieldN reply 0 2 = 0 → (t.cell cell).mq = (s.cell cell).mq ∧ t.ctxs = s.ctxs) ∧
          (1 ≤ fieldN reply 0 2 → (t.cell cell).mq = (s.cell cell).mq.filter (·.ctx != o.ctx)) ∧
          (fieldN reply 0 2 = 1 → ∃ r, (t.ctx o.ctx).pendTrap = (s.ctx o.ctx).pendTrap ++ [r] ∧ r.code = tcMemfault ∧ r.pc = some f.pc ∧ r.va = f.va ∧
            r.fcause = f.cause) ∧
          (2 ≤ fieldN reply 0 2 → (t.ctx o.ctx).pendStop = some (.faultStop f.cause))))) ∧
  (∀ (s : State) (o : MxOp) (seed n m rot : Nat) (va : Word), 0 < n →
    (∀ u x, mxTranslate s o.ctx o.id .read (rotVa va rot) = (u, .ok x) → va.toNat % 8 + n ≤ 8 →
      let h := touchHome u x.loc x.pl (clusterOfCell (cellOf o.ctx)) x.uc
      poisoned h x.loc = false → mxRead s o seed (va, n, rot) =
        (h, .ok (((leBytes 8 (engValue h x.loc (o.reader h) seed).toNat).drop (va.toNat % 8)).take n))) ∧
    ((va.toNat + n) % 8 = 0 → 0 < m → ∀ u l, mxRead s o seed (va, n, rot) = (u, .ok l) → ∀ v k,
      mxRead u o seed (va + .ofNat 64 n, m, rot) = (v, .ok k) → mxRead s o seed (va, n + m, rot) = (v, .ok (l ++ k)))) ∧
  ∀ (s u : State) (c id : Nat) (va : Word) (d e : List Byte) (who : Nat × Nat) (x : Xlat), d ≠ [] →
    (mxTranslate s c id .write va = (u, .ok x) → va.toNat % 8 + d.length ≤ 8 →
      let h := touchHome u x.loc x.pl (clusterOfCell (cellOf c)) x.uc
      (∀ pa, x.loc = .mem pa → pa % 8 = 0 ∧ (keyMat h (paKey pa)).isSome) → (∀ g q, x.loc ≠ .chart g q) →
      readLoc (mxWrite s c id va d who) x.loc = mergeBytes (readLoc h x.loc) (.ofNat 64 (leNat d * 2 ^ (8 * (va.toNat % 8))))
        (.ofNat 8 ((2 ^ d.length - 1) * 2 ^ (va.toNat % 8)))) ∧
    ((va.toNat + d.length) % 8 = 0 → e ≠ [] →
      mxWrite s c id va (d ++ e) who = mxWrite (mxWrite s c id va d who) c id (va + .ofNat 64 d.length) e who)
/-! ### Copies and soundings -/

/-- The CPSET instructions write one register of the M core context's shadow set and check nothing (R335, R336). COPY and COPYM
(R337, R342), SOUND and SNDDOT (R82, R348) and SNDFILL (R349) send an operation to the copy engine with the captured shadow set,
their argument words and the query that their tile holds, and bind their token: sd holds a transfer identifier with the full bit
clear until the operation ends (R334). A tile that holds no query of the dimension traps FORMAT.
The model's choices in it: log 5 (the trap's handler is entered at once), log 11, log 17, log 78 (what happens before the instruction
in its context goes with the operation). -/
def Obligations.TokenInstructions : Prop :=
  (∀ (s : State) (a : BitVec 6) (i : Instr) (n : Nat), Clear s 0x60 (some .m) [a.toNat] [] →
    (i = .cpsetSrc a ∧ n = 0 ∨ i = .cpsetDst a ∧ n = 1 ∨ i = .cpsetExt a ∧ n = 2 ∨ i = .cpsetSs a ∧ n = 3 ∨
     i = .cpsetDs a ∧ n = 4 ∨ i = .cpsetAttr a ∧ n = 5 ∨ i = .cpsetBar a ∧ n = 6 ∨ i = .cpsetMask a ∧ n = 7) →
    ∃ t, exec i s = .next t ∧
      Completes (s.modMe fun x => { x with cp := x.cp.setIfInBounds n (s.me.reg (a.toNat % 32)) }) t [a.toNat] 0) ∧
  (∀ (s : State) (d : BitVec 5) (a b : BitVec 6) (n f : BitVec 2) (q : BitVec 4) (i : Instr) (kind : EngKind) (op : Nat)
      (srcs plain : List Nat) (o : EngOp),
    let u := afterReads s srcs
    let blank := EngOp.blank (observe s s.cur (sMask srcs)) kind []
    let A := s.me.reg (a.toNat % 32)
    let A1 := s.me.reg (a.toNat % 32 + 1)
    let B := s.me.reg (b.toNat % 32)
    let v := u.look q.toNat
    let dim := 64 * 2 ^ n.toNat
    let isQuery := tagFmt v.tag = fmtF32 ∧ tagCols v.tag = 64 ∧ tagRows v.tag = dim / 64
    let sounds := pairOk a = true ∧ n.toNat < 3 ∧ f.toNat < 3 ∧ q.toNat < 12 ∧ (∀ p ∈ s.myCell.pend, p.ctx ≠ s.cur) ∧
      acqPending s s.cur = false
    let room := acqPending s s.cur = false ∧ sendUsed s (coreOf s.cur) < 16 ∧ (s.ops.filter fun p => cellOf p.ctx == cellOf s.cur).length < 12 ∧
      (kind.sounds = true → ((s.ops.filter fun p => cellOf p.ctx == cellOf s.cur).filter (·.kind.sounds)).length < 4)
    Clear s op (some .m) srcs plain →
    (i = .copy d ∧ kind = .copy ∧ op = 0x61 ∧ srcs = [] ∧ plain = [d.toNat] ∧ o = { blank with todo := extBytes s.me } ∨
      i = .copym d ∧ kind = .copym ∧ op = 0x62 ∧ srcs = [] ∧ plain = [d.toNat] ∧ o = { blank with todo := extBytes s.me } ∨
      i = .sndfill d a b ∧ kind = .sndfill ∧ op = 0x65 ∧ srcs = [a.toNat, b.toNat] ∧ plain = [d.toNat] ∧
        o = { blank with args := [A, B] } ∨
      (i = .sound d a b n f q ∧ kind = .sound ∧ op = 0x64 ∨ i = .snddot d a b n f q ∧ kind = .snddot ∧ op = 0x66) ∧
        srcs = [a.toNat, b.toNat] ∧ plain = [a.toNat % 32 + 1, d.toNat] ∧ sounds ∧ isQuery ∧
        o = { blank with args := [A, A1, B], dim := dim, fmt := f.toNat,
                         query := (List.range dim).map fun e => .ofNat 32 (v.elem (e / 64) (e % 64)) }) →
    room →
    let number := (s.myCell.tokSeq + 1) % 2 ^ 32
    let s' := { u.bump with ops := s.ops ++ [o] }
    ∃ t, exec i s = .next t ∧
      Completes (if d = 0 then s' else s'.modMyCell fun x => { x with tokSeq := number }) t srcs d.toNat ∧
      (d ≠ 0 → t.me.isFull d.toNat = false ∧ (d.toNat, u.fresh) ∈ t.me.tokens ∧
        t.me.reg d.toNat = .ofNat 64 (15 * 2 ^ 60 + s.myCell.cellNo % 1024 * 2 ^ 32 + number))) ∧
  (∀ (s : State) (d : BitVec 5) (a b : BitVec 6) (n f : BitVec 2) (q : BitVec 4),
    let v := (afterReads s [a.toNat, b.toNat]).look q.toNat
    pairOk a = true → n.toNat < 3 → f.toNat < 3 → q.toNat < 12 → (∀ p ∈ s.myCell.pend, p.ctx ≠ s.cur) →
    acqPending s s.cur = false → ¬ (tagFmt v.tag = fmtF32 ∧ tagCols v.tag = 64 ∧ tagRows v.tag = 2 ^ n.toNat) → CanTrap s →
    (Clear s 0x64 (some .m) [a.toNat, b.toNat] [a.toNat % 32 + 1, d.toNat] → TrapsAtDecode (.sound d a b n f q) s tcFormat) ∧
    (Clear s 0x66 (some .m) [a.toNat, b.toNat] [a.toNat % 32 + 1, d.toNat] → TrapsAtDecode (.snddot d a b n f q) s tcFormat))

/-- The copy engine (R338 to R344, R146). A round adds 256 bytes times its weight to the deficit of a queue that is not empty and takes
whole bursts of its head while the deficit allows; an empty queue has none, and commands of a stopped context or launch wait (R401). COPY_START ends a copy with bad arguments in BADARG with
its WHY, and cuts another into pieces up to the first that fails a check, whose cause and offset its status gives. A performed piece
has moved its bytes and sends their count to the barrier that the copy names. COPY_FINISH writes the status to the register still
bound, sets its full bit, decrements the dependence counter that the copy names, so that a task it readies observes the copy, and
ends the operation.
The model's choices in it: log 36, log 37, log 52, log 78 (what the words of a source are found to hold). -/
def Obligations.CopyEvents : Prop :=
  ∀ (s : State) (id k : Nat) (o : EngOp),
    (∀ g i, i < 48 → (s.ops.map (·.id)).Nodup →
      let q := s.ops.filter fun p => coreOf p.ctx == 48 * g + i && p.todo != 0 && !queueHeld s p.ctx
      let d := Map.at (s.cluster g).defc i 0 + 256 * cpWeight s (48 * g + i)
      ∃ t, exec (.copyArbRound g) s = .next t ∧ t.ops.map (·.id) = s.ops.map (·.id) ∧ t.mem = s.mem ∧ t.ctxs = s.ctxs ∧
        (q = [] → Map.find (t.cluster g).defc i = none) ∧
        (q.head? = some o → findOp t o.id = some (o.take (if o.todo ≤ d then o.todo else d / burst o * burst o)))) ∧
    (findOp s id = some o → o.credit ≠ 0 → o.started = false →
      (o.kind = .copy ∨ o.kind = .copym → o.added = [] → copyBadArg s o ≠ 0 →
        ∃ t, exec (.copyStart id) s = .next t ∧
          findOp t id = some { o with started := true, todo := 0, status := some (copyStatus 3 (copyBadArg s o) 0 0) } ∧
          t.mem = s.mem ∧ t.ctxs = s.ctxs) ∧
      (∀ s1 ps e, o.kind = .copy → copyBadArg s o = 0 → cutPieces s o none = (s1, ps, e) → (∀ off, e ≠ some (off, none)) →
        ∃ t q, exec (.copyStart id) s = .next t ∧ findOp t id = some q ∧ q.started = true ∧
          (e = none → q.status = some (copyStatus 0 0 0 0)) ∧
          (∀ off cause, e = some (off, some cause) → q.status = some (lowerStatus (copyStatus 2 0 cause off) (copyStatus 0 0 0 0))) ∧
          q.pieces.map (fun p => (p.o, p.len, p.src, p.dst)) = ps.map (fun p => (p.o, p.len, p.src, p.dst)) ∧
          t.mem = s1.mem ∧ t.ctxs = s.ctxs)) ∧
    (∀ p, findOp s id = some o → o.pieces.find? (fun p => p.idx == k && !p.performed) = some p → pieceBad s o p = false →
      pieceGone s o p = false → p.o + p.len ≤ o.credit → s.atBank p.ticket = false → (∀ l ∈ pieceSrc o p, locBusy s l = false) →
      (∀ q ∈ o.pieces, q.idx < k → q.recv = p.recv → q.performed = false → pieceBad s o q = false ∧ pieceGone s o q = false) →
      let w := writePiece s o p fun _ => true
      ∃ t q, exec (.copyPiecePerformed id k) s = .next t ∧ t.mem = w.mem ∧ (∀ g, (t.cluster g).spad = (w.cluster g).spad) ∧
        t.ctxs = s.ctxs ∧ findOp t id = some q ∧ (∀ r ∈ q.pieces, r.idx = k → r.performed = true) ∧
        (∀ g x, p.counted = false → pieceBar w o p = some (g, x) → ∃ m, t.posts = s.posts ++ [m] ∧ m.cluster = g ∧ m.phys = x ∧
          m.op = .barCount p.len ∧ m.eng = some (o.id, k)) ∧
        (p.counted = true ∨ pieceBar w o p = none → t.posts = s.posts)) ∧
    (∀ st, findOp s id = some o → o.kind = .copy ∨ o.kind = .copym → o.started = true → o.status = some st →
      (∀ p ∈ o.pieces, p.performed = true ∧ p.counted = true) →
      (o.depEn = true → o.decDone = false → cellActed s (cellOf o.ctx) = true ∧ (s.cell (cellOf o.ctx)).depAt ≤ s.time) →
      ∃ t, exec (.copyFinish id) s = .next t ∧ t.ops = s.ops.filter (·.id != id) ∧ t.mem = s.mem ∧
        (∀ r, (s.ctx o.ctx).tokens.find? (·.2 == id) = some (r, id) → 0 < r → r < 32 →
          (t.ctx o.ctx).reg r = st ∧ (t.ctx o.ctx).isFull r = true) ∧
        (o.depEn = true → o.decDone = false → id ∈ Map.at (t.cell (cellOf o.ctx)).depOps o.dep [] ∧
          (depVal s (cellOf o.ctx) o.dep ≠ 0 →
            depVal t (cellOf o.ctx) o.dep = depVal s (cellOf o.ctx) o.dep - 1)) ∧
        (o.depEn = false ∨ o.decDone = true → t.cells = s.cells))

/-- Soundings (R82 to R86, R89, R91, R93 to R97). A sounding with bad arguments ends in BADARG; one that fails a later check ends with
that status, and one whose checks pass knows its banks and queues three commands for each. A bank's queue takes commands in order of
arrival; the first takes the query register once it is free, scans in the SID's turn up to a yield, goes on after it, returns its fix
and frees its query register; the record of the last bank ends the sounding. SNDFILL raises FILL of a good header to n at its home,
and ends once the bank holds it; a block that is not in HBM ends it in BADARG with WHY 5. A refresh collides with requests, and each retry counts.
The model's choices in it: log 38, log 39, log 41, log 84 (NBANK of a `snddot` is the number of its banks, as for a sounding), log 89. -/
def Obligations.SoundEvents : Prop :=
  ∀ (s : State) (id k : Nat) (o : EngOp),
    (findOp s id = some o → o.kind = .sound ∨ o.kind = .snddot → o.credit ≠ 0 → o.started = false →
      (windowLocs s o.ctx .read (o.arg 0) (8 * min 4096 (rangeCount (o.arg 2))) = [] ∧ o.ticket = none ∨
        ∃ q, o.ticket = some q ∧ s.atBank q = false) →
      (sndArgs o ≠ 0 → soundChecks s o = (s, .error (some (sndStatus 3 (sndArgs o) 0 0 0xFFFFFFFF)))) ∧
      (∀ s1 st, soundChecks s o = (s1, .error (some st)) →
        ∃ t, exec (.soundStart id) s = .next t ∧ t.ops = s.ops.filter (·.id != id) ∧ t.mem = s1.mem ∧
          ∀ r, (s.ctx o.ctx).tokens.find? (·.2 == id) = some (r, id) → 0 < r → r < 32 →
            (t.ctx o.ctx).reg r = st ∧ (t.ctx o.ctx).isFull r = true) ∧
      (∀ s1 q, soundChecks s o = (s1, .ok q) → q.started = true ∧ sndArgs o = 0 ∧ (∀ b ∈ q.banks, b.phase = .waiting) ∧
        ∃ t, exec (.soundStart id) s = .next t ∧ t.ops = s.ops.filter (·.id != id) ++ [{ q with todo := 192 * q.banks.length }] ∧
          t.mem = s1.mem ∧ t.ctxs = s.ctxs)) ∧
    (∀ b, bankAt s id k = some (o, b) →
      (b.phase = .waiting →
        (b.arr = none → 64 * (k + 1) ≤ o.credit → soundBlocked s o b.bank = false →
          ∃ t q, exec (.qbcast id k) s = .next t ∧ bankAt t id k = some (q, { b with arr := some s.fresh }) ∧ t.mem = s.mem ∧
            t.ctxs = s.ctxs) ∧
        (∀ a, b.arr = some a → (∀ p ∈ s.ops, ∀ c ∈ p.banks, c.bank = b.bank → c.holds = false) →
          (∀ x ∈ arrivals s b.bank, a ≤ x) →
          ∃ t q, exec (.qbcast id k) s = .next t ∧ bankAt t id k = some (q, { b with phase := .queried }) ∧ t.mem = s.mem ∧
            t.ctxs = s.ctxs)) ∧
      (b.phase = .queried → 64 * (o.banks.length + k + 1) ≤ o.credit →
        (sidTurn s b.bank = none → exec (.scan id k) s = .next s) ∧
        (∀ u, sidTurn s b.bank = some u →
          let r := scanRun 64 0 0 u o b
          ∃ t q, exec (.scan id k) s = .next t ∧ bankAt t id k = some (q, r.2) ∧ (r.2.phase = .yielded ∨ r.2.phase = .scanned) ∧
            t.mem = { s.mem with softErr := t.mem.softErr } ∧ t.ctxs = s.ctxs)) ∧
      (b.phase = .yielded → ∃ t q, exec (.scanYield id k) s = .next t ∧
        bankAt t id k = some (q, { b with phase := .queried, yields := b.yields + 1 }) ∧ t.mem = s.mem ∧ t.ctxs = s.ctxs) ∧
      (b.phase = .scanned → 64 * (2 * o.banks.length + k + 1) ≤ o.credit → ∃ t q, exec (.fixrd id k) s = .next t ∧
        bankAt t id k = some (q, { b with phase := .returned, ticket := s.fresh }) ∧ t.mem = s.mem ∧ t.ctxs = s.ctxs) ∧
      (b.phase = .returned → s.atBank b.ticket = false →
        let w := (recordWrites o k b).foldl (fun s e => putDst s o e.1 e.2 (5, o.id)) s
        ((∀ j c, j ≠ k → o.banks[j]? = some c → c.phase = .written) →
          ∃ t, exec (.fixRecordWrite id k) s = .next t ∧ t.mem = w.mem ∧ t.ops = s.ops.filter (·.id != id) ∧
            ∀ r, (s.ctx o.ctx).tokens.find? (·.2 == id) = some (r, id) → 0 < r → r < 32 →
              (t.ctx o.ctx).reg r = sndStatus (if o.banks.any (·.ue) then 1 else 0) 0 0 o.banks.length 0) ∧
        (∀ j c, j ≠ k → o.banks[j]? = some c → c.phase ≠ .written →
          ∃ t q, exec (.fixRecordWrite id k) s = .next t ∧ t.mem = w.mem ∧ t.ctxs = s.ctxs ∧
            bankAt t id k = some (q, { b with phase := .written })))) ∧
    (∀ s1 x pa, findOp s id = some o → o.kind = .sndfill → o.credit ≠ 0 → o.hdrNew = none → fieldN (o.arg 0) 0 6 = 0 →
      fieldN (o.arg 0) 56 8 = 0 → (o.arg 1).toNat ≤ 32 → translateEng s o.ctx o.id .atomic (o.arg 0) = (s1, .ok x) →
      blockPa s1 x.loc 8 = some pa → fillEarlier s o (hbmBank (paLocal pa)).1 = false →
      let u := touchHome s1 x.loc x.pl (clusterOfCell (cellOf o.ctx)) x.uc
      poisoned u (.mem pa) = false → hdrOk (readMem u pa) = true → (keyMat u (paKey pa)).isSome = true →
      let w := setField (readMem u pa) 0 6 (max (fieldN (readMem u pa) 0 6) (o.arg 1).toNat)
      ((Map.find u.mem.slines (pa / 64)).isSome = true →
        ∃ t, exec (.sndfillAtHome id) s = .next t ∧ readMem t pa = w ∧ t.ctxs = s.ctxs ∧
          findOp t id = some { o with started := true, hdrPa := pa, hdrNew := some w, hdrAt := u.fresh }) ∧
      (Map.find u.mem.slines (pa / 64) = none → fillwBlocked s o pa = false →
        ∃ t, exec (.sndfillAtHome id) s = .next t ∧ t.ops = s.ops.filter (·.id != id) ∧
          ∀ r, (s.ctx o.ctx).tokens.find? (·.2 == id) = some (r, id) → 0 < r → r < 32 →
            (t.ctx o.ctx).reg r = sndStatus 0 0 0 1 0)) ∧
    (∀ s1 x, findOp s id = some o → o.kind = .sndfill → o.credit ≠ 0 → o.hdrNew = none → fieldN (o.arg 0) 0 6 = 0 →
      fieldN (o.arg 0) 56 8 = 0 → (o.arg 1).toNat ≤ 32 → translateEng s o.ctx o.id .atomic (o.arg 0) = (s1, .ok x) →
      blockPa s1 x.loc 8 = none →
      ∃ t, exec (.sndfillAtHome id) s = .next t ∧ t.ops = s.ops.filter (·.id != id) ∧ t.mem = s1.mem ∧
        ∀ r, (s.ctx o.ctx).tokens.find? (·.2 == id) = some (r, id) → 0 < r → r < 32 →
          (t.ctx o.ctx).reg r = sndStatus 3 5 0 1 0 ∧ (t.ctx o.ctx).isFull r = true) ∧
    (∀ w, findOp s id = some o → o.hdrNew = some w → fillwBlocked s o o.hdrPa = false →
      ∃ t, exec (.fillw id) s = .next t ∧ t.ops = s.ops.filter (·.id != id) ∧
        (∀ r, (s.ctx o.ctx).tokens.find? (·.2 == id) = some (r, id) → 0 < r → r < 32 →
          (t.ctx o.ctx).reg r = sndStatus 0 0 0 1 0) ∧
        ((keyMat s (paKey o.hdrPa)).isSome = true → s.dev.mscSize = 0 → o.hdrPa % 8 = 0 →
          (∀ l, Map.find s.mem.slines (o.hdrPa / 64) = some l → l.word o.hdrPa = w) →
          mediaWord t (paKey o.hdrPa) (paAddr o.hdrPa) = w)) ∧
    (∀ n, ∃ t, exec (.hbmRefresh k n) s = .next t ∧ t = { s with dev := { s.dev with refresh := s.dev.refresh ++ List.replicate n k } }) ∧
    (k ∈ s.dev.refresh → ∃ t, exec (.retry k) s = .next t ∧ t.dev.refresh = s.dev.refresh.erase k ∧
      fieldN (Map.at t.dev.sndcnt k 0) 0 32 = (fieldN (Map.at s.dev.sndcnt k 0) 0 32 + 1) % 2 ^ 32 ∧ t.mem = s.mem ∧
      t.ctxs = s.ctxs)
/-! ### Mailboxes, invalidation, way conversion, launch requests -/

/-- MBOX_SEND, MBOX_RECV (R364, R365), TLBINV (R366), CACHECFG (R367) and LAUNCH (R368). A sent word is on its way and its status is
awaited in sd; a received word leaves the mailbox, and an empty mailbox parks. TLBINV, which overtakes the walks in flight, and CACHECFG stay at their instruction until
the device has done the work, and then complete. LAUNCH sends its request, after a release, with what happens before that release (R144,
R188), and binds its token. A way count above 16, or a launch that does not cover the whole cluster, traps SYSARG.
The model's choices in it: log 5, log 10 (mbox.send holds its full bits until the status comes), log 11, log 50, log 52, log 78. -/
def Obligations.SystemRequests : Prop :=
  ∀ (s : State) (d : BitVec 5) (a b : BitVec 6),
    let A := s.me.reg (a.toNat % 32)
    let B := s.me.reg (b.toNat % 32)
    let room := sendUsed s (coreOf s.cur) < 16
    (Clear s 0x77 none [a.toNat, b.toNat] [d.toNat] → room →
      let u := afterReads s [a.toNat, b.toNat]
      ∃ t, exec (.mboxSend d a b) s = .next t ∧ t.me.isBusy d.toNat = decide (d ≠ 0) ∧ t.me.reg d.toNat = s.me.reg d.toNat ∧
        Issues { u.bump with mboxes := s.mboxes ++ [⟨u.fresh, s.cur, d.toNat, sMask [a.toNat, b.toNat], A, B, none⟩] } t
          [a.toNat, b.toNat] d.toNat (.mbox u.fresh)) ∧
    (Clear s 0x77 none [] [d.toNat] →
      (s.me.mbox = [] → ∃ t, exec (.mboxRecv d) s = .next t ∧ t.me.stat = .parked ∧ t.me.park = .mailbox ∧
        t.me.pc = s.me.pc ∧ t.me.regs = s.me.regs ∧ t.mem = s.mem) ∧
      (∀ w f rest, s.me.mbox = (w, f) :: rest → ∃ t, exec (.mboxRecv d) s = .next t ∧
        t.me.reg d.toNat = (if d = 0 then 0 else w) ∧
        Completes (s.modMe fun x => { x with mbox := rest, mbFrom := f }) t [] d.toNat)) ∧
    (∀ i srcs lo hi, (i = .tlbinvPage a ∧ srcs = [a.toNat] ∧ lo = A.toNat ∧ hi = A.toNat + 1 ∨
        i = .tlbinvRange a b ∧ srcs = [a.toNat, b.toNat] ∧ lo = A.toNat ∧ hi = A.toNat + B.toNat ∨
        i = .tlbinvAll ∧ srcs = [] ∧ lo = 0 ∧ hi = 2 ^ 64) → Clear s 0x78 none srcs [] →
      (s.me.block = .none → let cells := launchPlaces s (cellOf s.cur)
        ∃ t, exec i s = .next t ∧ t.me.block = .tlbinv lo hi ((walksOf s cells).map (·.id)) ∧ t.walks = (overtake s cells).walks ∧
          t.me.pc = s.me.pc ∧ t.me.regs = s.me.regs ∧ t.mem = s.mem) ∧
      (s.me.block = .tlbinvDone → ∃ t, exec i s = .next t ∧ Completes (s.modMe fun x => { x with block := .none }) t srcs 0)) ∧
    (Clear s 0x79 none [a.toNat] [d.toNat] →
      let g := clusterOfCell (cellOf s.cur)
      (∀ old, s.me.block = .cachecfgDone old → ∃ t, exec (.cachecfg d a) s = .next t ∧
        t.me.reg d.toNat = (if d = 0 then 0 else .ofNat 64 old) ∧
        Completes (s.modMe fun x => { x with block := .none }) t [a.toNat] d.toNat) ∧
      (s.me.block = .none →
        (16 < A.toNat ∨ coversWhole s (cellOf s.cur) = false → CanTrap s → TrapsIssued (.cachecfg d a) s tcSysArg 0 0) ∧
        (A.toNat ≤ 16 → coversWhole s (cellOf s.cur) = true →
          ((s.cluster g).busy = true → ∃ t, exec (.cachecfg d a) s = .next t ∧ t.me.stat = .parked ∧
            t.me.park = .wayConversion ∧ (t.cluster g).cfgWait = (s.cluster g).cfgWait ++ [(s.cur, A.toNat)]) ∧
          ((s.cluster g).busy = false → A.toNat = (s.cluster g).conv → ∃ t, exec (.cachecfg d a) s = .next t ∧
            t.me.block = .cachecfgDone A.toNat ∧ t.clusters = s.clusters) ∧
          ((s.cluster g).busy = false → A.toNat ≠ (s.cluster g).conv → ∃ t, exec (.cachecfg d a) s = .next t ∧
            t.me.block = .cachecfg (s.cluster g).conv ∧ (t.cluster g).busy = true ∧ (t.cluster g).cfgNew = A.toNat ∧
            (t.cluster g).conv = min (s.cluster g).conv A.toNat ∧ t.mem = s.mem)))) ∧
    (Clear s 0x7A none [a.toNat] [d.toNat] →
      (A.toNat % 64 ≠ 0 → CanTrap s → TrapsIssued (.launch d a) s tcMisalign A 0) ∧
      (A.toNat % 64 = 0 → drained s s.cur = true → s.me.failed = [] → room →
        let number := (s.myCell.tokSeq + 1) % 2 ^ 32
        let u := afterReads s [a.toNat]
        let s' := { u.bump with reqs := s.reqs ++ [⟨u.fresh, s.cur, A, s.myCell.launch.getD 0, none,
                                                    releaseClock (observe s s.cur (sMask [a.toNat])) s.cur⟩] }
        ∃ t, exec (.launch d a) s = .next t ∧
          Completes (if d = 0 then s' else s'.modMyCell fun x => { x with tokSeq := number }) t [a.toNat] d.toNat ∧
          (d ≠ 0 → t.me.isFull d.toNat = false ∧ (d.toNat, u.fresh) ∈ t.me.tokens)))

/-- What the device does for those requests. MBOX_ARRIVAL appends the word to a mailbox of fewer than four words, with the sender's
name, and answers 0, or answers 1 and leaves a full one, or 4 for a pre-empted cell; MBOX_SEND_STATUS gives the sender CODE (R365). Messages
of one core to one unit in one lane arrive in order, and so do their replies; to a pilot core, `launch` requests of lane 0, mailbox words
and fault messages are one order (R126, R199). TLBINV_COMPLETE leaves no
covered translation in the TLBs of the launch nor with its engine operations, and waits for accesses, operations and gathers under way (R34,
R366). CACHECFG_COMPLETE zeroes the raised ways, no other byte, and puts the new CONV in force (R60, R367). LAUNCH_TOKEN_COMPLETE has the
pilot core take the request, and then gives the token its status (R368).
The model's choices in it: log 10, log 46, log 50, log 51, log 86 (which lane a launch request travels in). -/
def Obligations.SystemEvents : Prop :=
  ∀ (s : State) (id c g : Nat),
    (∀ m, s.mboxes.find? (·.id == id) = some m → m.status = none →
      let t := m.target
      let home := cellOf m.sender
      let goal := 33 * placeCell s home (fieldN t 6 10) + 11 * fieldN t 4 2 + fieldN t 0 4
      fieldN t 17 47 = 0 → fieldN t 16 1 = 0 → (coveredCells s home).contains (fieldN t 6 10) = true → fieldN t 4 2 ≠ 3 →
      fieldN t 0 4 ≤ 10 → mboxBehind s m false = false →
      let gone := cellPreempted s (placeCell s home (fieldN t 6 10))
      ∃ t' code, exec (.mboxArrival id) s = .next t' ∧ t'.mem = s.mem ∧
        t'.mboxes = s.mboxes.map (fun x => if x.id = id then { x with status := some code } else x) ∧
        (gone = true → code = 4 ∧ t'.ctxs = s.ctxs) ∧
        (gone = false → (s.ctx goal).mbox.length < 4 → code = 0 ∧ (t'.ctx goal).mbox = (s.ctx goal).mbox ++ [(m.word, mboxName s m.sender)] ∧
          (t'.ctx goal).regs = (s.ctx goal).regs ∧ ∀ j, j ≠ goal → t'.ctx j = s.ctx j) ∧
        (gone = false → 4 ≤ (s.ctx goal).mbox.length → code = 1 ∧ t'.ctxs = s.ctxs)) ∧
    (∀ m code, s.mboxes.find? (·.id == id) = some m → m.status = some code → 0 < m.dest → m.dest < 32 →
      (s.ctx m.sender).isBusy m.dest = true → mboxBehind s m true = false → (s.ctx m.sender).owed (.mbox m.id) = none →
      ∃ t, exec (.mboxSendStatus id) s = .next t ∧ t.mboxes = s.mboxes.filter (·.id != id) ∧
        (t.ctx m.sender).reg m.dest = .ofNat 64 (code * 2 ^ 60) ∧ (t.ctx m.sender).isBusy m.dest = false ∧ t.mem = s.mem ∧
        ∀ r, r < 32 → r ≠ 0 → r ≠ m.dest → (t.ctx m.sender).isFull r =
          ((s.ctx m.sender).isFull r && !(heldBits (s.ctx m.sender) (.mbox m.id)).getLsbD r)) ∧
    (∀ m, s.mboxes.find? (·.id == id) = some m →
      (m.status = none → mboxBehind s m false = true → exec (.mboxArrival id) s = .next s) ∧
      (m.status.isSome = true → mboxBehind s m true = true → exec (.mboxSendStatus id) s = .next s) ∧
      (∀ p, m.pilot = some p →
        (m.status = none → faultAhead s (coreOf m.sender) p m.id = true → mboxBehind s m false = true) ∧
        (∀ r ∈ s.reqs, r.id < m.id → coreOf r.ctx = coreOf m.sender → r.pilot s = some p → lane r.va.toNat = 0 →
          mboxBehind s m true = true ∧ (r.status = none → mboxBehind s m false = true)))) ∧
    (∀ f ∈ s.faults, pilotBehind s f.core f.pilot f.id 0 false = true → f ∈ (flushFaults s).faults) ∧
    (∀ lo hi ws, (s.ctx c).block = .tlbinv lo hi ws →
      (∀ n p, n ∈ launchPlaces s (cellOf c) → p ∈ (s.cell n).pend → p.gather ≠ [] → lo < hi → exec (.tlbinvComplete c) s = .next s) ∧
      (invReady s (launchPlaces s (cellOf c)) lo hi = false → exec (.tlbinvComplete c) s = .next s)) ∧
    (∀ lo hi ws, (s.ctx c).block = .tlbinv lo hi ws → (∀ w ∈ s.walks, w.id ∉ ws) → invReady s (launchPlaces s (cellOf c)) lo hi = true →
      let root := (s.cell (cellOf c)).ptRoot
      ∃ t, exec (.tlbinvComplete c) s = .next t ∧ (t.ctx c).block = .tlbinvDone ∧ t.mem = s.mem ∧
        (∀ o ∈ t.ops, cellOf o.ctx ∈ launchPlaces s (cellOf c) → ∀ e ∈ o.kept, e.meets (ptVf root) (ptAsid root) lo hi = false) ∧
        ∀ n ∈ launchPlaces s (cellOf c), ∀ e, e ∈ (t.cluster (clusterOfCell n)).tlb ∨
          (∃ k, k < 3 ∧ (e ∈ (t.core (3 * n + k)).itlb ∨ e ∈ (t.core (3 * n + k)).dtlb)) →
          e.meets (ptVf root) (ptAsid root) lo hi = false) ∧
    (∀ old, (s.cluster g).cfgCtx = some c → (s.ctx c).block = .cachecfg old → (s.cluster g).cfgWait = [] →
      old < (s.cluster g).cfgNew → let e := emptyWays s g (16 - (s.cluster g).cfgNew)
      waysHeld e g (16 - (s.cluster g).cfgNew) = false →
      ∃ t, exec (.cachecfgComplete g) s = .next t ∧ (t.ctx c).block = .cachecfgDone old ∧
        (t.cluster g).conv = (s.cluster g).cfgNew ∧ (t.cluster g).busy = false ∧ t.mem = e.mem ∧
        ∀ x, Memory.byte (t.cluster g).spad x =
          if 0x400000 + old * 0x40000 ≤ x ∧ x < 0x400000 + (s.cluster g).cfgNew * 0x40000 then 0
          else Memory.byte (s.cluster g).spad x) ∧
    (∀ r, s.reqs.find? (·.id == id) = some r →
      (r.status = none → reqBehind s r false = false →
        (∀ s1 x, engAccess s r.ctx r.id .read r.va = (s1, .ok x) → locBusy s1 x.loc = false →
          exec (.launchTokenComplete id) s = .next (flushFaults (putReq (takeRecord s1 r x).1 id (takeRecord s1 r x).2))) ∧
        (∀ s1 f, engAccess s r.ctx r.id .read r.va = (s1, .fault f) →
          exec (.launchTokenComplete id) s = .next (flushFaults (putReq (dropEngErrs s1 r.ctx r.id) id (launchStatus 2 0 f.cause))))) ∧
      (r.status = none → reqBehind s r false = true → exec (.launchTokenComplete id) s = .next s) ∧
      (∀ st, r.status = some st → reqBehind s r true = false →
        ∃ t, exec (.launchTokenComplete id) s = .next t ∧ t.reqs = s.reqs.filter (·.id != id) ∧ t.mem = s.mem ∧ t.host = s.host ∧
          ∀ n, (s.ctx r.ctx).tokens.find? (·.2 == id) = some (n, id) → 0 < n → n < 32 →
            (t.ctx r.ctx).reg n = st ∧ (t.ctx r.ctx).isFull n = true))

/-! ### Launches and the host's ports -/

/-- Launches (R178, R183 to R190, R202, R409 to R411). A record that the host completes, word 7 last, is accepted under the queue's next
CSEQ, counted as dropped when the queue is full, or rejected with a report that names the check it fails. The start of a record floods WAKE
to the cells it covers; where every launch in its way is of a lower class, those are asked to stop. WAKE, once the cell's earlier launch has ended,
starts the three control contexts of a cell at their entries with every other context FREE and tiles zero. The
end of a cell's part discards its tasks; the last of a cluster returns every converted way there; the last one ends the launch with its
report, and its contexts are HALTED no more (R176). What the cell's contexts know of the order of events goes to the launch (R144).
The model's choices in it: log 34, log 51, log 53, log 54, log 55, log 56, log 57, log 78. -/
def Obligations.LaunchEvents : Prop :=
  ∀ (s : State) (vf q cell : Nat) (tag : Word),
    let Q := s.queue vf q
    (∀ n p, Q.proc = some n → s.proc n = some p →
      let slot := Q.slot.setIfInBounds 7 tag
      let words := slot.toList
      (16 ≤ Q.recs.length → ∃ t, exec (.hostLaunchRecord vf q tag) s = .next t ∧
        t = s.setQueue vf q { Q with slot := slot, dropped := min (Q.dropped + 1) 65535 }) ∧
      (Q.recs.length < 16 → recWhy s p words = 0 → ∃ t l, exec (.hostLaunchRecord vf q tag) s = .next t ∧
        Map.find t.host.launches l.id = some l ∧ l.record = words ∧ l.vf = vf ∧ l.q = q ∧ l.proc = n ∧ l.stat = .accepted ∧
        l.cells = recCells words ∧ l.cseq = (Q.cseq + 1) % 2 ^ 32 ∧ (recDet words = false → l.snap = []) ∧
        (t.queue vf q).recs = Q.recs ++ [l.id] ∧ (t.queue vf q).slot = slot ∧
        (t.queue vf q).cseq = (Q.cseq + 1) % 2 ^ 32 ∧ t.ctxs = s.ctxs ∧ t.cells = s.cells) ∧
      (Q.recs.length < 16 → recWhy s p words ≠ 0 → ∃ t, exec (.hostLaunchRecord vf q tag) s = .next t ∧
        t.host.out = .vector vf (q % 32) :: .report vf q (fieldN Q.qcfg 12 52 * 4096 + 32 * (Q.rhead % 2 ^ (fieldN Q.qcfg 8 4 + 4)))
          [tag, .ofNat 64 (2 ^ 60 + recWhy s p words * 2 ^ 56), 0, .ofNat 64 (s.ttb (q % 16 / 4))] :: s.host.out ∧
        (t.queue vf q).rhead = (Q.rhead + 1) % 2 ^ 16 ∧ (t.queue vf q).recs = Q.recs ∧ t.mem = s.mem ∧ t.ctxs = s.ctxs)) ∧
    (∀ id rest l, Q.recs = id :: rest → Map.find s.host.launches id = some l → l.id = id → s.dev.hot = [] → s.dev.failed = [] →
      nextQueue s l.proc = some (vf * 256 + q) → outranked s l = false →
      (∀ n ∈ l.places, (s.cluster (clusterOfCell n)).fenced = false ∧ (s.cluster (clusterOfCell n)).fencing = false) →
      (clustersTaken s l = true →
        (∀ b ∈ blockers s l, sliceClass s l.vf < sliceClass s b.vf ∧ Map.find s.host.launches b.id = some b) →
        ∃ t, exec (.launchRecordStart vf q) s = .next t ∧ t.mem = s.mem ∧ (t.queue vf q).recs = Q.recs ∧ t.cells = s.cells ∧
          ∀ b ∈ blockers s l, (Map.find t.host.launches b.id).map (·.stopping) = some true) ∧
      (clustersTaken s l = false →
      ∃ t, exec (.launchRecordStart vf q) s = .next t ∧ (∀ n ∈ l.cells, id ∈ (t.cell n).wakes) ∧
        (∀ n, n ∉ l.cells → t.cell n = s.cell n) ∧ Map.find t.host.launches id = some { l with stat := .running, start := (beforeStart s).fresh } ∧
        (t.queue vf q).recs = rest ∧ Map.find t.host.lastQ (l.proc * 8 + fieldN Q.qcfg 0 3) = some (vf * 256 + q) ∧
        t.ctxs = s.ctxs ∧ t.mem = (beforeStart s).mem ∧ t.dev = s.dev)) ∧
    (∀ id rest l p, (s.cell cell).launch = none → (s.cell cell).wakes = id :: rest → Map.find s.host.launches id = some l →
      s.proc l.proc = some p → earlierLaunch s l cell = false →
      ∃ t, exec (.wake cell) s = .next t ∧
        (∀ k : CoreKind, let x := t.ctx (33 * cell + 11 * k.code)
          x.stat = .eligible ∧ x.pc = .ofNat 64 (p.codeBase + 4 * recEntry l.record k) ∧ x.reg 1 = recWord l.record 6 ∧
          ∀ r, 2 ≤ r → x.reg r = 0) ∧
        (∀ i, i < 33 → i % 11 ≠ 0 → t.ctx (33 * cell + i) = Ctx.reset) ∧
        (t.cell cell).launch = some l.id ∧ (t.cell cell).cellNo = l.numAt cell ∧
        (t.cell cell).lpos = lposWord l.record l.cells.length (l.cells.findIdx (· == l.numAt cell)) ∧ (t.cell cell).tiles = [] ∧ (t.cell cell).wakes = rest ∧
        (t.cell cell).ptRoot = p.ptRoot ∧ (t.cell cell).codeBase = p.codeBase ∧
        (∀ c, cellOf c ≠ cell → t.ctx c = s.ctx c) ∧ t.mem = { s.mem with hist := t.mem.hist, rels := t.mem.rels } ∧
        ((s.cluster (clusterOfCell cell)).lastVf = some (ptVf p.ptRoot, ptAsid p.ptRoot) → t.mem = s.mem)) ∧
    (∀ l, launchOf s cell = some l → partDone s cell = true → lastInCluster l cell = true →
      let g := clusterOfCell cell
      ((s.cluster g).busy = true → exec (.cellPartEnd cell) s = .next s) ∧
      ((s.cluster g).busy = false → (s.cluster g).conv ≠ 0 → waysBusy s g (wayBase 0) = true →
        exec (.cellPartEnd cell) s = .next (s.modCluster g fun k => { k with conv := 0 })) ∧
      ((s.cluster g).busy = false → waysBusy s g (wayBase 0) = false → ∃ t, exec (.cellPartEnd cell) s = .next t ∧
        (t.cluster g).conv = 0 ∧ ∀ x, Memory.byte (t.cluster g).spad x =
          if 0x400000 ≤ x ∧ x < 0x800000 then 0 else Memory.byte (s.cluster g).spad x)) ∧
    (∀ l, launchOf s cell = some l → partDone s cell = true →
      (lastInCluster l cell = true → (s.cluster (clusterOfCell cell)).busy = false ∧ waysBusy s (clusterOfCell cell) (wayBase 0) = false) →
      (∀ e ∈ (s.cell cell).log, e.ev = 0) →
      ∃ t, exec (.cellPartEnd cell) s = .next t ∧ (t.cell cell).launch = none ∧ (t.cell cell).deque = [] ∧ t.mem = s.mem ∧
        (∀ n, n ≠ cell → t.cell n = s.cell n) ∧
        (l.ended.length + 1 < l.cells.length → t.ctxs = s.ctxs ∧ Map.find t.host.launches l.id =
          some { l with ended := (s.cell cell).cellNo :: l.ended, orphan := l.orphan + (s.cell cell).deque.length,
                        clock := ((List.range 3).flatMap fun k => (s.core (3 * cell + k)).knows.map fun e => e.2).foldl joinClock l.clock }) ∧
        (l.cells.length ≤ l.ended.length + 1 → Map.find t.host.launches l.id = none ∧
          (∀ c, t.ctx c = s.ctx c ∨ (s.ctx c).stat = .halted ∧ t.ctx c = { s.ctx c with stat := .free }) ∧
          (∀ c, cellOf c ∈ l.places → (t.cell (cellOf c)).launch = none → (t.ctx c).stat ≠ .halted) ∧
          (l.reports = true → let q' := s.queue l.vf l.q
            ∃ words, .report l.vf l.q (fieldN q'.qcfg 12 52 * 4096 + 32 * (q'.rhead % 2 ^ (fieldN q'.qcfg 8 4 + 4))) words ∈ t.host.out ∧
              words.head? = some (recWord l.record 7))))

/-- The host's apertures (R131, R133, R134), the launch windows (R407 to R409), registers (R16), extents (R70, R71), marks (R398) and
profiling sessions (R406). A write, of one word or of several, changes its bytes and no others, a read carries the bytes at the homes, an
AtomicOp (fetch-and-add, swap, compare-and-swap) answers the old value and leaves the rest of its word; what addresses no memory is dropped
and counted, or unsupported. The bytes of word 7 of a record slot complete a record; QSTAT and QCFG read back. A released extent leaves the device's map once the accesses accepted
before have ended, with its dirty words in memory; a removed one leaves it at once, with its dirty lines poisoned and its unperformed
stores failed, one event for each dirty copy, and a context's failed stores stand in the order of their issue (R72); an added one joins it with its poison cleared. A MARK reaches every block once, and each
latches it. A log's mark keeps its word from replay (R403), and a foreign image waits for its launch's resumption (R424).
The model's choices in it: log 49, log 58, log 59, log 60, log 99, log 104. -/
def Obligations.HostPortEvents : Prop :=
  ∀ (s : State) (vf ap off : Nat) (bytes : List Byte) (base len : Nat),
    (ap ≠ 16 → hostRange s vf off bytes.length = false → ∃ t, exec (.hostApertureWrite vf ap off bytes) s = .next t ∧
      Map.at t.host.errs vf 0 = Map.at s.host.errs vf 0 + 1 ∧ t.mem = s.mem ∧ t.ctxs = s.ctxs) ∧
    (∀ pa, ap ≠ 16 → hostAddr s vf (off / 8 * 8) = some pa → 0 < bytes.length → off % 8 + bytes.length ≤ 8 →
      (keyMat s (paKey pa)).isSome = true →
      let u := hostTouch s pa
      (CleanHomes s → ∀ q, q % 8 = 0 → readMem u q = readMem s q) ∧
      ∃ t, exec (.hostApertureWrite vf ap off bytes) s = .next t ∧
        (∀ j, j < 8 → fieldN (readMem t pa) (8 * j) 8 =
          if off % 8 ≤ j ∧ j < off % 8 + bytes.length then (bytes.getD (j - off % 8) 0).toNat else fieldN (readMem u pa) (8 * j) 8) ∧
        (s.dev.mscSize = 0 → ∀ q, q % 8 = 0 → paAddr q / 64 ≠ paAddr pa / 64 → readMem t q = readMem u q) ∧ t.ctxs = s.ctxs) ∧
    (ap ≠ 16 → hostRange s vf off bytes.length = true → CleanHomes s → (∀ o ∈ s.ops, o.hdrNew = none) →
      (∀ a ∈ touched off bytes.length, ∀ pa, hostAddr s vf a = some pa → (keyMat s (paKey pa)).isSome = true) →
      ∃ t, exec (.hostApertureWrite vf ap off bytes) s = .next t ∧ t.ctxs = s.ctxs ∧
        (∀ a ∈ touched off bytes.length, ∀ pa, hostAddr s vf a = some pa → ∀ j, j < 8 → fieldN (readMem t pa) (8 * j) 8 =
          if off ≤ a + j ∧ a + j < off + bytes.length then (bytes.getD (a + j - off) 0).toNat else fieldN (readMem s pa) (8 * j) 8) ∧
        (∀ q, q % 8 = 0 → (∀ a ∈ touched off bytes.length, ∀ pa, hostAddr s vf a = some pa → paAddr q / 64 ≠ paAddr pa / 64) →
          readMem t q = readMem s q)) ∧
    (∀ q, q < 256 → let Q := s.queue vf q
      exec (.hostApertureWrite vf 16 (4096 * q + 0x38) (leBytes 8 len)) s = exec (.hostLaunchRecord vf q (.ofNat 64 len)) s ∧
      exec (.hostApertureRead vf 16 (4096 * q + 0x40) 8) s =
        .next (s.emit (.read vf (leBytes 8 (BitVec.ofNat 64 (Q.dropped * 2 ^ 48 + Q.rhead * 2 ^ 32 + Q.recs.length)).toNat) false)) ∧
      exec (.hostApertureRead vf 16 (4096 * q + 0x48) 8) s = .next (s.emit (.read vf (leBytes 8 Q.qcfg.toNat) false))) ∧
    (ap < 16 → let pas := (touched off len).filterMap (hostAddr s vf)
     (hostRange s vf off len = false → ∃ t, exec (.hostApertureRead vf ap off len) s = .next t ∧
       t.host.out = .unsupported vf :: s.host.out ∧ t.mem = s.mem) ∧
     (hostRange s vf off len = true → (∀ pa ∈ pas, poisoned s (.mem pa) = false) →
       let u := pas.foldl hostTouch s
       (CleanHomes s → ∀ q, q % 8 = 0 → readMem u q = readMem s q) ∧
       ∃ t, exec (.hostApertureRead vf ap off len) s = .next t ∧
         t.host.out = .read vf (((pas.flatMap fun pa => leBytes 8 (readMem u pa).toNat).drop (off % 8)).take len) false :: s.host.out ∧
         t.mem = u.mem ∧ t.ctxs = s.ctxs)) ∧
    (∀ pa size op p cmp, size = 4 ∨ size = 8 → off % size = 0 → hostAddr s vf (off / 8 * 8) = some pa → s.host.replay = [] →
      s.host.logs = [] → poisoned s (.mem pa) = false → (keyMat s (paKey pa)).isSome = true →
      let u := hostTouch s pa
      let old := fieldN (readMem u pa) (8 * (off % 8)) (8 * size)
      ∃ t, exec (.hostAtomicop vf ap off size op p cmp) s = .next t ∧ t.host.out = .atomicOld vf (.ofNat 64 old) :: s.host.out ∧
        fieldN (readMem t pa) (8 * (off % 8)) (8 * size) = (match op with
          | .fetchAdd => (old + p.toNat % 2 ^ (8 * size)) % 2 ^ (8 * size)
          | .swap => p.toNat % 2 ^ (8 * size)
          | .cas => if old = cmp.toNat % 2 ^ (8 * size) then p.toNat % 2 ^ (8 * size) else old) ∧
        (∀ j, j < 8 → j < off % 8 ∨ off % 8 + size ≤ j → fieldN (readMem t pa) (8 * j) 8 = fieldN (readMem u pa) (8 * j) 8) ∧
        (s.dev.mscSize = 0 → ∀ q, q % 8 = 0 → paAddr q / 64 ≠ paAddr pa / 64 → readMem t q = readMem u q)) ∧
    (∀ v l, (1 ≤ vf ∧ vf ≤ 32 ∧ l < 64 → exec (.registerWrite (.featmask vf l) v) s =
        .next (s.modDev fun d => { d with featmask := Map.put d.featmask (vf * 64 + l) v })) ∧
      exec (.registerWrite .hvpilot v) s = .next (s.modDev fun d => { d with hvpilot := v.toNat % 16 }) ∧
      (vf ≤ 32 → l < 7 → ap < 256 → exec (.registerWrite (.recordWord vf ap l) v) s =
        .next (s.setQueue vf ap { s.queue vf ap with slot := (s.queue vf ap).slot.setIfInBounds l v })) ∧
      (ap < 32 → ∃ t, exec (.registerWrite (.route ap) v) s = .next t ∧ (Map.at t.dev.routes ap 0).toNat = v.toNat % 2 ^ 18) ∧
      (∀ key w r, vf ≤ 32 → ap < 32 → ∃ t, exec (.registerWrite (.replayWord vf ap key w r 0) v) s = .next t ∧
        ∀ x ∈ t.host.replay, x.vf = vf → x.key = key → x.waddr = w → x.runs = [] ∧ x.bad = true) ∧
      (∀ b : Brought, b.memWf = true → v ≠ 0 → ∃ t, exec (.registerWrite (.bring b) v) s = .next t ∧ b ∈ t.host.brought ∧
        t.host.launches = s.host.launches ∧ t.mem = s.mem)) ∧
    (hasExtent s base len = true →
      (extentBusy s base len = true → ∃ t, exec (.extentRelease base len) s = .next t ∧ hasExtent t base len = false ∧
        releasingExtent t base len = true ∧ t.host = s.host ∧ t.ctxs = s.ctxs) ∧
      (extentBusy s base len = false → ∃ t, exec (.extentRelease base len) s = .next t ∧ hasExtent t base len = false ∧
        releasingExtent t base len = false ∧ t.host.out = .extentReleased base len :: s.host.out ∧ t.ctxs = s.ctxs ∧
        (∀ tag, lineInExtent s base len tag = true → Map.find t.mem.slines tag = none) ∧
        (s.dev.mscSize = 0 → s.mem.msc = [] → ∀ g l, Map.find s.mem.slines g = some l → lineInExtent s base len g = true → heldWords s g = 0 →
          (keyMat s (paKey (g * 64))).isSome = true →
          (∀ h, (Map.find s.mem.slines h).isSome = true → paAddr (h * 64) = paAddr (g * 64) → h = g) →
          ∀ i, i < 8 → l.dirty.getLsbD i = true →
            mediaWord t (paKey (g * 64)) (paAddr (g * 64 + 8 * i)) = l.words.getD i 0)) ∧
      (∃ t, exec (.extentForcedRemoval base len) s = .next t ∧ hasExtent t base len = false ∧
        (∀ a ∈ s.accs, (∃ v m, a.op = .write v m) → a.phase ≠ .performed → locInExtent s base len a.loc = true →
          ⟨a.id, a.va, fcExtentGone, 0, 0⟩ ∈ (t.ctx a.ctx).failed) ∧
        ((∀ c, (s.ctx c).failed.Pairwise fun x y => x.id ≤ y.id) → ∀ c, (t.ctx c).failed.Pairwise fun x y => x.id ≤ y.id) ∧
        ((∀ a ∈ s.accs, locInExtent s base len a.loc = true → a.phase = .performed) → t.ctxs = s.ctxs ∧
          (let gone := (s.mem.slines ++ s.mem.msc).filter fun e => lineInExtent s base len e.1
           t.host.out = List.replicate (gone.countP fun e => e.2.dirty != 0) (.extentLost base len gone.length) ++ s.host.out) ∧
          ∀ e ∈ s.mem.slines ++ s.mem.msc, lineInExtent s base len e.1 = true → e.2.dirty ≠ 0 → ∀ i, i < 8 →
            t.mem.poison.contains (paAddr (64 * e.1) + 8 * i) = true))) ∧
    (isCxl base = true → isCxl (base + len - 1) = true → 0 < len →
      (∀ e ∈ s.mem.extents, e.base + e.len ≤ base ∨ base + len ≤ e.base) →
      ∃ t, exec (.extentAdd base len) s = .next t ∧ hasExtent t base len = true ∧
        (∀ a ∈ t.mem.poison, inExtent s base len a = false) ∧ t.mem.ram = s.mem.ram) ∧
    ((s.dev.marking = [] → ∃ t, exec (.hostMarkRequest ap) s = .next t ∧ exec .markInEdge s = .next t ∧
        t = s.modDev fun d => { d with markSeq := d.markSeq + 1, marking := List.range nBlocks }) ∧
      (ap ∈ s.dev.marking → ∃ t x, exec (.markLatch ap) s = .next t ∧ Map.find t.dev.snaps ap = some x ∧ x.seq = s.dev.markSeq ∧
        x.ttb = s.ttb (blockDie ap) ∧ (1024 ≤ ap → x.counters = blockCounters s ap) ∧ ap ∉ t.dev.marking ∧ t.ctxs = s.ctxs ∧
        t.mem = s.mem)) ∧
    (∀ ev : List (Nat × List (Nat × Nat)), ∃ t, exec (.profileSessionOpen vf ev) s = .next t ∧ t.mem = s.mem ∧ t.ctxs = s.ctxs ∧
      (∀ e ∈ ev, (∀ e' ∈ ev, e'.1 % 2048 = e.1 % 2048 → e' = e) → Map.find t.host.events (vf * 2048 + e.1 % 2048) = some e.2) ∧
      (∀ k, k / 2048 ≠ vf → Map.find t.host.events k = Map.find s.host.events k) ∧
      ∀ b j, b < 2048 → j < 8 → Map.at t.host.counters ((vf * 2048 + b) * 8 + j) 0 = 0)

/-! ### Pre-emption, service and power -/

/-- Pre-emption and resumption (R371 to R376, R411), hardware faults (R126, R129, R378, R413), and the host's stops (R401, R404). A
pre-empted launch leaves its cells with every register of its contexts in its image; one that resumes in its turn has them again, with the
banks of its clusters, the ways that it had converted and the next EPOCH, and the WAKEs that had not been taken wait again. A request at a
launch whose contexts have not stopped reaches its cells and is not lost. The end of a time slice counts, and is a request where another
function of the class waits. A failed unit, a die-to-die bridge among them, is reported, ends the pre-empted launches whose image it holds, and
launches start again after its recovery, a failed cluster fenced. A stopped context goes on where it stands; a dump names what it holds.
The model's choices in it: log 40, log 55, log 61, log 62, log 63, log 64, log 103. -/
def Obligations.PreemptEvents : Prop :=
  ∀ (s : State) (id vf : Nat) (l : Launch),
    (Map.find s.host.launches id = some l → l.id = id →
      (canPreempt s l = true →
        (∀ n ∈ imageCells s l, ∀ c ∈ ctxsOfCell (l.placeOf n), (s.ctx c).pendTrap = []) →
        ∃ t img, exec (.preemptRequest id) s = .next t ∧
          Map.find t.host.launches id = some { l with stat := .preempted, stopping := false } ∧
          Map.find t.host.images id = some img ∧
          (∀ n i, n ∈ runningCells s l → i < 33 →
            (Map.find img.ctxs (33 * n + i)).map (·.regs) = some (s.ctx (33 * l.placeOf n + i)).regs ∧
            t.ctx (33 * l.placeOf n + i) =
              { Ctx.reset with stat := if (s.ctx (33 * l.placeOf n + i)).stat = .free then .free else .halted }) ∧
          (∀ n ∈ runningCells s l, (t.cell (l.placeOf n)).launch = none) ∧
          (Map.find s.host.saves l.vf = none → ∀ a, readMem t a = readMem s a)) ∧
      (l.stat = .running → canPreempt s l = false →
        ∃ t, exec (.preemptRequest id) s = .next t ∧ Map.find t.host.launches id = some { l with stopping := true } ∧ t.mem = s.mem ∧
          ∀ c, (t.ctx c).regs = (s.ctx c).regs ∧ (t.ctx c).pc = (s.ctx c).pc ∧ (t.ctx c).waypt = (s.ctx c).waypt) ∧
      (let u := s.modHost fun h => { h with sliceRun := Map.put h.sliceRun vf (Map.at h.sliceRun vf 0 + 1) }
       (sliceRival s vf = false → exec (.timeSliceExpiry vf) s = .next u) ∧
       (sliceRival s vf = true → (s.host.launches.filter fun e => e.2.vf == vf && e.2.stat == .running) = [(id, l)] →
         ∃ t, exec (.timeSliceExpiry vf) s = .next t ∧ exec (.preemptRequest id) u = .next t)) ∧
      (∀ img p place n x, Map.find s.host.images id = some img → s.proc l.proc = some p → l.stat = .preempted →
        let m := { l with place := place, stat := .running }
        (outranked s m = true → exec (.resume id place) s = .next s) ∧
        (outranked s m = false → placeOk s l place = true → img.cells = [(n, x)] →
        ∃ t, exec (.resume id place) s = .next t ∧ Map.find t.host.launches id = some m ∧ Map.find t.host.images id = none ∧
          (t.cell (m.placeOf n)).launch = (if l.ended.contains n then none else some id) ∧
          (∀ w ∈ l.cells, w ≠ n → w ∉ l.ended → id ∈ (t.cell (m.placeOf w)).wakes) ∧
          (∀ g i conv epoch, img.convs = [(g, conv, epoch)] → img.spads = [(g, i)] →
            let k := t.cluster (m.placeOf (16 * g) / 16)
            k.spad = i.bank ∧ k.conv = conv ∧ k.epoch = (epoch + 1) % 2 ^ 32) ∧
          ∀ i, i < 33 → (t.ctx (33 * m.placeOf n + i)).regs = (Map.at img.ctxs (33 * n + i) Ctx.reset).regs)) ∧
      (l.stat = .running → s.host.replayed.contains l.vf = true →
        ∃ t, exec (.hostEndsLaunch id) s = .next t ∧ Map.find t.host.launches id = none ∧
          ∀ o ∈ t.host.out, o ∈ s.host.out ∨ ∃ f ∈ s.faults, o = .faultMsg f.pilot f.words) ∧
      (s.host.replayed.contains l.vf = false → exec (.hostEndsLaunch id) s = .next s) ∧
      (∀ u, l.stat = .preempted → holdsImage s u l = true → (∀ v, v < 33 → usesUnit s v u = false) →
        ∃ t, exec (.hardwareFault u) s = .next t ∧ Map.find t.host.launches id = none ∧ Map.find t.host.images id = none) ∧
      (∃ t, exec (.hostResumeStop id) s = .next t ∧ ∀ n i, n ∈ runningCells s l → i < 33 →
        let c := 33 * l.placeOf n + i
        (t.ctx c).bkHit = false ∧ (t.ctx c).regs = (s.ctx c).regs ∧ (t.ctx c).pc = (s.ctx c).pc ∧
        ((s.ctx c).bkHit = true → (s.ctx c).stat = .halted → (t.ctx c).stat = .eligible) ∧
        (t.ctx c).bkSkip = (s.ctx c).bkSkip)) ∧
    (∀ u : FailUnit,
      (∃ t, exec (.hardwareFault u) s = .next t ∧ t.host.out.head? = some (.hwFault u) ∧ u ∈ t.dev.failed ∧
        ((∀ v, v < 33 → usesUnit s v u = false) →
          (∀ e ∈ s.host.launches, e.2.stat = .preempted → holdsImage s u e.2 = false) → t.host.launches = s.host.launches ∧ t.mem = s.mem ∧ t.ctxs = s.ctxs)) ∧
      (u ∈ s.dev.failed → ∃ t, exec (.hwfaultRecovery u) s = .next t ∧ u ∉ t.dev.failed ∧ t.mem = s.mem ∧ t.ctxs = s.ctxs ∧
        (∀ g, u = .cluster g → (t.cluster g).fenced = true) ∧
        (∀ k d w, u = .link k → Map.find t.dev.routes d = some w → w.getLsbD k = false))) ∧
    exec (.flitCrcFail vf) s = .next s ∧
    (∀ vfs, let u : FailUnit := if vf < 18 then .link vf else .bridge (vf - 18)
      ∃ t, exec (.retransmitLimit vf vfs) s = .next t ∧ t.host.out.head? = some (.hwFault u) ∧ u ∈ t.dev.failed ∧
        (vfs = [] → t.host.out = .hwFault u :: s.host.out ∧ t.mem = s.mem ∧ t.ctxs = s.ctxs)) ∧
    (∃ t, exec (.linkDown vf) s = .next t ∧ (∀ d w, Map.find t.dev.routes d = some w → w.getLsbD vf = false) ∧ t.mem = s.mem ∧
      t.ctxs = s.ctxs) ∧
    ((∃ c ∈ ctxsOfCell vf, stoppedAt s c = true) ∨ allStopped s vf = true →
      ∃ t, exec (.hostDumpRead vf) s = .next t ∧ t.host.out = .dump vf (cellNames s vf) (cellImage s vf) :: s.host.out ∧ t.mem = s.mem ∧
        t.ctxs = s.ctxs)

/-- Loading (R383, R384, R389), page migration (R419), keys and errors (R74, R423), service (R66, R414) and power (R415, R416). A
binary whose checks fail is reported with its code and changes nothing else. A page that moves, to a frame that nothing uses and that the process
then holds, has its leaf written with V = 0; then no TLB of any cell's cluster or of its cores holds the old leaf, the walks in flight are
discarded, its words are copied and its placement records are cleared; then its leaf names the new frame and its faults are answered, once
their messages have arrived (R126). Firmware that does not verify is not taken. No line of a
key slot stays in a slice or in the memory-side cache once the new key stands. A fenced cluster's launches stop. A recalibrated link
leaves its route sets and rejoins them. POWER_ON readies the module, and a critical temperature cuts its power.
The model's choices in it: log 54, log 65, log 66, log 67, log 68, log 69. -/
def Obligations.ServiceEvents : Prop :=
  ∀ (s : State) (n m k : Nat),
    (∀ file ch, s.dev.ready = true → (∀ e ∈ s.host.procs, ¬ (e.2.vf = n ∧ e.2.asid = ch.asid % 2 ^ 16)) →
      (loadCode s n file ≠ 0 → exec (.binaryLoad n file ch) s = .next (s.emit (.loadReport n (loadCode s n file) 0))) ∧
      (∀ t c, loadCode s n file = 0 → placeBinary s n file ch = .ok (t, c) →
        exec (.binaryLoad n file ch) s = .next (t.emit (.loadReport n 0 c))) ∧
      (loadCode s n file = 0 → placeBinary s n file ch = .error .short →
        exec (.binaryLoad n file ch) s = .next (s.emit (.loadReport n 6 0))) ∧
      (loadCode s n file = 0 → placeBinary s n file ch = .error .barred → exec (.binaryLoad n file ch) s = .next s)) ∧
    (∀ ch e, e ∈ s.host.launches → e.2.proc = n → e.2.stat = .preempted → exec (.resourceMove n m ch) s = .next s) ∧
    (∀ p base bases (ch : LoadChoice) pg fr t fr2 key, s.proc n = some p → ch.bases = base :: bases → m < p.manCount →
      (∀ e ∈ s.host.launches, e.2.proc = n → e.2.stat ≠ .preempted) →
      let e := (List.range 8).map fun j => readMem s (p.manPa + 64 * m + 8 * j)
      let len := (readMem s (p.manPa + 64 * m + 8)).toNat
      let r := procWords s p.ptRoot (readMem s (p.manPa + 64 * m)).toNat ((len + 7) / 8)
      let bytes := (r.2.flatMap fun w => leBytes 8 w.toNat).take len
      let blocks := pg.blocks s p.ptRoot ++ tableBlocks s p.ptRoot (fr.take (fr.length - fr2.length))
      len ≠ 0 → rangeUsed s p.ptRoot base (pagesFor len).1 (pagesFor len).2 = false →
      takePages s p.ptRoot (ch.frames ++ p.frames) base len (resLeaf e) = .ok (pg, fr) →
      placePages r.1 p.ptRoot [(pg, bytes)] fr = .ok (t, fr2) → blocksFree (heldBlocks s) blocks = true → keyMat t (paKey (p.manPa + 64 * m)) = some key →
      ∃ t', exec (.resourceMove n m ch) s = .next t' ∧ readMem t' (p.manPa + 64 * m) = .ofNat 64 base ∧
        Map.find t'.host.procs n = some { p with frames := fr2, held := p.held ++ blocks }) ∧
    (∀ va core frame,
      let root := (s.cell n).ptRoot
      let found := s.host.moves.find? fun v => v.root == root && v.va / 65536 == va / 65536
      (found = none → s.host.migrates.contains (ptVf root) = false → exec (.pageMigration n core va frame) s = .next s) ∧
      (∀ pa w, found = none → s.host.migrates.contains (ptVf root) = true →
        let u := touchWalk s (clusterOfCell n) root (.ofNat 64 va)
        ∀ dst, leafWord u root va 3 (ptRootAddr root) = some (pa, w) → (leafPa u root w).isSome = true →
        leafPa u root (setField w 11 29 frame) = some dst → (keyMat u (paKey pa)).isSome = true →
        (frameFree u dst = false → exec (.pageMigration n core va frame) s = .next u) ∧
        (frameFree u dst = true → ∃ t, exec (.pageMigration n core va frame) s = .next t ∧ readMem t pa = setField w 0 1 0 ∧
          t.host.moves = s.host.moves ++ [⟨root, n, core, va, w, pa, frame, .unmapped⟩] ∧
          ∀ e ∈ t.host.procs, e.2.ptRoot = root → (paAddr dst, 65536) ∈ e.2.held)) ∧
      (∀ v, found = some v →
        let cells := procCells s v.root
        let lo := v.va / 65536 * 65536
        let w' := setField v.leaf 11 29 v.frame
        (v.phase = .unmapped → invReady s cells lo (lo + 65536) = false → exec (.pageMigration n core va frame) s = .next s) ∧
        (∀ src dst, v.phase = .unmapped → leafPa s v.root v.leaf = some src → leafPa s v.root w' = some dst →
          invReady s cells lo (lo + 65536) = true → ∃ t, exec (.pageMigration n core va frame) s = .next t ∧
          t.mem = (clearFrame (copyWords (clearFrame (invalidate (overtake s cells) (allCells s) (ptVf v.root) (ptAsid v.root) lo
            (lo + 65536)) dst) src dst 8192) src).mem ∧
          (∀ line, line / 1024 = paAddr src / 65536 → Map.find t.mem.first line = none) ∧
          (∀ x ∈ t.walks, x.cluster ∈ cells.map clusterOfCell → x.discard = true) ∧
          ∀ c ∈ allCells s, ∀ e k, k < 3 → e ∈ (t.cluster (clusterOfCell c)).tlb ∨ e ∈ (t.core (3 * c + k)).itlb ∨
            e ∈ (t.core (3 * c + k)).dtlb → e.meets (ptVf v.root) (ptAsid v.root) lo (lo + 65536) = false) ∧
        (v.phase = .copied → pageEarly s cells (v.va / 65536) = true → exec (.pageMigration n core va frame) s = .next s) ∧
        (v.phase = .copied → pageEarly s cells (v.va / 65536) = false → (keyMat s (paKey v.pa)).isSome = true → ∃ t, exec (.pageMigration n core va frame) s = .next t ∧
          readMem t v.pa = w' ∧ (∀ x ∈ t.host.moves, x ≠ v) ∧
          (∀ c f, cellOf c ∈ cells → (s.ctx c).faultWait = some f → f.va.toNat / 65536 = v.va / 65536 →
            (t.ctx c).faultWait = none) ∧
          ∀ c, cellOf c ∉ cells → t.ctx c = s.ctx c))) ∧
    (∃ t, exec (.keySlotReplace n m) s = .next t ∧ keyMat t n = some m ∧ (∀ j, j ≠ n → keyMat t j = keyMat s j) ∧
      (∀ e ∈ t.mem.slines, paKey (e.1 * 64) = n → heldWords s e.1 ≠ 0) ∧ (∀ e ∈ t.mem.msc, paKey (e.1 * 64) ≠ n)) ∧
    (∀ off, (injectPa s ⟨n, m, off⟩ = none → exec (.errorInject ⟨n, m, off⟩ k) s = .next s) ∧
      ∀ a, injectPa s ⟨n, m, off⟩ = some a →
        (k = 0 → ∃ t, exec (.errorInject ⟨n, m, off⟩ k) s = .next t ∧ t.mem = { s.mem with softErr := s.mem.softErr ++ [a] } ∧ t.ctxs = s.ctxs) ∧
        (k ≠ 0 → ∃ t, exec (.errorInject ⟨n, m, off⟩ k) s = .next t ∧ t.mem.poison.contains a = true ∧ t.mem.ram = s.mem.ram ∧ t.ctxs = s.ctxs)) ∧
    (∀ image sig,
      (firmwareGood s.dev image sig = true → exec (.pilotFirmwareReplace ⟨n, image, sig⟩) s = .next (s.emit (.serviced n))) ∧
      (firmwareGood s.dev image sig = false → exec (.pilotFirmwareReplace ⟨n, image, sig⟩) s = .next s ∧
        ∀ keys, exec (.powerOn n m ⟨keys, image, sig⟩) s = .next s)) ∧
    (launchesOn s n = [] → ∃ t, exec (.clusterFence n) s = .next t ∧ (t.cluster n).fenced = true ∧ (t.cluster n).fencing = false ∧
      t.mem = s.mem ∧ t.ctxs = s.ctxs) ∧
    (∀ l, launchesOn s n = [l] → Map.find s.host.launches l.id = some l → canPreempt s l = false → ∃ t, exec (.clusterFence n) s = .next t ∧ (t.cluster n).fencing = true ∧
      Map.find t.host.launches l.id = some { l with stopping := true } ∧ t.mem = s.mem) ∧
    exec (.pseudoChannelRecal n m) s = .next s ∧
    (Map.find s.dev.recal k = none → ∃ t t', exec (.linkRecal k) s = .next t ∧ exec (.linkRecalEnd k) t = .next t' ∧
      (∀ d w, Map.find t.dev.routes d = some w → w.getLsbD k = false) ∧
      (∀ d w, k < 64 → Map.find s.dev.routes d = some w → (s.dev.routes.map (·.1)).Nodup →
        Map.find t'.dev.routes d = some w) ∧
      t.mem = s.mem ∧ Map.find t'.dev.recal k = none) ∧
    (let b := n * 4096 + m
     ∃ t, exec (.chartBankRetire n m) s = .next t ∧
       Map.find t.dev.retired b = some ((Map.find s.dev.retired b).getD s.fresh) ∧
       (∀ j, j ≠ b → Map.find t.dev.retired j = Map.find s.dev.retired j) ∧ t.mem = s.mem ∧ t.ctxs = s.ctxs) ∧
    (∀ keys image sig, firmwareGood s.dev image sig = true →
      (s.dev.ready = false → s.dev.off = false → ∃ t, exec (.powerOn n m ⟨keys, image, sig⟩) s = .next t ∧ t.dev.ready = true ∧
        t.dev.devno = n ∧ t.dev.mscSize = m ∧ t.host.out = .ready :: s.host.out ∧ t.mem.ram = s.mem.ram ∧ t.mem.softErr = [] ∧
        (∀ a ∈ t.mem.poison, isCxl (a % 2 ^ 45) = true) ∧ t.ctxs = s.ctxs ∧
        ((keys.map (·.1)).Nodup → ∀ e ∈ keys, e.1 < 64 → keyMat t e.1 = some e.2)) ∧
      (s.dev.off = true → ∃ t, exec (.powerOn n m ⟨keys, image, sig⟩) s = .next t ∧ t.dev.ready = true ∧ t.dev.off = false ∧
        t.mem.ram = State.reset.mem.ram ∧ t.ctxs = State.reset.ctxs ∧ t.dev.ttb0 = s.time ∧ t.host.out = .ready :: s.host.out)) ∧
    (∀ b, exec (.powerLimit b) s = .next (s.modDev fun d => { d with power := b })) ∧
    (∃ t, exec (.dieOvertemp n) s = .next t ∧ n ∈ t.dev.hot ∧ t.host.out = .hotDie n :: s.host.out ∧ t.mem = s.mem ∧
      t.ctxs = s.ctxs) ∧
    exec (.dieCriticalTemp n) s = .next (s.modDev fun d => { d with off := true, ready := false })
end

