-- ==== Sys2Proof/Laws/Memory.lean ====
section
/-! SUPPORT. The laws of memory: reading after writing, frames, and that every memory operation keeps the canonical form. -/

namespace Sys2Proof.Laws

open Sys2Proof.Machine

/-! ### Reading one byte -/

@[simp] theorem byte_nil (a : Nat) : Memory.byte [] a = Memory.unlisted := rfl

theorem byte_cons (j : Nat) (v : Byte) (r : Memory) (a : Nat) :
    Memory.byte ((j, v) :: r) a = if j = a then v else Memory.byte r a := rfl

@[simp] theorem byte_erase_same (m : Memory) (a : Nat) : Memory.byte (Memory.erase m a) a = Memory.unlisted := by
  induction m with
  | nil => rfl
  | cons e r ih =>
    obtain ⟨j, v⟩ := e
    by_cases h : j = a <;> simp [Memory.erase, h, ih, byte_cons]

@[simp] theorem byte_erase_ne (m : Memory) (a b : Nat) (h : b ≠ a) :
    Memory.byte (Memory.erase m a) b = Memory.byte m b := by
  induction m with
  | nil => rfl
  | cons e r ih =>
    obtain ⟨j, v⟩ := e
    by_cases hj : j = a
    · subst hj
      simp [Memory.erase, ih, byte_cons, Ne.symm h]
    · simp [Memory.erase, hj, ih, byte_cons]

/-- An inserted address reads as the byte, when it was not listed. -/
theorem byte_insert_same (m : Memory) (a : Nat) (b : Byte) (h : ∀ e ∈ m, e.1 ≠ a) :
    Memory.byte (Memory.insert m a b) a = b := by
  induction m with
  | nil => simp [Memory.insert, byte_cons]
  | cons e r ih =>
    obtain ⟨j, v⟩ := e
    simp only [Memory.insert]
    split
    · simp [byte_cons]
    · have hj : j ≠ a := h (j, v) (by simp)
      have hr : ∀ e ∈ r, e.1 ≠ a := fun e he => h e (by simp [he])
      simp [byte_cons, hj, ih hr]

@[simp] theorem byte_insert_ne (m : Memory) (a c : Nat) (b : Byte) (h : c ≠ a) :
    Memory.byte (Memory.insert m a b) c = Memory.byte m c := by
  induction m with
  | nil => simp [Memory.insert, byte_cons, Ne.symm h]
  | cons e r ih =>
    obtain ⟨j, v⟩ := e
    simp only [Memory.insert]
    split
    · simp [byte_cons, Ne.symm h]
    · simp [byte_cons, ih]

theorem erase_ne (m : Memory) (a : Nat) : ∀ e ∈ Memory.erase m a, e.1 ≠ a := by
  induction m with
  | nil => simp [Memory.erase]
  | cons e r ih =>
    obtain ⟨j, v⟩ := e
    by_cases hj : j = a
    · simpa [Memory.erase, hj] using ih
    · intro e he
      simp only [Memory.erase, hj, if_false, List.mem_cons] at he
      rcases he with rfl | he
      · exact hj
      · exact ih e he

/-- A byte just written is read back. -/
@[simp] theorem byte_setByte_same (m : Memory) (a : Nat) (b : Byte) : Memory.byte (Memory.setByte m a b) a = b := by
  unfold Memory.setByte
  split
  · rename_i h; simp [h]
  · exact byte_insert_same _ _ _ (erase_ne m a)

/-- A write leaves every other byte alone. -/
@[simp] theorem byte_setByte_ne (m : Memory) (a c : Nat) (b : Byte) (h : c ≠ a) :
    Memory.byte (Memory.setByte m a b) c = Memory.byte m c := by
  unfold Memory.setByte
  split <;> simp [h]

/-- Bytes written from an address leave the bytes before and behind them alone. -/
theorem byte_setBytes_out (l : List Byte) (m : Memory) (a c : Nat) (h : c < a ∨ a + l.length ≤ c) :
    Memory.byte (Memory.setBytes m a l) c = Memory.byte m c := by
  induction l generalizing m a with
  | nil => rfl
  | cons b r ih =>
    simp only [List.length_cons] at h
    rw [Memory.setBytes, ih _ _ (by omega), byte_setByte_ne _ _ _ _ (by omega)]

/-- Each byte written is read back. -/
theorem byte_setBytes_in (l : List Byte) (m : Memory) (a i : Nat) (h : i < l.length) :
    Memory.byte (Memory.setBytes m a l) (a + i) = l[i] := by
  induction l generalizing m a i with
  | nil => simp at h
  | cons b r ih =>
    rw [Memory.setBytes]
    cases i with
    | zero => rw [byte_setBytes_out _ _ _ _ (by omega)]; simp
    | succ i =>
      have := ih (Memory.setByte m a b) (a + 1) i (by simpa using h)
      rw [show a + (i + 1) = a + 1 + i by omega, this]
      simp

@[simp] theorem leBytes_length (n x : Nat) : (leBytes n x).length = n := by
  induction n generalizing x with
  | zero => rfl
  | succ n ih => simp [leBytes, ih]

/-- Little-endian bytes and the number they hold. -/
theorem leNat_leBytes (n x : Nat) : leNat (leBytes n x) = x % 256 ^ n := by
  induction n generalizing x with
  | zero => simp [leBytes, leNat, Nat.mod_one]
  | succ n ih =>
    have h : (BitVec.ofNat 8 x).toNat = x % 256 := by simp
    rw [leBytes, leNat, ih, h, Nat.pow_succ', Nat.mod_mul]

/-- A word leaves the bytes outside it alone. -/
theorem byte_setWord_out (m : Memory) (a c : Nat) (v : Word) (h : c < a ∨ a + 8 ≤ c) :
    Memory.byte (Memory.setWord m a v) c = Memory.byte m c :=
  byte_setBytes_out _ _ _ _ (by simpa using h)

/-- The eight bytes of a word just written. -/
theorem bytes_setWord (m : Memory) (a : Nat) (v : Word) :
    Memory.bytes (Memory.setWord m a v) a 8 = leBytes 8 v.toNat := by
  apply List.ext_getElem
  · simp [Memory.bytes]
  · intro i h1 h2
    simp only [Memory.bytes, List.getElem_map, List.getElem_range]
    exact byte_setBytes_in _ _ _ _ h2

/-- A word just written is read back. -/
@[simp] theorem word_setWord_same (m : Memory) (a : Nat) (v : Word) : Memory.word (Memory.setWord m a v) a = v := by
  have h : leNat (leBytes 8 v.toNat) = v.toNat := by
    rw [leNat_leBytes]
    exact Nat.mod_eq_of_lt (by have := v.isLt; omega)
  simp [Memory.word, bytes_setWord, h]

/-- A word leaves every other aligned word alone. -/
theorem word_setWord_ne (m : Memory) (a c : Nat) (v : Word) (h : c + 8 ≤ a ∨ a + 8 ≤ c) :
    Memory.word (Memory.setWord m a v) c = Memory.word m c := by
  have hb : Memory.bytes (Memory.setWord m a v) c 8 = Memory.bytes m c 8 := by
    apply List.ext_getElem
    · simp [Memory.bytes]
    · intro i h1 h2
      simp only [Memory.bytes, List.length_map, List.length_range] at h1
      simp only [Memory.bytes, List.getElem_map, List.getElem_range]
      exact byte_setWord_out _ _ _ _ (by omega)
  simp [Memory.word, hb]

/-! ### The canonical form -/

theorem wfFrom_mono (m : Memory) (lo lo' : Nat) (h : lo' ≤ lo) (hw : Memory.wfFrom lo m = true) :
    Memory.wfFrom lo' m = true := by
  cases m with
  | nil => rfl
  | cons e r =>
    obtain ⟨j, v⟩ := e
    simp only [Memory.wfFrom, Bool.and_eq_true, decide_eq_true_eq] at hw ⊢
    exact ⟨⟨by omega, hw.1.2⟩, hw.2⟩

theorem wfFrom_erase (m : Memory) (lo a : Nat) (hw : Memory.wfFrom lo m = true) :
    Memory.wfFrom lo (Memory.erase m a) = true := by
  induction m generalizing lo with
  | nil => rfl
  | cons e r ih =>
    obtain ⟨j, v⟩ := e
    simp only [Memory.wfFrom, Bool.and_eq_true, decide_eq_true_eq] at hw
    by_cases h : j = a
    · simp only [Memory.erase, h, if_true]
      exact wfFrom_mono _ (j + 1) _ (by omega) (h ▸ ih (j + 1) hw.2)
    · simp only [Memory.erase, h, if_false, Memory.wfFrom, Bool.and_eq_true, decide_eq_true_eq]
      exact ⟨hw.1, ih (j + 1) hw.2⟩

theorem wfFrom_insert (m : Memory) (lo a : Nat) (b : Byte) (ha : lo ≤ a) (hb : b ≠ Memory.unlisted)
    (hn : ∀ e ∈ m, e.1 ≠ a) (hw : Memory.wfFrom lo m = true) : Memory.wfFrom lo (Memory.insert m a b) = true := by
  induction m generalizing lo with
  | nil => simp [Memory.insert, Memory.wfFrom, ha, hb]
  | cons e r ih =>
    obtain ⟨j, v⟩ := e
    simp only [Memory.wfFrom, Bool.and_eq_true, decide_eq_true_eq] at hw
    have hj : j ≠ a := hn (j, v) (by simp)
    have hr : ∀ e ∈ r, e.1 ≠ a := fun e he => hn e (by simp [he])
    simp only [Memory.insert]
    split
    · simp only [Memory.wfFrom, Bool.and_eq_true, decide_eq_true_eq]
      exact ⟨⟨ha, hb⟩, ⟨by omega, hw.1.2⟩, hw.2⟩
    · simp only [Memory.wfFrom, Bool.and_eq_true, decide_eq_true_eq]
      exact ⟨hw.1, ih (j + 1) (by omega) hr hw.2⟩

/-- A byte write keeps the canonical form. -/
theorem wf_setByte (m : Memory) (a : Nat) (b : Byte) (hw : Memory.wf m = true) :
    Memory.wf (Memory.setByte m a b) = true := by
  unfold Memory.setByte
  split
  · exact wfFrom_erase _ _ _ hw
  · rename_i h
    exact wfFrom_insert _ _ _ _ (Nat.zero_le _) h (erase_ne m a) (wfFrom_erase _ _ _ hw)

/-- Writing bytes keeps the canonical form. -/
theorem wf_setBytes (l : List Byte) (m : Memory) (a : Nat) (hw : Memory.wf m = true) :
    Memory.wf (Memory.setBytes m a l) = true := by
  induction l generalizing m a with
  | nil => exact hw
  | cons b r ih => exact ih _ _ (wf_setByte _ _ _ hw)

/-- Writing a word keeps the canonical form. -/
theorem wf_setWord (m : Memory) (a : Nat) (v : Word) (hw : Memory.wf m = true) :
    Memory.wf (Memory.setWord m a v) = true := wf_setBytes _ _ _ hw

theorem wfFrom_filter (m : Memory) (p : Nat × Byte → Bool) (lo : Nat) (hw : Memory.wfFrom lo m = true) :
    Memory.wfFrom lo (m.filter p) = true := by
  induction m generalizing lo with
  | nil => rfl
  | cons e r ih =>
    obtain ⟨j, v⟩ := e
    simp only [Memory.wfFrom, Bool.and_eq_true, decide_eq_true_eq] at hw
    simp only [List.filter_cons]
    split
    · simp only [Memory.wfFrom, Bool.and_eq_true, decide_eq_true_eq]
      exact ⟨hw.1, ih _ hw.2⟩
    · exact wfFrom_mono _ (j + 1) _ (by omega) (ih _ hw.2)

/-- Dropping bytes keeps the canonical form. -/
theorem wf_filter (m : Memory) (p : Nat × Byte → Bool) (hw : Memory.wf m = true) :
    Memory.wf (m.filter p) = true := wfFrom_filter _ _ _ hw

end Sys2Proof.Laws
end

