-- ==== Sys2Proof/Laws/State.lean ====
section
/-! SUPPORT. What each update of the state does to each field, and what a lookup reads after an update. -/

namespace Sys2Proof.Laws

open Sys2Proof.Machine

variable (s : State)

/-! ### `setCtx` -/

@[simp] theorem setCtx_cur (c : Nat) (x : Ctx) : (s.setCtx c x).cur = s.cur := rfl
@[simp] theorem setCtx_turns (c : Nat) (x : Ctx) : (s.setCtx c x).turns = s.turns := rfl
@[simp] theorem setCtx_agenda (c : Nat) (x : Ctx) : (s.setCtx c x).agenda = s.agenda := rfl
@[simp] theorem setCtx_time (c : Nat) (x : Ctx) : (s.setCtx c x).time = s.time := rfl
@[simp] theorem setCtx_fresh (c : Nat) (x : Ctx) : (s.setCtx c x).fresh = s.fresh := rfl
@[simp] theorem setCtx_ctxs (c : Nat) (x : Ctx) : (s.setCtx c x).ctxs = Map.put s.ctxs c x := rfl
@[simp] theorem setCtx_cores (c : Nat) (x : Ctx) : (s.setCtx c x).cores = s.cores := rfl
@[simp] theorem setCtx_cells (c : Nat) (x : Ctx) : (s.setCtx c x).cells = s.cells := rfl
@[simp] theorem setCtx_clusters (c : Nat) (x : Ctx) : (s.setCtx c x).clusters = s.clusters := rfl
@[simp] theorem setCtx_mem (c : Nat) (x : Ctx) : (s.setCtx c x).mem = s.mem := rfl
@[simp] theorem setCtx_accs (c : Nat) (x : Ctx) : (s.setCtx c x).accs = s.accs := rfl
@[simp] theorem setCtx_posts (c : Nat) (x : Ctx) : (s.setCtx c x).posts = s.posts := rfl
@[simp] theorem setCtx_ops (c : Nat) (x : Ctx) : (s.setCtx c x).ops = s.ops := rfl
@[simp] theorem setCtx_walks (c : Nat) (x : Ctx) : (s.setCtx c x).walks = s.walks := rfl
@[simp] theorem setCtx_mboxes (c : Nat) (x : Ctx) : (s.setCtx c x).mboxes = s.mboxes := rfl
@[simp] theorem setCtx_reqs (c : Nat) (x : Ctx) : (s.setCtx c x).reqs = s.reqs := rfl
@[simp] theorem setCtx_depMsgs (c : Nat) (x : Ctx) : (s.setCtx c x).depMsgs = s.depMsgs := rfl
@[simp] theorem setCtx_faults (c : Nat) (x : Ctx) : (s.setCtx c x).faults = s.faults := rfl
@[simp] theorem setCtx_dev (c : Nat) (x : Ctx) : (s.setCtx c x).dev = s.dev := rfl
@[simp] theorem setCtx_host (c : Nat) (x : Ctx) : (s.setCtx c x).host = s.host := rfl

/-! ### `modCtx` -/

@[simp] theorem modCtx_cur (c : Nat) (f : Ctx → Ctx) : (s.modCtx c f).cur = s.cur := rfl
@[simp] theorem modCtx_turns (c : Nat) (f : Ctx → Ctx) : (s.modCtx c f).turns = s.turns := rfl
@[simp] theorem modCtx_agenda (c : Nat) (f : Ctx → Ctx) : (s.modCtx c f).agenda = s.agenda := rfl
@[simp] theorem modCtx_time (c : Nat) (f : Ctx → Ctx) : (s.modCtx c f).time = s.time := rfl
@[simp] theorem modCtx_fresh (c : Nat) (f : Ctx → Ctx) : (s.modCtx c f).fresh = s.fresh := rfl
@[simp] theorem modCtx_ctxs (c : Nat) (f : Ctx → Ctx) : (s.modCtx c f).ctxs = Map.put s.ctxs c (f (s.ctx c)) := rfl
@[simp] theorem modCtx_cores (c : Nat) (f : Ctx → Ctx) : (s.modCtx c f).cores = s.cores := rfl
@[simp] theorem modCtx_cells (c : Nat) (f : Ctx → Ctx) : (s.modCtx c f).cells = s.cells := rfl
@[simp] theorem modCtx_clusters (c : Nat) (f : Ctx → Ctx) : (s.modCtx c f).clusters = s.clusters := rfl
@[simp] theorem modCtx_mem (c : Nat) (f : Ctx → Ctx) : (s.modCtx c f).mem = s.mem := rfl
@[simp] theorem modCtx_accs (c : Nat) (f : Ctx → Ctx) : (s.modCtx c f).accs = s.accs := rfl
@[simp] theorem modCtx_posts (c : Nat) (f : Ctx → Ctx) : (s.modCtx c f).posts = s.posts := rfl
@[simp] theorem modCtx_ops (c : Nat) (f : Ctx → Ctx) : (s.modCtx c f).ops = s.ops := rfl
@[simp] theorem modCtx_walks (c : Nat) (f : Ctx → Ctx) : (s.modCtx c f).walks = s.walks := rfl
@[simp] theorem modCtx_mboxes (c : Nat) (f : Ctx → Ctx) : (s.modCtx c f).mboxes = s.mboxes := rfl
@[simp] theorem modCtx_reqs (c : Nat) (f : Ctx → Ctx) : (s.modCtx c f).reqs = s.reqs := rfl
@[simp] theorem modCtx_depMsgs (c : Nat) (f : Ctx → Ctx) : (s.modCtx c f).depMsgs = s.depMsgs := rfl
@[simp] theorem modCtx_faults (c : Nat) (f : Ctx → Ctx) : (s.modCtx c f).faults = s.faults := rfl
@[simp] theorem modCtx_dev (c : Nat) (f : Ctx → Ctx) : (s.modCtx c f).dev = s.dev := rfl
@[simp] theorem modCtx_host (c : Nat) (f : Ctx → Ctx) : (s.modCtx c f).host = s.host := rfl

/-! ### `setCore` -/

@[simp] theorem setCore_cur (k : Nat) (x : CoreSt) : (s.setCore k x).cur = s.cur := rfl
@[simp] theorem setCore_turns (k : Nat) (x : CoreSt) : (s.setCore k x).turns = s.turns := rfl
@[simp] theorem setCore_agenda (k : Nat) (x : CoreSt) : (s.setCore k x).agenda = s.agenda := rfl
@[simp] theorem setCore_time (k : Nat) (x : CoreSt) : (s.setCore k x).time = s.time := rfl
@[simp] theorem setCore_fresh (k : Nat) (x : CoreSt) : (s.setCore k x).fresh = s.fresh := rfl
@[simp] theorem setCore_ctxs (k : Nat) (x : CoreSt) : (s.setCore k x).ctxs = s.ctxs := rfl
@[simp] theorem setCore_cores (k : Nat) (x : CoreSt) : (s.setCore k x).cores = Map.put s.cores k x := rfl
@[simp] theorem setCore_cells (k : Nat) (x : CoreSt) : (s.setCore k x).cells = s.cells := rfl
@[simp] theorem setCore_clusters (k : Nat) (x : CoreSt) : (s.setCore k x).clusters = s.clusters := rfl
@[simp] theorem setCore_mem (k : Nat) (x : CoreSt) : (s.setCore k x).mem = s.mem := rfl
@[simp] theorem setCore_accs (k : Nat) (x : CoreSt) : (s.setCore k x).accs = s.accs := rfl
@[simp] theorem setCore_posts (k : Nat) (x : CoreSt) : (s.setCore k x).posts = s.posts := rfl
@[simp] theorem setCore_ops (k : Nat) (x : CoreSt) : (s.setCore k x).ops = s.ops := rfl
@[simp] theorem setCore_walks (k : Nat) (x : CoreSt) : (s.setCore k x).walks = s.walks := rfl
@[simp] theorem setCore_mboxes (k : Nat) (x : CoreSt) : (s.setCore k x).mboxes = s.mboxes := rfl
@[simp] theorem setCore_reqs (k : Nat) (x : CoreSt) : (s.setCore k x).reqs = s.reqs := rfl
@[simp] theorem setCore_depMsgs (k : Nat) (x : CoreSt) : (s.setCore k x).depMsgs = s.depMsgs := rfl
@[simp] theorem setCore_faults (k : Nat) (x : CoreSt) : (s.setCore k x).faults = s.faults := rfl
@[simp] theorem setCore_dev (k : Nat) (x : CoreSt) : (s.setCore k x).dev = s.dev := rfl
@[simp] theorem setCore_host (k : Nat) (x : CoreSt) : (s.setCore k x).host = s.host := rfl

/-! ### `modCore` -/

@[simp] theorem modCore_cur (k : Nat) (f : CoreSt → CoreSt) : (s.modCore k f).cur = s.cur := rfl
@[simp] theorem modCore_turns (k : Nat) (f : CoreSt → CoreSt) : (s.modCore k f).turns = s.turns := rfl
@[simp] theorem modCore_agenda (k : Nat) (f : CoreSt → CoreSt) : (s.modCore k f).agenda = s.agenda := rfl
@[simp] theorem modCore_time (k : Nat) (f : CoreSt → CoreSt) : (s.modCore k f).time = s.time := rfl
@[simp] theorem modCore_fresh (k : Nat) (f : CoreSt → CoreSt) : (s.modCore k f).fresh = s.fresh := rfl
@[simp] theorem modCore_ctxs (k : Nat) (f : CoreSt → CoreSt) : (s.modCore k f).ctxs = s.ctxs := rfl
@[simp] theorem modCore_cores (k : Nat) (f : CoreSt → CoreSt) : (s.modCore k f).cores = Map.put s.cores k (f (s.core k)) := rfl
@[simp] theorem modCore_cells (k : Nat) (f : CoreSt → CoreSt) : (s.modCore k f).cells = s.cells := rfl
@[simp] theorem modCore_clusters (k : Nat) (f : CoreSt → CoreSt) : (s.modCore k f).clusters = s.clusters := rfl
@[simp] theorem modCore_mem (k : Nat) (f : CoreSt → CoreSt) : (s.modCore k f).mem = s.mem := rfl
@[simp] theorem modCore_accs (k : Nat) (f : CoreSt → CoreSt) : (s.modCore k f).accs = s.accs := rfl
@[simp] theorem modCore_posts (k : Nat) (f : CoreSt → CoreSt) : (s.modCore k f).posts = s.posts := rfl
@[simp] theorem modCore_ops (k : Nat) (f : CoreSt → CoreSt) : (s.modCore k f).ops = s.ops := rfl
@[simp] theorem modCore_walks (k : Nat) (f : CoreSt → CoreSt) : (s.modCore k f).walks = s.walks := rfl
@[simp] theorem modCore_mboxes (k : Nat) (f : CoreSt → CoreSt) : (s.modCore k f).mboxes = s.mboxes := rfl
@[simp] theorem modCore_reqs (k : Nat) (f : CoreSt → CoreSt) : (s.modCore k f).reqs = s.reqs := rfl
@[simp] theorem modCore_depMsgs (k : Nat) (f : CoreSt → CoreSt) : (s.modCore k f).depMsgs = s.depMsgs := rfl
@[simp] theorem modCore_faults (k : Nat) (f : CoreSt → CoreSt) : (s.modCore k f).faults = s.faults := rfl
@[simp] theorem modCore_dev (k : Nat) (f : CoreSt → CoreSt) : (s.modCore k f).dev = s.dev := rfl
@[simp] theorem modCore_host (k : Nat) (f : CoreSt → CoreSt) : (s.modCore k f).host = s.host := rfl

/-! ### `setCell` -/

@[simp] theorem setCell_cur (n : Nat) (x : CellSt) : (s.setCell n x).cur = s.cur := rfl
@[simp] theorem setCell_turns (n : Nat) (x : CellSt) : (s.setCell n x).turns = s.turns := rfl
@[simp] theorem setCell_agenda (n : Nat) (x : CellSt) : (s.setCell n x).agenda = s.agenda := rfl
@[simp] theorem setCell_time (n : Nat) (x : CellSt) : (s.setCell n x).time = s.time := rfl
@[simp] theorem setCell_fresh (n : Nat) (x : CellSt) : (s.setCell n x).fresh = s.fresh := rfl
@[simp] theorem setCell_ctxs (n : Nat) (x : CellSt) : (s.setCell n x).ctxs = s.ctxs := rfl
@[simp] theorem setCell_cores (n : Nat) (x : CellSt) : (s.setCell n x).cores = s.cores := rfl
@[simp] theorem setCell_cells (n : Nat) (x : CellSt) : (s.setCell n x).cells = Map.put s.cells n x := rfl
@[simp] theorem setCell_clusters (n : Nat) (x : CellSt) : (s.setCell n x).clusters = s.clusters := rfl
@[simp] theorem setCell_mem (n : Nat) (x : CellSt) : (s.setCell n x).mem = s.mem := rfl
@[simp] theorem setCell_accs (n : Nat) (x : CellSt) : (s.setCell n x).accs = s.accs := rfl
@[simp] theorem setCell_posts (n : Nat) (x : CellSt) : (s.setCell n x).posts = s.posts := rfl
@[simp] theorem setCell_ops (n : Nat) (x : CellSt) : (s.setCell n x).ops = s.ops := rfl
@[simp] theorem setCell_walks (n : Nat) (x : CellSt) : (s.setCell n x).walks = s.walks := rfl
@[simp] theorem setCell_mboxes (n : Nat) (x : CellSt) : (s.setCell n x).mboxes = s.mboxes := rfl
@[simp] theorem setCell_reqs (n : Nat) (x : CellSt) : (s.setCell n x).reqs = s.reqs := rfl
@[simp] theorem setCell_depMsgs (n : Nat) (x : CellSt) : (s.setCell n x).depMsgs = s.depMsgs := rfl
@[simp] theorem setCell_faults (n : Nat) (x : CellSt) : (s.setCell n x).faults = s.faults := rfl
@[simp] theorem setCell_dev (n : Nat) (x : CellSt) : (s.setCell n x).dev = s.dev := rfl
@[simp] theorem setCell_host (n : Nat) (x : CellSt) : (s.setCell n x).host = s.host := rfl

/-! ### `modCell` -/

@[simp] theorem modCell_cur (n : Nat) (f : CellSt → CellSt) : (s.modCell n f).cur = s.cur := rfl
@[simp] theorem modCell_turns (n : Nat) (f : CellSt → CellSt) : (s.modCell n f).turns = s.turns := rfl
@[simp] theorem modCell_agenda (n : Nat) (f : CellSt → CellSt) : (s.modCell n f).agenda = s.agenda := rfl
@[simp] theorem modCell_time (n : Nat) (f : CellSt → CellSt) : (s.modCell n f).time = s.time := rfl
@[simp] theorem modCell_fresh (n : Nat) (f : CellSt → CellSt) : (s.modCell n f).fresh = s.fresh := rfl
@[simp] theorem modCell_ctxs (n : Nat) (f : CellSt → CellSt) : (s.modCell n f).ctxs = s.ctxs := rfl
@[simp] theorem modCell_cores (n : Nat) (f : CellSt → CellSt) : (s.modCell n f).cores = s.cores := rfl
@[simp] theorem modCell_cells (n : Nat) (f : CellSt → CellSt) : (s.modCell n f).cells = Map.put s.cells n (f (s.cell n)) := rfl
@[simp] theorem modCell_clusters (n : Nat) (f : CellSt → CellSt) : (s.modCell n f).clusters = s.clusters := rfl
@[simp] theorem modCell_mem (n : Nat) (f : CellSt → CellSt) : (s.modCell n f).mem = s.mem := rfl
@[simp] theorem modCell_accs (n : Nat) (f : CellSt → CellSt) : (s.modCell n f).accs = s.accs := rfl
@[simp] theorem modCell_posts (n : Nat) (f : CellSt → CellSt) : (s.modCell n f).posts = s.posts := rfl
@[simp] theorem modCell_ops (n : Nat) (f : CellSt → CellSt) : (s.modCell n f).ops = s.ops := rfl
@[simp] theorem modCell_walks (n : Nat) (f : CellSt → CellSt) : (s.modCell n f).walks = s.walks := rfl
@[simp] theorem modCell_mboxes (n : Nat) (f : CellSt → CellSt) : (s.modCell n f).mboxes = s.mboxes := rfl
@[simp] theorem modCell_reqs (n : Nat) (f : CellSt → CellSt) : (s.modCell n f).reqs = s.reqs := rfl
@[simp] theorem modCell_depMsgs (n : Nat) (f : CellSt → CellSt) : (s.modCell n f).depMsgs = s.depMsgs := rfl
@[simp] theorem modCell_faults (n : Nat) (f : CellSt → CellSt) : (s.modCell n f).faults = s.faults := rfl
@[simp] theorem modCell_dev (n : Nat) (f : CellSt → CellSt) : (s.modCell n f).dev = s.dev := rfl
@[simp] theorem modCell_host (n : Nat) (f : CellSt → CellSt) : (s.modCell n f).host = s.host := rfl

/-! ### `setCluster` -/

@[simp] theorem setCluster_cur (g : Nat) (x : ClusterSt) : (s.setCluster g x).cur = s.cur := rfl
@[simp] theorem setCluster_turns (g : Nat) (x : ClusterSt) : (s.setCluster g x).turns = s.turns := rfl
@[simp] theorem setCluster_agenda (g : Nat) (x : ClusterSt) : (s.setCluster g x).agenda = s.agenda := rfl
@[simp] theorem setCluster_time (g : Nat) (x : ClusterSt) : (s.setCluster g x).time = s.time := rfl
@[simp] theorem setCluster_fresh (g : Nat) (x : ClusterSt) : (s.setCluster g x).fresh = s.fresh := rfl
@[simp] theorem setCluster_ctxs (g : Nat) (x : ClusterSt) : (s.setCluster g x).ctxs = s.ctxs := rfl
@[simp] theorem setCluster_cores (g : Nat) (x : ClusterSt) : (s.setCluster g x).cores = s.cores := rfl
@[simp] theorem setCluster_cells (g : Nat) (x : ClusterSt) : (s.setCluster g x).cells = s.cells := rfl
@[simp] theorem setCluster_clusters (g : Nat) (x : ClusterSt) : (s.setCluster g x).clusters = Map.put s.clusters g x := rfl
@[simp] theorem setCluster_mem (g : Nat) (x : ClusterSt) : (s.setCluster g x).mem = s.mem := rfl
@[simp] theorem setCluster_accs (g : Nat) (x : ClusterSt) : (s.setCluster g x).accs = s.accs := rfl
@[simp] theorem setCluster_posts (g : Nat) (x : ClusterSt) : (s.setCluster g x).posts = s.posts := rfl
@[simp] theorem setCluster_ops (g : Nat) (x : ClusterSt) : (s.setCluster g x).ops = s.ops := rfl
@[simp] theorem setCluster_walks (g : Nat) (x : ClusterSt) : (s.setCluster g x).walks = s.walks := rfl
@[simp] theorem setCluster_mboxes (g : Nat) (x : ClusterSt) : (s.setCluster g x).mboxes = s.mboxes := rfl
@[simp] theorem setCluster_reqs (g : Nat) (x : ClusterSt) : (s.setCluster g x).reqs = s.reqs := rfl
@[simp] theorem setCluster_depMsgs (g : Nat) (x : ClusterSt) : (s.setCluster g x).depMsgs = s.depMsgs := rfl
@[simp] theorem setCluster_faults (g : Nat) (x : ClusterSt) : (s.setCluster g x).faults = s.faults := rfl
@[simp] theorem setCluster_dev (g : Nat) (x : ClusterSt) : (s.setCluster g x).dev = s.dev := rfl
@[simp] theorem setCluster_host (g : Nat) (x : ClusterSt) : (s.setCluster g x).host = s.host := rfl

/-! ### `modCluster` -/

@[simp] theorem modCluster_cur (g : Nat) (f : ClusterSt → ClusterSt) : (s.modCluster g f).cur = s.cur := rfl
@[simp] theorem modCluster_turns (g : Nat) (f : ClusterSt → ClusterSt) : (s.modCluster g f).turns = s.turns := rfl
@[simp] theorem modCluster_agenda (g : Nat) (f : ClusterSt → ClusterSt) : (s.modCluster g f).agenda = s.agenda := rfl
@[simp] theorem modCluster_time (g : Nat) (f : ClusterSt → ClusterSt) : (s.modCluster g f).time = s.time := rfl
@[simp] theorem modCluster_fresh (g : Nat) (f : ClusterSt → ClusterSt) : (s.modCluster g f).fresh = s.fresh := rfl
@[simp] theorem modCluster_ctxs (g : Nat) (f : ClusterSt → ClusterSt) : (s.modCluster g f).ctxs = s.ctxs := rfl
@[simp] theorem modCluster_cores (g : Nat) (f : ClusterSt → ClusterSt) : (s.modCluster g f).cores = s.cores := rfl
@[simp] theorem modCluster_cells (g : Nat) (f : ClusterSt → ClusterSt) : (s.modCluster g f).cells = s.cells := rfl
@[simp] theorem modCluster_clusters (g : Nat) (f : ClusterSt → ClusterSt) : (s.modCluster g f).clusters = Map.put s.clusters g (f (s.cluster g)) := rfl
@[simp] theorem modCluster_mem (g : Nat) (f : ClusterSt → ClusterSt) : (s.modCluster g f).mem = s.mem := rfl
@[simp] theorem modCluster_accs (g : Nat) (f : ClusterSt → ClusterSt) : (s.modCluster g f).accs = s.accs := rfl
@[simp] theorem modCluster_posts (g : Nat) (f : ClusterSt → ClusterSt) : (s.modCluster g f).posts = s.posts := rfl
@[simp] theorem modCluster_ops (g : Nat) (f : ClusterSt → ClusterSt) : (s.modCluster g f).ops = s.ops := rfl
@[simp] theorem modCluster_walks (g : Nat) (f : ClusterSt → ClusterSt) : (s.modCluster g f).walks = s.walks := rfl
@[simp] theorem modCluster_mboxes (g : Nat) (f : ClusterSt → ClusterSt) : (s.modCluster g f).mboxes = s.mboxes := rfl
@[simp] theorem modCluster_reqs (g : Nat) (f : ClusterSt → ClusterSt) : (s.modCluster g f).reqs = s.reqs := rfl
@[simp] theorem modCluster_depMsgs (g : Nat) (f : ClusterSt → ClusterSt) : (s.modCluster g f).depMsgs = s.depMsgs := rfl
@[simp] theorem modCluster_faults (g : Nat) (f : ClusterSt → ClusterSt) : (s.modCluster g f).faults = s.faults := rfl
@[simp] theorem modCluster_dev (g : Nat) (f : ClusterSt → ClusterSt) : (s.modCluster g f).dev = s.dev := rfl
@[simp] theorem modCluster_host (g : Nat) (f : ClusterSt → ClusterSt) : (s.modCluster g f).host = s.host := rfl

/-! ### `modMem` -/

@[simp] theorem modMem_cur (f : MemSt → MemSt) : (s.modMem f).cur = s.cur := rfl
@[simp] theorem modMem_turns (f : MemSt → MemSt) : (s.modMem f).turns = s.turns := rfl
@[simp] theorem modMem_agenda (f : MemSt → MemSt) : (s.modMem f).agenda = s.agenda := rfl
@[simp] theorem modMem_time (f : MemSt → MemSt) : (s.modMem f).time = s.time := rfl
@[simp] theorem modMem_fresh (f : MemSt → MemSt) : (s.modMem f).fresh = s.fresh := rfl
@[simp] theorem modMem_ctxs (f : MemSt → MemSt) : (s.modMem f).ctxs = s.ctxs := rfl
@[simp] theorem modMem_cores (f : MemSt → MemSt) : (s.modMem f).cores = s.cores := rfl
@[simp] theorem modMem_cells (f : MemSt → MemSt) : (s.modMem f).cells = s.cells := rfl
@[simp] theorem modMem_clusters (f : MemSt → MemSt) : (s.modMem f).clusters = s.clusters := rfl
@[simp] theorem modMem_mem (f : MemSt → MemSt) : (s.modMem f).mem = f s.mem := rfl
@[simp] theorem modMem_accs (f : MemSt → MemSt) : (s.modMem f).accs = s.accs := rfl
@[simp] theorem modMem_posts (f : MemSt → MemSt) : (s.modMem f).posts = s.posts := rfl
@[simp] theorem modMem_ops (f : MemSt → MemSt) : (s.modMem f).ops = s.ops := rfl
@[simp] theorem modMem_walks (f : MemSt → MemSt) : (s.modMem f).walks = s.walks := rfl
@[simp] theorem modMem_mboxes (f : MemSt → MemSt) : (s.modMem f).mboxes = s.mboxes := rfl
@[simp] theorem modMem_reqs (f : MemSt → MemSt) : (s.modMem f).reqs = s.reqs := rfl
@[simp] theorem modMem_depMsgs (f : MemSt → MemSt) : (s.modMem f).depMsgs = s.depMsgs := rfl
@[simp] theorem modMem_faults (f : MemSt → MemSt) : (s.modMem f).faults = s.faults := rfl
@[simp] theorem modMem_dev (f : MemSt → MemSt) : (s.modMem f).dev = s.dev := rfl
@[simp] theorem modMem_host (f : MemSt → MemSt) : (s.modMem f).host = s.host := rfl

/-! ### `modDev` -/

@[simp] theorem modDev_cur (f : DevSt → DevSt) : (s.modDev f).cur = s.cur := rfl
@[simp] theorem modDev_turns (f : DevSt → DevSt) : (s.modDev f).turns = s.turns := rfl
@[simp] theorem modDev_agenda (f : DevSt → DevSt) : (s.modDev f).agenda = s.agenda := rfl
@[simp] theorem modDev_time (f : DevSt → DevSt) : (s.modDev f).time = s.time := rfl
@[simp] theorem modDev_fresh (f : DevSt → DevSt) : (s.modDev f).fresh = s.fresh := rfl
@[simp] theorem modDev_ctxs (f : DevSt → DevSt) : (s.modDev f).ctxs = s.ctxs := rfl
@[simp] theorem modDev_cores (f : DevSt → DevSt) : (s.modDev f).cores = s.cores := rfl
@[simp] theorem modDev_cells (f : DevSt → DevSt) : (s.modDev f).cells = s.cells := rfl
@[simp] theorem modDev_clusters (f : DevSt → DevSt) : (s.modDev f).clusters = s.clusters := rfl
@[simp] theorem modDev_mem (f : DevSt → DevSt) : (s.modDev f).mem = s.mem := rfl
@[simp] theorem modDev_accs (f : DevSt → DevSt) : (s.modDev f).accs = s.accs := rfl
@[simp] theorem modDev_posts (f : DevSt → DevSt) : (s.modDev f).posts = s.posts := rfl
@[simp] theorem modDev_ops (f : DevSt → DevSt) : (s.modDev f).ops = s.ops := rfl
@[simp] theorem modDev_walks (f : DevSt → DevSt) : (s.modDev f).walks = s.walks := rfl
@[simp] theorem modDev_mboxes (f : DevSt → DevSt) : (s.modDev f).mboxes = s.mboxes := rfl
@[simp] theorem modDev_reqs (f : DevSt → DevSt) : (s.modDev f).reqs = s.reqs := rfl
@[simp] theorem modDev_depMsgs (f : DevSt → DevSt) : (s.modDev f).depMsgs = s.depMsgs := rfl
@[simp] theorem modDev_faults (f : DevSt → DevSt) : (s.modDev f).faults = s.faults := rfl
@[simp] theorem modDev_dev (f : DevSt → DevSt) : (s.modDev f).dev = f s.dev := rfl
@[simp] theorem modDev_host (f : DevSt → DevSt) : (s.modDev f).host = s.host := rfl

/-! ### `modHost` -/

@[simp] theorem modHost_cur (f : HostSt → HostSt) : (s.modHost f).cur = s.cur := rfl
@[simp] theorem modHost_turns (f : HostSt → HostSt) : (s.modHost f).turns = s.turns := rfl
@[simp] theorem modHost_agenda (f : HostSt → HostSt) : (s.modHost f).agenda = s.agenda := rfl
@[simp] theorem modHost_time (f : HostSt → HostSt) : (s.modHost f).time = s.time := rfl
@[simp] theorem modHost_fresh (f : HostSt → HostSt) : (s.modHost f).fresh = s.fresh := rfl
@[simp] theorem modHost_ctxs (f : HostSt → HostSt) : (s.modHost f).ctxs = s.ctxs := rfl
@[simp] theorem modHost_cores (f : HostSt → HostSt) : (s.modHost f).cores = s.cores := rfl
@[simp] theorem modHost_cells (f : HostSt → HostSt) : (s.modHost f).cells = s.cells := rfl
@[simp] theorem modHost_clusters (f : HostSt → HostSt) : (s.modHost f).clusters = s.clusters := rfl
@[simp] theorem modHost_mem (f : HostSt → HostSt) : (s.modHost f).mem = s.mem := rfl
@[simp] theorem modHost_accs (f : HostSt → HostSt) : (s.modHost f).accs = s.accs := rfl
@[simp] theorem modHost_posts (f : HostSt → HostSt) : (s.modHost f).posts = s.posts := rfl
@[simp] theorem modHost_ops (f : HostSt → HostSt) : (s.modHost f).ops = s.ops := rfl
@[simp] theorem modHost_walks (f : HostSt → HostSt) : (s.modHost f).walks = s.walks := rfl
@[simp] theorem modHost_mboxes (f : HostSt → HostSt) : (s.modHost f).mboxes = s.mboxes := rfl
@[simp] theorem modHost_reqs (f : HostSt → HostSt) : (s.modHost f).reqs = s.reqs := rfl
@[simp] theorem modHost_depMsgs (f : HostSt → HostSt) : (s.modHost f).depMsgs = s.depMsgs := rfl
@[simp] theorem modHost_faults (f : HostSt → HostSt) : (s.modHost f).faults = s.faults := rfl
@[simp] theorem modHost_dev (f : HostSt → HostSt) : (s.modHost f).dev = s.dev := rfl
@[simp] theorem modHost_host (f : HostSt → HostSt) : (s.modHost f).host = f s.host := rfl

/-! ### `emit` -/

@[simp] theorem emit_cur (o : HostOut) : (s.emit o).cur = s.cur := rfl
@[simp] theorem emit_turns (o : HostOut) : (s.emit o).turns = s.turns := rfl
@[simp] theorem emit_agenda (o : HostOut) : (s.emit o).agenda = s.agenda := rfl
@[simp] theorem emit_time (o : HostOut) : (s.emit o).time = s.time := rfl
@[simp] theorem emit_fresh (o : HostOut) : (s.emit o).fresh = s.fresh := rfl
@[simp] theorem emit_ctxs (o : HostOut) : (s.emit o).ctxs = s.ctxs := rfl
@[simp] theorem emit_cores (o : HostOut) : (s.emit o).cores = s.cores := rfl
@[simp] theorem emit_cells (o : HostOut) : (s.emit o).cells = s.cells := rfl
@[simp] theorem emit_clusters (o : HostOut) : (s.emit o).clusters = s.clusters := rfl
@[simp] theorem emit_mem (o : HostOut) : (s.emit o).mem = s.mem := rfl
@[simp] theorem emit_accs (o : HostOut) : (s.emit o).accs = s.accs := rfl
@[simp] theorem emit_posts (o : HostOut) : (s.emit o).posts = s.posts := rfl
@[simp] theorem emit_ops (o : HostOut) : (s.emit o).ops = s.ops := rfl
@[simp] theorem emit_walks (o : HostOut) : (s.emit o).walks = s.walks := rfl
@[simp] theorem emit_mboxes (o : HostOut) : (s.emit o).mboxes = s.mboxes := rfl
@[simp] theorem emit_reqs (o : HostOut) : (s.emit o).reqs = s.reqs := rfl
@[simp] theorem emit_depMsgs (o : HostOut) : (s.emit o).depMsgs = s.depMsgs := rfl
@[simp] theorem emit_faults (o : HostOut) : (s.emit o).faults = s.faults := rfl
@[simp] theorem emit_dev (o : HostOut) : (s.emit o).dev = s.dev := rfl
@[simp] theorem emit_host (o : HostOut) : (s.emit o).host = { s.host with out := o :: s.host.out } := rfl

/-! ### `bump` -/

@[simp] theorem bump_cur : (s.bump).cur = s.cur := rfl
@[simp] theorem bump_turns : (s.bump).turns = s.turns := rfl
@[simp] theorem bump_agenda : (s.bump).agenda = s.agenda := rfl
@[simp] theorem bump_time : (s.bump).time = s.time := rfl
@[simp] theorem bump_fresh : (s.bump).fresh = s.fresh + 1 := rfl
@[simp] theorem bump_ctxs : (s.bump).ctxs = s.ctxs := rfl
@[simp] theorem bump_cores : (s.bump).cores = s.cores := rfl
@[simp] theorem bump_cells : (s.bump).cells = s.cells := rfl
@[simp] theorem bump_clusters : (s.bump).clusters = s.clusters := rfl
@[simp] theorem bump_mem : (s.bump).mem = s.mem := rfl
@[simp] theorem bump_accs : (s.bump).accs = s.accs := rfl
@[simp] theorem bump_posts : (s.bump).posts = s.posts := rfl
@[simp] theorem bump_ops : (s.bump).ops = s.ops := rfl
@[simp] theorem bump_walks : (s.bump).walks = s.walks := rfl
@[simp] theorem bump_mboxes : (s.bump).mboxes = s.mboxes := rfl
@[simp] theorem bump_reqs : (s.bump).reqs = s.reqs := rfl
@[simp] theorem bump_depMsgs : (s.bump).depMsgs = s.depMsgs := rfl
@[simp] theorem bump_faults : (s.bump).faults = s.faults := rfl
@[simp] theorem bump_dev : (s.bump).dev = s.dev := rfl
@[simp] theorem bump_host : (s.bump).host = s.host := rfl

/-! ### Lookups that read another field -/

@[simp] theorem setCtx_core_eq (c : Nat) (x : Ctx) (j : Nat) : (s.setCtx c x).core j = s.core j := rfl
@[simp] theorem setCtx_cell_eq (c : Nat) (x : Ctx) (j : Nat) : (s.setCtx c x).cell j = s.cell j := rfl
@[simp] theorem setCtx_cluster_eq (c : Nat) (x : Ctx) (j : Nat) : (s.setCtx c x).cluster j = s.cluster j := rfl
@[simp] theorem modCtx_core_eq (c : Nat) (f : Ctx → Ctx) (j : Nat) : (s.modCtx c f).core j = s.core j := rfl
@[simp] theorem modCtx_cell_eq (c : Nat) (f : Ctx → Ctx) (j : Nat) : (s.modCtx c f).cell j = s.cell j := rfl
@[simp] theorem modCtx_cluster_eq (c : Nat) (f : Ctx → Ctx) (j : Nat) : (s.modCtx c f).cluster j = s.cluster j := rfl
@[simp] theorem setCore_ctx_eq (k : Nat) (x : CoreSt) (j : Nat) : (s.setCore k x).ctx j = s.ctx j := rfl
@[simp] theorem setCore_cell_eq (k : Nat) (x : CoreSt) (j : Nat) : (s.setCore k x).cell j = s.cell j := rfl
@[simp] theorem setCore_cluster_eq (k : Nat) (x : CoreSt) (j : Nat) : (s.setCore k x).cluster j = s.cluster j := rfl
@[simp] theorem modCore_ctx_eq (k : Nat) (f : CoreSt → CoreSt) (j : Nat) : (s.modCore k f).ctx j = s.ctx j := rfl
@[simp] theorem modCore_cell_eq (k : Nat) (f : CoreSt → CoreSt) (j : Nat) : (s.modCore k f).cell j = s.cell j := rfl
@[simp] theorem modCore_cluster_eq (k : Nat) (f : CoreSt → CoreSt) (j : Nat) : (s.modCore k f).cluster j = s.cluster j := rfl
@[simp] theorem setCell_ctx_eq (n : Nat) (x : CellSt) (j : Nat) : (s.setCell n x).ctx j = s.ctx j := rfl
@[simp] theorem setCell_core_eq (n : Nat) (x : CellSt) (j : Nat) : (s.setCell n x).core j = s.core j := rfl
@[simp] theorem setCell_cluster_eq (n : Nat) (x : CellSt) (j : Nat) : (s.setCell n x).cluster j = s.cluster j := rfl
@[simp] theorem modCell_ctx_eq (n : Nat) (f : CellSt → CellSt) (j : Nat) : (s.modCell n f).ctx j = s.ctx j := rfl
@[simp] theorem modCell_core_eq (n : Nat) (f : CellSt → CellSt) (j : Nat) : (s.modCell n f).core j = s.core j := rfl
@[simp] theorem modCell_cluster_eq (n : Nat) (f : CellSt → CellSt) (j : Nat) : (s.modCell n f).cluster j = s.cluster j := rfl
@[simp] theorem setCluster_ctx_eq (g : Nat) (x : ClusterSt) (j : Nat) : (s.setCluster g x).ctx j = s.ctx j := rfl
@[simp] theorem setCluster_core_eq (g : Nat) (x : ClusterSt) (j : Nat) : (s.setCluster g x).core j = s.core j := rfl
@[simp] theorem setCluster_cell_eq (g : Nat) (x : ClusterSt) (j : Nat) : (s.setCluster g x).cell j = s.cell j := rfl
@[simp] theorem modCluster_ctx_eq (g : Nat) (f : ClusterSt → ClusterSt) (j : Nat) : (s.modCluster g f).ctx j = s.ctx j := rfl
@[simp] theorem modCluster_core_eq (g : Nat) (f : ClusterSt → ClusterSt) (j : Nat) : (s.modCluster g f).core j = s.core j := rfl
@[simp] theorem modCluster_cell_eq (g : Nat) (f : ClusterSt → ClusterSt) (j : Nat) : (s.modCluster g f).cell j = s.cell j := rfl
@[simp] theorem modMem_ctx_eq (f : MemSt → MemSt) (j : Nat) : (s.modMem f).ctx j = s.ctx j := rfl
@[simp] theorem modMem_core_eq (f : MemSt → MemSt) (j : Nat) : (s.modMem f).core j = s.core j := rfl
@[simp] theorem modMem_cell_eq (f : MemSt → MemSt) (j : Nat) : (s.modMem f).cell j = s.cell j := rfl
@[simp] theorem modMem_cluster_eq (f : MemSt → MemSt) (j : Nat) : (s.modMem f).cluster j = s.cluster j := rfl
@[simp] theorem modDev_ctx_eq (f : DevSt → DevSt) (j : Nat) : (s.modDev f).ctx j = s.ctx j := rfl
@[simp] theorem modDev_core_eq (f : DevSt → DevSt) (j : Nat) : (s.modDev f).core j = s.core j := rfl
@[simp] theorem modDev_cell_eq (f : DevSt → DevSt) (j : Nat) : (s.modDev f).cell j = s.cell j := rfl
@[simp] theorem modDev_cluster_eq (f : DevSt → DevSt) (j : Nat) : (s.modDev f).cluster j = s.cluster j := rfl
@[simp] theorem modHost_ctx_eq (f : HostSt → HostSt) (j : Nat) : (s.modHost f).ctx j = s.ctx j := rfl
@[simp] theorem modHost_core_eq (f : HostSt → HostSt) (j : Nat) : (s.modHost f).core j = s.core j := rfl
@[simp] theorem modHost_cell_eq (f : HostSt → HostSt) (j : Nat) : (s.modHost f).cell j = s.cell j := rfl
@[simp] theorem modHost_cluster_eq (f : HostSt → HostSt) (j : Nat) : (s.modHost f).cluster j = s.cluster j := rfl
@[simp] theorem emit_ctx_eq (o : HostOut) (j : Nat) : (s.emit o).ctx j = s.ctx j := rfl
@[simp] theorem emit_core_eq (o : HostOut) (j : Nat) : (s.emit o).core j = s.core j := rfl
@[simp] theorem emit_cell_eq (o : HostOut) (j : Nat) : (s.emit o).cell j = s.cell j := rfl
@[simp] theorem emit_cluster_eq (o : HostOut) (j : Nat) : (s.emit o).cluster j = s.cluster j := rfl
@[simp] theorem bump_ctx_eq (j : Nat) : s.bump.ctx j = s.ctx j := rfl
@[simp] theorem bump_core_eq (j : Nat) : s.bump.core j = s.core j := rfl
@[simp] theorem bump_cell_eq (j : Nat) : s.bump.cell j = s.cell j := rfl
@[simp] theorem bump_cluster_eq (j : Nat) : s.bump.cluster j = s.cluster j := rfl

/-! ### Maps -/

/-- A key just put is found. -/
@[simp] theorem find_put_same {α : Type} (m : Map α) (k : Nat) (v : α) : Map.find (Map.put m k v) k = some v := by
  induction m with
  | nil => simp [Map.put, Map.find]
  | cons e r ih =>
    obtain ⟨j, w⟩ := e
    simp only [Map.put]
    split
    · simp [Map.find]
    · split
      · simp [Map.find]
      · rename_i h
        simp [Map.find, h, ih]

/-- A put leaves every other key alone. -/
@[simp] theorem find_put_ne {α : Type} (m : Map α) (k j : Nat) (v : α) (h : j ≠ k) :
    Map.find (Map.put m k v) j = Map.find m j := by
  induction m with
  | nil => simp [Map.put, Map.find, Ne.symm h]
  | cons e r ih =>
    obtain ⟨i, w⟩ := e
    simp only [Map.put]
    split
    · simp [Map.find, Ne.symm h]
    · split
      · rename_i _ hik
        subst hik
        simp [Map.find, Ne.symm h]
      · simp only [Map.find, ih]

/-- Lookup with a default after a put of the same key. -/
@[simp] theorem at_put_same {α : Type} (m : Map α) (k : Nat) (v d : α) : Map.at (Map.put m k v) k d = v := by
  simp [Map.at]

/-- Lookup with a default after a put of another key. -/
@[simp] theorem at_put_ne {α : Type} (m : Map α) (k j : Nat) (v d : α) (h : j ≠ k) :
    Map.at (Map.put m k v) j d = Map.at m j d := by
  simp [Map.at, h]

/-- A second put of a key replaces the first. -/
@[simp] theorem put_put {α : Type} (m : Map α) (k : Nat) (v w : α) : Map.put (Map.put m k v) k w = Map.put m k w := by
  induction m with
  | nil => simp [Map.put]
  | cons e r ih =>
    obtain ⟨j, x⟩ := e
    simp only [Map.put]
    split
    · simp [Map.put]
    · split
      · simp [Map.put]
      · rename_i h1 h2
        simp [Map.put, h1, h2, ih]

/-! ### Lookups after an update of the same kind -/

@[simp] theorem setCtx_same (k : Nat) (x : Ctx) : (s.setCtx k x).ctx k = x := by
  simp [State.setCtx, State.ctx]
@[simp] theorem setCtx_ne (k j : Nat) (x : Ctx) (h : j ≠ k) : (s.setCtx k x).ctx j = s.ctx j := by
  simp [State.setCtx, State.ctx, h]
@[simp] theorem modCtx_same (k : Nat) (f : Ctx → Ctx) : (s.modCtx k f).ctx k = f (s.ctx k) := by
  simp [State.modCtx]
@[simp] theorem modCtx_ne (k j : Nat) (f : Ctx → Ctx) (h : j ≠ k) : (s.modCtx k f).ctx j = s.ctx j := by
  simp [State.modCtx, h]

@[simp] theorem setCore_same (k : Nat) (x : CoreSt) : (s.setCore k x).core k = x := by
  simp [State.setCore, State.core]
@[simp] theorem setCore_ne (k j : Nat) (x : CoreSt) (h : j ≠ k) : (s.setCore k x).core j = s.core j := by
  simp [State.setCore, State.core, h]
@[simp] theorem modCore_same (k : Nat) (f : CoreSt → CoreSt) : (s.modCore k f).core k = f (s.core k) := by
  simp [State.modCore]
@[simp] theorem modCore_ne (k j : Nat) (f : CoreSt → CoreSt) (h : j ≠ k) : (s.modCore k f).core j = s.core j := by
  simp [State.modCore, h]

@[simp] theorem setCell_same (k : Nat) (x : CellSt) : (s.setCell k x).cell k = x := by
  simp [State.setCell, State.cell]
@[simp] theorem setCell_ne (k j : Nat) (x : CellSt) (h : j ≠ k) : (s.setCell k x).cell j = s.cell j := by
  simp [State.setCell, State.cell, h]
@[simp] theorem modCell_same (k : Nat) (f : CellSt → CellSt) : (s.modCell k f).cell k = f (s.cell k) := by
  simp [State.modCell]
@[simp] theorem modCell_ne (k j : Nat) (f : CellSt → CellSt) (h : j ≠ k) : (s.modCell k f).cell j = s.cell j := by
  simp [State.modCell, h]

@[simp] theorem setCluster_same (k : Nat) (x : ClusterSt) : (s.setCluster k x).cluster k = x := by
  simp [State.setCluster, State.cluster]
@[simp] theorem setCluster_ne (k j : Nat) (x : ClusterSt) (h : j ≠ k) : (s.setCluster k x).cluster j = s.cluster j := by
  simp [State.setCluster, State.cluster, h]
@[simp] theorem modCluster_same (k : Nat) (f : ClusterSt → ClusterSt) : (s.modCluster k f).cluster k = f (s.cluster k) := by
  simp [State.modCluster]
@[simp] theorem modCluster_ne (k j : Nat) (f : ClusterSt → ClusterSt) (h : j ≠ k) : (s.modCluster k f).cluster j = s.cluster j := by
  simp [State.modCluster, h]

end Sys2Proof.Laws
end

