-- ==== Sys2Proof/Laws/Home.lean ====
section
/-! SUPPORT. What reaching a home and writing there can change, said once: memory, the counts of missing keys and corrected
errors, and the fresh numbers; and which words read as before. -/

namespace Sys2Proof.Laws

open Sys2Proof.Machine

/-- Reaching a home changes memory, the counts of missing keys and corrected errors, and the fresh numbers; chart store stays. -/
structure HomeOnly (s t : State) : Prop where
  rest  : t = { s with mem := t.mem, fresh := t.fresh, dev := t.dev }
  keys  : t.dev = { s.dev with keyMiss := t.dev.keyMiss, ceCount := t.dev.ceCount }
  chart : t.mem.chart = s.mem.chart

theorem HomeOnly.refl (s : State) : HomeOnly s s := ⟨rfl, rfl, rfl⟩

theorem HomeOnly.trans {s t u : State} (h : HomeOnly s t) (g : HomeOnly t u) : HomeOnly s u := by
  obtain ⟨h1, h2, h3⟩ := h
  obtain ⟨g1, g2, g3⟩ := g
  exact ⟨by rw [g1, h1], by rw [g2, h2], by rw [g3, h3]⟩

theorem homeOnly_modMem (s : State) (f : MemSt → MemSt) (h : (f s.mem).chart = s.mem.chart) : HomeOnly s (s.modMem f) := ⟨rfl, rfl, h⟩

theorem homeOnly_bump (s : State) : HomeOnly s s.bump := ⟨rfl, rfl, rfl⟩

theorem homeOnly_foldl {α : Type} (f : State → α → State) (h : ∀ s x, HomeOnly s (f s x)) (l : List α) (s : State) :
    HomeOnly s (l.foldl f s) := by
  induction l generalizing s with
  | nil => exact .refl s
  | cons x r ih => exact (h s x).trans (ih _)

theorem homeOnly_mediaPut (s : State) (pa : Nat) (v : Word) : HomeOnly s (mediaPut s pa v) := by
  unfold mediaPut
  dsimp only
  split
  · exact .refl _
  · exact homeOnly_modMem _ _ rfl

theorem homeOnly_mscEvict (s : State) (tag : Nat) : HomeOnly s (mscEvict s tag) := by
  unfold mscEvict
  split
  · exact .refl _
  · refine HomeOnly.trans ?_ (homeOnly_modMem _ _ rfl)
    exact homeOnly_foldl (fun s (e : Nat × Word) => mediaPut s e.1 e.2) (fun s e => homeOnly_mediaPut s e.1 e.2) _ _

theorem homeOnly_mscFill (s : State) (pa : Nat) : HomeOnly s (mscFill s pa) := by
  unfold mscFill
  dsimp only
  split
  · exact .refl _
  · split
    · exact homeOnly_modMem _ _ rfl
    · split
      · exact .refl _
      · exact ((homeOnly_bump s).trans (homeOnly_mscEvict _ _)).trans (homeOnly_modMem _ _ rfl)

theorem homeOnly_backPut (s : State) (pa : Nat) (v : Word) : HomeOnly s (backPut s pa v) := by
  unfold backPut
  dsimp only
  split
  · exact (homeOnly_mscFill _ _).trans (homeOnly_modMem _ _ rfl)
  · exact (homeOnly_mscFill _ _).trans (homeOnly_mediaPut _ _ _)

theorem homeOnly_writeBackLine (s : State) (tag : Nat) : HomeOnly s (writeBackLine s tag) := by
  unfold writeBackLine
  split
  · exact .refl _
  · refine HomeOnly.trans ?_ (homeOnly_modMem _ _ rfl)
    exact homeOnly_foldl (fun s (e : Nat × Word) => backPut s e.1 e.2) (fun s e => homeOnly_backPut s e.1 e.2) _ _

theorem homeOnly_dropLine (s : State) (tag : Nat) : HomeOnly s (dropLine s tag) := by
  unfold dropLine
  dsimp only
  split
  · exact homeOnly_writeBackLine _ _
  · exact (homeOnly_writeBackLine _ _).trans (homeOnly_modMem _ _ rfl)

theorem homeOnly_sliceFill (s : State) (pa g : Nat) : HomeOnly s (sliceFill s pa g) := by
  unfold sliceFill
  dsimp only
  split
  · exact .refl _
  · split
    · exact homeOnly_modMem _ _ rfl
    · split
      · exact .refl _
      · exact ((homeOnly_bump s).trans (homeOnly_dropLine _ _)).trans (homeOnly_modMem _ _ rfl)

theorem homeOnly_noteFirst (s : State) (pa pl g : Nat) : HomeOnly s (noteFirst s pa pl g) := by
  unfold noteFirst
  dsimp only
  split
  · exact homeOnly_modMem _ _ rfl
  · exact .refl _

theorem homeOnly_noteKey (s : State) (pa : Nat) : HomeOnly s (noteKey s pa) := by
  unfold noteKey
  split
  · exact ⟨rfl, rfl, rfl⟩
  · exact .refl _

theorem homeOnly_spendLine (s : State) (pa : Nat) : HomeOnly s (spendLine s pa) := by
  unfold spendLine
  dsimp only
  split
  · exact .refl _
  · exact ⟨rfl, rfl, rfl⟩

/-- Reaching a home, in every case. -/
theorem homeOnly_touchMem (s : State) (pa pl g : Nat) (uc : Bool) : HomeOnly s (touchMem s pa pl g uc) := by
  unfold touchMem
  dsimp only
  split
  · exact homeOnly_noteFirst _ _ _ _
  · refine (homeOnly_noteFirst s pa pl g).trans ((homeOnly_noteKey _ pa).trans ?_)
    have h : ∀ u : State, HomeOnly u (if mscOn u (paAddr pa) then mscFill u pa else spendLine u pa) := by
      intro u
      split
      · exact homeOnly_mscFill _ _
      · exact homeOnly_spendLine _ _
    split
    · exact h _
    · exact (h _).trans (homeOnly_sliceFill _ _ _)

theorem homeOnly_writeMem (s : State) (pa : Nat) (v : Word) (w : Bool) (who : Nat × Nat) : HomeOnly s (writeMem s pa v w who) := by
  unfold writeMem
  dsimp only
  split
  · exact .refl _
  · have h : ∀ u : State, HomeOnly u (match Map.find u.mem.slines (pa / 64) with
        | some l => u.modMem fun m => { m with slines := Map.put m.slines (pa / 64) (l.put pa v who) }
        | none => backPut u pa v) := by
      intro u
      split
      · exact homeOnly_modMem _ _ rfl
      · exact homeOnly_backPut _ _ _
    cases w
    · exact h s
    · exact (homeOnly_modMem s _ rfl).trans (h _)

/-- Keeping the value that a write replaces changes the record of old values and of releases alone. -/
theorem noteOld_only (s : State) (l : Loc) (who : Nat × Nat) :
    ∃ h r, noteOld s l who = s.modMem fun m => { m with hist := h, rels := r } := by
  unfold noteOld dropRel
  dsimp only
  split <;> split <;> exact ⟨_, _, rfl⟩

theorem homeOnly_noteOld (s : State) (l : Loc) (who : Nat × Nat) : HomeOnly s (noteOld s l who) := by
  obtain ⟨h, r, e⟩ := noteOld_only s l who
  rw [e]
  exact homeOnly_modMem _ _ rfl

/-! ### A home reads memory, clusters, operations and device registers only -/

/-- The homes of s with the contexts, cores, cells and host's side of u. -/
def swap (s u : State) : State := { s with ctxs := u.ctxs, cores := u.cores, cells := u.cells, host := u.host }

theorem swap_foldl {α : Type} (u : State) (f : State → α → State) (h : ∀ s x, f (swap s u) x = swap (f s x) u) (l : List α) (s : State) :
    l.foldl f (swap s u) = swap (l.foldl f s) u := by
  induction l generalizing s with
  | nil => rfl
  | cons x r ih => rw [List.foldl_cons, List.foldl_cons, h, ih]

theorem swap_mediaPut (s u : State) (pa : Nat) (v : Word) : mediaPut (swap s u) pa v = swap (mediaPut s pa v) u := by
  unfold mediaPut
  rw [show keyMat (swap s u) (paKey pa) = keyMat s (paKey pa) from rfl]
  split <;> rfl

theorem swap_mscEvict (s u : State) (tag : Nat) : mscEvict (swap s u) tag = swap (mscEvict s tag) u := by
  unfold mscEvict
  rw [show (swap s u).mem = s.mem from rfl]
  split
  · rfl
  · rw [swap_foldl u _ (fun s (e : Nat × Word) => swap_mediaPut s u e.1 e.2)]
    rfl

theorem swap_mscFill (s u : State) (pa : Nat) : mscFill (swap s u) pa = swap (mscFill s pa) u := by
  unfold mscFill
  rw [show (swap s u).mem = s.mem from rfl, show mscOn (swap s u) (paAddr pa) = mscOn s (paAddr pa) from rfl,
    show keyMat (swap s u) (paKey pa) = keyMat s (paKey pa) from rfl, show (swap s u).fresh = s.fresh from rfl,
    show mscSets (swap s u) = mscSets s from rfl]
  dsimp only
  split
  · rfl
  · split
    · rfl
    · split
      · rfl
      · rename_i v _
        rw [show (swap s u).bump = swap s.bump u from rfl, swap_mscEvict]
        rfl

theorem swap_backPut (s u : State) (pa : Nat) (v : Word) : backPut (swap s u) pa v = swap (backPut s pa v) u := by
  unfold backPut
  rw [swap_mscFill]
  generalize mscFill s pa = w
  dsimp only
  rw [show mscOn (swap w u) (paAddr pa) = mscOn w (paAddr pa) from rfl, show (swap w u).mem = w.mem from rfl]
  split
  · rfl
  · exact swap_mediaPut _ _ _ _

theorem swap_writeBackLine (s u : State) (tag : Nat) : writeBackLine (swap s u) tag = swap (writeBackLine s tag) u := by
  unfold writeBackLine
  rw [show (swap s u).mem = s.mem from rfl, show heldWords (swap s u) tag = heldWords s tag from rfl]
  split
  · rfl
  · dsimp only
    rw [swap_foldl u _ (fun s (e : Nat × Word) => swap_backPut s u e.1 e.2)]
    rfl

theorem swap_dropLine (s u : State) (tag : Nat) : dropLine (swap s u) tag = swap (dropLine s tag) u := by
  unfold dropLine
  rw [swap_writeBackLine, show heldWords (swap s u) tag = heldWords s tag from rfl]
  dsimp only
  split <;> rfl

theorem swap_sliceFill (s u : State) (pa g : Nat) : sliceFill (swap s u) pa g = swap (sliceFill s pa g) u := by
  unfold sliceFill
  rw [show (swap s u).mem = s.mem from rfl, show (swap s u).dev = s.dev from rfl,
    show keyMat (swap s u) (paKey pa) = keyMat s (paKey pa) from rfl, show (swap s u).fresh = s.fresh from rfl,
    show sliceWays (swap s u) g = sliceWays s g from rfl, show heldWords (swap s u) = heldWords s from rfl]
  dsimp only
  split
  · rfl
  · split
    · rfl
    · split
      · rfl
      · rw [show (swap s u).bump = swap s.bump u from rfl, swap_dropLine]
        rfl

/-- Reaching a home does not depend on contexts, cores, cells or the host's side. -/
theorem swap_touchMem (s u : State) (pa pl g : Nat) (uc : Bool) :
    touchMem (swap s u) pa pl g uc = swap (touchMem s pa pl g uc) u := by
  have hn : ∀ v : State, noteKey (swap v u) pa = swap (noteKey v pa) u := by
    intro v
    unfold noteKey
    rw [show keyMat (swap v u) (paKey pa) = keyMat v (paKey pa) from rfl]
    split <;> rfl
  have hs : ∀ v : State, spendLine (swap v u) pa = swap (spendLine v pa) u := by
    intro v
    unfold spendLine
    rw [show (swap v u).mem = v.mem from rfl]
    dsimp only
    split <;> rfl
  have hf : noteFirst (swap s u) pa pl g = swap (noteFirst s pa pl g) u := by
    unfold noteFirst
    rw [show (swap s u).mem = s.mem from rfl]
    dsimp only
    split <;> rfl
  unfold touchMem
  rw [hf]
  generalize noteFirst s pa pl g = w
  dsimp only
  rw [show (swap w u).mem = w.mem from rfl, hn]
  split
  · rfl
  · generalize noteKey w pa = z
    rw [show mscOn (swap z u) (paAddr pa) = mscOn z (paAddr pa) from rfl, swap_mscFill, hs]
    have hi : (if mscOn z (paAddr pa) = true then swap (mscFill z pa) u else swap (spendLine z pa) u) =
        swap (if mscOn z (paAddr pa) = true then mscFill z pa else spendLine z pa) u := by
      split <;> rfl
    rw [hi]
    generalize (if mscOn z (paAddr pa) = true then mscFill z pa else spendLine z pa) = y
    split
    · rfl
    · rw [show sliceOf (swap y u) pa pl = sliceOf y pa pl from rfl, swap_sliceFill]

/-! ### A home that has been reached is ready for its word -/

/-- The line of a word stands in its slice, or the word's write goes straight behind it and moves no other line. -/
def Ready (s : State) (pa : Nat) : Prop :=
  (Map.find s.mem.slines (pa / 64)).isSome = true ∨ mscOn s (paAddr pa) = false ∨ (Map.find s.mem.msc (pa / 64)).isSome = true ∨
    keyMat s (paKey pa) = none

theorem victim_some {α : Type} (l : List α) (h : l ≠ []) (n : Nat) : ∃ v, l[n % max l.length 1]? = some v := by
  have hp : 0 < l.length := List.length_pos_iff.mpr h
  have : n % max l.length 1 < l.length := by
    rw [Nat.max_eq_left hp]
    exact Nat.mod_lt _ hp
  exact ⟨l[n % max l.length 1], List.getElem?_eq_getElem this⟩

theorem mscFill_self (s : State) (pa : Nat) (h : mscOn s (paAddr pa) = false ∨ (Map.find s.mem.msc (pa / 64)).isSome = true ∨
    keyMat s (paKey pa) = none) : mscFill s pa = s := by
  unfold mscFill
  dsimp only
  rw [if_pos h]

/-- After a fill there is nothing left to fill. -/
theorem mscFill_ready (s : State) (pa : Nat) : mscOn (mscFill s pa) (paAddr pa) = false ∨
    (Map.find (mscFill s pa).mem.msc (pa / 64)).isSome = true ∨ keyMat (mscFill s pa) (paKey pa) = none := by
  by_cases h : mscOn s (paAddr pa) = false ∨ (Map.find s.mem.msc (pa / 64)).isSome = true ∨ keyMat s (paKey pa) = none
  · rw [mscFill_self s pa h]
    exact h
  · refine .inr (.inl ?_)
    unfold mscFill
    dsimp only
    rw [if_neg h]
    split
    · simp [State.modMem]
    · rename_i hw
      have hne : linesOf s.mem.msc 0 (paLocal pa / 64 % mscSets s) ≠ [] := by
        intro e
        rw [e] at hw
        simp [freeWay] at hw
        have := hw 0
        omega
      obtain ⟨v, hv⟩ := victim_some _ hne (Config.victim s.fresh)
      rw [hv]
      simp [State.modMem]

/-- A slice's fill brings the line in, or leaves everything as it stands. -/
theorem sliceFill_cases (s : State) (pa g : Nat) :
    sliceFill s pa g = s ∨ (Map.find (sliceFill s pa g).mem.slines (pa / 64)).isSome := by
  unfold sliceFill
  dsimp only
  split
  · exact .inl rfl
  · split
    · exact .inr (by simp [State.modMem])
    · split
      · exact .inl rfl
      · exact .inr (by simp [State.modMem])

/-- Once a home has been reached for a word, it is ready for it. -/
theorem ready_touchMem (s : State) (pa pl g : Nat) (uc : Bool) : Ready (touchMem s pa pl g uc) pa := by
  unfold touchMem
  dsimp only
  split
  · exact .inl ‹_›
  · have h : ∀ u z : State, z = (if mscOn u (paAddr pa) then mscFill u pa else spendLine u pa) → Ready z pa := by
      rintro u z rfl
      split
      · exact .inr (mscFill_ready _ _)
      · rename_i hm
        refine .inr (.inl ?_)
        have := (homeOnly_spendLine u pa).keys
        unfold mscOn at hm ⊢
        rw [this]
        simpa using hm
    have hz := h (noteKey (noteFirst s pa pl g) pa) _ rfl
    generalize (if mscOn (noteKey (noteFirst s pa pl g) pa) (paAddr pa) then mscFill (noteKey (noteFirst s pa pl g) pa) pa
          else spendLine (noteKey (noteFirst s pa pl g) pa) pa) = z at hz
    split
    · exact hz
    · rcases sliceFill_cases z pa (sliceOf z pa pl) with e | e
      · rw [e]
        exact hz
      · exact .inl e

/-! ### A write leaves every word of other lines -/

theorem has_add (l : Spans) (lo hi a : Nat) : Spans.has (Spans.add l lo hi) a = (decide (lo ≤ a ∧ a < hi) || Spans.has l a) := by
  induction l generalizing lo hi with
  | nil => simp [Spans.add, Spans.has]
  | cons e r ih =>
    obtain ⟨x, y⟩ := e
    unfold Spans.add
    split
    · simp [Spans.has]
    · split
      · have := ih lo hi
        simp only [Spans.has, List.any_cons] at this ⊢
        rw [this, ← Bool.or_assoc, ← Bool.or_assoc, Bool.or_comm (decide (x ≤ a ∧ a < y))]
      · rw [ih]
        simp only [Spans.has, List.any_cons, ← Bool.or_assoc]
        congr 1
        rw [← Bool.decide_or]
        congr 1
        ext
        omega

theorem rekeyLine_byte (s : State) (k b a : Nat) (h : a < b / 64 * 64 ∨ b / 64 * 64 + 64 ≤ a) :
    Memory.byte (rekeyLine s k b) a = Memory.byte s.mem.ram a := by
  unfold rekeyLine
  split
  · rfl
  · rename_i j _
    split
    · rfl
    · have key : ∀ (l : List Nat), (∀ i ∈ l, i < 8) → ∀ m : Memory, Memory.byte (l.foldl (fun m i =>
          let c := b / 64 * 64 + 8 * i
          if s.mem.written.has c then Memory.setWord m c (Config.cipher k j c (m.word c)) else m) m) a = Memory.byte m a := by
        intro l
        induction l with
        | nil => intros; rfl
        | cons i r ih =>
          intro hl m
          rw [List.foldl_cons, ih (fun j hj => hl j (List.mem_cons_of_mem _ hj))]
          have := hl i List.mem_cons_self
          dsimp only
          split
          · rw [byte_setWord_out]
            omega
          · rfl
      exact key (List.range 8) (fun i hi => List.mem_range.mp hi) _

theorem word_congr (m n : Memory) (a : Nat) (h : ∀ i, i < 8 → Memory.byte m (a + i) = Memory.byte n (a + i)) :
    Memory.word m a = Memory.word n a := by
  unfold Memory.word Memory.bytes
  congr 2
  exact List.map_congr_left fun i hi => h i (List.mem_range.mp hi)

theorem mediaWord_mediaPut (s : State) (pa q : Nat) (k : Nat) (v : Word) (hq : paAddr q % 8 = 0)
    (h : paAddr q / 64 ≠ paAddr pa / 64 ∧ paAddr q / 64 ≠ paAddr pa / 64 + 1) :
    mediaWord (mediaPut s pa v) k (paAddr q) = mediaWord s k (paAddr q) := by
  unfold mediaPut
  dsimp only
  split
  · rfl
  · rename_i j _
    generalize paAddr q = a at *
    generalize paAddr pa = b at *
    have hw : Memory.word ((rekeyLine s j b).setWord b v) a = Memory.word s.mem.ram a := by
      apply word_congr
      intro i hi
      rw [byte_setWord_out _ _ _ _ (by omega), rekeyLine_byte _ _ _ _ (by omega)]
    unfold mediaWord
    rw [show keyMat (s.modMem _) k = keyMat s k from rfl]
    split
    · rfl
    · simp only [State.modMem]
      have hs : (s.mem.written.add b (b + 8)).has a = s.mem.written.has a := by
        have : decide (b ≤ a ∧ a < b + 8) = false := by
          simp only [decide_eq_false_iff_not]
          omega
        rw [has_add, this, Bool.false_or]
      simp only [hs, find_put_ne _ _ _ _ h.1, hw]

theorem paAddr_mod8 (q : Nat) (h : q % 8 = 0) : paAddr q % 8 = 0 := by unfold paAddr; omega

theorem line_ne (p q : Nat) (h : paAddr q / 64 ≠ paAddr p / 64) : q / 64 ≠ p / 64 := by
  intro e
  apply h
  unfold paAddr
  omega

/-- A write at a home that is ready leaves every aligned word of other lines (R45). -/
theorem readLoc_writeMem (s : State) (pa : Nat) (v : Word) (w : Bool) (who : Nat × Nat) (l : Loc) (hr : Ready s pa) (ho : AwayFrom pa l) :
    readLoc (writeMem s pa v w who) l = readLoc s l := by
  have hh := homeOnly_writeMem s pa v w who
  cases l with
  | spad g p =>
    unfold readLoc
    rw [hh.rest]
    rfl
  | chart d o =>
    unfold readLoc
    rw [hh.chart]
  | mem q =>
    obtain ⟨hq, h1, h2⟩ := ho q rfl
    have hne := line_ne pa q h1
    unfold writeMem
    split
    · rfl
    · dsimp only
      have key : ∀ u : State, Ready u pa → readLoc (match Map.find u.mem.slines (pa / 64) with
          | some l => u.modMem fun m => { m with slines := Map.put m.slines (pa / 64) (l.put pa v who) }
          | none => backPut u pa v) (.mem q) = readLoc u (.mem q) := by
        intro u hu
        split
        · simp only [readLoc, readMem, State.modMem]
          rw [find_put_ne _ _ _ _ hne]
          rfl
        · rename_i hn
          have hf : mscFill u pa = u := by
            rcases hu with e | e
            · simp [hn] at e
            · exact mscFill_self u pa e
          unfold backPut
          rw [hf]
          dsimp only
          split
          · simp only [readLoc, readMem, State.modMem, backWord]
            rw [find_put_ne _ _ _ _ hne]
            rfl
          · have hp := homeOnly_mediaPut u pa v
            have hm : (mediaPut u pa v).mem.slines = u.mem.slines ∧ (mediaPut u pa v).mem.msc = u.mem.msc := by
              unfold mediaPut
              dsimp only
              split <;> exact ⟨rfl, rfl⟩
            simp only [readLoc, readMem, backWord]
            rw [hm.1, hm.2, mediaWord_mediaPut u pa q _ v (paAddr_mod8 q hq) ⟨h1, h2⟩]
            have ho : mscOn (mediaPut u pa v) (paAddr q) = mscOn u (paAddr q) := by
              unfold mscOn
              rw [hp.keys]
            rw [ho]
      cases w
      · exact key s hr
      · exact key (s.modMem fun m => { m with poison := m.poison.filter (· != paAddr pa) }) hr

/-! ### Taking a word over (R113) -/

/-- An owned bit that changes changes no cached word. -/
theorem cacheOwn_cores (s : State) (k : Nat) (l : Loc) (b : Bool) :
    cacheOwn s k l b = { s with cores := (cacheOwn s k l b).cores } ∧
      ∀ j, ((cacheOwn s k l b).core j).icache = (s.core j).icache ∧ ∀ m, cacheWord (cacheOwn s k l b) j m = cacheWord s j m := by
  unfold cacheOwn modLine
  split
  · exact ⟨rfl, fun _ => ⟨rfl, fun _ => rfl⟩⟩
  · rename_i c hc
    refine ⟨rfl, fun j => ?_⟩
    by_cases hj : j = k
    · subst hj
      refine ⟨by rw [modCore_same], fun m => ?_⟩
      unfold cacheWord
      rw [modCore_same]
      dsimp only
      by_cases hm : m.key / 64 = l.key / 64
      · rw [hm, find_put_same, hc]
      · rw [find_put_ne _ _ _ _ hm]
    · refine ⟨by rw [modCore_ne _ _ _ _ hj], fun m => ?_⟩
      unfold cacheWord
      rw [modCore_ne _ _ _ _ hj]

/-- Taking a word over changes the registry and one owned bit. -/
theorem takeOver_only (s : State) (l : Loc) (b : Option Nat) :
    takeOver s l b = { s with cores := (takeOver s l b).cores, mem := { s.mem with owner := (takeOver s l b).mem.owner } } ∧
      ∀ j, ((takeOver s l b).core j).icache = (s.core j).icache ∧ ∀ m, cacheWord (takeOver s l b) j m = cacheWord s j m := by
  unfold takeOver
  split
  · exact ⟨rfl, fun _ => ⟨rfl, fun _ => rfl⟩⟩
  · split
    · exact ⟨rfl, fun _ => ⟨rfl, fun _ => rfl⟩⟩
    · rename_i o _ _
      obtain ⟨h1, h2⟩ := cacheOwn_cores s o l false
      refine ⟨?_, h2⟩
      unfold dropOwner
      rw [h1]
      rfl

/-- No word at a home changes with it. -/
theorem readLoc_takeOver (s : State) (l m : Loc) (b : Option Nat) : readLoc (takeOver s l b) m = readLoc s m := by
  rw [(takeOver_only s l b).1]
  cases m <;> rfl

theorem ready_noteOld (s : State) (l : Loc) (who : Nat × Nat) (pa : Nat) (h : Ready s pa) : Ready (noteOld s l who) pa := by
  obtain ⟨_, _, e⟩ := noteOld_only s l who
  rw [e]
  exact h

theorem readLoc_noteOld (s : State) (l m : Loc) (who : Nat × Nat) : readLoc (noteOld s l who) m = readLoc s m := by
  obtain ⟨_, _, e⟩ := noteOld_only s l who
  rw [e]
  cases m <;> rfl

/-- The write of a context's merge at a home that is ready leaves every aligned word of other lines (R276). -/
theorem readLoc_engineWrite (s : State) (pa : Nat) (v : Word) (w : Bool) (n : Nat) (l : Loc) (hr : Ready s pa) (ho : AwayFrom pa l) :
    readLoc (engineWrite s (.mem pa) v w (0, n)) l = readLoc s l := by
  unfold engineWrite writeLoc
  dsimp only
  rw [if_neg (by decide), readLoc_takeOver, readLoc_writeMem _ _ _ _ _ _ (ready_noteOld _ _ _ _ hr) ho, readLoc_noteOld]

end Sys2Proof.Laws
end

