-- ==== Sys2Proof/Laws/Ops.lean ====
section
/-! SUPPORT. What the shared operations of a turn can do, said once: profiling counts, logbook events, completion, the gate
and the traps. Later proofs cite these instead of unfolding. -/

namespace Sys2Proof.Laws

open Sys2Proof.Machine

variable (s : State)

/-! ### Profiling counts touch the host's counters only -/

theorem count_eq (cell leaf idx n : Nat) : ∃ h, s.count cell leaf idx n = { s with host := h } := by
  unfold State.count State.countAt
  dsimp only
  split
  · exact ⟨s.host, rfl⟩
  · split
    · exact ⟨s.host, rfl⟩
    · split
      · exact ⟨s.host, rfl⟩
      · exact ⟨_, rfl⟩

@[simp] theorem count_cur (a b c n : Nat) : (s.count a b c n).cur = s.cur := by obtain ⟨h, e⟩ := count_eq s a b c n; rw [e]
@[simp] theorem count_turns (a b c n : Nat) : (s.count a b c n).turns = s.turns := by obtain ⟨h, e⟩ := count_eq s a b c n; rw [e]
@[simp] theorem count_agenda (a b c n : Nat) : (s.count a b c n).agenda = s.agenda := by obtain ⟨h, e⟩ := count_eq s a b c n; rw [e]
@[simp] theorem count_time (a b c n : Nat) : (s.count a b c n).time = s.time := by obtain ⟨h, e⟩ := count_eq s a b c n; rw [e]
@[simp] theorem count_fresh (a b c n : Nat) : (s.count a b c n).fresh = s.fresh := by obtain ⟨h, e⟩ := count_eq s a b c n; rw [e]
@[simp] theorem count_ctxs (a b c n : Nat) : (s.count a b c n).ctxs = s.ctxs := by obtain ⟨h, e⟩ := count_eq s a b c n; rw [e]
@[simp] theorem count_cores (a b c n : Nat) : (s.count a b c n).cores = s.cores := by obtain ⟨h, e⟩ := count_eq s a b c n; rw [e]
@[simp] theorem count_cells (a b c n : Nat) : (s.count a b c n).cells = s.cells := by obtain ⟨h, e⟩ := count_eq s a b c n; rw [e]
@[simp] theorem count_clusters (a b c n : Nat) : (s.count a b c n).clusters = s.clusters := by
  obtain ⟨h, e⟩ := count_eq s a b c n; rw [e]
@[simp] theorem count_mem (a b c n : Nat) : (s.count a b c n).mem = s.mem := by obtain ⟨h, e⟩ := count_eq s a b c n; rw [e]
@[simp] theorem count_accs (a b c n : Nat) : (s.count a b c n).accs = s.accs := by obtain ⟨h, e⟩ := count_eq s a b c n; rw [e]
@[simp] theorem count_posts (a b c n : Nat) : (s.count a b c n).posts = s.posts := by obtain ⟨h, e⟩ := count_eq s a b c n; rw [e]
@[simp] theorem count_ops (a b c n : Nat) : (s.count a b c n).ops = s.ops := by obtain ⟨h, e⟩ := count_eq s a b c n; rw [e]
@[simp] theorem count_walks (a b c n : Nat) : (s.count a b c n).walks = s.walks := by obtain ⟨h, e⟩ := count_eq s a b c n; rw [e]
@[simp] theorem count_mboxes (a b c n : Nat) : (s.count a b c n).mboxes = s.mboxes := by
  obtain ⟨h, e⟩ := count_eq s a b c n; rw [e]
@[simp] theorem count_reqs (a b c n : Nat) : (s.count a b c n).reqs = s.reqs := by obtain ⟨h, e⟩ := count_eq s a b c n; rw [e]
@[simp] theorem count_depMsgs (a b c n : Nat) : (s.count a b c n).depMsgs = s.depMsgs := by
  obtain ⟨h, e⟩ := count_eq s a b c n; rw [e]
@[simp] theorem count_faults (a b c n : Nat) : (s.count a b c n).faults = s.faults := by
  obtain ⟨h, e⟩ := count_eq s a b c n; rw [e]
@[simp] theorem count_dev (a b c n : Nat) : (s.count a b c n).dev = s.dev := by obtain ⟨h, e⟩ := count_eq s a b c n; rw [e]
@[simp] theorem count_ctx (a b c n j : Nat) : (s.count a b c n).ctx j = s.ctx j := by simp [State.ctx]
@[simp] theorem count_core (a b c n j : Nat) : (s.count a b c n).core j = s.core j := by simp [State.core]
@[simp] theorem count_cell (a b c n j : Nat) : (s.count a b c n).cell j = s.cell j := by simp [State.cell]
@[simp] theorem count_cluster (a b c n j : Nat) : (s.count a b c n).cluster j = s.cluster j := by simp [State.cluster]

/-! ### A logbook event touches the cell's log, its slot words' homes, one owned bit, counters and the fresh numbers -/

/-- The state of a machine but for what a logbook event may touch (R275, R276): cells, memory, one owned bit, fresh numbers, profiling
counters, and the counts of missing keys and corrected errors. -/
structure SameButLog (s t : State) : Prop where
  rest     : t = { s with cores := t.cores, cells := t.cells, mem := t.mem, fresh := t.fresh, host := t.host, dev := t.dev }
  counters : t.host = { s.host with counters := t.host.counters }
  keys     : t.dev = { s.dev with keyMiss := t.dev.keyMiss, ceCount := t.dev.ceCount }
  chart    : t.mem.chart = s.mem.chart
  cached   : ∀ k, (t.core k).icache = (s.core k).icache ∧ ∀ l, cacheWord t k l = cacheWord s k l

theorem SameButLog.refl : SameButLog s s := ⟨rfl, rfl, rfl, rfl, fun _ => ⟨rfl, fun _ => rfl⟩⟩

theorem SameButLog.trans {s t u : State} (h : SameButLog s t) (g : SameButLog t u) : SameButLog s u := by
  obtain ⟨h1, h2, h3, h4, h5⟩ := h
  obtain ⟨g1, g2, g3, g4, g5⟩ := g
  exact ⟨by rw [g1, h1], by rw [g2, h2], by rw [g3, h3], by rw [g4, h4],
    fun k => ⟨(g5 k).1.trans (h5 k).1, fun l => ((g5 k).2 l).trans ((h5 k).2 l)⟩⟩

theorem SameButLog.ctx_eq {s t : State} (h : SameButLog s t) (j : Nat) : t.ctx j = s.ctx j := by
  rw [h.rest]; rfl

theorem count_eq' (cell leaf idx n : Nat) :
    ∃ k, s.count cell leaf idx n = { s with host := { s.host with counters := k } } := by
  unfold State.count State.countAt
  dsimp only
  split
  · exact ⟨s.host.counters, rfl⟩
  · split
    · exact ⟨s.host.counters, rfl⟩
    · split
      · exact ⟨s.host.counters, rfl⟩
      · exact ⟨_, rfl⟩

theorem sameButLog_count (a b c n : Nat) : SameButLog s (s.count a b c n) := by
  obtain ⟨k, e⟩ := count_eq' s a b c n
  rw [e]
  exact ⟨rfl, rfl, rfl, rfl, fun _ => ⟨rfl, fun _ => rfl⟩⟩

theorem sameButLog_modCell (n : Nat) (f : CellSt → CellSt) : SameButLog s (s.modCell n f) :=
  ⟨rfl, rfl, rfl, rfl, fun _ => ⟨rfl, fun _ => rfl⟩⟩

theorem sameButLog_home {s t : State} (h : HomeOnly s t) : SameButLog s t := by
  refine ⟨?_, ?_, h.keys, h.chart, fun k => ⟨?_, fun l => ?_⟩⟩
  · rw [h.rest]
  · rw [h.rest]
  · rw [h.rest]
    rfl
  · rw [h.rest]
    rfl

theorem sameButLog_takeOver (l : Loc) (b : Option Nat) : SameButLog s (takeOver s l b) := by
  obtain ⟨h1, h2⟩ := takeOver_only s l b
  exact ⟨by rw [h1], by rw [h1], by rw [h1], by rw [h1], h2⟩

theorem sameButLog_engineWrite (pa : Nat) (v : Word) (w : Bool) (n : Nat) : SameButLog s (engineWrite s (.mem pa) v w (0, n)) := by
  unfold engineWrite writeLoc
  dsimp only
  rw [if_neg (by decide)]
  exact (sameButLog_home ((homeOnly_noteOld _ _ _).trans (homeOnly_writeMem _ _ _ _ _))).trans (sameButLog_takeOver _ _ _)

theorem sameButLog_mergeEntry (cell : Nat) (e : LogEntry) : SameButLog s (mergeEntry s cell e).1 := by
  unfold mergeEntry
  dsimp only
  have ht := sameButLog_home (homeOnly_touchMem s (slotPa s cell e.slot) (homePl s (slotPa s cell e.slot)) (clusterOfCell cell) false)
  rw [← plainTouch] at ht
  generalize plainTouch s (slotPa s cell e.slot) (clusterOfCell cell) = u at ht
  split
  · dsimp only
    exact (ht.trans (sameButLog_modCell u cell _)).trans (sameButLog_count _ _ _ _ _)
  · exact (ht.trans (sameButLog_engineWrite _ _ _ _ _)).trans (sameButLog_count _ _ _ _ _)

theorem sameButLog_putEntry (cell : Nat) (e : LogEntry) : SameButLog s (putEntry s cell e) := sameButLog_modCell _ _ _

theorem sameButLog_applyToEntry (cell : Nat) (e : LogEntry) (ev : LogEvent) : SameButLog s (applyToEntry s cell e ev) := by
  unfold applyToEntry
  dsimp only
  split
  · exact (sameButLog_modCell _ _ _).trans (sameButLog_count _ _ _ _ _)
  · split
    · exact (sameButLog_mergeEntry _ _ _).trans (sameButLog_putEntry _ _ _)
    · exact sameButLog_putEntry _ _ _

theorem sameButLog_fresh (n : Nat) : SameButLog s { s with fresh := n } := ⟨rfl, rfl, rfl, rfl, fun _ => ⟨rfl, fun _ => rfl⟩⟩

theorem sameButLog_evictLog (cell : Nat) : SameButLog s (evictLog s cell) := by
  unfold evictLog
  dsimp only
  split
  · exact .refl _
  · split
    · exact .refl _
    · rename_i v _
      split
      · exact ((sameButLog_mergeEntry s cell v).trans (sameButLog_modCell _ _ _)).trans (sameButLog_fresh _ _)
      · exact (sameButLog_modCell _ _ _).trans (sameButLog_fresh _ _)

theorem sameButLog_findLog (cell slot : Nat) : SameButLog s (findLog s cell slot).1 := by
  unfold findLog
  dsimp only
  split
  · exact .refl _
  · split
    · dsimp only
      exact (sameButLog_evictLog s cell).trans (sameButLog_modCell (evictLog s cell) cell _)
    · exact sameButLog_evictLog _ _

/-- A logbook event leaves contexts, clusters and everything in flight alone, and every word that a core caches (R275). -/
theorem sameButLog_logEvent (cell slot : Nat) (ev : LogEvent) : SameButLog s (logEvent s cell slot ev) := by
  unfold logEvent logReach
  dsimp only
  split
  · exact .refl _
  · split
    · exact sameButLog_modCell _ _ _
    · have hf := sameButLog_findLog s cell slot
      split
      · exact hf.trans (sameButLog_modCell _ _ _)
      · split
        · exact hf.trans (sameButLog_putEntry _ _ _)
        · exact hf.trans (sameButLog_applyToEntry _ _ _ _)

theorem sameButLog_logExit (cell : Nat) (e : Option (Nat × Nat)) : SameButLog s (logExit s cell e) := by
  unfold logExit
  split
  · exact .refl _
  · exact sameButLog_logEvent _ _ _ _

/-- So does one that is recorded outside its context's turns, until it reaches the cache. -/
theorem sameButLog_exitLate (c : Nat) (e : Option (Nat × Nat)) : SameButLog s (exitLate s c e) := by
  unfold exitLate
  split
  · exact .refl _
  · exact sameButLog_modCell _ _ _

/-! ### Completion (R216, R219, R229, R266) -/

/-- The context's record after a completion, but for the PC and the loop registers. -/
def finCtx (x : Ctx) (m : BitVec 32) (f : Ctx → Ctx) : Ctx :=
  { (f (x.clearS m).consumeArm).dropHints with arrived := false, bkSkip := false, ticket := none, midStop := false, walkErr := none }

/-- Away from a loop's end the PC moves to the following word and nothing else happens (R266). -/
theorem fallThrough_plain (c : Nat) (h : ¬ AtLoopEnd s c) :
    fallThrough s c = s.setCtx c { s.ctx c with pc := (s.ctx c).pc + 4 } := by
  unfold AtLoopEnd at h
  have hs : stepPc s c = s.setCtx c { s.ctx c with pc := (s.ctx c).pc + 4 } := by
    unfold stepPc
    dsimp only
    rw [if_neg h]
  have he : loopExit s c = none := by
    unfold loopExit
    dsimp only
    rw [if_neg fun e => h ⟨e.1, e.2.1⟩]
  unfold fallThrough
  rw [hs, he]
  rfl

/-- The step of the PC is a change of the running context's PC and loop registers. -/
theorem stepPc_same (c : Nat) :
    ∃ x : Ctx, x = { s.ctx c with pc := x.pc, loopCnt := x.loopCnt, loopSl := x.loopSl } ∧ stepPc s c = s.setCtx c x := by
  unfold stepPc
  dsimp only
  split
  · split
    · exact ⟨_, rfl, rfl⟩
    · exact ⟨_, rfl, rfl⟩
  · exact ⟨_, rfl, rfl⟩

/-- Fall-through in every case: it is a change of the running context's PC and loop registers, up to a logbook event. -/
theorem fallThrough_same (c : Nat) :
    ∃ x : Ctx, x = { s.ctx c with pc := x.pc, loopCnt := x.loopCnt, loopSl := x.loopSl } ∧
      SameButLog (s.setCtx c x) (fallThrough s c) := by
  obtain ⟨x, hx, e⟩ := stepPc_same s c
  refine ⟨x, hx, ?_⟩
  unfold fallThrough
  rw [e]
  exact sameButLog_logExit _ _ _

/-- A jump completes: the target is the PC, and `arrived` notes that no loop-back step was taken. -/
theorem finish_jump (c : Nat) (m : BitVec 32) (f : Ctx → Ctx) (t : Word) :
    finish s c m f (.jump t) =
      (s.count (cellOf c) 16 1 1).setCtx c { finCtx (s.ctx c) m f with pc := t, arrived := true } := rfl

/-- A completion that falls through, away from a loop's end. -/
theorem finish_fall (c : Nat) (m : BitVec 32) (f : Ctx → Ctx)
    (h : ¬ AtLoopEnd ((s.count (cellOf c) 16 1 1).setCtx c (finCtx (s.ctx c) m f)) c) :
    finish s c m f .fall =
      ((s.count (cellOf c) 16 1 1).setCtx c (finCtx (s.ctx c) m f)).setCtx c
        { finCtx (s.ctx c) m f with pc := (finCtx (s.ctx c) m f).pc + 4 } := by
  have := fallThrough_plain ((s.count (cellOf c) 16 1 1).setCtx c (finCtx (s.ctx c) m f)) c h
  simpa [finish, finCtx] using this

/-- Every completion is a change of the running context's record, up to profiling counts and a logbook event of a loop's exit. -/
theorem finish_same (c : Nat) (m : BitVec 32) (f : Ctx → Ctx) (n : NextPc) :
    ∃ x : Ctx, x = { finCtx (s.ctx c) m f with pc := x.pc, loopCnt := x.loopCnt, loopSl := x.loopSl, arrived := x.arrived, exits := x.exits } ∧
      SameButLog (s.setCtx c x) (finish s c m f n) := by
  obtain ⟨k, e⟩ := count_eq' s (cellOf c) 16 1 1
  cases n with
  | jump t =>
    refine ⟨{ finCtx (s.ctx c) m f with pc := t, arrived := true }, rfl, ?_⟩
    rw [finish_jump, e]
    exact ⟨rfl, rfl, rfl, rfl, fun _ => ⟨rfl, fun _ => rfl⟩⟩
  | fall =>
    obtain ⟨x, hx, hs⟩ := fallThrough_same ((s.count (cellOf c) 16 1 1).setCtx c (finCtx (s.ctx c) m f)) c
    refine ⟨x, ?_, ?_⟩
    · rw [setCtx_same] at hx
      rw [hx]
    · rw [show finish s c m f .fall = fallThrough ((s.count (cellOf c) 16 1 1).setCtx c (finCtx (s.ctx c) m f)) c from rfl]
      refine SameButLog.trans ?_ hs
      rw [e]
      exact ⟨congrArg (fun m => { s with host := { s.host with counters := k }, ctxs := m }) (put_put _ _ _ _), rfl, rfl, rfl,
        fun _ => ⟨rfl, fun _ => rfl⟩⟩
  | fallLater =>
    obtain ⟨x, hx, hs⟩ := stepPc_same ((s.count (cellOf c) 16 1 1).setCtx c (finCtx (s.ctx c) m f)) c
    refine ⟨x, ?_, ?_⟩
    · rw [setCtx_same] at hx
      rw [hx]
    · rw [show finish s c m f .fallLater = stepPc ((s.count (cellOf c) 16 1 1).setCtx c (finCtx (s.ctx c) m f)) c from rfl, hs, e]
      exact ⟨congrArg (fun m => { s with host := { s.host with counters := k }, ctxs := m }) (put_put _ _ _ _), rfl, rfl, rfl,
        fun _ => ⟨rfl, fun _ => rfl⟩⟩
  | fallOwing b =>
    let u := (s.count (cellOf c) 16 1 1).setCtx c (finCtx (s.ctx c) m f)
    obtain ⟨x, hx, hs⟩ := stepPc_same ((s.count (cellOf c) 16 1 1).setCtx c ((finCtx (s.ctx c) m f).owes b (loopExit u c))) c
    refine ⟨x, ?_, ?_⟩
    · rw [setCtx_same] at hx
      rw [hx]
      unfold Ctx.owes
      split <;> rfl
    · rw [show finish s c m f (.fallOwing b) =
        stepPc ((s.count (cellOf c) 16 1 1).setCtx c ((finCtx (s.ctx c) m f).owes b (loopExit u c))) c from rfl, hs, e]
      exact ⟨congrArg (fun m => { s with host := { s.host with counters := k }, ctxs := m }) (put_put _ _ _ _), rfl, rfl, rfl,
        fun _ => ⟨rfl, fun _ => rfl⟩⟩

end Sys2Proof.Laws
end

