-- ==== Sys2Proof/Laws/LogWords.lean ====
section
/-! SUPPORT. A logbook event changes the words at the homes only as reaching one word of the cell's image and writing it does: its own
slot's word or that of an entry that the cell holds (R275, R276). -/

namespace Sys2Proof.Laws

open Sys2Proof.Machine

/-- What a home reads depends on memory, clusters and device registers only. -/
theorem readLoc_congr (s t : State) (l : Loc) (h1 : t.mem = s.mem) (h2 : t.clusters = s.clusters) (h3 : t.dev = s.dev) :
    readLoc t l = readLoc s l := by
  cases l with
  | mem pa =>
    unfold readLoc readMem backWord mediaWord mscOn keyMat
    rw [h1, h3]
  | spad g p =>
    unfold readLoc State.cluster
    rw [h2]
  | chart d o =>
    unfold readLoc
    rw [h1]

theorem readLoc_modCell (s : State) (n : Nat) (f : CellSt → CellSt) (l : Loc) : readLoc (s.modCell n f) l = readLoc s l :=
  readLoc_congr _ _ _ rfl rfl rfl

theorem readLoc_count (s : State) (a b c n : Nat) (l : Loc) : readLoc (s.count a b c n) l = readLoc s l :=
  readLoc_congr _ _ _ (count_mem ..) (count_clusters ..) (count_dev ..)

/-- A merge is one reach of its slot's home and one write there (R276). -/
theorem readLoc_mergeEntry (s : State) (cell : Nat) (e : LogEntry) (l : Loc) (h : AwayFrom (slotPa s cell e.slot) l) :
    readLoc (mergeEntry s cell e).1 l = readLoc (plainTouch s (slotPa s cell e.slot) (clusterOfCell cell)) l := by
  unfold mergeEntry
  dsimp only
  have hr : Ready (plainTouch s (slotPa s cell e.slot) (clusterOfCell cell)) (slotPa s cell e.slot) := ready_touchMem ..
  have ht : plainTouch s (slotPa s cell e.slot) (clusterOfCell cell) = _ := (homeOnly_touchMem s _ _ _ false).rest
  have hp : slotPa (plainTouch s (slotPa s cell e.slot) (clusterOfCell cell)) cell e.slot = slotPa s cell e.slot := by
    rw [ht]
    rfl
  rw [hp]
  generalize plainTouch s (slotPa s cell e.slot) (clusterOfCell cell) = u at hr
  split
  · dsimp only
    rw [readLoc_count, readLoc_modCell]
  · dsimp only
    rw [readLoc_count, readLoc_engineWrite _ _ _ _ _ _ hr h]

theorem applyEvent_slot (e : LogEntry) (ev : LogEvent) : (e.applyEvent ev).slot = e.slot := rfl

/-- The words after a change that concerns the logbook: all as before, or as one merge of one of these slots leaves them. -/
def WordsAs (s t : State) (cell : Nat) (slots : List Nat) : Prop :=
  (∀ l, readLoc t l = readLoc s l) ∨ ∃ n ∈ slots, ∀ l, AwayFrom (slotPa s cell n) l →
    readLoc t l = readLoc (plainTouch s (slotPa s cell n) (clusterOfCell cell)) l

/-- Neither does a change that no home sees. -/
theorem WordsAs.then {s t u : State} {cell : Nat} {slots : List Nat} (h : WordsAs s t cell slots)
    (g : ∀ l, readLoc u l = readLoc t l) : WordsAs s u cell slots := by
  rcases h with h | ⟨n, hn, h⟩
  · exact .inl fun l => (g l).trans (h l)
  · exact .inr ⟨n, hn, fun l hl => (g l).trans (h l hl)⟩

theorem wordsAs_applyToEntry (s : State) (cell : Nat) (e : LogEntry) (ev : LogEvent) :
    WordsAs s (applyToEntry s cell e ev) cell [e.slot] := by
  unfold applyToEntry
  dsimp only
  split
  · exact .inl fun l => by rw [readLoc_count, readLoc_modCell]
  · split
    · exact .inr ⟨e.slot, List.mem_singleton_self _, fun l hl => by
        unfold putEntry
        rw [readLoc_modCell, readLoc_mergeEntry s cell (e.applyEvent ev) l hl]
        rfl⟩
    · exact .inl fun l => readLoc_modCell _ _ _ _

theorem wordsAs_evictLog (s : State) (cell : Nat) : WordsAs s (evictLog s cell) cell ((s.cell cell).log.map (·.slot)) := by
  unfold evictLog
  dsimp only
  split
  · exact .inl fun _ => rfl
  · split
    · exact .inl fun _ => rfl
    · rename_i v hv
      have hm := (List.mem_filter.mp (List.mem_of_getElem? hv)).1
      have hf : ∀ (u : State) n l, readLoc { u with fresh := n } l = readLoc u l := fun u n l => readLoc_congr _ _ _ rfl rfl rfl
      split
      · exact .inr ⟨v.slot, List.mem_map_of_mem hm, fun l hl => by
          rw [hf, readLoc_modCell, readLoc_mergeEntry s cell v l hl]⟩
      · exact .inl fun l => by rw [hf, readLoc_modCell]

/-- The entry of a slot is the one that the cell holds, or a new one that is being fetched (R275). -/
theorem findLog_cases (s : State) (cell slot : Nat) :
    (∃ e, e.slot = slot ∧ findLog s cell slot = (s, some e)) ∨
    (WordsAs s (findLog s cell slot).1 cell ((s.cell cell).log.map (·.slot)) ∧
      ∀ e, (findLog s cell slot).2 = some e → e.fetching = true) := by
  unfold findLog
  split
  · rename_i e he
    exact .inl ⟨e, by simpa using List.find?_some he, rfl⟩
  · dsimp only
    have hw := wordsAs_evictLog s cell
    split
    · refine .inr ⟨hw.then fun l => readLoc_modCell _ _ _ _, fun e he => ?_⟩
      cases he
      rfl
    · exact .inr ⟨hw, fun e he => by cases he⟩

/-- A logbook event changes words as one merge at most (R275, R276). -/
theorem wordsAs_logEvent (s : State) (cell slot : Nat) (ev : LogEvent) :
    WordsAs s (logEvent s cell slot ev) cell (slot :: (s.cell cell).log.map (·.slot)) := by
  unfold logEvent logReach
  split
  · exact .inl fun _ => rfl
  · dsimp only
    split
    · exact .inl fun l => readLoc_modCell _ _ _ _
    · rcases findLog_cases s cell slot with ⟨e, he, hf⟩ | ⟨hw, hf⟩
      · rw [hf]
        dsimp only
        split
        · exact .inl fun l => readLoc_modCell _ _ _ _
        · rcases wordsAs_applyToEntry s cell e ev with h | ⟨n, hn, h⟩
          · exact .inl h
          · rw [List.mem_singleton.mp hn] at h
            exact .inr ⟨e.slot, by simp [he], h⟩
      · have hw' : WordsAs s (findLog s cell slot).1 cell (slot :: (s.cell cell).log.map (·.slot)) := by
          rcases hw with h | ⟨n, hn, h⟩
          · exact .inl h
          · exact .inr ⟨n, List.mem_cons_of_mem _ hn, h⟩
        split
        · exact hw'.then fun l => readLoc_modCell _ _ _ _
        · rename_i e he
          rw [if_pos (hf e he)]
          exact hw'.then fun l => readLoc_modCell _ _ _ _

end Sys2Proof.Laws
end

