-- ==== Sys2Proof/Laws/Frames.lean ====
section
/-! SUPPORT. The gate passes a clear instruction; what observing an operation changes; and the frame of a completion that
writes registers only, in the terms of Safety. -/

namespace Sys2Proof.Laws

open Sys2Proof.Machine

variable (s : State)

/-! ### The gate (R231) -/

/-- A clear instruction passes the gate and has its own effect. -/
theorem gated_clear (g : Gate) (k : State → State) (hc : Clear s g.op g.owner g.srcs g.plain)
    (ht : g.ta = true → kindOf s.cur = .a) (hl : g.legal = true) : gated s g k = k (observe s s.cur (sMask g.srcs)) := by
  have hw : (g.srcs.any (fun a => (s.ctx s.cur).isBusy (a % 32)) || g.plain.any (fun r => (s.ctx s.cur).isBusy r)) = false := by
    simp only [Bool.or_eq_false_iff, List.any_eq_false]
    exact ⟨fun a ha => by simpa [State.me] using hc.idle (a % 32) (.inr (List.mem_map_of_mem ha)),
      fun r hr => by simpa [State.me] using hc.idle r (.inl hr)⟩
  have hp : (g.srcs.find? fun a => decide (a ≥ 32) && !(s.ctx s.cur).isFull (a % 32)) = none := by
    simp only [List.find?_eq_none]
    intro a ha
    by_cases h32 : 32 ≤ a
    · simpa [h32, State.me] using hc.full a ha h32
    · simp [h32]
  have ho : ¬ (g.owner ≠ none ∧ g.owner ≠ some (kindOf s.cur)) := by
    rcases hc.home with h | h <;> simp [h]
  have hta : ¬ (g.ta = true ∧ kindOf s.cur ≠ .a) := fun h => h.2 (ht h.1)
  unfold gated gateRes
  simp only [hc.shown, Bool.false_eq_true, if_false, if_neg ho, if_neg hta, hl, not_true, hw, hp]

/-! ### Observing (R106) -/

@[simp] theorem acquireDone_ctx (k c : Nat) : (acquireDone s k).ctx c = s.ctx c := rfl

/-- Noting what a context has observed changes its core's record of it and the count of moments. -/
theorem noteSeen_rest (c : Nat) (l : List Nat) : noteSeen s c l = { s with cores := (noteSeen s c l).cores, fresh := (noteSeen s c l).fresh } := by
  unfold noteSeen
  split <;> rfl

theorem noteSeen_core (c j : Nat) (l : List Nat) (h : j ≠ coreOf c) : (noteSeen s c l).core j = s.core j := by
  unfold noteSeen
  split
  · rfl
  · rw [bump_core_eq]
    exact modCore_ne _ _ _ _ h

theorem acquireDone_core (k j : Nat) (h : j ≠ k) : (acquireDone s k).core j = s.core j := by
  unfold acquireDone selfInvalidate
  rw [modCore_ne _ _ _ _ h]

/-- What observing operations changes: the context's list of seen operations and the core's cache. -/
structure Observes (s t : State) (c : Nat) (m : BitVec 32) : Prop where
  rest   : t = { s with ctxs := t.ctxs, cores := t.cores, fresh := t.fresh }
  fresh  : ((s.ctx c).filled.filter fun e => m.getLsbD e.1).map (·.2) = [] → t.fresh = s.fresh
  ctx    : t.ctx c = { s.ctx c with seen := (t.ctx c).seen }
  others : ∀ j, j ≠ c → t.ctx j = s.ctx j
  cores  : ∀ k, k ≠ coreOf c ∨ ((s.ctx c).filled.filter fun e => m.getLsbD e.1).map (·.2) = [] → t.core k = s.core k

theorem observes (c : Nat) (m : BitVec 32) : Observes s (observe s c m) c m := by
  unfold observe
  dsimp only
  split
  · exact ⟨rfl, fun _ => rfl, rfl, fun _ _ => rfl, fun _ _ => rfl⟩
  · rename_i h
    refine ⟨?_, fun e => absurd e h, ?_, ?_, ?_⟩
    · unfold acquireDone selfInvalidate
      rw [noteSeen_rest]
      rfl
    · rw [acquireDone_ctx, setCtx_same]
    · intro j hj
      rw [acquireDone_ctx, setCtx_ne _ _ _ _ hj, noteSeen_rest]
      rfl
    · intro k hk
      rcases hk with hk | hk
      · rw [acquireDone_core _ _ _ hk]
        exact noteSeen_core _ _ _ _ hk
      · exact absurd hk h

/-! ### The frame of a completion (R216, R219, R229, R266) -/

/-- A change of the running context that writes registers and what stands beside them only. -/
def RegsOnly (f : Ctx → Ctx) : Prop :=
  ∀ x, f x = { x with regs := (f x).regs, full := (f x).full, busy := (f x).busy, tokens := (f x).tokens,
                      filled := (f x).filled, divs := (f x).divs, clears := (f x).clears }

theorem regsOnly_setS (n : Nat) (v : Word) : RegsOnly (fun x => x.setS n v) := by
  intro x
  simp only [Ctx.setS]
  split <;> rfl

theorem regsOnly_setBusy (n : Nat) : RegsOnly (fun x => x.setBusy n) := by
  intro x
  simp only [Ctx.setBusy]
  split <;> rfl

theorem regsOnly_id : RegsOnly id := fun _ => rfl

/-- The record that an instruction's register writes start from: synchronised reads cleared, ARM consumed. -/
def baseCtx (s : State) (srcs : List Nat) : Ctx := (((observe s s.cur (sMask srcs)).me).clearS (sMask srcs)).consumeArm

/-- A field reads as it was written. -/
theorem fieldN_setField_same (v : Word) (lo w x : Nat) (h : lo + w ≤ 64) : fieldN (setField v lo w x) lo w = x % 2 ^ w := by
  have hv := v.isLt
  have hp : 2 ^ 64 = 2 ^ (64 - lo - w) * (2 ^ w * 2 ^ lo) := by
    rw [← Nat.pow_add, ← Nat.pow_add]
    congr 1
    omega
  have hlo : 0 < 2 ^ lo := Nat.two_pow_pos lo
  have hw : 0 < 2 ^ w := Nat.two_pow_pos w
  have hx := Nat.mod_lt x hw
  simp only [fieldN, setField, bitsAt, BitVec.toNat_ofNat]
  generalize v.toNat = n at hv ⊢
  have e1 : n = n / 2 ^ lo / 2 ^ w * (2 ^ w * 2 ^ lo) + n / 2 ^ lo % 2 ^ w * 2 ^ lo + n % 2 ^ lo := by
    have a := Nat.div_add_mod n (2 ^ lo)
    have b := Nat.div_add_mod (n / 2 ^ lo) (2 ^ w)
    generalize n / 2 ^ lo = q at a b ⊢
    calc n = 2 ^ lo * q + n % 2 ^ lo := a.symm
      _ = 2 ^ lo * (2 ^ w * (q / 2 ^ w) + q % 2 ^ w) + n % 2 ^ lo := by rw [b]
      _ = _ := by
        rw [Nat.mul_add, Nat.mul_comm (2 ^ lo) (q % 2 ^ w), ← Nat.mul_assoc, Nat.mul_comm (2 ^ lo) (2 ^ w),
          Nat.mul_comm (2 ^ w * 2 ^ lo)]
  have hr := Nat.mod_lt n hlo
  have e2 : n - n / 2 ^ lo % 2 ^ w * 2 ^ lo + x % 2 ^ w * 2 ^ lo =
      2 ^ lo * (2 ^ w * (n / 2 ^ lo / 2 ^ w) + x % 2 ^ w) + n % 2 ^ lo := by
    rw [Nat.mul_add, ← Nat.mul_assoc, Nat.mul_comm (2 ^ lo) (2 ^ w), Nat.mul_comm (2 ^ w * 2 ^ lo), Nat.mul_comm (2 ^ lo) (x % 2 ^ w)]
    omega
  have hq : n / 2 ^ lo / 2 ^ w < 2 ^ (64 - lo - w) := by
    rw [Nat.div_div_eq_div_mul, Nat.div_lt_iff_lt_mul (Nat.mul_pos hlo hw), Nat.mul_comm (2 ^ lo)]
    omega
  rw [e2]
  generalize n / 2 ^ lo / 2 ^ w = q at hq ⊢
  have hlt : 2 ^ lo * (2 ^ w * q + x % 2 ^ w) + n % 2 ^ lo < 2 ^ 64 := by
    have h1 : 2 ^ w * q + x % 2 ^ w + 1 ≤ 2 ^ w * 2 ^ (64 - lo - w) := by
      have := Nat.mul_le_mul_left (2 ^ w) (show q + 1 ≤ 2 ^ (64 - lo - w) from hq)
      rw [Nat.mul_add] at this
      omega
    have h2 := Nat.mul_le_mul_left (2 ^ lo) h1
    have h3 : 2 ^ lo * (2 ^ w * 2 ^ (64 - lo - w)) = 2 ^ 64 := by
      rw [← Nat.pow_add, ← Nat.pow_add]
      congr 1
      omega
    rw [Nat.mul_add, h3] at h2
    omega
  rw [Nat.mod_eq_of_lt hlt, Nat.mul_add_div hlo, Nat.div_eq_of_lt hr, Nat.add_zero, Nat.mul_add_mod, Nat.mod_mod]

/-- Writing the high half leaves the low half. -/
theorem fieldN_low_setField_high (v : Word) (x : Nat) : fieldN (setField v 32 32 x) 0 32 = fieldN v 0 32 := by
  have hv := v.isLt
  have hx := Nat.mod_lt x (Nat.two_pow_pos 32)
  simp only [fieldN, setField, bitsAt, BitVec.toNat_ofNat]
  omega

/-- Fall-through case by case: which of its four ways it takes and the state it leaves (R266). -/
theorem fallThrough_cases (c : Nat) :
    (¬ AtLoopEnd s c ∧ fallThrough s c = s.setCtx c { s.ctx c with pc := (s.ctx c).pc + 4 }) ∨
    (AtLoopEnd s c ∧ 1 < fieldN (s.ctx c).loopCnt 0 32 ∧ fallThrough s c = s.setCtx c { s.ctx c with
        loopCnt := setField (setField (s.ctx c).loopCnt 0 32 (fieldN (s.ctx c).loopCnt 0 32 - 1)) 32 32
          (fieldN (s.ctx c).loopCnt 32 32 + 1),
        pc := codeAddr s c (fieldN (s.ctx c).loopPc 0 32) }) ∨
    (AtLoopEnd s c ∧ fieldN (s.ctx c).loopCnt 0 32 ≤ 1 ∧ ∃ u, u = s.setCtx c { s.ctx c with
        loopCnt := setField (s.ctx c).loopCnt 0 32 0, loopSl := setField (s.ctx c).loopSl 25 1 0, pc := (s.ctx c).pc + 4 } ∧
      ((fieldN (s.ctx c).loopSl 24 1 ≠ 1 ∧ fallThrough s c = u) ∨
       (fieldN (s.ctx c).loopSl 24 1 = 1 ∧ ∃ ev, fallThrough s c = logEvent u (cellOf c) (fieldN (s.ctx c).loopSl 0 24) ev))) := by
  by_cases h : AtLoopEnd s c
  · have h' := h
    unfold AtLoopEnd at h'
    unfold fallThrough stepPc loopExit
    dsimp only
    rw [if_pos h']
    by_cases h1 : 1 < fieldN (s.ctx c).loopCnt 0 32
    · rw [if_pos h1, if_neg (fun e => by have := e.2.2.1; omega)]
      exact .inr (.inl ⟨h, h1, rfl⟩)
    · rw [if_neg h1]
      refine .inr (.inr ⟨h, by omega, _, rfl, ?_⟩)
      by_cases h2 : fieldN (s.ctx c).loopSl 24 1 = 1
      · rw [if_pos ⟨h'.1, h'.2, by omega, h2⟩]
        exact .inr ⟨h2, .loop (fieldN (s.ctx c).loopCnt 32 32), rfl⟩
      · rw [if_neg (fun e => h2 e.2.2.2)]
        exact .inl ⟨h2, rfl⟩
  · exact .inl ⟨h, fallThrough_plain s c h⟩

/-- What an instruction leaves when it completes by falling through, having changed registers only. -/
structure CompletedRegs (s t : State) (srcs : List Nat) (f : Ctx → Ctx) : Prop where
  special : SpecialsKept s t
  outside : OutsideKept s t srcs
  pc      : FallsThrough s t
  regs    : t.me.regs = (f (baseCtx s srcs)).regs
  full    : t.me.full = (f (baseCtx s srcs)).full
  busy    : t.me.busy = (f (baseCtx s srcs)).busy
  tokens  : t.me.tokens = (f (baseCtx s srcs)).tokens
  filled  : t.me.filled = (f (baseCtx s srcs)).filled
  divs    : t.me.divs = (f (baseCtx s srcs)).divs
  clears  : t.me.clears = (f (baseCtx s srcs)).clears

theorem finish_frames (srcs : List Nat) (f : Ctx → Ctx) (hf : RegsOnly f) :
    CompletedRegs s (finish (observe s s.cur (sMask srcs)) (observe s s.cur (sMask srcs)).cur (sMask srcs) f .fall) srcs f := by
  have ho := observes s s.cur (sMask srcs)
  have hbase : baseCtx s srcs = (((observe s s.cur (sMask srcs)).ctx s.cur).clearS (sMask srcs)).consumeArm := by
    have : (observe s s.cur (sMask srcs)).cur = s.cur := by rw [ho.rest]
    simp only [baseCtx, State.me, this]
  rw [show (observe s s.cur (sMask srcs)).cur = s.cur by rw [ho.rest]]
  generalize hs1 : observe s s.cur (sMask srcs) = s1 at ho hbase
  obtain ⟨k, hk⟩ := count_eq' s1 (cellOf s.cur) 16 1 1
  have hx0 := ho.ctx
  generalize hy : finCtx (s1.ctx s.cur) (sMask srcs) f = y
  have hfin : finish s1 s.cur (sMask srcs) f .fall =
      fallThrough ({ s1 with host := { s1.host with counters := k } }.setCtx s.cur y) s.cur := by
    rw [← hy, ← hk]; rfl
  -- the record before the loop-back step
  have hyf : y = { s.me with
      regs := (f (baseCtx s srcs)).regs, full := (f (baseCtx s srcs)).full, busy := (f (baseCtx s srcs)).busy,
      tokens := (f (baseCtx s srcs)).tokens, filled := (f (baseCtx s srcs)).filled, divs := (f (baseCtx s srcs)).divs,
      clears := (f (baseCtx s srcs)).clears,
      waypt := setField s.me.waypt 59 1 0, hints := [], ignoring := false, arrived := false, bkSkip := false, ticket := none,
      midStop := false, walkErr := none, seen := (s1.ctx s.cur).seen } := by
    rw [← hy, hbase]
    unfold finCtx
    rw [hf (((s1.ctx s.cur).clearS (sMask srcs)).consumeArm)]
    rw [hx0]
    rfl
  generalize hu : ({ s1 with host := { s1.host with counters := k } } : State).setCtx s.cur y = u at hfin
  have huc : u.ctx s.cur = y := by rw [← hu, setCtx_same]
  have huo : ∀ j, j ≠ s.cur → u.ctx j = s.ctx j := fun j hj => by rw [← hu, setCtx_ne _ _ _ _ hj]; exact ho.others j hj
  have hcell : u.cells = s.cells := by rw [← hu, ho.rest]; rfl
  have hcelln : ∀ n, u.cell n = s.cell n := fun n => by simp only [State.cell, hcell]
  have hend : AtLoopEnd u s.cur ↔ AtLoopEnd s s.cur := by
    unfold AtLoopEnd wordOff
    rw [huc, hyf, hcelln]
    exact Iff.rfl
  have hrest : u = { s with ctxs := u.ctxs, cores := u.cores, fresh := u.fresh, host := u.host } := by rw [← hu, ho.rest]; rfl
  have hfro : u.fresh = (observe s s.cur (sMask srcs)).fresh := by rw [← hu, hs1]; rfl
  have hfr : observed s.me srcs = [] → u.fresh = s.fresh := fun h => by rw [← hu]; exact ho.fresh h
  have hcnt : u.host = { s.host with counters := u.host.counters } := by rw [← hu, ho.rest]; rfl
  have hcores : ∀ j, u.core j = s1.core j := fun j => by rw [← hu]; rfl
  have hcur : u.cur = s.cur := by rw [hrest]
  -- every way of falling through changes the PC and the loop registers of this record, then perhaps the logbook
  suffices h : ∃ z, z = { y with pc := z.pc, loopCnt := z.loopCnt, loopSl := z.loopSl } ∧
      ((finish s1 s.cur (sMask srcs) f .fall = u.setCtx s.cur z) ∨
       (LogsLoop s s.cur ∧ ∃ ev, finish s1 s.cur (sMask srcs) f .fall =
          logEvent (u.setCtx s.cur z) (cellOf s.cur) (fieldN s.me.loopSl 0 24) ev)) ∧
      (¬ AtLoopEnd s s.cur → z.pc = s.me.pc + 4 ∧ z.loopCnt = s.me.loopCnt ∧ z.loopSl = s.me.loopSl) ∧
      (AtLoopEnd s s.cur → 1 < fieldN s.me.loopCnt 0 32 →
            z.pc = codeAddr s s.cur (fieldN s.me.loopPc 0 32) ∧ z.loopSl = s.me.loopSl ∧
            fieldN z.loopCnt 0 32 = fieldN s.me.loopCnt 0 32 - 1) ∧
      (AtLoopEnd s s.cur → fieldN s.me.loopCnt 0 32 ≤ 1 →
            z.pc = s.me.pc + 4 ∧ fieldN z.loopCnt 0 32 = 0 ∧ fieldN z.loopSl 25 1 = 0) by
    obtain ⟨z, hz, ht, h1, h2, h3⟩ := h
    generalize finish s1 s.cur (sMask srcs) f .fall = t at ht
    have hsame : SameButLog (u.setCtx s.cur z) t := by
      rcases ht with e | ⟨_, ev, e⟩
      · rw [e]
        exact .refl _
      · rw [e]
        exact sameButLog_logEvent _ _ _ _
    have htcur : t.cur = s.cur := by rw [hsame.rest]; exact hcur
    have hme : t.me = z := by
      unfold State.me
      rw [htcur, hsame.ctx_eq, setCtx_same]
    have hz' := hz
    rw [hyf] at hz'
    refine ⟨?_, ?_, ⟨?_, ?_, ?_⟩, ?_, ?_, ?_, ?_, ?_, ?_, ?_⟩
    · refine ⟨⟨?_, ?_, ?_, ?_, ?_, ?_⟩, ?_⟩ <;> rw [hme, hz'] <;> simp
    · have hcore : ∀ j, j ≠ coreOf s.cur ∨ observed s.me srcs = [] → (u.setCtx s.cur z).core j = s.core j := by
        intro j hj
        have : (u.setCtx s.cur z).core j = u.core j := rfl
        rw [this, hcores]
        exact ho.cores j (hj.imp id fun h => h)
      refine ⟨?_, ?_, ?_, ?_, ?_, ?_, ?_, ?_⟩
      · rw [hsame.rest, hrest]
        rfl
      · intro j hj
        rw [hsame.ctx_eq, setCtx_ne _ _ _ _ hj, huo j hj]
      · intro j hj
        have hc := hcore j hj
        refine ⟨fun hn => ?_, ?_, fun l => ?_⟩
        · rcases ht with e | ⟨hl, _⟩
          · rw [e, hc]
          · exact absurd hl hn
        · rw [(hsame.cached j).1, hc]
        · rw [(hsame.cached j).2 l]
          unfold cacheWord
          rw [hc]
      · rw [hsame.counters, setCtx_host, hcnt]
      · rw [hsame.keys, setCtx_dev, hrest]
      · intro hn
        rcases ht with e | ⟨hl, _⟩
        · rw [e]
          refine ⟨?_, ?_, ?_, hfr⟩ <;> rw [hrest] <;> rfl
        · exact absurd hl hn
      · rw [hsame.chart, hrest]
        rfl
      · have hsw : u.setCtx s.cur z = swap (afterReads s srcs) (u.setCtx s.cur z) := by
          conv => lhs; rw [hrest]
          unfold swap
          rw [show (u.setCtx s.cur z).cells = s.cells from hcell, afterReads, ← hfro]
          rfl
        have hrd : ∀ l, readLoc (u.setCtx s.cur z) l = readLoc s l := fun l => by
          rw [hsw]
          exact readLoc_congr _ _ _ rfl rfl rfl
        rcases ht with e | ⟨hl, ev, e⟩
        · rw [e]
          exact .inl hrd
        · have hcl : (u.setCtx s.cur z).cell (cellOf s.cur) = s.myCell := hcelln _
          have hw := wordsAs_logEvent (u.setCtx s.cur z) (cellOf s.cur) (fieldN s.me.loopSl 0 24) ev
          rw [← e, hcl] at hw
          rcases hw with h | ⟨n, hn, h⟩
          · exact .inl fun l => (h l).trans (hrd l)
          · refine .inr ⟨n, List.mem_cons.mp hn, fun l hl => ?_⟩
            have hp : slotPa (u.setCtx s.cur z) (cellOf s.cur) n = slotPa s (cellOf s.cur) n := by
              unfold slotPa
              rw [hcl]
              rfl
            rw [hp] at h
            rw [h l hl, hsw, plainTouch, swap_touchMem]
            exact readLoc_congr _ _ _ rfl rfl rfl
    · intro h
      rw [hme]
      exact h1 h
    · intro h h'
      rw [hme]
      exact h2 h h'
    · intro h h'
      rw [hme]
      exact h3 h h'
    all_goals (rw [hme, hz'])
  have hyl : y.loopCnt = s.me.loopCnt ∧ y.loopSl = s.me.loopSl ∧ y.loopPc = s.me.loopPc ∧ y.pc = s.me.pc := by
    rw [hyf]
    exact ⟨rfl, rfl, rfl, rfl⟩
  have hc := fallThrough_cases u s.cur
  rw [huc, hend, hyl.1, hyl.2.1, hyl.2.2.1, hyl.2.2.2, ← hfin] at hc
  rcases hc with ⟨hn, e⟩ | ⟨hl, hgt, e⟩ | ⟨hl, hle, w, hw, e⟩
  · exact ⟨_, rfl, .inl e, fun _ => ⟨rfl, hyl.1, hyl.2.1⟩, fun h => absurd h hn, fun h => absurd h hn⟩
  · refine ⟨_, rfl, .inl e, fun h => absurd hl h, fun _ _ => ⟨?_, hyl.2.1, ?_⟩, fun _ h => by omega⟩
    · simp only [codeAddr, hcelln]
    · rw [fieldN_low_setField_high, fieldN_setField_same _ _ _ _ (by omega)]
      have : fieldN s.me.loopCnt 0 32 < 2 ^ 32 := by
        unfold fieldN bitsAt
        exact Nat.mod_lt _ (by decide)
      omega
  · refine ⟨{ y with loopCnt := setField s.me.loopCnt 0 32 0, loopSl := setField s.me.loopSl 25 1 0, pc := s.me.pc + 4 }, rfl, ?_,
      fun h => absurd hl h, fun _ h => by omega, fun _ _ => ⟨rfl, ?_, ?_⟩⟩
    · rcases e with ⟨h1, e⟩ | ⟨h1, ev, e⟩
      · exact .inl (e.trans hw)
      · exact .inr ⟨⟨hl, hle, h1⟩, ev, by rw [e, hw]⟩
    · rw [fieldN_setField_same _ _ _ _ (by omega)] <;> rfl
    · rw [fieldN_setField_same _ _ _ _ (by omega)] <;> rfl

/-! ### Registers after a write -/

theorem sMask_bit (srcs : List Nat) (r : Nat) (hr : r < 32) (h0 : r ≠ 0) (hs : ∀ a ∈ srcs, a < 64) :
    (sMask srcs).getLsbD r = srcs.contains (r + 32) := by
  induction srcs with
  | nil => simp [sMask]
  | cons a l ih =>
    have ha := hs a List.mem_cons_self
    have hl := ih fun b hb => hs b (List.mem_cons_of_mem _ hb)
    simp only [sMask, BitVec.getLsbD_or, hl, List.contains_cons]
    congr 1
    by_cases h : a ≥ 32 ∧ a % 32 ≠ 0
    · rw [if_pos h]
      by_cases he : a = r + 32
      · subst he
        simp [show (r + 32) % 32 = r by omega, hr]
      · have : (r + 32 == a) = false := by simpa using fun h => he h.symm
        rw [this, BitVec.getLsbD_shiftLeft]
        have hne : r ≠ a % 32 := by omega
        simp only [BitVec.getLsbD_one, Bool.and_eq_false_iff, decide_eq_false_iff_not, Bool.not_eq_false', decide_eq_true_eq]
        omega
    · rw [if_neg h]
      have : (r + 32 == a) = false := by simp; omega
      simp [this]

theorem setBit_getLsbD (v : BitVec 32) (n r : Nat) (b : Bool) (hn : n < 32) :
    (setBit v n b).getLsbD r = if r = n then b else v.getLsbD r := by
  unfold setBit
  cases b
  · simp only [Bool.false_eq_true, if_false, BitVec.getLsbD_and, BitVec.getLsbD_not, BitVec.getLsbD_shiftLeft,
      BitVec.getLsbD_one]
    split <;> rename_i h
    · subst h; simp [hn]
    · by_cases hr : r < 32
      · have : (decide (r < 32) && !decide (r < n) && decide (r - n = 0) && decide (0 < 32)) = false := by
          simp; omega
        simp [hr]
        omega
      · simp [hr, BitVec.getLsbD_of_ge v r (by omega)]
  · simp only [if_true, BitVec.getLsbD_or, BitVec.getLsbD_shiftLeft, BitVec.getLsbD_one]
    split <;> rename_i h
    · subst h; simp [hn]
    · simp
      omega

theorem getD_set (v : Vector Word 32) (n r : Nat) (x d : Word) (hn : n < 32) :
    (v.setIfInBounds n x).getD r d = if r = n then x else v.getD r d := by
  by_cases hr : r < 32
  · have h1 : (v.setIfInBounds n x).getD r d = (v.setIfInBounds n x)[r] := by
      simp only [Vector.getD, Array.getD]
      split
      · rfl
      · rename_i h; simp at h; omega
    have h2 : v.getD r d = v[r] := by simp [Vector.getD, hr]
    rw [h1, h2, Vector.getElem_setIfInBounds hr]
    simp only [eq_comm]
  · have h1 : (v.setIfInBounds n x).getD r d = d := by simp [Vector.getD, hr]
    have h2 : v.getD r d = d := by simp [Vector.getD, hr]
    rw [h1, h2, if_neg (by omega)]

/-- The register that SetS writes reads as written; others as before (R8). -/
theorem reg_setS (x : Ctx) (n r : Nat) (v : Word) (hn : n < 32) :
    (x.setS n v).reg r = if r = n ∧ n ≠ 0 then v else x.reg r := by
  unfold Ctx.setS Ctx.reg
  by_cases h0 : n = 0
  · simp [h0]
  · simp only [if_neg h0]
    rw [getD_set _ _ _ _ _ hn]
    by_cases hr : r = n
    · simp [hr, h0]
    · simp [hr]

theorem isFull_setS (x : Ctx) (n r : Nat) (v : Word) (hn : n < 32) :
    (x.setS n v).isFull r = if r = n then true else x.isFull r := by
  unfold Ctx.setS Ctx.isFull
  by_cases h0 : n = 0
  · simp only [h0, if_true]
    split <;> simp [*]
  · simp only [if_neg h0]
    rw [setBit_getLsbD _ _ _ _ hn]
    split <;> simp

theorem busy_setS (x : Ctx) (n : Nat) (v : Word) : (x.setS n v).busy = x.busy := by
  unfold Ctx.setS
  split <;> rfl

/-- Registers of the record that an instruction's writes start from. -/
theorem reg_baseCtx (srcs : List Nat) (r : Nat) : (baseCtx s srcs).reg r = s.me.reg r := by
  have ho := observes s s.cur (sMask srcs)
  have hc : (observe s s.cur (sMask srcs)).cur = s.cur := by rw [ho.rest]
  unfold baseCtx State.me
  rw [hc, ho.ctx]
  rfl

theorem isFull_baseCtx (srcs : List Nat) (r : Nat) (hr : r < 32) (h0 : r ≠ 0) (hs : ∀ a ∈ srcs, a < 64) :
    (baseCtx s srcs).isFull r = (s.me.isFull r && !srcs.contains (r + 32)) := by
  have ho := observes s s.cur (sMask srcs)
  have hc : (observe s s.cur (sMask srcs)).cur = s.cur := by rw [ho.rest]
  unfold baseCtx State.me
  rw [hc, ho.ctx]
  simp only [Ctx.clearS, Ctx.consumeArm, Ctx.isFull, BitVec.getLsbD_and, BitVec.getLsbD_not, sMask_bit srcs r hr h0 hs, hr]
  have : (r == 0) = false := by simpa using h0
  simp [this]

theorem busy_baseCtx (srcs : List Nat) : (baseCtx s srcs).busy = s.me.busy := by
  have ho := observes s s.cur (sMask srcs)
  have hc : (observe s s.cur (sMask srcs)).cur = s.cur := by rw [ho.rest]
  unfold baseCtx State.me
  rw [hc, ho.ctx]
  rfl

/-- An instruction whose meaning is a clear gate and one register write completes as YieldsReg says. -/
theorem yieldsReg_of (i : Instr) (srcs : List Nat) (d : BitVec 5) (v : Word) (hs : ∀ a ∈ srcs, a < 64)
    (h : exec i s = .next (finishReg (observe s s.cur (sMask srcs)) (sMask srcs) d v)) : YieldsReg i s srcs d v := by
  have hd := d.isLt
  have hf := finish_frames s srcs (fun x => x.setS d.toNat v) (regsOnly_setS _ _)
  refine ⟨_, h, ?_⟩
  unfold finishReg
  generalize finish (observe s s.cur (sMask srcs)) (observe s s.cur (sMask srcs)).cur (sMask srcs)
    (fun x => x.setS d.toNat v) .fall = t at hf
  have hreg : ∀ r, t.me.reg r = ((baseCtx s srcs).setS d.toNat v).reg r := fun r => by
    unfold Ctx.reg
    rw [hf.regs]
  have hful : ∀ r, t.me.isFull r = ((baseCtx s srcs).setS d.toNat v).isFull r := fun r => by
    unfold Ctx.isFull
    rw [hf.full]
  have hbus : ∀ r, t.me.isBusy r = s.me.isBusy r := fun r => by
    unfold Ctx.isBusy
    rw [hf.busy, busy_setS, busy_baseCtx]
  have hz : d = 0 ↔ d.toNat = 0 := by
    constructor
    · rintro rfl; rfl
    · intro e
      exact BitVec.eq_of_toNat_eq (by simpa using e)
  refine ⟨?_, ?_, hbus _, ⟨?_, ?_, fun r _ _ => hbus r⟩, hf.special, hf.outside, hf.pc⟩
  · rw [hreg, reg_setS _ _ _ _ hd]
    by_cases h0 : d.toNat = 0
    · rw [if_neg (by simp [h0]), if_pos (hz.mpr h0), h0]
      rfl
    · rw [if_pos ⟨rfl, h0⟩, if_neg (fun e => h0 (hz.mp e))]
  · rw [hful, isFull_setS _ _ _ _ hd]
    simp
  · intro r _ hr
    rw [hreg, reg_setS _ _ _ _ hd, if_neg (by simp [hr]), reg_baseCtx]
  · intro r hr h0 hne
    rw [hful, isFull_setS _ _ _ _ hd, if_neg hne, isFull_baseCtx s srcs r hr h0 hs]

end Sys2Proof.Laws
end

