-- ==== Sys2Proof/Laws/PerInstr.lean ====
section
/-! SUPPORT. The family EncodeDecode: for every instruction, decoding the word that the encoder writes gives the instruction
back, with every operand at every value its field admits (R219 to R232). One lemma per constructor; an event has no word. -/

namespace Sys2Proof.Laws.EncodeDecode

open Sys2Proof

set_option Elab.async false
set_option linter.unusedSimpArgs false

/-- Decoding inverts encoding. A word of fate FIELDS_ILLEGAL must be one whose fields name no instruction (R232). -/
def Statement (i : Instr) : Prop :=
  i.wellFormed = true → (∀ w, i = .fieldsIllegal w → fieldsRejected w = true) →
    ∀ n, encodeNat i = some n → n < 2 ^ 32 ∧ decode (.ofNat 32 n) = i

/-- A word whose raw reading is a well-formed instruction decodes to it. -/
theorem of_raw {i : Instr} {n : Nat} (hw : i.wellFormed = true) (op : Nat) (ha : opAssigned op = true)
    (hr : decodeRaw n = some i) (hb : n / 2 ^ 25 = op ∧ n < 2 ^ 32 - 1) : n < 2 ^ 32 ∧ decode (.ofNat 32 n) = i := by
  obtain ⟨hop, hn⟩ := hb
  have h0 : n ≠ 0 := by
    rintro rfl
    rw [← hop] at ha
    exact absurd ha (by decide)
  have hm : n % 2 ^ 32 = n := Nat.mod_eq_of_lt (by omega)
  refine ⟨by omega, ?_⟩
  simp only [decode, BitVec.toNat_ofNat, hm, hr, hop, ha, hw, reduceCtorEq, or_false]
  rw [if_neg (by omega)]
  rfl

/-- A field is what its bits hold. -/
theorem field {w : Nat} {d : BitVec w} {m : Nat} (h : m % 2 ^ w = d.toNat) : BitVec.ofNat w m = d :=
  BitVec.eq_of_toNat_eq (by simpa using h)

/-- A constructor without a word. -/
theorem no_word {i : Instr} (h : encodeNat i = none) : Statement i := by
  intro _ _ n hn
  rw [h] at hn
  cases hn

/-- Instruction words of fate UNASSIGNED_WORD (R231). -/
theorem unassignedWord (w : IWord) : Statement (.unassignedWord w) := by
  intro hw _ n hn
  cases hn
  refine ⟨w.isLt, ?_⟩
  rw [BitVec.ofNat_toNat, BitVec.setWidth_eq]
  exact if_pos (of_decide_eq_true hw)

/-- Instruction words of fate FIELDS_ILLEGAL (R232). -/
theorem fieldsIllegal (w : IWord) : Statement (.fieldsIllegal w) := by
  intro hw hr n hn
  cases hn
  refine ⟨w.isLt, ?_⟩
  have ha := of_decide_eq_true hw
  have hf := hr w rfl
  rw [BitVec.ofNat_toNat, BitVec.setWidth_eq]
  have h0 : w.toNat ≠ 0 := by
    intro h
    rw [h] at ha
    exact absurd ha.1 (by decide)
  have h1 : w.toNat ≠ 2 ^ 32 - 1 := by omega
  unfold decode
  have hn : ¬ (w.toNat = 0 ∨ w.toNat = 2 ^ 32 - 1 ∨ opAssigned (w.toNat / 2 ^ 25) = false) := by
    rintro (h | h | h)
    · exact h0 h
    · exact h1 h
    · rw [ha.1] at h
      cases h
  rw [if_neg hn]
  unfold fieldsRejected at hf
  split
  · rfl
  · rename_i i hi
    rw [hi] at hf
    simp only [Bool.not_eq_true'] at hf
    simp [hf]

/-- Hint words that are ignored (R226). -/
theorem ignoredHint (w : IWord) : Statement (.ignoredHint w) := by
  intro hw _ n hn
  cases hn
  have hlt := w.isLt
  have hh : w.toNat / 2 ^ 24 = 0xFE ∧ ((w.toNat / 2 ^ 22 % 4 = 1 ∧ w.toNat / 2 ^ 3 % 2 ^ 19 ≠ 0) ∨
    (w.toNat / 2 ^ 22 % 4 = 2 ∧ w.toNat / 2 ^ 2 % 2 ^ 20 ≠ 0)) := of_decide_eq_true hw
  have hop : w.toNat / 2 ^ 25 = 0x7F ∧ w.toNat < 2 ^ 32 - 1 := by omega
  refine of_raw hw 0x7F rfl ?_ hop
  have e : decodeOp7F w.toNat = .ignoredHint (.ofNat 32 w.toNat) := by
    unfold decodeOp7F
    rw [if_neg (by omega), if_neg (by omega)]
    rcases hh.2 with h | h
    · rw [if_pos h.1, if_neg h.2]
    · rw [if_neg (by omega), if_pos h.1, if_neg h.2]
  rw [BitVec.ofNat_toNat, BitVec.setWidth_eq] at e
  unfold decodeRaw
  rw [hop.1]
  exact congrArg some e

/-! The raw reading by major opcode (R230). -/

section
variable {n : Nat}

theorem raw_01 (h : n / 2 ^ 25 = 1) : decodeRaw n = decodeOp01 n := by
  unfold decodeRaw
  rw [h]
  rfl

theorem raw_02 (h : n / 2 ^ 25 = 2) : decodeRaw n = decodeOp02 n := by
  unfold decodeRaw
  rw [h]
  rfl

theorem raw_03 (h : n / 2 ^ 25 = 3) : decodeRaw n = decodeOp03 n := by
  unfold decodeRaw
  rw [h]
  rfl

theorem raw_04 (h : n / 2 ^ 25 = 4) : decodeRaw n = decodeOp04 n := by
  unfold decodeRaw
  rw [h]
  rfl

theorem raw_05 (h : n / 2 ^ 25 = 5) : decodeRaw n = decodeOp05 n := by
  unfold decodeRaw
  rw [h]
  rfl

theorem raw_06 (h : n / 2 ^ 25 = 6) : decodeRaw n = decodeOp06 n := by
  unfold decodeRaw
  rw [h]
  rfl

theorem raw_07 (h : n / 2 ^ 25 = 7) : decodeRaw n = decodeOp07 n := by
  unfold decodeRaw
  rw [h]
  rfl

theorem raw_08 (h : n / 2 ^ 25 = 8) : decodeRaw n = decodeOp08 n := by
  unfold decodeRaw
  rw [h]
  rfl

theorem raw_09 (h : n / 2 ^ 25 = 9) : decodeRaw n = decodeOp09 n := by
  unfold decodeRaw
  rw [h]
  rfl

theorem raw_0A (h : n / 2 ^ 25 = 10) : decodeRaw n = decodeOp0A n := by
  unfold decodeRaw
  rw [h]
  rfl

theorem raw_0B (h : n / 2 ^ 25 = 11) : decodeRaw n = decodeOp0B n := by
  unfold decodeRaw
  rw [h]
  rfl

theorem raw_0C (h : n / 2 ^ 25 = 12) : decodeRaw n = decodeOp0C n := by
  unfold decodeRaw
  rw [h]
  rfl

theorem raw_0D (h : n / 2 ^ 25 = 13) : decodeRaw n = decodeOp0D n := by
  unfold decodeRaw
  rw [h]
  rfl

theorem raw_10 (h : n / 2 ^ 25 = 16) : decodeRaw n = decodeOp10 n := by
  unfold decodeRaw
  rw [h]
  rfl

theorem raw_11 (h : n / 2 ^ 25 = 17) : decodeRaw n = decodeOp11 n := by
  unfold decodeRaw
  rw [h]
  rfl

theorem raw_12 (h : n / 2 ^ 25 = 18) : decodeRaw n = decodeOp12 n := by
  unfold decodeRaw
  rw [h]
  rfl

theorem raw_13 (h : n / 2 ^ 25 = 19) : decodeRaw n = decodeOp13 n := by
  unfold decodeRaw
  rw [h]
  rfl

theorem raw_14 (h : n / 2 ^ 25 = 20) : decodeRaw n = decodeOp14 n := by
  unfold decodeRaw
  rw [h]
  rfl

theorem raw_15 (h : n / 2 ^ 25 = 21) : decodeRaw n = decodeOp15 n := by
  unfold decodeRaw
  rw [h]
  rfl

theorem raw_16 (h : n / 2 ^ 25 = 22) : decodeRaw n = decodeOp16 n := by
  unfold decodeRaw
  rw [h]
  rfl

theorem raw_17 (h : n / 2 ^ 25 = 23) : decodeRaw n = decodeOp17 n := by
  unfold decodeRaw
  rw [h]
  rfl

theorem raw_18 (h : n / 2 ^ 25 = 24) : decodeRaw n = decodeOp18 n := by
  unfold decodeRaw
  rw [h]
  rfl

theorem raw_19 (h : n / 2 ^ 25 = 25) : decodeRaw n = decodeOp19 n := by
  unfold decodeRaw
  rw [h]
  rfl

theorem raw_1A (h : n / 2 ^ 25 = 26) : decodeRaw n = decodeOp1A n := by
  unfold decodeRaw
  rw [h]
  rfl

theorem raw_1B (h : n / 2 ^ 25 = 27) : decodeRaw n = decodeOp1B n := by
  unfold decodeRaw
  rw [h]
  rfl

theorem raw_1C (h : n / 2 ^ 25 = 28) : decodeRaw n = decodeOp1C n := by
  unfold decodeRaw
  rw [h]
  rfl

theorem raw_1D (h : n / 2 ^ 25 = 29) : decodeRaw n = decodeOp1D n := by
  unfold decodeRaw
  rw [h]
  rfl

theorem raw_1E (h : n / 2 ^ 25 = 30) : decodeRaw n = decodeOp1E n := by
  unfold decodeRaw
  rw [h]
  rfl

theorem raw_1F (h : n / 2 ^ 25 = 31) : decodeRaw n = decodeOp1F n := by
  unfold decodeRaw
  rw [h]
  rfl

theorem raw_20 (h : n / 2 ^ 25 = 32) : decodeRaw n = decodeOp20 n := by
  unfold decodeRaw
  rw [h]
  rfl

theorem raw_28 (h : n / 2 ^ 25 = 40) : decodeRaw n = decodeOp28 n := by
  unfold decodeRaw
  rw [h]
  rfl

theorem raw_29 (h : n / 2 ^ 25 = 41) : decodeRaw n = decodeOp29 n := by
  unfold decodeRaw
  rw [h]
  rfl

theorem raw_2A (h : n / 2 ^ 25 = 42) : decodeRaw n = decodeOp2A n := by
  unfold decodeRaw
  rw [h]
  rfl

theorem raw_2B (h : n / 2 ^ 25 = 43) : decodeRaw n = decodeOp2B n := by
  unfold decodeRaw
  rw [h]
  rfl

theorem raw_2C (h : n / 2 ^ 25 = 44) : decodeRaw n = decodeOp2C n := by
  unfold decodeRaw
  rw [h]
  rfl

theorem raw_2D (h : n / 2 ^ 25 = 45) : decodeRaw n = decodeOp2D n := by
  unfold decodeRaw
  rw [h]
  rfl

theorem raw_2E (h : n / 2 ^ 25 = 46) : decodeRaw n = decodeOp2E n := by
  unfold decodeRaw
  rw [h]
  rfl

theorem raw_2F (h : n / 2 ^ 25 = 47) : decodeRaw n = decodeOp2F n := by
  unfold decodeRaw
  rw [h]
  rfl

theorem raw_30 (h : n / 2 ^ 25 = 48) : decodeRaw n = decodeOp30 n := by
  unfold decodeRaw
  rw [h]
  rfl

theorem raw_31 (h : n / 2 ^ 25 = 49) : decodeRaw n = decodeOp31 n := by
  unfold decodeRaw
  rw [h]
  rfl

theorem raw_32 (h : n / 2 ^ 25 = 50) : decodeRaw n = decodeOp32 n := by
  unfold decodeRaw
  rw [h]
  rfl

theorem raw_33 (h : n / 2 ^ 25 = 51) : decodeRaw n = decodeOp33 n := by
  unfold decodeRaw
  rw [h]
  rfl

theorem raw_35 (h : n / 2 ^ 25 = 53) : decodeRaw n = decodeOp35 n := by
  unfold decodeRaw
  rw [h]
  rfl

theorem raw_36 (h : n / 2 ^ 25 = 54) : decodeRaw n = decodeOp36 n := by
  unfold decodeRaw
  rw [h]
  rfl

theorem raw_37 (h : n / 2 ^ 25 = 55) : decodeRaw n = decodeOp37 n := by
  unfold decodeRaw
  rw [h]
  rfl

theorem raw_38 (h : n / 2 ^ 25 = 56) : decodeRaw n = decodeOp38 n := by
  unfold decodeRaw
  rw [h]
  rfl

theorem raw_39 (h : n / 2 ^ 25 = 57) : decodeRaw n = decodeOp39 n := by
  unfold decodeRaw
  rw [h]
  rfl

theorem raw_40 (h : n / 2 ^ 25 = 64) : decodeRaw n = decodeOp40 n := by
  unfold decodeRaw
  rw [h]
  rfl

theorem raw_41 (h : n / 2 ^ 25 = 65) : decodeRaw n = decodeOp41 n := by
  unfold decodeRaw
  rw [h]
  rfl

theorem raw_42 (h : n / 2 ^ 25 = 66) : decodeRaw n = decodeOp42 n := by
  unfold decodeRaw
  rw [h]
  rfl

theorem raw_43 (h : n / 2 ^ 25 = 67) : decodeRaw n = decodeOp43 n := by
  unfold decodeRaw
  rw [h]
  rfl

theorem raw_44 (h : n / 2 ^ 25 = 68) : decodeRaw n = decodeOp44 n := by
  unfold decodeRaw
  rw [h]
  rfl

theorem raw_45 (h : n / 2 ^ 25 = 69) : decodeRaw n = decodeOp45 n := by
  unfold decodeRaw
  rw [h]
  rfl

theorem raw_46 (h : n / 2 ^ 25 = 70) : decodeRaw n = decodeOp46 n := by
  unfold decodeRaw
  rw [h]
  rfl

theorem raw_47 (h : n / 2 ^ 25 = 71) : decodeRaw n = decodeOp47 n := by
  unfold decodeRaw
  rw [h]
  rfl

theorem raw_48 (h : n / 2 ^ 25 = 72) : decodeRaw n = decodeOp48 n := by
  unfold decodeRaw
  rw [h]
  rfl

theorem raw_49 (h : n / 2 ^ 25 = 73) : decodeRaw n = decodeOp49 n := by
  unfold decodeRaw
  rw [h]
  rfl

theorem raw_4A (h : n / 2 ^ 25 = 74) : decodeRaw n = decodeOp4A n := by
  unfold decodeRaw
  rw [h]
  rfl

theorem raw_4B (h : n / 2 ^ 25 = 75) : decodeRaw n = decodeOp4B n := by
  unfold decodeRaw
  rw [h]
  rfl

theorem raw_4C (h : n / 2 ^ 25 = 76) : decodeRaw n = decodeOp4C n := by
  unfold decodeRaw
  rw [h]
  rfl

theorem raw_4D (h : n / 2 ^ 25 = 77) : decodeRaw n = decodeOp4D n := by
  unfold decodeRaw
  rw [h]
  rfl

theorem raw_4E (h : n / 2 ^ 25 = 78) : decodeRaw n = decodeOp4E n := by
  unfold decodeRaw
  rw [h]
  rfl

theorem raw_4F (h : n / 2 ^ 25 = 79) : decodeRaw n = decodeOp4F n := by
  unfold decodeRaw
  rw [h]
  rfl

theorem raw_50 (h : n / 2 ^ 25 = 80) : decodeRaw n = decodeOp50 n := by
  unfold decodeRaw
  rw [h]
  rfl

theorem raw_51 (h : n / 2 ^ 25 = 81) : decodeRaw n = decodeOp51 n := by
  unfold decodeRaw
  rw [h]
  rfl

theorem raw_52 (h : n / 2 ^ 25 = 82) : decodeRaw n = decodeOp52 n := by
  unfold decodeRaw
  rw [h]
  rfl

theorem raw_53 (h : n / 2 ^ 25 = 83) : decodeRaw n = decodeOp53 n := by
  unfold decodeRaw
  rw [h]
  rfl

theorem raw_54 (h : n / 2 ^ 25 = 84) : decodeRaw n = decodeOp54 n := by
  unfold decodeRaw
  rw [h]
  rfl

theorem raw_58 (h : n / 2 ^ 25 = 88) : decodeRaw n = decodeOp58 n := by
  unfold decodeRaw
  rw [h]
  rfl

theorem raw_59 (h : n / 2 ^ 25 = 89) : decodeRaw n = decodeOp59 n := by
  unfold decodeRaw
  rw [h]
  rfl

theorem raw_5A (h : n / 2 ^ 25 = 90) : decodeRaw n = decodeOp5A n := by
  unfold decodeRaw
  rw [h]
  rfl

theorem raw_5B (h : n / 2 ^ 25 = 91) : decodeRaw n = decodeOp5B n := by
  unfold decodeRaw
  rw [h]
  rfl

theorem raw_5C (h : n / 2 ^ 25 = 92) : decodeRaw n = decodeOp5C n := by
  unfold decodeRaw
  rw [h]
  rfl

theorem raw_5D (h : n / 2 ^ 25 = 93) : decodeRaw n = decodeOp5D n := by
  unfold decodeRaw
  rw [h]
  rfl

theorem raw_60 (h : n / 2 ^ 25 = 96) : decodeRaw n = decodeOp60 n := by
  unfold decodeRaw
  rw [h]
  rfl

theorem raw_61 (h : n / 2 ^ 25 = 97) : decodeRaw n = decodeOp61 n := by
  unfold decodeRaw
  rw [h]
  rfl

theorem raw_62 (h : n / 2 ^ 25 = 98) : decodeRaw n = decodeOp62 n := by
  unfold decodeRaw
  rw [h]
  rfl

theorem raw_63 (h : n / 2 ^ 25 = 99) : decodeRaw n = decodeOp63 n := by
  unfold decodeRaw
  rw [h]
  rfl

theorem raw_64 (h : n / 2 ^ 25 = 100) : decodeRaw n = decodeOp64 n := by
  unfold decodeRaw
  rw [h]
  rfl

theorem raw_65 (h : n / 2 ^ 25 = 101) : decodeRaw n = decodeOp65 n := by
  unfold decodeRaw
  rw [h]
  rfl

theorem raw_66 (h : n / 2 ^ 25 = 102) : decodeRaw n = decodeOp66 n := by
  unfold decodeRaw
  rw [h]
  rfl

theorem raw_67 (h : n / 2 ^ 25 = 103) : decodeRaw n = decodeOp67 n := by
  unfold decodeRaw
  rw [h]
  rfl

theorem raw_68 (h : n / 2 ^ 25 = 104) : decodeRaw n = decodeOp68 n := by
  unfold decodeRaw
  rw [h]
  rfl

theorem raw_69 (h : n / 2 ^ 25 = 105) : decodeRaw n = decodeOp69 n := by
  unfold decodeRaw
  rw [h]
  rfl

theorem raw_70 (h : n / 2 ^ 25 = 112) : decodeRaw n = decodeOp70 n := by
  unfold decodeRaw
  rw [h]
  rfl

theorem raw_71 (h : n / 2 ^ 25 = 113) : decodeRaw n = decodeOp71 n := by
  unfold decodeRaw
  rw [h]
  rfl

theorem raw_72 (h : n / 2 ^ 25 = 114) : decodeRaw n = decodeOp72 n := by
  unfold decodeRaw
  rw [h]
  rfl

theorem raw_76 (h : n / 2 ^ 25 = 118) : decodeRaw n = decodeOp76 n := by
  unfold decodeRaw
  rw [h]
  rfl

theorem raw_77 (h : n / 2 ^ 25 = 119) : decodeRaw n = decodeOp77 n := by
  unfold decodeRaw
  rw [h]
  rfl

theorem raw_78 (h : n / 2 ^ 25 = 120) : decodeRaw n = decodeOp78 n := by
  unfold decodeRaw
  rw [h]
  rfl

theorem raw_79 (h : n / 2 ^ 25 = 121) : decodeRaw n = decodeOp79 n := by
  unfold decodeRaw
  rw [h]
  rfl

theorem raw_7A (h : n / 2 ^ 25 = 122) : decodeRaw n = decodeOp7A n := by
  unfold decodeRaw
  rw [h]
  rfl

theorem raw_7C (h : n / 2 ^ 25 = 124) : decodeRaw n = decodeOp7C n := by
  unfold decodeRaw
  rw [h]
  rfl

theorem raw_7D (h : n / 2 ^ 25 = 125) : decodeRaw n = decodeOp7D n := by
  unfold decodeRaw
  rw [h]
  rfl

theorem raw_7F (h : n / 2 ^ 25 = 127) : decodeRaw n = some (decodeOp7F n) := by
  unfold decodeRaw
  rw [h]
  rfl

theorem raw_34 (h : n / 2 ^ 25 = 52) : decodeRaw n = decodeOp34 n := by
  unfold decodeRaw
  rw [h]
  rfl

theorem raw_73 (h : n / 2 ^ 25 = 115) : decodeRaw n = decodeOp73 n := by
  unfold decodeRaw
  rw [h]
  rfl

theorem raw_74 (h : n / 2 ^ 25 = 116) : decodeRaw n = decodeOp74 n := by
  unfold decodeRaw
  rw [h]
  rfl

theorem raw_75 (h : n / 2 ^ 25 = 117) : decodeRaw n = decodeOp75 n := by
  unfold decodeRaw
  rw [h]
  rfl

theorem raw_7B (h : n / 2 ^ 25 = 123) : decodeRaw n = decodeOp7B n := by
  unfold decodeRaw
  rw [h]
  rfl

end

theorem add (d : BitVec 5) (a : BitVec 6) (b : BitVec 6) : Statement (.add d a b) := by
  intro hw _ u hn
  have h0 := d.isLt
  have h1 := a.isLt
  have h2 := b.isLt
  replace hn : 33554432 + d.toNat * 2 ^ 20 + a.toNat * 2 ^ 14 + b.toNat * 2 ^ 8 = u := Option.some.inj hn
  have hop : u / 2 ^ 25 = 1 ∧ u < 2 ^ 32 - 1 := by omega
  refine of_raw hw 1 rfl ?_ hop
  rw [raw_01 hop.1]
  simp only [decodeOp01, show u % 2 ^ 8 = 0 by omega, Nat.reduceEqDiff, reduceIte, and_self, and_true, and_false, false_and]
  congr 2
  all_goals (apply field; omega)

theorem sub (d : BitVec 5) (a : BitVec 6) (b : BitVec 6) : Statement (.sub d a b) := by
  intro hw _ u hn
  have h0 := d.isLt
  have h1 := a.isLt
  have h2 := b.isLt
  replace hn : 33554433 + d.toNat * 2 ^ 20 + a.toNat * 2 ^ 14 + b.toNat * 2 ^ 8 = u := Option.some.inj hn
  have hop : u / 2 ^ 25 = 1 ∧ u < 2 ^ 32 - 1 := by omega
  refine of_raw hw 1 rfl ?_ hop
  rw [raw_01 hop.1]
  simp only [decodeOp01, show u % 2 ^ 8 = 1 by omega, Nat.reduceEqDiff, reduceIte, and_self, and_true, and_false, false_and]
  congr 2
  all_goals (apply field; omega)

theorem mul (d : BitVec 5) (a : BitVec 6) (b : BitVec 6) : Statement (.mul d a b) := by
  intro hw _ u hn
  have h0 := d.isLt
  have h1 := a.isLt
  have h2 := b.isLt
  replace hn : 33554434 + d.toNat * 2 ^ 20 + a.toNat * 2 ^ 14 + b.toNat * 2 ^ 8 = u := Option.some.inj hn
  have hop : u / 2 ^ 25 = 1 ∧ u < 2 ^ 32 - 1 := by omega
  refine of_raw hw 1 rfl ?_ hop
  rw [raw_01 hop.1]
  simp only [decodeOp01, show u % 2 ^ 8 = 2 by omega, Nat.reduceEqDiff, reduceIte, and_self, and_true, and_false, false_and]
  congr 2
  all_goals (apply field; omega)

theorem mulhI (d : BitVec 5) (a : BitVec 6) (b : BitVec 6) : Statement (.mulhI d a b) := by
  intro hw _ u hn
  have h0 := d.isLt
  have h1 := a.isLt
  have h2 := b.isLt
  replace hn : 33554435 + d.toNat * 2 ^ 20 + a.toNat * 2 ^ 14 + b.toNat * 2 ^ 8 = u := Option.some.inj hn
  have hop : u / 2 ^ 25 = 1 ∧ u < 2 ^ 32 - 1 := by omega
  refine of_raw hw 1 rfl ?_ hop
  rw [raw_01 hop.1]
  simp only [decodeOp01, show u % 2 ^ 8 = 3 by omega, Nat.reduceEqDiff, reduceIte, and_self, and_true, and_false, false_and]
  congr 2
  all_goals (apply field; omega)

theorem mulhN (d : BitVec 5) (a : BitVec 6) (b : BitVec 6) : Statement (.mulhN d a b) := by
  intro hw _ u hn
  have h0 := d.isLt
  have h1 := a.isLt
  have h2 := b.isLt
  replace hn : 33554436 + d.toNat * 2 ^ 20 + a.toNat * 2 ^ 14 + b.toNat * 2 ^ 8 = u := Option.some.inj hn
  have hop : u / 2 ^ 25 = 1 ∧ u < 2 ^ 32 - 1 := by omega
  refine of_raw hw 1 rfl ?_ hop
  rw [raw_01 hop.1]
  simp only [decodeOp01, show u % 2 ^ 8 = 4 by omega, Nat.reduceEqDiff, reduceIte, and_self, and_true, and_false, false_and]
  congr 2
  all_goals (apply field; omega)

theorem divI (d : BitVec 5) (a : BitVec 6) (b : BitVec 6) : Statement (.divI d a b) := by
  intro hw _ u hn
  have h0 := d.isLt
  have h1 := a.isLt
  have h2 := b.isLt
  replace hn : 33554437 + d.toNat * 2 ^ 20 + a.toNat * 2 ^ 14 + b.toNat * 2 ^ 8 = u := Option.some.inj hn
  have hop : u / 2 ^ 25 = 1 ∧ u < 2 ^ 32 - 1 := by omega
  refine of_raw hw 1 rfl ?_ hop
  rw [raw_01 hop.1]
  simp only [decodeOp01, show u % 2 ^ 8 = 5 by omega, Nat.reduceEqDiff, reduceIte, and_self, and_true, and_false, false_and]
  congr 2
  all_goals (apply field; omega)

theorem divN (d : BitVec 5) (a : BitVec 6) (b : BitVec 6) : Statement (.divN d a b) := by
  intro hw _ u hn
  have h0 := d.isLt
  have h1 := a.isLt
  have h2 := b.isLt
  replace hn : 33554438 + d.toNat * 2 ^ 20 + a.toNat * 2 ^ 14 + b.toNat * 2 ^ 8 = u := Option.some.inj hn
  have hop : u / 2 ^ 25 = 1 ∧ u < 2 ^ 32 - 1 := by omega
  refine of_raw hw 1 rfl ?_ hop
  rw [raw_01 hop.1]
  simp only [decodeOp01, show u % 2 ^ 8 = 6 by omega, Nat.reduceEqDiff, reduceIte, and_self, and_true, and_false, false_and]
  congr 2
  all_goals (apply field; omega)

theorem remI (d : BitVec 5) (a : BitVec 6) (b : BitVec 6) : Statement (.remI d a b) := by
  intro hw _ u hn
  have h0 := d.isLt
  have h1 := a.isLt
  have h2 := b.isLt
  replace hn : 33554439 + d.toNat * 2 ^ 20 + a.toNat * 2 ^ 14 + b.toNat * 2 ^ 8 = u := Option.some.inj hn
  have hop : u / 2 ^ 25 = 1 ∧ u < 2 ^ 32 - 1 := by omega
  refine of_raw hw 1 rfl ?_ hop
  rw [raw_01 hop.1]
  simp only [decodeOp01, show u % 2 ^ 8 = 7 by omega, Nat.reduceEqDiff, reduceIte, and_self, and_true, and_false, false_and]
  congr 2
  all_goals (apply field; omega)

theorem remN (d : BitVec 5) (a : BitVec 6) (b : BitVec 6) : Statement (.remN d a b) := by
  intro hw _ u hn
  have h0 := d.isLt
  have h1 := a.isLt
  have h2 := b.isLt
  replace hn : 33554440 + d.toNat * 2 ^ 20 + a.toNat * 2 ^ 14 + b.toNat * 2 ^ 8 = u := Option.some.inj hn
  have hop : u / 2 ^ 25 = 1 ∧ u < 2 ^ 32 - 1 := by omega
  refine of_raw hw 1 rfl ?_ hop
  rw [raw_01 hop.1]
  simp only [decodeOp01, show u % 2 ^ 8 = 8 by omega, Nat.reduceEqDiff, reduceIte, and_self, and_true, and_false, false_and]
  congr 2
  all_goals (apply field; omega)

theorem and (d : BitVec 5) (a : BitVec 6) (b : BitVec 6) : Statement (.and d a b) := by
  intro hw _ u hn
  have h0 := d.isLt
  have h1 := a.isLt
  have h2 := b.isLt
  replace hn : 33554448 + d.toNat * 2 ^ 20 + a.toNat * 2 ^ 14 + b.toNat * 2 ^ 8 = u := Option.some.inj hn
  have hop : u / 2 ^ 25 = 1 ∧ u < 2 ^ 32 - 1 := by omega
  refine of_raw hw 1 rfl ?_ hop
  rw [raw_01 hop.1]
  simp only [decodeOp01, show u % 2 ^ 8 = 16 by omega, Nat.reduceEqDiff, reduceIte, and_self, and_true, and_false, false_and]
  congr 2
  all_goals (apply field; omega)

theorem or (d : BitVec 5) (a : BitVec 6) (b : BitVec 6) : Statement (.or d a b) := by
  intro hw _ u hn
  have h0 := d.isLt
  have h1 := a.isLt
  have h2 := b.isLt
  replace hn : 33554449 + d.toNat * 2 ^ 20 + a.toNat * 2 ^ 14 + b.toNat * 2 ^ 8 = u := Option.some.inj hn
  have hop : u / 2 ^ 25 = 1 ∧ u < 2 ^ 32 - 1 := by omega
  refine of_raw hw 1 rfl ?_ hop
  rw [raw_01 hop.1]
  simp only [decodeOp01, show u % 2 ^ 8 = 17 by omega, Nat.reduceEqDiff, reduceIte, and_self, and_true, and_false, false_and]
  congr 2
  all_goals (apply field; omega)

theorem xor (d : BitVec 5) (a : BitVec 6) (b : BitVec 6) : Statement (.xor d a b) := by
  intro hw _ u hn
  have h0 := d.isLt
  have h1 := a.isLt
  have h2 := b.isLt
  replace hn : 33554450 + d.toNat * 2 ^ 20 + a.toNat * 2 ^ 14 + b.toNat * 2 ^ 8 = u := Option.some.inj hn
  have hop : u / 2 ^ 25 = 1 ∧ u < 2 ^ 32 - 1 := by omega
  refine of_raw hw 1 rfl ?_ hop
  rw [raw_01 hop.1]
  simp only [decodeOp01, show u % 2 ^ 8 = 18 by omega, Nat.reduceEqDiff, reduceIte, and_self, and_true, and_false, false_and]
  congr 2
  all_goals (apply field; omega)

theorem sll (d : BitVec 5) (a : BitVec 6) (b : BitVec 6) : Statement (.sll d a b) := by
  intro hw _ u hn
  have h0 := d.isLt
  have h1 := a.isLt
  have h2 := b.isLt
  replace hn : 33554456 + d.toNat * 2 ^ 20 + a.toNat * 2 ^ 14 + b.toNat * 2 ^ 8 = u := Option.some.inj hn
  have hop : u / 2 ^ 25 = 1 ∧ u < 2 ^ 32 - 1 := by omega
  refine of_raw hw 1 rfl ?_ hop
  rw [raw_01 hop.1]
  simp only [decodeOp01, show u % 2 ^ 8 = 24 by omega, Nat.reduceEqDiff, reduceIte, and_self, and_true, and_false, false_and]
  congr 2
  all_goals (apply field; omega)

theorem srl (d : BitVec 5) (a : BitVec 6) (b : BitVec 6) : Statement (.srl d a b) := by
  intro hw _ u hn
  have h0 := d.isLt
  have h1 := a.isLt
  have h2 := b.isLt
  replace hn : 33554457 + d.toNat * 2 ^ 20 + a.toNat * 2 ^ 14 + b.toNat * 2 ^ 8 = u := Option.some.inj hn
  have hop : u / 2 ^ 25 = 1 ∧ u < 2 ^ 32 - 1 := by omega
  refine of_raw hw 1 rfl ?_ hop
  rw [raw_01 hop.1]
  simp only [decodeOp01, show u % 2 ^ 8 = 25 by omega, Nat.reduceEqDiff, reduceIte, and_self, and_true, and_false, false_and]
  congr 2
  all_goals (apply field; omega)

theorem sra (d : BitVec 5) (a : BitVec 6) (b : BitVec 6) : Statement (.sra d a b) := by
  intro hw _ u hn
  have h0 := d.isLt
  have h1 := a.isLt
  have h2 := b.isLt
  replace hn : 33554458 + d.toNat * 2 ^ 20 + a.toNat * 2 ^ 14 + b.toNat * 2 ^ 8 = u := Option.some.inj hn
  have hop : u / 2 ^ 25 = 1 ∧ u < 2 ^ 32 - 1 := by omega
  refine of_raw hw 1 rfl ?_ hop
  rw [raw_01 hop.1]
  simp only [decodeOp01, show u % 2 ^ 8 = 26 by omega, Nat.reduceEqDiff, reduceIte, and_self, and_true, and_false, false_and]
  congr 2
  all_goals (apply field; omega)

theorem rol (d : BitVec 5) (a : BitVec 6) (b : BitVec 6) : Statement (.rol d a b) := by
  intro hw _ u hn
  have h0 := d.isLt
  have h1 := a.isLt
  have h2 := b.isLt
  replace hn : 33554459 + d.toNat * 2 ^ 20 + a.toNat * 2 ^ 14 + b.toNat * 2 ^ 8 = u := Option.some.inj hn
  have hop : u / 2 ^ 25 = 1 ∧ u < 2 ^ 32 - 1 := by omega
  refine of_raw hw 1 rfl ?_ hop
  rw [raw_01 hop.1]
  simp only [decodeOp01, show u % 2 ^ 8 = 27 by omega, Nat.reduceEqDiff, reduceIte, and_self, and_true, and_false, false_and]
  congr 2
  all_goals (apply field; omega)

theorem ror (d : BitVec 5) (a : BitVec 6) (b : BitVec 6) : Statement (.ror d a b) := by
  intro hw _ u hn
  have h0 := d.isLt
  have h1 := a.isLt
  have h2 := b.isLt
  replace hn : 33554460 + d.toNat * 2 ^ 20 + a.toNat * 2 ^ 14 + b.toNat * 2 ^ 8 = u := Option.some.inj hn
  have hop : u / 2 ^ 25 = 1 ∧ u < 2 ^ 32 - 1 := by omega
  refine of_raw hw 1 rfl ?_ hop
  rw [raw_01 hop.1]
  simp only [decodeOp01, show u % 2 ^ 8 = 28 by omega, Nat.reduceEqDiff, reduceIte, and_self, and_true, and_false, false_and]
  congr 2
  all_goals (apply field; omega)

theorem minI (d : BitVec 5) (a : BitVec 6) (b : BitVec 6) : Statement (.minI d a b) := by
  intro hw _ u hn
  have h0 := d.isLt
  have h1 := a.isLt
  have h2 := b.isLt
  replace hn : 33554464 + d.toNat * 2 ^ 20 + a.toNat * 2 ^ 14 + b.toNat * 2 ^ 8 = u := Option.some.inj hn
  have hop : u / 2 ^ 25 = 1 ∧ u < 2 ^ 32 - 1 := by omega
  refine of_raw hw 1 rfl ?_ hop
  rw [raw_01 hop.1]
  simp only [decodeOp01, show u % 2 ^ 8 = 32 by omega, Nat.reduceEqDiff, reduceIte, and_self, and_true, and_false, false_and]
  congr 2
  all_goals (apply field; omega)

theorem maxI (d : BitVec 5) (a : BitVec 6) (b : BitVec 6) : Statement (.maxI d a b) := by
  intro hw _ u hn
  have h0 := d.isLt
  have h1 := a.isLt
  have h2 := b.isLt
  replace hn : 33554465 + d.toNat * 2 ^ 20 + a.toNat * 2 ^ 14 + b.toNat * 2 ^ 8 = u := Option.some.inj hn
  have hop : u / 2 ^ 25 = 1 ∧ u < 2 ^ 32 - 1 := by omega
  refine of_raw hw 1 rfl ?_ hop
  rw [raw_01 hop.1]
  simp only [decodeOp01, show u % 2 ^ 8 = 33 by omega, Nat.reduceEqDiff, reduceIte, and_self, and_true, and_false, false_and]
  congr 2
  all_goals (apply field; omega)

theorem minN (d : BitVec 5) (a : BitVec 6) (b : BitVec 6) : Statement (.minN d a b) := by
  intro hw _ u hn
  have h0 := d.isLt
  have h1 := a.isLt
  have h2 := b.isLt
  replace hn : 33554466 + d.toNat * 2 ^ 20 + a.toNat * 2 ^ 14 + b.toNat * 2 ^ 8 = u := Option.some.inj hn
  have hop : u / 2 ^ 25 = 1 ∧ u < 2 ^ 32 - 1 := by omega
  refine of_raw hw 1 rfl ?_ hop
  rw [raw_01 hop.1]
  simp only [decodeOp01, show u % 2 ^ 8 = 34 by omega, Nat.reduceEqDiff, reduceIte, and_self, and_true, and_false, false_and]
  congr 2
  all_goals (apply field; omega)

theorem maxN (d : BitVec 5) (a : BitVec 6) (b : BitVec 6) : Statement (.maxN d a b) := by
  intro hw _ u hn
  have h0 := d.isLt
  have h1 := a.isLt
  have h2 := b.isLt
  replace hn : 33554467 + d.toNat * 2 ^ 20 + a.toNat * 2 ^ 14 + b.toNat * 2 ^ 8 = u := Option.some.inj hn
  have hop : u / 2 ^ 25 = 1 ∧ u < 2 ^ 32 - 1 := by omega
  refine of_raw hw 1 rfl ?_ hop
  rw [raw_01 hop.1]
  simp only [decodeOp01, show u % 2 ^ 8 = 35 by omega, Nat.reduceEqDiff, reduceIte, and_self, and_true, and_false, false_and]
  congr 2
  all_goals (apply field; omega)

theorem clz (d : BitVec 5) (a : BitVec 6) : Statement (.clz d a) := by
  intro hw _ u hn
  have h0 := d.isLt
  have h1 := a.isLt
  replace hn : 67108864 + d.toNat * 2 ^ 20 + a.toNat * 2 ^ 14 = u := Option.some.inj hn
  have hop : u / 2 ^ 25 = 2 ∧ u < 2 ^ 32 - 1 := by omega
  refine of_raw hw 2 rfl ?_ hop
  rw [raw_02 hop.1]
  simp only [decodeOp02, show u % 2 ^ 14 = 0 by omega, Nat.reduceEqDiff, reduceIte, and_self, and_true, and_false, false_and]
  congr 2
  all_goals (apply field; omega)

theorem ctz (d : BitVec 5) (a : BitVec 6) : Statement (.ctz d a) := by
  intro hw _ u hn
  have h0 := d.isLt
  have h1 := a.isLt
  replace hn : 67108865 + d.toNat * 2 ^ 20 + a.toNat * 2 ^ 14 = u := Option.some.inj hn
  have hop : u / 2 ^ 25 = 2 ∧ u < 2 ^ 32 - 1 := by omega
  refine of_raw hw 2 rfl ?_ hop
  rw [raw_02 hop.1]
  simp only [decodeOp02, show u % 2 ^ 14 = 1 by omega, Nat.reduceEqDiff, reduceIte, and_self, and_true, and_false, false_and]
  congr 2
  all_goals (apply field; omega)

theorem popc (d : BitVec 5) (a : BitVec 6) : Statement (.popc d a) := by
  intro hw _ u hn
  have h0 := d.isLt
  have h1 := a.isLt
  replace hn : 67108866 + d.toNat * 2 ^ 20 + a.toNat * 2 ^ 14 = u := Option.some.inj hn
  have hop : u / 2 ^ 25 = 2 ∧ u < 2 ^ 32 - 1 := by omega
  refine of_raw hw 2 rfl ?_ hop
  rw [raw_02 hop.1]
  simp only [decodeOp02, show u % 2 ^ 14 = 2 by omega, Nat.reduceEqDiff, reduceIte, and_self, and_true, and_false, false_and]
  congr 2
  all_goals (apply field; omega)

theorem sext1 (d : BitVec 5) (a : BitVec 6) : Statement (.sext1 d a) := by
  intro hw _ u hn
  have h0 := d.isLt
  have h1 := a.isLt
  replace hn : 67108868 + d.toNat * 2 ^ 20 + a.toNat * 2 ^ 14 = u := Option.some.inj hn
  have hop : u / 2 ^ 25 = 2 ∧ u < 2 ^ 32 - 1 := by omega
  refine of_raw hw 2 rfl ?_ hop
  rw [raw_02 hop.1]
  simp only [decodeOp02, show u % 2 ^ 14 = 4 by omega, Nat.reduceEqDiff, reduceIte, and_self, and_true, and_false, false_and]
  congr 2
  all_goals (apply field; omega)

theorem sext2 (d : BitVec 5) (a : BitVec 6) : Statement (.sext2 d a) := by
  intro hw _ u hn
  have h0 := d.isLt
  have h1 := a.isLt
  replace hn : 67108869 + d.toNat * 2 ^ 20 + a.toNat * 2 ^ 14 = u := Option.some.inj hn
  have hop : u / 2 ^ 25 = 2 ∧ u < 2 ^ 32 - 1 := by omega
  refine of_raw hw 2 rfl ?_ hop
  rw [raw_02 hop.1]
  simp only [decodeOp02, show u % 2 ^ 14 = 5 by omega, Nat.reduceEqDiff, reduceIte, and_self, and_true, and_false, false_and]
  congr 2
  all_goals (apply field; omega)

theorem sext4 (d : BitVec 5) (a : BitVec 6) : Statement (.sext4 d a) := by
  intro hw _ u hn
  have h0 := d.isLt
  have h1 := a.isLt
  replace hn : 67108870 + d.toNat * 2 ^ 20 + a.toNat * 2 ^ 14 = u := Option.some.inj hn
  have hop : u / 2 ^ 25 = 2 ∧ u < 2 ^ 32 - 1 := by omega
  refine of_raw hw 2 rfl ?_ hop
  rw [raw_02 hop.1]
  simp only [decodeOp02, show u % 2 ^ 14 = 6 by omega, Nat.reduceEqDiff, reduceIte, and_self, and_true, and_false, false_and]
  congr 2
  all_goals (apply field; omega)

theorem zext1 (d : BitVec 5) (a : BitVec 6) : Statement (.zext1 d a) := by
  intro hw _ u hn
  have h0 := d.isLt
  have h1 := a.isLt
  replace hn : 67108872 + d.toNat * 2 ^ 20 + a.toNat * 2 ^ 14 = u := Option.some.inj hn
  have hop : u / 2 ^ 25 = 2 ∧ u < 2 ^ 32 - 1 := by omega
  refine of_raw hw 2 rfl ?_ hop
  rw [raw_02 hop.1]
  simp only [decodeOp02, show u % 2 ^ 14 = 8 by omega, Nat.reduceEqDiff, reduceIte, and_self, and_true, and_false, false_and]
  congr 2
  all_goals (apply field; omega)

theorem zext2 (d : BitVec 5) (a : BitVec 6) : Statement (.zext2 d a) := by
  intro hw _ u hn
  have h0 := d.isLt
  have h1 := a.isLt
  replace hn : 67108873 + d.toNat * 2 ^ 20 + a.toNat * 2 ^ 14 = u := Option.some.inj hn
  have hop : u / 2 ^ 25 = 2 ∧ u < 2 ^ 32 - 1 := by omega
  refine of_raw hw 2 rfl ?_ hop
  rw [raw_02 hop.1]
  simp only [decodeOp02, show u % 2 ^ 14 = 9 by omega, Nat.reduceEqDiff, reduceIte, and_self, and_true, and_false, false_and]
  congr 2
  all_goals (apply field; omega)

theorem zext4 (d : BitVec 5) (a : BitVec 6) : Statement (.zext4 d a) := by
  intro hw _ u hn
  have h0 := d.isLt
  have h1 := a.isLt
  replace hn : 67108874 + d.toNat * 2 ^ 20 + a.toNat * 2 ^ 14 = u := Option.some.inj hn
  have hop : u / 2 ^ 25 = 2 ∧ u < 2 ^ 32 - 1 := by omega
  refine of_raw hw 2 rfl ?_ hop
  rw [raw_02 hop.1]
  simp only [decodeOp02, show u % 2 ^ 14 = 10 by omega, Nat.reduceEqDiff, reduceIte, and_self, and_true, and_false, false_and]
  congr 2
  all_goals (apply field; omega)

theorem cmpEq (d : BitVec 5) (a : BitVec 6) (b : BitVec 6) : Statement (.cmpEq d a b) := by
  intro hw _ u hn
  have h0 := d.isLt
  have h1 := a.isLt
  have h2 := b.isLt
  replace hn : 100663296 + d.toNat * 2 ^ 20 + a.toNat * 2 ^ 14 + b.toNat * 2 ^ 8 = u := Option.some.inj hn
  have hop : u / 2 ^ 25 = 3 ∧ u < 2 ^ 32 - 1 := by omega
  refine of_raw hw 3 rfl ?_ hop
  rw [raw_03 hop.1]
  simp only [decodeOp03, show u % 2 ^ 8 = 0 by omega, Nat.reduceEqDiff, reduceIte, and_self, and_true, and_false, false_and]
  congr 2
  all_goals (apply field; omega)

theorem cmpNe (d : BitVec 5) (a : BitVec 6) (b : BitVec 6) : Statement (.cmpNe d a b) := by
  intro hw _ u hn
  have h0 := d.isLt
  have h1 := a.isLt
  have h2 := b.isLt
  replace hn : 100663297 + d.toNat * 2 ^ 20 + a.toNat * 2 ^ 14 + b.toNat * 2 ^ 8 = u := Option.some.inj hn
  have hop : u / 2 ^ 25 = 3 ∧ u < 2 ^ 32 - 1 := by omega
  refine of_raw hw 3 rfl ?_ hop
  rw [raw_03 hop.1]
  simp only [decodeOp03, show u % 2 ^ 8 = 1 by omega, Nat.reduceEqDiff, reduceIte, and_self, and_true, and_false, false_and]
  congr 2
  all_goals (apply field; omega)

theorem cmpLtI (d : BitVec 5) (a : BitVec 6) (b : BitVec 6) : Statement (.cmpLtI d a b) := by
  intro hw _ u hn
  have h0 := d.isLt
  have h1 := a.isLt
  have h2 := b.isLt
  replace hn : 100663298 + d.toNat * 2 ^ 20 + a.toNat * 2 ^ 14 + b.toNat * 2 ^ 8 = u := Option.some.inj hn
  have hop : u / 2 ^ 25 = 3 ∧ u < 2 ^ 32 - 1 := by omega
  refine of_raw hw 3 rfl ?_ hop
  rw [raw_03 hop.1]
  simp only [decodeOp03, show u % 2 ^ 8 = 2 by omega, Nat.reduceEqDiff, reduceIte, and_self, and_true, and_false, false_and]
  congr 2
  all_goals (apply field; omega)

theorem cmpGeI (d : BitVec 5) (a : BitVec 6) (b : BitVec 6) : Statement (.cmpGeI d a b) := by
  intro hw _ u hn
  have h0 := d.isLt
  have h1 := a.isLt
  have h2 := b.isLt
  replace hn : 100663299 + d.toNat * 2 ^ 20 + a.toNat * 2 ^ 14 + b.toNat * 2 ^ 8 = u := Option.some.inj hn
  have hop : u / 2 ^ 25 = 3 ∧ u < 2 ^ 32 - 1 := by omega
  refine of_raw hw 3 rfl ?_ hop
  rw [raw_03 hop.1]
  simp only [decodeOp03, show u % 2 ^ 8 = 3 by omega, Nat.reduceEqDiff, reduceIte, and_self, and_true, and_false, false_and]
  congr 2
  all_goals (apply field; omega)

theorem cmpLtN (d : BitVec 5) (a : BitVec 6) (b : BitVec 6) : Statement (.cmpLtN d a b) := by
  intro hw _ u hn
  have h0 := d.isLt
  have h1 := a.isLt
  have h2 := b.isLt
  replace hn : 100663300 + d.toNat * 2 ^ 20 + a.toNat * 2 ^ 14 + b.toNat * 2 ^ 8 = u := Option.some.inj hn
  have hop : u / 2 ^ 25 = 3 ∧ u < 2 ^ 32 - 1 := by omega
  refine of_raw hw 3 rfl ?_ hop
  rw [raw_03 hop.1]
  simp only [decodeOp03, show u % 2 ^ 8 = 4 by omega, Nat.reduceEqDiff, reduceIte, and_self, and_true, and_false, false_and]
  congr 2
  all_goals (apply field; omega)

theorem cmpGeN (d : BitVec 5) (a : BitVec 6) (b : BitVec 6) : Statement (.cmpGeN d a b) := by
  intro hw _ u hn
  have h0 := d.isLt
  have h1 := a.isLt
  have h2 := b.isLt
  replace hn : 100663301 + d.toNat * 2 ^ 20 + a.toNat * 2 ^ 14 + b.toNat * 2 ^ 8 = u := Option.some.inj hn
  have hop : u / 2 ^ 25 = 3 ∧ u < 2 ^ 32 - 1 := by omega
  refine of_raw hw 3 rfl ?_ hop
  rw [raw_03 hop.1]
  simp only [decodeOp03, show u % 2 ^ 8 = 5 by omega, Nat.reduceEqDiff, reduceIte, and_self, and_true, and_false, false_and]
  congr 2
  all_goals (apply field; omega)

theorem sel (d : BitVec 5) (a : BitVec 6) (b : BitVec 6) (c : BitVec 6) : Statement (.sel d a b c) := by
  intro hw _ u hn
  have h0 := d.isLt
  have h1 := a.isLt
  have h2 := b.isLt
  have h3 := c.isLt
  replace hn : 134217728 + d.toNat * 2 ^ 20 + a.toNat * 2 ^ 14 + b.toNat * 2 ^ 8 + c.toNat * 2 ^ 2 = u := Option.some.inj hn
  have hop : u / 2 ^ 25 = 4 ∧ u < 2 ^ 32 - 1 := by omega
  refine of_raw hw 4 rfl ?_ hop
  rw [raw_04 hop.1]
  simp only [decodeOp04, show u % 2 ^ 2 = 0 by omega, Nat.reduceEqDiff, reduceIte, and_self, and_true, and_false, false_and]
  congr 2
  all_goals (apply field; omega)

theorem bfx (d : BitVec 5) (a : BitVec 6) (p : BitVec 6) (l : BitVec 6) : Statement (.bfx d a p l) := by
  intro hw _ u hn
  have h0 := d.isLt
  have h1 := a.isLt
  have h2 := p.isLt
  have h3 := l.isLt
  replace hn : 167772160 + d.toNat * 2 ^ 20 + a.toNat * 2 ^ 14 + p.toNat * 2 ^ 8 + l.toNat * 2 ^ 2 = u := Option.some.inj hn
  have hop : u / 2 ^ 25 = 5 ∧ u < 2 ^ 32 - 1 := by omega
  refine of_raw hw 5 rfl ?_ hop
  rw [raw_05 hop.1]
  simp only [decodeOp05, show u % 2 ^ 2 = 0 by omega, Nat.reduceEqDiff, reduceIte, and_self, and_true, and_false, false_and]
  congr 2
  all_goals (apply field; omega)

theorem bfi (d : BitVec 5) (a : BitVec 6) (p : BitVec 6) (l : BitVec 6) : Statement (.bfi d a p l) := by
  intro hw _ u hn
  have h0 := d.isLt
  have h1 := a.isLt
  have h2 := p.isLt
  have h3 := l.isLt
  replace hn : 201326592 + d.toNat * 2 ^ 20 + a.toNat * 2 ^ 14 + p.toNat * 2 ^ 8 + l.toNat * 2 ^ 2 = u := Option.some.inj hn
  have hop : u / 2 ^ 25 = 6 ∧ u < 2 ^ 32 - 1 := by omega
  refine of_raw hw 6 rfl ?_ hop
  rw [raw_06 hop.1]
  simp only [decodeOp06, show u % 2 ^ 2 = 0 by omega, Nat.reduceEqDiff, reduceIte, and_self, and_true, and_false, false_and]
  congr 2
  all_goals (apply field; omega)

theorem fadd (d : BitVec 5) (a : BitVec 6) (b : BitVec 6) : Statement (.fadd d a b) := by
  intro hw _ u hn
  have h0 := d.isLt
  have h1 := a.isLt
  have h2 := b.isLt
  replace hn : 234881024 + d.toNat * 2 ^ 20 + a.toNat * 2 ^ 14 + b.toNat * 2 ^ 8 = u := Option.some.inj hn
  have hop : u / 2 ^ 25 = 7 ∧ u < 2 ^ 32 - 1 := by omega
  refine of_raw hw 7 rfl ?_ hop
  rw [raw_07 hop.1]
  simp only [decodeOp07, show u % 2 ^ 8 = 0 by omega, Nat.reduceEqDiff, reduceIte, and_self, and_true, and_false, false_and]
  congr 2
  all_goals (apply field; omega)

theorem fmul (d : BitVec 5) (a : BitVec 6) (b : BitVec 6) : Statement (.fmul d a b) := by
  intro hw _ u hn
  have h0 := d.isLt
  have h1 := a.isLt
  have h2 := b.isLt
  replace hn : 234881025 + d.toNat * 2 ^ 20 + a.toNat * 2 ^ 14 + b.toNat * 2 ^ 8 = u := Option.some.inj hn
  have hop : u / 2 ^ 25 = 7 ∧ u < 2 ^ 32 - 1 := by omega
  refine of_raw hw 7 rfl ?_ hop
  rw [raw_07 hop.1]
  simp only [decodeOp07, show u % 2 ^ 8 = 1 by omega, Nat.reduceEqDiff, reduceIte, and_self, and_true, and_false, false_and]
  congr 2
  all_goals (apply field; omega)

theorem fcmpEq (d : BitVec 5) (a : BitVec 6) (b : BitVec 6) : Statement (.fcmpEq d a b) := by
  intro hw _ u hn
  have h0 := d.isLt
  have h1 := a.isLt
  have h2 := b.isLt
  replace hn : 234881032 + d.toNat * 2 ^ 20 + a.toNat * 2 ^ 14 + b.toNat * 2 ^ 8 = u := Option.some.inj hn
  have hop : u / 2 ^ 25 = 7 ∧ u < 2 ^ 32 - 1 := by omega
  refine of_raw hw 7 rfl ?_ hop
  rw [raw_07 hop.1]
  simp only [decodeOp07, show u % 2 ^ 8 = 8 by omega, Nat.reduceEqDiff, reduceIte, and_self, and_true, and_false, false_and]
  congr 2
  all_goals (apply field; omega)

theorem fcmpNe (d : BitVec 5) (a : BitVec 6) (b : BitVec 6) : Statement (.fcmpNe d a b) := by
  intro hw _ u hn
  have h0 := d.isLt
  have h1 := a.isLt
  have h2 := b.isLt
  replace hn : 234881033 + d.toNat * 2 ^ 20 + a.toNat * 2 ^ 14 + b.toNat * 2 ^ 8 = u := Option.some.inj hn
  have hop : u / 2 ^ 25 = 7 ∧ u < 2 ^ 32 - 1 := by omega
  refine of_raw hw 7 rfl ?_ hop
  rw [raw_07 hop.1]
  simp only [decodeOp07, show u % 2 ^ 8 = 9 by omega, Nat.reduceEqDiff, reduceIte, and_self, and_true, and_false, false_and]
  congr 2
  all_goals (apply field; omega)

theorem fcmpLt (d : BitVec 5) (a : BitVec 6) (b : BitVec 6) : Statement (.fcmpLt d a b) := by
  intro hw _ u hn
  have h0 := d.isLt
  have h1 := a.isLt
  have h2 := b.isLt
  replace hn : 234881034 + d.toNat * 2 ^ 20 + a.toNat * 2 ^ 14 + b.toNat * 2 ^ 8 = u := Option.some.inj hn
  have hop : u / 2 ^ 25 = 7 ∧ u < 2 ^ 32 - 1 := by omega
  refine of_raw hw 7 rfl ?_ hop
  rw [raw_07 hop.1]
  simp only [decodeOp07, show u % 2 ^ 8 = 10 by omega, Nat.reduceEqDiff, reduceIte, and_self, and_true, and_false, false_and]
  congr 2
  all_goals (apply field; omega)

theorem fcmpLe (d : BitVec 5) (a : BitVec 6) (b : BitVec 6) : Statement (.fcmpLe d a b) := by
  intro hw _ u hn
  have h0 := d.isLt
  have h1 := a.isLt
  have h2 := b.isLt
  replace hn : 234881035 + d.toNat * 2 ^ 20 + a.toNat * 2 ^ 14 + b.toNat * 2 ^ 8 = u := Option.some.inj hn
  have hop : u / 2 ^ 25 = 7 ∧ u < 2 ^ 32 - 1 := by omega
  refine of_raw hw 7 rfl ?_ hop
  rw [raw_07 hop.1]
  simp only [decodeOp07, show u % 2 ^ 8 = 11 by omega, Nat.reduceEqDiff, reduceIte, and_self, and_true, and_false, false_and]
  congr 2
  all_goals (apply field; omega)

theorem fcvtF32I64 (d : BitVec 5) (a : BitVec 6) : Statement (.fcvtF32I64 d a) := by
  intro hw _ u hn
  have h0 := d.isLt
  have h1 := a.isLt
  replace hn : 234881040 + d.toNat * 2 ^ 20 + a.toNat * 2 ^ 14 = u := Option.some.inj hn
  have hop : u / 2 ^ 25 = 7 ∧ u < 2 ^ 32 - 1 := by omega
  refine of_raw hw 7 rfl ?_ hop
  rw [raw_07 hop.1]
  simp only [decodeOp07, show u % 2 ^ 8 = 16 by omega, show u % 2 ^ 14 = 16 by omega, Nat.reduceEqDiff, reduceIte, and_self, and_true, and_false, false_and]
  congr 2
  all_goals (apply field; omega)

theorem fcvtF32N64 (d : BitVec 5) (a : BitVec 6) : Statement (.fcvtF32N64 d a) := by
  intro hw _ u hn
  have h0 := d.isLt
  have h1 := a.isLt
  replace hn : 234881041 + d.toNat * 2 ^ 20 + a.toNat * 2 ^ 14 = u := Option.some.inj hn
  have hop : u / 2 ^ 25 = 7 ∧ u < 2 ^ 32 - 1 := by omega
  refine of_raw hw 7 rfl ?_ hop
  rw [raw_07 hop.1]
  simp only [decodeOp07, show u % 2 ^ 8 = 17 by omega, show u % 2 ^ 14 = 17 by omega, Nat.reduceEqDiff, reduceIte, and_self, and_true, and_false, false_and]
  congr 2
  all_goals (apply field; omega)

theorem fcvtF32F16 (d : BitVec 5) (a : BitVec 6) : Statement (.fcvtF32F16 d a) := by
  intro hw _ u hn
  have h0 := d.isLt
  have h1 := a.isLt
  replace hn : 234881042 + d.toNat * 2 ^ 20 + a.toNat * 2 ^ 14 = u := Option.some.inj hn
  have hop : u / 2 ^ 25 = 7 ∧ u < 2 ^ 32 - 1 := by omega
  refine of_raw hw 7 rfl ?_ hop
  rw [raw_07 hop.1]
  simp only [decodeOp07, show u % 2 ^ 8 = 18 by omega, show u % 2 ^ 14 = 18 by omega, Nat.reduceEqDiff, reduceIte, and_self, and_true, and_false, false_and]
  congr 2
  all_goals (apply field; omega)

theorem fcvtF32Bf16 (d : BitVec 5) (a : BitVec 6) : Statement (.fcvtF32Bf16 d a) := by
  intro hw _ u hn
  have h0 := d.isLt
  have h1 := a.isLt
  replace hn : 234881043 + d.toNat * 2 ^ 20 + a.toNat * 2 ^ 14 = u := Option.some.inj hn
  have hop : u / 2 ^ 25 = 7 ∧ u < 2 ^ 32 - 1 := by omega
  refine of_raw hw 7 rfl ?_ hop
  rw [raw_07 hop.1]
  simp only [decodeOp07, show u % 2 ^ 8 = 19 by omega, show u % 2 ^ 14 = 19 by omega, Nat.reduceEqDiff, reduceIte, and_self, and_true, and_false, false_and]
  congr 2
  all_goals (apply field; omega)

theorem fcvtI64F32 (d : BitVec 5) (a : BitVec 6) : Statement (.fcvtI64F32 d a) := by
  intro hw _ u hn
  have h0 := d.isLt
  have h1 := a.isLt
  replace hn : 234881048 + d.toNat * 2 ^ 20 + a.toNat * 2 ^ 14 = u := Option.some.inj hn
  have hop : u / 2 ^ 25 = 7 ∧ u < 2 ^ 32 - 1 := by omega
  refine of_raw hw 7 rfl ?_ hop
  rw [raw_07 hop.1]
  simp only [decodeOp07, show u % 2 ^ 8 = 24 by omega, show u % 2 ^ 14 = 24 by omega, Nat.reduceEqDiff, reduceIte, and_self, and_true, and_false, false_and]
  congr 2
  all_goals (apply field; omega)

theorem fcvtN64F32 (d : BitVec 5) (a : BitVec 6) : Statement (.fcvtN64F32 d a) := by
  intro hw _ u hn
  have h0 := d.isLt
  have h1 := a.isLt
  replace hn : 234881049 + d.toNat * 2 ^ 20 + a.toNat * 2 ^ 14 = u := Option.some.inj hn
  have hop : u / 2 ^ 25 = 7 ∧ u < 2 ^ 32 - 1 := by omega
  refine of_raw hw 7 rfl ?_ hop
  rw [raw_07 hop.1]
  simp only [decodeOp07, show u % 2 ^ 8 = 25 by omega, show u % 2 ^ 14 = 25 by omega, Nat.reduceEqDiff, reduceIte, and_self, and_true, and_false, false_and]
  congr 2
  all_goals (apply field; omega)

theorem fcvtF16F32 (d : BitVec 5) (a : BitVec 6) : Statement (.fcvtF16F32 d a) := by
  intro hw _ u hn
  have h0 := d.isLt
  have h1 := a.isLt
  replace hn : 234881050 + d.toNat * 2 ^ 20 + a.toNat * 2 ^ 14 = u := Option.some.inj hn
  have hop : u / 2 ^ 25 = 7 ∧ u < 2 ^ 32 - 1 := by omega
  refine of_raw hw 7 rfl ?_ hop
  rw [raw_07 hop.1]
  simp only [decodeOp07, show u % 2 ^ 8 = 26 by omega, show u % 2 ^ 14 = 26 by omega, Nat.reduceEqDiff, reduceIte, and_self, and_true, and_false, false_and]
  congr 2
  all_goals (apply field; omega)

theorem fcvtBf16F32 (d : BitVec 5) (a : BitVec 6) : Statement (.fcvtBf16F32 d a) := by
  intro hw _ u hn
  have h0 := d.isLt
  have h1 := a.isLt
  replace hn : 234881051 + d.toNat * 2 ^ 20 + a.toNat * 2 ^ 14 = u := Option.some.inj hn
  have hop : u / 2 ^ 25 = 7 ∧ u < 2 ^ 32 - 1 := by omega
  refine of_raw hw 7 rfl ?_ hop
  rw [raw_07 hop.1]
  simp only [decodeOp07, show u % 2 ^ 8 = 27 by omega, show u % 2 ^ 14 = 27 by omega, Nat.reduceEqDiff, reduceIte, and_self, and_true, and_false, false_and]
  congr 2
  all_goals (apply field; omega)

theorem ffma (d : BitVec 5) (a : BitVec 6) (b : BitVec 6) (c : BitVec 6) : Statement (.ffma d a b c) := by
  intro hw _ u hn
  have h0 := d.isLt
  have h1 := a.isLt
  have h2 := b.isLt
  have h3 := c.isLt
  replace hn : 268435456 + d.toNat * 2 ^ 20 + a.toNat * 2 ^ 14 + b.toNat * 2 ^ 8 + c.toNat * 2 ^ 2 = u := Option.some.inj hn
  have hop : u / 2 ^ 25 = 8 ∧ u < 2 ^ 32 - 1 := by omega
  refine of_raw hw 8 rfl ?_ hop
  rw [raw_08 hop.1]
  simp only [decodeOp08, show u % 2 ^ 2 = 0 by omega, Nat.reduceEqDiff, reduceIte, and_self, and_true, and_false, false_and]
  congr 2
  all_goals (apply field; omega)

theorem addi (d : BitVec 5) (a : BitVec 6) (i : BitVec 14) : Statement (.addi d a i) := by
  intro hw _ u hn
  have h0 := d.isLt
  have h1 := a.isLt
  have h2 := i.isLt
  replace hn : 301989888 + d.toNat * 2 ^ 20 + a.toNat * 2 ^ 14 + i.toNat * 2 ^ 0 = u := Option.some.inj hn
  have hop : u / 2 ^ 25 = 9 ∧ u < 2 ^ 32 - 1 := by omega
  refine of_raw hw 9 rfl ?_ hop
  rw [raw_09 hop.1]
  simp only [decodeOp09]
  congr 2
  all_goals (apply field; omega)

theorem andi (d : BitVec 5) (a : BitVec 6) (i : BitVec 14) : Statement (.andi d a i) := by
  intro hw _ u hn
  have h0 := d.isLt
  have h1 := a.isLt
  have h2 := i.isLt
  replace hn : 335544320 + d.toNat * 2 ^ 20 + a.toNat * 2 ^ 14 + i.toNat * 2 ^ 0 = u := Option.some.inj hn
  have hop : u / 2 ^ 25 = 10 ∧ u < 2 ^ 32 - 1 := by omega
  refine of_raw hw 10 rfl ?_ hop
  rw [raw_0A hop.1]
  simp only [decodeOp0A]
  congr 2
  all_goals (apply field; omega)

theorem ori (d : BitVec 5) (a : BitVec 6) (i : BitVec 14) : Statement (.ori d a i) := by
  intro hw _ u hn
  have h0 := d.isLt
  have h1 := a.isLt
  have h2 := i.isLt
  replace hn : 369098752 + d.toNat * 2 ^ 20 + a.toNat * 2 ^ 14 + i.toNat * 2 ^ 0 = u := Option.some.inj hn
  have hop : u / 2 ^ 25 = 11 ∧ u < 2 ^ 32 - 1 := by omega
  refine of_raw hw 11 rfl ?_ hop
  rw [raw_0B hop.1]
  simp only [decodeOp0B]
  congr 2
  all_goals (apply field; omega)

theorem xori (d : BitVec 5) (a : BitVec 6) (i : BitVec 14) : Statement (.xori d a i) := by
  intro hw _ u hn
  have h0 := d.isLt
  have h1 := a.isLt
  have h2 := i.isLt
  replace hn : 402653184 + d.toNat * 2 ^ 20 + a.toNat * 2 ^ 14 + i.toNat * 2 ^ 0 = u := Option.some.inj hn
  have hop : u / 2 ^ 25 = 12 ∧ u < 2 ^ 32 - 1 := by omega
  refine of_raw hw 12 rfl ?_ hop
  rw [raw_0C hop.1]
  simp only [decodeOp0C]
  congr 2
  all_goals (apply field; omega)

theorem slli (d : BitVec 5) (a : BitVec 6) (n : BitVec 6) : Statement (.slli d a n) := by
  intro hw _ u hn
  have h0 := d.isLt
  have h1 := a.isLt
  have h2 := n.isLt
  replace hn : 436207616 + d.toNat * 2 ^ 20 + a.toNat * 2 ^ 14 + n.toNat * 2 ^ 0 = u := Option.some.inj hn
  have hop : u / 2 ^ 25 = 13 ∧ u < 2 ^ 32 - 1 := by omega
  refine of_raw hw 13 rfl ?_ hop
  rw [raw_0D hop.1]
  simp only [decodeOp0D, show u / 2 ^ 6 % 2 ^ 8 = 0 by omega, Nat.reduceEqDiff, reduceIte, and_self, and_true, and_false, false_and]
  congr 2
  all_goals (apply field; omega)

theorem srli (d : BitVec 5) (a : BitVec 6) (n : BitVec 6) : Statement (.srli d a n) := by
  intro hw _ u hn
  have h0 := d.isLt
  have h1 := a.isLt
  have h2 := n.isLt
  replace hn : 436209664 + d.toNat * 2 ^ 20 + a.toNat * 2 ^ 14 + n.toNat * 2 ^ 0 = u := Option.some.inj hn
  have hop : u / 2 ^ 25 = 13 ∧ u < 2 ^ 32 - 1 := by omega
  refine of_raw hw 13 rfl ?_ hop
  rw [raw_0D hop.1]
  simp only [decodeOp0D, show u / 2 ^ 6 % 2 ^ 8 = 32 by omega, Nat.reduceEqDiff, reduceIte, and_self, and_true, and_false, false_and]
  congr 2
  all_goals (apply field; omega)

theorem srai (d : BitVec 5) (a : BitVec 6) (n : BitVec 6) : Statement (.srai d a n) := by
  intro hw _ u hn
  have h0 := d.isLt
  have h1 := a.isLt
  have h2 := n.isLt
  replace hn : 436211712 + d.toNat * 2 ^ 20 + a.toNat * 2 ^ 14 + n.toNat * 2 ^ 0 = u := Option.some.inj hn
  have hop : u / 2 ^ 25 = 13 ∧ u < 2 ^ 32 - 1 := by omega
  refine of_raw hw 13 rfl ?_ hop
  rw [raw_0D hop.1]
  simp only [decodeOp0D, show u / 2 ^ 6 % 2 ^ 8 = 64 by omega, Nat.reduceEqDiff, reduceIte, and_self, and_true, and_false, false_and]
  congr 2
  all_goals (apply field; omega)

theorem roli (d : BitVec 5) (a : BitVec 6) (n : BitVec 6) : Statement (.roli d a n) := by
  intro hw _ u hn
  have h0 := d.isLt
  have h1 := a.isLt
  have h2 := n.isLt
  replace hn : 436213760 + d.toNat * 2 ^ 20 + a.toNat * 2 ^ 14 + n.toNat * 2 ^ 0 = u := Option.some.inj hn
  have hop : u / 2 ^ 25 = 13 ∧ u < 2 ^ 32 - 1 := by omega
  refine of_raw hw 13 rfl ?_ hop
  rw [raw_0D hop.1]
  simp only [decodeOp0D, show u / 2 ^ 6 % 2 ^ 8 = 96 by omega, Nat.reduceEqDiff, reduceIte, and_self, and_true, and_false, false_and]
  congr 2
  all_goals (apply field; omega)

theorem rori (d : BitVec 5) (a : BitVec 6) (n : BitVec 6) : Statement (.rori d a n) := by
  intro hw _ u hn
  have h0 := d.isLt
  have h1 := a.isLt
  have h2 := n.isLt
  replace hn : 436215808 + d.toNat * 2 ^ 20 + a.toNat * 2 ^ 14 + n.toNat * 2 ^ 0 = u := Option.some.inj hn
  have hop : u / 2 ^ 25 = 13 ∧ u < 2 ^ 32 - 1 := by omega
  refine of_raw hw 13 rfl ?_ hop
  rw [raw_0D hop.1]
  simp only [decodeOp0D, show u / 2 ^ 6 % 2 ^ 8 = 128 by omega, Nat.reduceEqDiff, reduceIte, and_self, and_true, and_false, false_and]
  congr 2
  all_goals (apply field; omega)

theorem ld1 (d : BitVec 5) (a : BitVec 6) (i : BitVec 14) : Statement (.ld1 d a i) := by
  intro hw _ u hn
  have h0 := d.isLt
  have h1 := a.isLt
  have h2 := i.isLt
  replace hn : 536870912 + d.toNat * 2 ^ 20 + a.toNat * 2 ^ 14 + i.toNat * 2 ^ 0 = u := Option.some.inj hn
  have hop : u / 2 ^ 25 = 16 ∧ u < 2 ^ 32 - 1 := by omega
  refine of_raw hw 16 rfl ?_ hop
  rw [raw_10 hop.1]
  simp only [decodeOp10]
  congr 2
  all_goals (apply field; omega)

theorem ld2 (d : BitVec 5) (a : BitVec 6) (i : BitVec 14) : Statement (.ld2 d a i) := by
  intro hw _ u hn
  have h0 := d.isLt
  have h1 := a.isLt
  have h2 := i.isLt
  replace hn : 570425344 + d.toNat * 2 ^ 20 + a.toNat * 2 ^ 14 + i.toNat * 2 ^ 0 = u := Option.some.inj hn
  have hop : u / 2 ^ 25 = 17 ∧ u < 2 ^ 32 - 1 := by omega
  refine of_raw hw 17 rfl ?_ hop
  rw [raw_11 hop.1]
  simp only [decodeOp11]
  congr 2
  all_goals (apply field; omega)

theorem ld4 (d : BitVec 5) (a : BitVec 6) (i : BitVec 14) : Statement (.ld4 d a i) := by
  intro hw _ u hn
  have h0 := d.isLt
  have h1 := a.isLt
  have h2 := i.isLt
  replace hn : 603979776 + d.toNat * 2 ^ 20 + a.toNat * 2 ^ 14 + i.toNat * 2 ^ 0 = u := Option.some.inj hn
  have hop : u / 2 ^ 25 = 18 ∧ u < 2 ^ 32 - 1 := by omega
  refine of_raw hw 18 rfl ?_ hop
  rw [raw_12 hop.1]
  simp only [decodeOp12]
  congr 2
  all_goals (apply field; omega)

theorem ld8 (d : BitVec 5) (a : BitVec 6) (i : BitVec 14) : Statement (.ld8 d a i) := by
  intro hw _ u hn
  have h0 := d.isLt
  have h1 := a.isLt
  have h2 := i.isLt
  replace hn : 637534208 + d.toNat * 2 ^ 20 + a.toNat * 2 ^ 14 + i.toNat * 2 ^ 0 = u := Option.some.inj hn
  have hop : u / 2 ^ 25 = 19 ∧ u < 2 ^ 32 - 1 := by omega
  refine of_raw hw 19 rfl ?_ hop
  rw [raw_13 hop.1]
  simp only [decodeOp13]
  congr 2
  all_goals (apply field; omega)

theorem st1 (b : BitVec 6) (a : BitVec 5) (i : BitVec 14) : Statement (.st1 b a i) := by
  intro hw _ u hn
  have h0 := b.isLt
  have h1 := a.isLt
  have h2 := i.isLt
  replace hn : 671088640 + b.toNat * 2 ^ 19 + a.toNat * 2 ^ 14 + i.toNat * 2 ^ 0 = u := Option.some.inj hn
  have hop : u / 2 ^ 25 = 20 ∧ u < 2 ^ 32 - 1 := by omega
  refine of_raw hw 20 rfl ?_ hop
  rw [raw_14 hop.1]
  simp only [decodeOp14]
  congr 2
  all_goals (apply field; omega)

theorem st2 (b : BitVec 6) (a : BitVec 5) (i : BitVec 14) : Statement (.st2 b a i) := by
  intro hw _ u hn
  have h0 := b.isLt
  have h1 := a.isLt
  have h2 := i.isLt
  replace hn : 704643072 + b.toNat * 2 ^ 19 + a.toNat * 2 ^ 14 + i.toNat * 2 ^ 0 = u := Option.some.inj hn
  have hop : u / 2 ^ 25 = 21 ∧ u < 2 ^ 32 - 1 := by omega
  refine of_raw hw 21 rfl ?_ hop
  rw [raw_15 hop.1]
  simp only [decodeOp15]
  congr 2
  all_goals (apply field; omega)

theorem st4 (b : BitVec 6) (a : BitVec 5) (i : BitVec 14) : Statement (.st4 b a i) := by
  intro hw _ u hn
  have h0 := b.isLt
  have h1 := a.isLt
  have h2 := i.isLt
  replace hn : 738197504 + b.toNat * 2 ^ 19 + a.toNat * 2 ^ 14 + i.toNat * 2 ^ 0 = u := Option.some.inj hn
  have hop : u / 2 ^ 25 = 22 ∧ u < 2 ^ 32 - 1 := by omega
  refine of_raw hw 22 rfl ?_ hop
  rw [raw_16 hop.1]
  simp only [decodeOp16]
  congr 2
  all_goals (apply field; omega)

theorem st8 (b : BitVec 6) (a : BitVec 5) (i : BitVec 14) : Statement (.st8 b a i) := by
  intro hw _ u hn
  have h0 := b.isLt
  have h1 := a.isLt
  have h2 := i.isLt
  replace hn : 771751936 + b.toNat * 2 ^ 19 + a.toNat * 2 ^ 14 + i.toNat * 2 ^ 0 = u := Option.some.inj hn
  have hop : u / 2 ^ 25 = 23 ∧ u < 2 ^ 32 - 1 := by omega
  refine of_raw hw 23 rfl ?_ hop
  rw [raw_17 hop.1]
  simp only [decodeOp17]
  congr 2
  all_goals (apply field; omega)

theorem ldIndex (d : BitVec 5) (a : BitVec 6) (b : BitVec 6) (z : BitVec 2) : Statement (.ldIndex d a b z) := by
  intro hw _ u hn
  have h0 := d.isLt
  have h1 := a.isLt
  have h2 := b.isLt
  have h3 := z.isLt
  replace hn : 805306368 + d.toNat * 2 ^ 20 + a.toNat * 2 ^ 14 + b.toNat * 2 ^ 8 + z.toNat * 2 ^ 0 = u := Option.some.inj hn
  have hop : u / 2 ^ 25 = 24 ∧ u < 2 ^ 32 - 1 := by omega
  refine of_raw hw 24 rfl ?_ hop
  rw [raw_18 hop.1]
  simp only [decodeOp18, show u / 2 ^ 2 % 2 ^ 6 = 0 by omega, Nat.reduceEqDiff, reduceIte, and_self, and_true, and_false, false_and]
  congr 2
  all_goals (apply field; omega)

theorem stIndex (b : BitVec 6) (a : BitVec 6) (c : BitVec 6) (z : BitVec 2) : Statement (.stIndex b a c z) := by
  intro hw _ u hn
  have h0 := b.isLt
  have h1 := a.isLt
  have h2 := c.isLt
  have h3 := z.isLt
  replace hn : 838860800 + b.toNat * 2 ^ 19 + a.toNat * 2 ^ 13 + c.toNat * 2 ^ 7 + z.toNat * 2 ^ 0 = u := Option.some.inj hn
  have hop : u / 2 ^ 25 = 25 ∧ u < 2 ^ 32 - 1 := by omega
  refine of_raw hw 25 rfl ?_ hop
  rw [raw_19 hop.1]
  simp only [decodeOp19, show u / 2 ^ 2 % 2 ^ 5 = 0 by omega, Nat.reduceEqDiff, reduceIte, and_self, and_true, and_false, false_and]
  congr 2
  all_goals (apply field; omega)

theorem ldRes (d : BitVec 5) (a : BitVec 6) (n : BitVec 10) (z : BitVec 2) : Statement (.ldRes d a n z) := by
  intro hw _ u hn
  have h0 := d.isLt
  have h1 := a.isLt
  have h2 := n.isLt
  have h3 := z.isLt
  replace hn : 872415232 + d.toNat * 2 ^ 20 + a.toNat * 2 ^ 14 + n.toNat * 2 ^ 4 + z.toNat * 2 ^ 0 = u := Option.some.inj hn
  have hop : u / 2 ^ 25 = 26 ∧ u < 2 ^ 32 - 1 := by omega
  refine of_raw hw 26 rfl ?_ hop
  rw [raw_1A hop.1]
  simp only [decodeOp1A, show u / 2 ^ 2 % 2 ^ 2 = 0 by omega, Nat.reduceEqDiff, reduceIte, and_self, and_true, and_false, false_and]
  congr 2
  all_goals (apply field; omega)

theorem stRes (b : BitVec 6) (a : BitVec 6) (n : BitVec 10) (z : BitVec 2) : Statement (.stRes b a n z) := by
  intro hw _ u hn
  have h0 := b.isLt
  have h1 := a.isLt
  have h2 := n.isLt
  have h3 := z.isLt
  replace hn : 905969664 + b.toNat * 2 ^ 19 + a.toNat * 2 ^ 13 + n.toNat * 2 ^ 3 + z.toNat * 2 ^ 0 = u := Option.some.inj hn
  have hop : u / 2 ^ 25 = 27 ∧ u < 2 ^ 32 - 1 := by omega
  refine of_raw hw 27 rfl ?_ hop
  rw [raw_1B hop.1]
  simp only [decodeOp1B, show u / 2 ^ 2 % 2 ^ 1 = 0 by omega, Nat.reduceEqDiff, reduceIte, and_self, and_true, and_false, false_and]
  congr 2
  all_goals (apply field; omega)

theorem ldAcq (d : BitVec 5) (a : BitVec 6) (i : BitVec 14) : Statement (.ldAcq d a i) := by
  intro hw _ u hn
  have h0 := d.isLt
  have h1 := a.isLt
  have h2 := i.isLt
  replace hn : 939524096 + d.toNat * 2 ^ 20 + a.toNat * 2 ^ 14 + i.toNat * 2 ^ 0 = u := Option.some.inj hn
  have hop : u / 2 ^ 25 = 28 ∧ u < 2 ^ 32 - 1 := by omega
  refine of_raw hw 28 rfl ?_ hop
  rw [raw_1C hop.1]
  simp only [decodeOp1C]
  congr 2
  all_goals (apply field; omega)

theorem stRel (b : BitVec 6) (a : BitVec 5) (i : BitVec 14) : Statement (.stRel b a i) := by
  intro hw _ u hn
  have h0 := b.isLt
  have h1 := a.isLt
  have h2 := i.isLt
  replace hn : 973078528 + b.toNat * 2 ^ 19 + a.toNat * 2 ^ 14 + i.toNat * 2 ^ 0 = u := Option.some.inj hn
  have hop : u / 2 ^ 25 = 29 ∧ u < 2 ^ 32 - 1 := by omega
  refine of_raw hw 29 rfl ?_ hop
  rw [raw_1D hop.1]
  simp only [decodeOp1D]
  congr 2
  all_goals (apply field; omega)

theorem amoAdd (d : BitVec 5) (a : BitVec 6) (b : BitVec 6) (z : BitVec 1) : Statement (.amoAdd d a b z) := by
  intro hw _ u hn
  have h0 := d.isLt
  have h1 := a.isLt
  have h2 := b.isLt
  have h3 := z.isLt
  replace hn : 1006632960 + d.toNat * 2 ^ 20 + a.toNat * 2 ^ 14 + b.toNat * 2 ^ 8 + z.toNat * 2 ^ 4 = u := Option.some.inj hn
  have hop : u / 2 ^ 25 = 30 ∧ u < 2 ^ 32 - 1 := by omega
  refine of_raw hw 30 rfl ?_ hop
  rw [raw_1E hop.1]
  simp only [decodeOp1E, show u % 2 ^ 4 = 0 by omega, show u / 2 ^ 5 % 2 ^ 3 = 0 by omega, Nat.reduceEqDiff, reduceIte, and_self, and_true, and_false, false_and]
  congr 2
  all_goals (apply field; omega)

theorem amoAnd (d : BitVec 5) (a : BitVec 6) (b : BitVec 6) (z : BitVec 1) : Statement (.amoAnd d a b z) := by
  intro hw _ u hn
  have h0 := d.isLt
  have h1 := a.isLt
  have h2 := b.isLt
  have h3 := z.isLt
  replace hn : 1006632961 + d.toNat * 2 ^ 20 + a.toNat * 2 ^ 14 + b.toNat * 2 ^ 8 + z.toNat * 2 ^ 4 = u := Option.some.inj hn
  have hop : u / 2 ^ 25 = 30 ∧ u < 2 ^ 32 - 1 := by omega
  refine of_raw hw 30 rfl ?_ hop
  rw [raw_1E hop.1]
  simp only [decodeOp1E, show u % 2 ^ 4 = 1 by omega, show u / 2 ^ 5 % 2 ^ 3 = 0 by omega, Nat.reduceEqDiff, reduceIte, and_self, and_true, and_false, false_and]
  congr 2
  all_goals (apply field; omega)

theorem amoOr (d : BitVec 5) (a : BitVec 6) (b : BitVec 6) (z : BitVec 1) : Statement (.amoOr d a b z) := by
  intro hw _ u hn
  have h0 := d.isLt
  have h1 := a.isLt
  have h2 := b.isLt
  have h3 := z.isLt
  replace hn : 1006632962 + d.toNat * 2 ^ 20 + a.toNat * 2 ^ 14 + b.toNat * 2 ^ 8 + z.toNat * 2 ^ 4 = u := Option.some.inj hn
  have hop : u / 2 ^ 25 = 30 ∧ u < 2 ^ 32 - 1 := by omega
  refine of_raw hw 30 rfl ?_ hop
  rw [raw_1E hop.1]
  simp only [decodeOp1E, show u % 2 ^ 4 = 2 by omega, show u / 2 ^ 5 % 2 ^ 3 = 0 by omega, Nat.reduceEqDiff, reduceIte, and_self, and_true, and_false, false_and]
  congr 2
  all_goals (apply field; omega)

theorem amoXor (d : BitVec 5) (a : BitVec 6) (b : BitVec 6) (z : BitVec 1) : Statement (.amoXor d a b z) := by
  intro hw _ u hn
  have h0 := d.isLt
  have h1 := a.isLt
  have h2 := b.isLt
  have h3 := z.isLt
  replace hn : 1006632963 + d.toNat * 2 ^ 20 + a.toNat * 2 ^ 14 + b.toNat * 2 ^ 8 + z.toNat * 2 ^ 4 = u := Option.some.inj hn
  have hop : u / 2 ^ 25 = 30 ∧ u < 2 ^ 32 - 1 := by omega
  refine of_raw hw 30 rfl ?_ hop
  rw [raw_1E hop.1]
  simp only [decodeOp1E, show u % 2 ^ 4 = 3 by omega, show u / 2 ^ 5 % 2 ^ 3 = 0 by omega, Nat.reduceEqDiff, reduceIte, and_self, and_true, and_false, false_and]
  congr 2
  all_goals (apply field; omega)

theorem amoMinI (d : BitVec 5) (a : BitVec 6) (b : BitVec 6) (z : BitVec 1) : Statement (.amoMinI d a b z) := by
  intro hw _ u hn
  have h0 := d.isLt
  have h1 := a.isLt
  have h2 := b.isLt
  have h3 := z.isLt
  replace hn : 1006632964 + d.toNat * 2 ^ 20 + a.toNat * 2 ^ 14 + b.toNat * 2 ^ 8 + z.toNat * 2 ^ 4 = u := Option.some.inj hn
  have hop : u / 2 ^ 25 = 30 ∧ u < 2 ^ 32 - 1 := by omega
  refine of_raw hw 30 rfl ?_ hop
  rw [raw_1E hop.1]
  simp only [decodeOp1E, show u % 2 ^ 4 = 4 by omega, show u / 2 ^ 5 % 2 ^ 3 = 0 by omega, Nat.reduceEqDiff, reduceIte, and_self, and_true, and_false, false_and]
  congr 2
  all_goals (apply field; omega)

theorem amoMaxI (d : BitVec 5) (a : BitVec 6) (b : BitVec 6) (z : BitVec 1) : Statement (.amoMaxI d a b z) := by
  intro hw _ u hn
  have h0 := d.isLt
  have h1 := a.isLt
  have h2 := b.isLt
  have h3 := z.isLt
  replace hn : 1006632965 + d.toNat * 2 ^ 20 + a.toNat * 2 ^ 14 + b.toNat * 2 ^ 8 + z.toNat * 2 ^ 4 = u := Option.some.inj hn
  have hop : u / 2 ^ 25 = 30 ∧ u < 2 ^ 32 - 1 := by omega
  refine of_raw hw 30 rfl ?_ hop
  rw [raw_1E hop.1]
  simp only [decodeOp1E, show u % 2 ^ 4 = 5 by omega, show u / 2 ^ 5 % 2 ^ 3 = 0 by omega, Nat.reduceEqDiff, reduceIte, and_self, and_true, and_false, false_and]
  congr 2
  all_goals (apply field; omega)

theorem amoMinN (d : BitVec 5) (a : BitVec 6) (b : BitVec 6) (z : BitVec 1) : Statement (.amoMinN d a b z) := by
  intro hw _ u hn
  have h0 := d.isLt
  have h1 := a.isLt
  have h2 := b.isLt
  have h3 := z.isLt
  replace hn : 1006632966 + d.toNat * 2 ^ 20 + a.toNat * 2 ^ 14 + b.toNat * 2 ^ 8 + z.toNat * 2 ^ 4 = u := Option.some.inj hn
  have hop : u / 2 ^ 25 = 30 ∧ u < 2 ^ 32 - 1 := by omega
  refine of_raw hw 30 rfl ?_ hop
  rw [raw_1E hop.1]
  simp only [decodeOp1E, show u % 2 ^ 4 = 6 by omega, show u / 2 ^ 5 % 2 ^ 3 = 0 by omega, Nat.reduceEqDiff, reduceIte, and_self, and_true, and_false, false_and]
  congr 2
  all_goals (apply field; omega)

theorem amoMaxN (d : BitVec 5) (a : BitVec 6) (b : BitVec 6) (z : BitVec 1) : Statement (.amoMaxN d a b z) := by
  intro hw _ u hn
  have h0 := d.isLt
  have h1 := a.isLt
  have h2 := b.isLt
  have h3 := z.isLt
  replace hn : 1006632967 + d.toNat * 2 ^ 20 + a.toNat * 2 ^ 14 + b.toNat * 2 ^ 8 + z.toNat * 2 ^ 4 = u := Option.some.inj hn
  have hop : u / 2 ^ 25 = 30 ∧ u < 2 ^ 32 - 1 := by omega
  refine of_raw hw 30 rfl ?_ hop
  rw [raw_1E hop.1]
  simp only [decodeOp1E, show u % 2 ^ 4 = 7 by omega, show u / 2 ^ 5 % 2 ^ 3 = 0 by omega, Nat.reduceEqDiff, reduceIte, and_self, and_true, and_false, false_and]
  congr 2
  all_goals (apply field; omega)

theorem amoSwap (d : BitVec 5) (a : BitVec 6) (b : BitVec 6) (z : BitVec 1) : Statement (.amoSwap d a b z) := by
  intro hw _ u hn
  have h0 := d.isLt
  have h1 := a.isLt
  have h2 := b.isLt
  have h3 := z.isLt
  replace hn : 1006632968 + d.toNat * 2 ^ 20 + a.toNat * 2 ^ 14 + b.toNat * 2 ^ 8 + z.toNat * 2 ^ 4 = u := Option.some.inj hn
  have hop : u / 2 ^ 25 = 30 ∧ u < 2 ^ 32 - 1 := by omega
  refine of_raw hw 30 rfl ?_ hop
  rw [raw_1E hop.1]
  simp only [decodeOp1E, show u % 2 ^ 4 = 8 by omega, show u / 2 ^ 5 % 2 ^ 3 = 0 by omega, Nat.reduceEqDiff, reduceIte, and_self, and_true, and_false, false_and]
  congr 2
  all_goals (apply field; omega)

theorem famoAdd (d : BitVec 5) (a : BitVec 6) (b : BitVec 6) : Statement (.famoAdd d a b) := by
  intro hw _ u hn
  have h0 := d.isLt
  have h1 := a.isLt
  have h2 := b.isLt
  replace hn : 1006632969 + d.toNat * 2 ^ 20 + a.toNat * 2 ^ 14 + b.toNat * 2 ^ 8 = u := Option.some.inj hn
  have hop : u / 2 ^ 25 = 30 ∧ u < 2 ^ 32 - 1 := by omega
  refine of_raw hw 30 rfl ?_ hop
  rw [raw_1E hop.1]
  simp only [decodeOp1E, show u % 2 ^ 4 = 9 by omega, show u / 2 ^ 5 % 2 ^ 3 = 0 by omega, show u % 2 ^ 8 = 9 by omega, Nat.reduceEqDiff, reduceIte, and_self, and_true, and_false, false_and]
  congr 2
  all_goals (apply field; omega)

theorem cas (d : BitVec 5) (a : BitVec 6) (b : BitVec 6) (c : BitVec 6) (z : BitVec 1) : Statement (.cas d a b c z) := by
  intro hw _ u hn
  have h0 := d.isLt
  have h1 := a.isLt
  have h2 := b.isLt
  have h3 := c.isLt
  have h4 := z.isLt
  replace hn : 1040187392 + d.toNat * 2 ^ 20 + a.toNat * 2 ^ 14 + b.toNat * 2 ^ 8 + c.toNat * 2 ^ 2 + z.toNat * 2 ^ 0 = u := Option.some.inj hn
  have hop : u / 2 ^ 25 = 31 ∧ u < 2 ^ 32 - 1 := by omega
  refine of_raw hw 31 rfl ?_ hop
  rw [raw_1F hop.1]
  simp only [decodeOp1F, show u / 2 ^ 1 % 2 ^ 1 = 0 by omega, Nat.reduceEqDiff, reduceIte, and_self, and_true, and_false, false_and]
  congr 2
  all_goals (apply field; omega)

theorem pref (a : BitVec 6) (i : BitVec 14) : Statement (.pref a i) := by
  intro hw _ u hn
  have h0 := a.isLt
  have h1 := i.isLt
  replace hn : 1073741824 + a.toNat * 2 ^ 14 + i.toNat * 2 ^ 0 = u := Option.some.inj hn
  have hop : u / 2 ^ 25 = 32 ∧ u < 2 ^ 32 - 1 := by omega
  refine of_raw hw 32 rfl ?_ hop
  rw [raw_20 hop.1]
  simp only [decodeOp20, show u / 2 ^ 20 % 2 ^ 5 = 0 by omega, Nat.reduceEqDiff, reduceIte, and_self, and_true, and_false, false_and]
  congr 2
  all_goals (apply field; omega)

theorem beqz (a : BitVec 6) (o : BitVec 19) : Statement (.beqz a o) := by
  intro hw _ u hn
  have h0 := a.isLt
  have h1 := o.isLt
  replace hn : 1342177280 + a.toNat * 2 ^ 19 + o.toNat * 2 ^ 0 = u := Option.some.inj hn
  have hop : u / 2 ^ 25 = 40 ∧ u < 2 ^ 32 - 1 := by omega
  refine of_raw hw 40 rfl ?_ hop
  rw [raw_28 hop.1]
  simp only [decodeOp28]
  congr 2
  all_goals (apply field; omega)

theorem bnez (a : BitVec 6) (o : BitVec 19) : Statement (.bnez a o) := by
  intro hw _ u hn
  have h0 := a.isLt
  have h1 := o.isLt
  replace hn : 1375731712 + a.toNat * 2 ^ 19 + o.toNat * 2 ^ 0 = u := Option.some.inj hn
  have hop : u / 2 ^ 25 = 41 ∧ u < 2 ^ 32 - 1 := by omega
  refine of_raw hw 41 rfl ?_ hop
  rw [raw_29 hop.1]
  simp only [decodeOp29]
  congr 2
  all_goals (apply field; omega)

theorem bltz (a : BitVec 6) (o : BitVec 19) : Statement (.bltz a o) := by
  intro hw _ u hn
  have h0 := a.isLt
  have h1 := o.isLt
  replace hn : 1409286144 + a.toNat * 2 ^ 19 + o.toNat * 2 ^ 0 = u := Option.some.inj hn
  have hop : u / 2 ^ 25 = 42 ∧ u < 2 ^ 32 - 1 := by omega
  refine of_raw hw 42 rfl ?_ hop
  rw [raw_2A hop.1]
  simp only [decodeOp2A]
  congr 2
  all_goals (apply field; omega)

theorem bgez (a : BitVec 6) (o : BitVec 19) : Statement (.bgez a o) := by
  intro hw _ u hn
  have h0 := a.isLt
  have h1 := o.isLt
  replace hn : 1442840576 + a.toNat * 2 ^ 19 + o.toNat * 2 ^ 0 = u := Option.some.inj hn
  have hop : u / 2 ^ 25 = 43 ∧ u < 2 ^ 32 - 1 := by omega
  refine of_raw hw 43 rfl ?_ hop
  rw [raw_2B hop.1]
  simp only [decodeOp2B]
  congr 2
  all_goals (apply field; omega)

theorem jal (d : BitVec 5) (o : BitVec 19) : Statement (.jal d o) := by
  intro hw _ u hn
  have h0 := d.isLt
  have h1 := o.isLt
  replace hn : 1476395008 + d.toNat * 2 ^ 20 + o.toNat * 2 ^ 0 = u := Option.some.inj hn
  have hop : u / 2 ^ 25 = 44 ∧ u < 2 ^ 32 - 1 := by omega
  refine of_raw hw 44 rfl ?_ hop
  rw [raw_2C hop.1]
  simp only [decodeOp2C, show u / 2 ^ 19 % 2 ^ 1 = 0 by omega, Nat.reduceEqDiff, reduceIte, and_self, and_true, and_false, false_and]
  congr 2
  all_goals (apply field; omega)

theorem jr (d : BitVec 5) (a : BitVec 6) (i : BitVec 14) : Statement (.jr d a i) := by
  intro hw _ u hn
  have h0 := d.isLt
  have h1 := a.isLt
  have h2 := i.isLt
  replace hn : 1509949440 + d.toNat * 2 ^ 20 + a.toNat * 2 ^ 14 + i.toNat * 2 ^ 0 = u := Option.some.inj hn
  have hop : u / 2 ^ 25 = 45 ∧ u < 2 ^ 32 - 1 := by omega
  refine of_raw hw 45 rfl ?_ hop
  rw [raw_2D hop.1]
  simp only [decodeOp2D]
  congr 2
  all_goals (apply field; omega)

theorem loop (a : BitVec 6) (o : BitVec 19) : Statement (.loop a o) := by
  intro hw _ u hn
  have h0 := a.isLt
  have h1 := o.isLt
  replace hn : 1543503872 + a.toNat * 2 ^ 19 + o.toNat * 2 ^ 0 = u := Option.some.inj hn
  have hop : u / 2 ^ 25 = 46 ∧ u < 2 ^ 32 - 1 := by omega
  refine of_raw hw 46 rfl ?_ hop
  rw [raw_2E hop.1]
  simp only [decodeOp2E]
  congr 2
  all_goals (apply field; omega)

theorem bexpMaj (c : BitVec 1) (o : BitVec 19) : Statement (.bexpMaj c o) := by
  intro hw _ u hn
  have h0 := c.isLt
  have h1 := o.isLt
  replace hn : 1577058304 + c.toNat * 2 ^ 24 + o.toNat * 2 ^ 0 = u := Option.some.inj hn
  have hop : u / 2 ^ 25 = 47 ∧ u < 2 ^ 32 - 1 := by omega
  refine of_raw hw 47 rfl ?_ hop
  rw [raw_2F hop.1]
  simp only [decodeOp2F, show u / 2 ^ 19 % 2 ^ 5 = 0 by omega, Nat.reduceEqDiff, reduceIte, and_self, and_true, and_false, false_and]
  congr 2
  all_goals (apply field; omega)

theorem bexpLast (c : BitVec 1) (o : BitVec 19) : Statement (.bexpLast c o) := by
  intro hw _ u hn
  have h0 := c.isLt
  have h1 := o.isLt
  replace hn : 1577582592 + c.toNat * 2 ^ 24 + o.toNat * 2 ^ 0 = u := Option.some.inj hn
  have hop : u / 2 ^ 25 = 47 ∧ u < 2 ^ 32 - 1 := by omega
  refine of_raw hw 47 rfl ?_ hop
  rw [raw_2F hop.1]
  simp only [decodeOp2F, show u / 2 ^ 19 % 2 ^ 5 = 1 by omega, Nat.reduceEqDiff, reduceIte, and_self, and_true, and_false, false_and]
  congr 2
  all_goals (apply field; omega)

theorem selxMaj (d : BitVec 5) (a : BitVec 6) (b : BitVec 6) (c : BitVec 1) : Statement (.selxMaj d a b c) := by
  intro hw _ u hn
  have h0 := d.isLt
  have h1 := a.isLt
  have h2 := b.isLt
  have h3 := c.isLt
  replace hn : 1610612736 + d.toNat * 2 ^ 20 + a.toNat * 2 ^ 14 + b.toNat * 2 ^ 8 + c.toNat * 2 ^ 0 = u := Option.some.inj hn
  have hop : u / 2 ^ 25 = 48 ∧ u < 2 ^ 32 - 1 := by omega
  refine of_raw hw 48 rfl ?_ hop
  rw [raw_30 hop.1]
  simp only [decodeOp30, show u / 2 ^ 1 % 2 ^ 7 = 0 by omega, Nat.reduceEqDiff, reduceIte, and_self, and_true, and_false, false_and]
  congr 2
  all_goals (apply field; omega)

theorem selxLast (d : BitVec 5) (a : BitVec 6) (b : BitVec 6) (c : BitVec 1) : Statement (.selxLast d a b c) := by
  intro hw _ u hn
  have h0 := d.isLt
  have h1 := a.isLt
  have h2 := b.isLt
  have h3 := c.isLt
  replace hn : 1610612738 + d.toNat * 2 ^ 20 + a.toNat * 2 ^ 14 + b.toNat * 2 ^ 8 + c.toNat * 2 ^ 0 = u := Option.some.inj hn
  have hop : u / 2 ^ 25 = 48 ∧ u < 2 ^ 32 - 1 := by omega
  refine of_raw hw 48 rfl ?_ hop
  rw [raw_30 hop.1]
  simp only [decodeOp30, show u / 2 ^ 1 % 2 ^ 7 = 1 by omega, Nat.reduceEqDiff, reduceIte, and_self, and_true, and_false, false_and]
  congr 2
  all_goals (apply field; omega)

theorem unrx (d : BitVec 5) (m : BitVec 4) (c : BitVec 4) : Statement (.unrx d m c) := by
  intro hw _ u hn
  have h0 := d.isLt
  have h1 := m.isLt
  have h2 := c.isLt
  replace hn : 1644167168 + d.toNat * 2 ^ 20 + m.toNat * 2 ^ 4 + c.toNat * 2 ^ 0 = u := Option.some.inj hn
  have hop : u / 2 ^ 25 = 49 ∧ u < 2 ^ 32 - 1 := by omega
  refine of_raw hw 49 rfl ?_ hop
  rw [raw_31 hop.1]
  simp only [decodeOp31, show u / 2 ^ 8 % 2 ^ 12 = 0 by omega, Nat.reduceEqDiff, reduceIte, and_self, and_true, and_false, false_and]
  congr 2
  all_goals (apply field; omega)

theorem pfx (d : BitVec 5) (m : BitVec 6) (c : BitVec 6) : Statement (.pfx d m c) := by
  intro hw _ u hn
  have h0 := d.isLt
  have h1 := m.isLt
  have h2 := c.isLt
  replace hn : 1677721600 + d.toNat * 2 ^ 20 + m.toNat * 2 ^ 6 + c.toNat * 2 ^ 0 = u := Option.some.inj hn
  have hop : u / 2 ^ 25 = 50 ∧ u < 2 ^ 32 - 1 := by omega
  refine of_raw hw 50 rfl ?_ hop
  rw [raw_32 hop.1]
  simp only [decodeOp32, show u / 2 ^ 12 % 2 ^ 8 = 0 by omega, Nat.reduceEqDiff, reduceIte, and_self, and_true, and_false, false_and]
  congr 2
  all_goals (apply field; omega)

theorem start (d : BitVec 5) (a : BitVec 6) (b : BitVec 6) : Statement (.start d a b) := by
  intro hw _ u hn
  have h0 := d.isLt
  have h1 := a.isLt
  have h2 := b.isLt
  replace hn : 1711276032 + d.toNat * 2 ^ 20 + a.toNat * 2 ^ 14 + b.toNat * 2 ^ 8 = u := Option.some.inj hn
  have hop : u / 2 ^ 25 = 51 ∧ u < 2 ^ 32 - 1 := by omega
  refine of_raw hw 51 rfl ?_ hop
  rw [raw_33 hop.1]
  simp only [decodeOp33, show u % 2 ^ 8 = 0 by omega, Nat.reduceEqDiff, reduceIte, and_self, and_true, and_false, false_and]
  congr 2
  all_goals (apply field; omega)

theorem spawn (a : BitVec 6) (b : BitVec 6) : Statement (.spawn a b) := by
  intro hw _ u hn
  have h0 := a.isLt
  have h1 := b.isLt
  replace hn : 1778384896 + a.toNat * 2 ^ 14 + b.toNat * 2 ^ 8 = u := Option.some.inj hn
  have hop : u / 2 ^ 25 = 53 ∧ u < 2 ^ 32 - 1 := by omega
  refine of_raw hw 53 rfl ?_ hop
  rw [raw_35 hop.1]
  simp only [decodeOp35, show u % 2 ^ 8 = 0 by omega, show u / 2 ^ 20 % 2 ^ 5 = 0 by omega, Nat.reduceEqDiff, reduceIte, and_self, and_true, and_false, false_and]
  congr 2
  all_goals (apply field; omega)

theorem depSet (a : BitVec 6) (b : BitVec 6) : Statement (.depSet a b) := by
  intro hw _ u hn
  have h0 := a.isLt
  have h1 := b.isLt
  replace hn : 1811939328 + a.toNat * 2 ^ 14 + b.toNat * 2 ^ 8 = u := Option.some.inj hn
  have hop : u / 2 ^ 25 = 54 ∧ u < 2 ^ 32 - 1 := by omega
  refine of_raw hw 54 rfl ?_ hop
  rw [raw_36 hop.1]
  simp only [decodeOp36, show u % 2 ^ 8 = 0 by omega, show u / 2 ^ 20 % 2 ^ 5 = 0 by omega, Nat.reduceEqDiff, reduceIte, and_self, and_true, and_false, false_and]
  congr 2
  all_goals (apply field; omega)

theorem depDec (a : BitVec 6) : Statement (.depDec a) := by
  intro hw _ u hn
  have h0 := a.isLt
  replace hn : 1811939329 + a.toNat * 2 ^ 14 = u := Option.some.inj hn
  have hop : u / 2 ^ 25 = 54 ∧ u < 2 ^ 32 - 1 := by omega
  refine of_raw hw 54 rfl ?_ hop
  rw [raw_36 hop.1]
  simp only [decodeOp36, show u % 2 ^ 8 = 1 by omega, show u / 2 ^ 20 % 2 ^ 5 = 0 by omega, show u % 2 ^ 14 = 1 by omega, Nat.reduceEqDiff, reduceIte, and_self, and_true, and_false, false_and]
  congr 2
  all_goals (apply field; omega)

theorem helpres (d : BitVec 5) (a : BitVec 6) (i : BitVec 14) : Statement (.helpres d a i) := by
  intro hw _ u hn
  have h0 := d.isLt
  have h1 := a.isLt
  have h2 := i.isLt
  replace hn : 1845493760 + d.toNat * 2 ^ 20 + a.toNat * 2 ^ 14 + i.toNat * 2 ^ 0 = u := Option.some.inj hn
  have hop : u / 2 ^ 25 = 55 ∧ u < 2 ^ 32 - 1 := by omega
  refine of_raw hw 55 rfl ?_ hop
  rw [raw_37 hop.1]
  simp only [decodeOp37]
  congr 2
  all_goals (apply field; omega)

theorem semp (k : BitVec 4) : Statement (.semp k) := by
  intro hw _ u hn
  have h0 := k.isLt
  replace hn : 1879048192 + k.toNat * 2 ^ 0 = u := Option.some.inj hn
  have hop : u / 2 ^ 25 = 56 ∧ u < 2 ^ 32 - 1 := by omega
  refine of_raw hw 56 rfl ?_ hop
  rw [raw_38 hop.1]
  simp only [decodeOp38, show u / 2 ^ 4 % 2 ^ 21 = 0 by omega, Nat.reduceEqDiff, reduceIte, and_self, and_true, and_false, false_and]
  congr 2
  all_goals (apply field; omega)

theorem semv (k : BitVec 4) : Statement (.semv k) := by
  intro hw _ u hn
  have h0 := k.isLt
  replace hn : 1879048208 + k.toNat * 2 ^ 0 = u := Option.some.inj hn
  have hop : u / 2 ^ 25 = 56 ∧ u < 2 ^ 32 - 1 := by omega
  refine of_raw hw 56 rfl ?_ hop
  rw [raw_38 hop.1]
  simp only [decodeOp38, show u / 2 ^ 4 % 2 ^ 21 = 1 by omega, Nat.reduceEqDiff, reduceIte, and_self, and_true, and_false, false_and]
  congr 2
  all_goals (apply field; omega)

theorem mlock (k : BitVec 3) : Statement (.mlock k) := by
  intro hw _ u hn
  have h0 := k.isLt
  replace hn : 1912602624 + k.toNat * 2 ^ 0 = u := Option.some.inj hn
  have hop : u / 2 ^ 25 = 57 ∧ u < 2 ^ 32 - 1 := by omega
  refine of_raw hw 57 rfl ?_ hop
  rw [raw_39 hop.1]
  simp only [decodeOp39, show u / 2 ^ 3 % 2 ^ 22 = 0 by omega, Nat.reduceEqDiff, reduceIte, and_self, and_true, and_false, false_and]
  congr 2
  all_goals (apply field; omega)

theorem munlock (k : BitVec 3) : Statement (.munlock k) := by
  intro hw _ u hn
  have h0 := k.isLt
  replace hn : 1912602632 + k.toNat * 2 ^ 0 = u := Option.some.inj hn
  have hop : u / 2 ^ 25 = 57 ∧ u < 2 ^ 32 - 1 := by omega
  refine of_raw hw 57 rfl ?_ hop
  rw [raw_39 hop.1]
  simp only [decodeOp39, show u / 2 ^ 3 % 2 ^ 22 = 1 by omega, Nat.reduceEqDiff, reduceIte, and_self, and_true, and_false, false_and]
  congr 2
  all_goals (apply field; omega)

theorem tshape (t : BitVec 4) (a : BitVec 6) : Statement (.tshape t a) := by
  intro hw _ u hn
  have h0 := t.isLt
  have h1 := a.isLt
  replace hn : 2147483648 + t.toNat * 2 ^ 21 + a.toNat * 2 ^ 15 = u := Option.some.inj hn
  have hop : u / 2 ^ 25 = 64 ∧ u < 2 ^ 32 - 1 := by omega
  refine of_raw hw 64 rfl ?_ hop
  rw [raw_40 hop.1]
  simp only [decodeOp40, show u % 2 ^ 15 = 0 by omega, Nat.reduceEqDiff, reduceIte, and_self, and_true, and_false, false_and]
  congr 2
  all_goals (apply field; omega)

theorem tld (t : BitVec 4) (a : BitVec 6) (p : BitVec 6) (r : BitVec 1) (i : BitVec 8) : Statement (.tld t a p r i) := by
  intro hw _ u hn
  have h0 := t.isLt
  have h1 := a.isLt
  have h2 := p.isLt
  have h3 := r.isLt
  have h4 := i.isLt
  replace hn : 2181038080 + t.toNat * 2 ^ 21 + a.toNat * 2 ^ 15 + p.toNat * 2 ^ 9 + r.toNat * 2 ^ 8 + i.toNat * 2 ^ 0 = u := Option.some.inj hn
  have hop : u / 2 ^ 25 = 65 ∧ u < 2 ^ 32 - 1 := by omega
  refine of_raw hw 65 rfl ?_ hop
  rw [raw_41 hop.1]
  simp only [decodeOp41]
  congr 2
  all_goals (apply field; omega)

theorem tst (t : BitVec 4) (a : BitVec 6) (p : BitVec 6) (r : BitVec 1) (i : BitVec 8) : Statement (.tst t a p r i) := by
  intro hw _ u hn
  have h0 := t.isLt
  have h1 := a.isLt
  have h2 := p.isLt
  have h3 := r.isLt
  have h4 := i.isLt
  replace hn : 2214592512 + t.toNat * 2 ^ 21 + a.toNat * 2 ^ 15 + p.toNat * 2 ^ 9 + r.toNat * 2 ^ 8 + i.toNat * 2 ^ 0 = u := Option.some.inj hn
  have hop : u / 2 ^ 25 = 66 ∧ u < 2 ^ 32 - 1 := by omega
  refine of_raw hw 66 rfl ?_ hop
  rw [raw_42 hop.1]
  simp only [decodeOp42]
  congr 2
  all_goals (apply field; omega)

theorem tldT (t : BitVec 4) (a : BitVec 6) (p : BitVec 6) (r : BitVec 1) (i : BitVec 8) : Statement (.tldT t a p r i) := by
  intro hw _ u hn
  have h0 := t.isLt
  have h1 := a.isLt
  have h2 := p.isLt
  have h3 := r.isLt
  have h4 := i.isLt
  replace hn : 2248146944 + t.toNat * 2 ^ 21 + a.toNat * 2 ^ 15 + p.toNat * 2 ^ 9 + r.toNat * 2 ^ 8 + i.toNat * 2 ^ 0 = u := Option.some.inj hn
  have hop : u / 2 ^ 25 = 67 ∧ u < 2 ^ 32 - 1 := by omega
  refine of_raw hw 67 rfl ?_ hop
  rw [raw_43 hop.1]
  simp only [decodeOp43]
  congr 2
  all_goals (apply field; omega)

theorem tgath (t : BitVec 4) (a : BitVec 6) (x : BitVec 4) (r : BitVec 1) (i : BitVec 8) : Statement (.tgath t a x r i) := by
  intro hw _ u hn
  have h0 := t.isLt
  have h1 := a.isLt
  have h2 := x.isLt
  have h3 := r.isLt
  have h4 := i.isLt
  replace hn : 2281701376 + t.toNat * 2 ^ 21 + a.toNat * 2 ^ 15 + x.toNat * 2 ^ 9 + r.toNat * 2 ^ 8 + i.toNat * 2 ^ 0 = u := Option.some.inj hn
  have hop : u / 2 ^ 25 = 68 ∧ u < 2 ^ 32 - 1 := by omega
  refine of_raw hw 68 rfl ?_ hop
  rw [raw_44 hop.1]
  simp only [decodeOp44, show u / 2 ^ 13 % 2 ^ 2 = 0 by omega, Nat.reduceEqDiff, reduceIte, and_self, and_true, and_false, false_and]
  congr 2
  all_goals (apply field; omega)

theorem tzero (d : BitVec 4) (e : BitVec 1) (m : BitVec 3) : Statement (.tzero d e m) := by
  intro hw _ u hn
  have h0 := d.isLt
  have h1 := e.isLt
  have h2 := m.isLt
  replace hn : 2315255808 + d.toNat * 2 ^ 21 + e.toNat * 2 ^ 3 + m.toNat * 2 ^ 0 = u := Option.some.inj hn
  have hop : u / 2 ^ 25 = 69 ∧ u < 2 ^ 32 - 1 := by omega
  refine of_raw hw 69 rfl ?_ hop
  rw [raw_45 hop.1]
  simp only [decodeOp45, show u / 2 ^ 4 % 2 ^ 17 = 0 by omega, Nat.reduceEqDiff, reduceIte, and_self, and_true, and_false, false_and]
  congr 2
  all_goals (apply field; omega)

theorem tfill (d : BitVec 4) (a : BitVec 6) (e : BitVec 1) (m : BitVec 3) : Statement (.tfill d a e m) := by
  intro hw _ u hn
  have h0 := d.isLt
  have h1 := a.isLt
  have h2 := e.isLt
  have h3 := m.isLt
  replace hn : 2315255824 + d.toNat * 2 ^ 21 + a.toNat * 2 ^ 15 + e.toNat * 2 ^ 3 + m.toNat * 2 ^ 0 = u := Option.some.inj hn
  have hop : u / 2 ^ 25 = 69 ∧ u < 2 ^ 32 - 1 := by omega
  refine of_raw hw 69 rfl ?_ hop
  rw [raw_45 hop.1]
  simp only [decodeOp45, show (u / 2 ^ 4 % 2 ^ 17 = 0) = False by simp only [eq_iff_iff, iff_false]; omega, show u / 2 ^ 4 % 2 ^ 11 = 1 by omega, Nat.reduceEqDiff, reduceIte, and_self, and_true, and_false, false_and]
  congr 2
  all_goals (apply field; omega)

theorem tmov (d : BitVec 4) (a : BitVec 4) : Statement (.tmov d a) := by
  intro hw _ u hn
  have h0 := d.isLt
  have h1 := a.isLt
  replace hn : 2315255840 + d.toNat * 2 ^ 21 + a.toNat * 2 ^ 17 = u := Option.some.inj hn
  have hop : u / 2 ^ 25 = 69 ∧ u < 2 ^ 32 - 1 := by omega
  refine of_raw hw 69 rfl ?_ hop
  rw [raw_45 hop.1]
  simp only [decodeOp45, show (u / 2 ^ 4 % 2 ^ 17 = 0) = False by simp only [eq_iff_iff, iff_false]; omega, show u / 2 ^ 4 % 2 ^ 11 = 2 by omega, show u % 2 ^ 17 = 32 by omega, Nat.reduceEqDiff, reduceIte, and_self, and_true, and_false, false_and]
  congr 2
  all_goals (apply field; omega)

theorem tseqCol (d : BitVec 4) (e : BitVec 1) (m : BitVec 3) : Statement (.tseqCol d e m) := by
  intro hw _ u hn
  have h0 := d.isLt
  have h1 := e.isLt
  have h2 := m.isLt
  replace hn : 2348810240 + d.toNat * 2 ^ 21 + e.toNat * 2 ^ 3 + m.toNat * 2 ^ 0 = u := Option.some.inj hn
  have hop : u / 2 ^ 25 = 70 ∧ u < 2 ^ 32 - 1 := by omega
  refine of_raw hw 70 rfl ?_ hop
  rw [raw_46 hop.1]
  simp only [decodeOp46, show u / 2 ^ 4 % 2 ^ 17 = 0 by omega, Nat.reduceEqDiff, reduceIte, and_self, and_true, and_false, false_and]
  congr 2
  all_goals (apply field; omega)

theorem tseqRow (d : BitVec 4) (e : BitVec 1) (m : BitVec 3) : Statement (.tseqRow d e m) := by
  intro hw _ u hn
  have h0 := d.isLt
  have h1 := e.isLt
  have h2 := m.isLt
  replace hn : 2348810256 + d.toNat * 2 ^ 21 + e.toNat * 2 ^ 3 + m.toNat * 2 ^ 0 = u := Option.some.inj hn
  have hop : u / 2 ^ 25 = 70 ∧ u < 2 ^ 32 - 1 := by omega
  refine of_raw hw 70 rfl ?_ hop
  rw [raw_46 hop.1]
  simp only [decodeOp46, show u / 2 ^ 4 % 2 ^ 17 = 1 by omega, Nat.reduceEqDiff, reduceIte, and_self, and_true, and_false, false_and]
  congr 2
  all_goals (apply field; omega)

theorem tseqLin (d : BitVec 4) (e : BitVec 1) (m : BitVec 3) : Statement (.tseqLin d e m) := by
  intro hw _ u hn
  have h0 := d.isLt
  have h1 := e.isLt
  have h2 := m.isLt
  replace hn : 2348810272 + d.toNat * 2 ^ 21 + e.toNat * 2 ^ 3 + m.toNat * 2 ^ 0 = u := Option.some.inj hn
  have hop : u / 2 ^ 25 = 70 ∧ u < 2 ^ 32 - 1 := by omega
  refine of_raw hw 70 rfl ?_ hop
  rw [raw_46 hop.1]
  simp only [decodeOp46, show u / 2 ^ 4 % 2 ^ 17 = 2 by omega, Nat.reduceEqDiff, reduceIte, and_self, and_true, and_false, false_and]
  congr 2
  all_goals (apply field; omega)

theorem tadd (d : BitVec 4) (a : BitVec 4) (b : BitVec 4) (y : BitVec 4) (e : BitVec 1) (m : BitVec 3) : Statement (.tadd d a b y e m) := by
  intro hw _ u hn
  have h0 := d.isLt
  have h1 := a.isLt
  have h2 := b.isLt
  have h3 := y.isLt
  have h4 := e.isLt
  have h5 := m.isLt
  replace hn : 2382364672 + d.toNat * 2 ^ 21 + a.toNat * 2 ^ 17 + b.toNat * 2 ^ 13 + y.toNat * 2 ^ 9 + e.toNat * 2 ^ 3 + m.toNat * 2 ^ 0 = u := Option.some.inj hn
  have hop : u / 2 ^ 25 = 71 ∧ u < 2 ^ 32 - 1 := by omega
  refine of_raw hw 71 rfl ?_ hop
  rw [raw_47 hop.1]
  simp only [decodeOp47, show u / 2 ^ 4 % 2 ^ 5 = 0 by omega, Nat.reduceEqDiff, reduceIte, and_self, and_true, and_false, false_and]
  congr 2
  all_goals (apply field; omega)

theorem tsub (d : BitVec 4) (a : BitVec 4) (b : BitVec 4) (y : BitVec 4) (e : BitVec 1) (m : BitVec 3) : Statement (.tsub d a b y e m) := by
  intro hw _ u hn
  have h0 := d.isLt
  have h1 := a.isLt
  have h2 := b.isLt
  have h3 := y.isLt
  have h4 := e.isLt
  have h5 := m.isLt
  replace hn : 2382364688 + d.toNat * 2 ^ 21 + a.toNat * 2 ^ 17 + b.toNat * 2 ^ 13 + y.toNat * 2 ^ 9 + e.toNat * 2 ^ 3 + m.toNat * 2 ^ 0 = u := Option.some.inj hn
  have hop : u / 2 ^ 25 = 71 ∧ u < 2 ^ 32 - 1 := by omega
  refine of_raw hw 71 rfl ?_ hop
  rw [raw_47 hop.1]
  simp only [decodeOp47, show u / 2 ^ 4 % 2 ^ 5 = 1 by omega, Nat.reduceEqDiff, reduceIte, and_self, and_true, and_false, false_and]
  congr 2
  all_goals (apply field; omega)

theorem tmul (d : BitVec 4) (a : BitVec 4) (b : BitVec 4) (y : BitVec 4) (e : BitVec 1) (m : BitVec 3) : Statement (.tmul d a b y e m) := by
  intro hw _ u hn
  have h0 := d.isLt
  have h1 := a.isLt
  have h2 := b.isLt
  have h3 := y.isLt
  have h4 := e.isLt
  have h5 := m.isLt
  replace hn : 2382364704 + d.toNat * 2 ^ 21 + a.toNat * 2 ^ 17 + b.toNat * 2 ^ 13 + y.toNat * 2 ^ 9 + e.toNat * 2 ^ 3 + m.toNat * 2 ^ 0 = u := Option.some.inj hn
  have hop : u / 2 ^ 25 = 71 ∧ u < 2 ^ 32 - 1 := by omega
  refine of_raw hw 71 rfl ?_ hop
  rw [raw_47 hop.1]
  simp only [decodeOp47, show u / 2 ^ 4 % 2 ^ 5 = 2 by omega, Nat.reduceEqDiff, reduceIte, and_self, and_true, and_false, false_and]
  congr 2
  all_goals (apply field; omega)

theorem tmin (d : BitVec 4) (a : BitVec 4) (b : BitVec 4) (y : BitVec 4) (e : BitVec 1) (m : BitVec 3) : Statement (.tmin d a b y e m) := by
  intro hw _ u hn
  have h0 := d.isLt
  have h1 := a.isLt
  have h2 := b.isLt
  have h3 := y.isLt
  have h4 := e.isLt
  have h5 := m.isLt
  replace hn : 2382364720 + d.toNat * 2 ^ 21 + a.toNat * 2 ^ 17 + b.toNat * 2 ^ 13 + y.toNat * 2 ^ 9 + e.toNat * 2 ^ 3 + m.toNat * 2 ^ 0 = u := Option.some.inj hn
  have hop : u / 2 ^ 25 = 71 ∧ u < 2 ^ 32 - 1 := by omega
  refine of_raw hw 71 rfl ?_ hop
  rw [raw_47 hop.1]
  simp only [decodeOp47, show u / 2 ^ 4 % 2 ^ 5 = 3 by omega, Nat.reduceEqDiff, reduceIte, and_self, and_true, and_false, false_and]
  congr 2
  all_goals (apply field; omega)

theorem tmax (d : BitVec 4) (a : BitVec 4) (b : BitVec 4) (y : BitVec 4) (e : BitVec 1) (m : BitVec 3) : Statement (.tmax d a b y e m) := by
  intro hw _ u hn
  have h0 := d.isLt
  have h1 := a.isLt
  have h2 := b.isLt
  have h3 := y.isLt
  have h4 := e.isLt
  have h5 := m.isLt
  replace hn : 2382364736 + d.toNat * 2 ^ 21 + a.toNat * 2 ^ 17 + b.toNat * 2 ^ 13 + y.toNat * 2 ^ 9 + e.toNat * 2 ^ 3 + m.toNat * 2 ^ 0 = u := Option.some.inj hn
  have hop : u / 2 ^ 25 = 71 ∧ u < 2 ^ 32 - 1 := by omega
  refine of_raw hw 71 rfl ?_ hop
  rw [raw_47 hop.1]
  simp only [decodeOp47, show u / 2 ^ 4 % 2 ^ 5 = 4 by omega, Nat.reduceEqDiff, reduceIte, and_self, and_true, and_false, false_and]
  congr 2
  all_goals (apply field; omega)

theorem tabs (d : BitVec 4) (a : BitVec 4) (y : BitVec 4) (e : BitVec 1) (m : BitVec 3) : Statement (.tabs d a y e m) := by
  intro hw _ u hn
  have h0 := d.isLt
  have h1 := a.isLt
  have h2 := y.isLt
  have h3 := e.isLt
  have h4 := m.isLt
  replace hn : 2382364752 + d.toNat * 2 ^ 21 + a.toNat * 2 ^ 17 + y.toNat * 2 ^ 9 + e.toNat * 2 ^ 3 + m.toNat * 2 ^ 0 = u := Option.some.inj hn
  have hop : u / 2 ^ 25 = 71 ∧ u < 2 ^ 32 - 1 := by omega
  refine of_raw hw 71 rfl ?_ hop
  rw [raw_47 hop.1]
  simp only [decodeOp47, show u / 2 ^ 4 % 2 ^ 5 = 5 by omega, show u / 2 ^ 13 % 2 ^ 4 = 0 by omega, Nat.reduceEqDiff, reduceIte, and_self, and_true, and_false, false_and]
  congr 2
  all_goals (apply field; omega)

theorem tneg (d : BitVec 4) (a : BitVec 4) (y : BitVec 4) (e : BitVec 1) (m : BitVec 3) : Statement (.tneg d a y e m) := by
  intro hw _ u hn
  have h0 := d.isLt
  have h1 := a.isLt
  have h2 := y.isLt
  have h3 := e.isLt
  have h4 := m.isLt
  replace hn : 2382364768 + d.toNat * 2 ^ 21 + a.toNat * 2 ^ 17 + y.toNat * 2 ^ 9 + e.toNat * 2 ^ 3 + m.toNat * 2 ^ 0 = u := Option.some.inj hn
  have hop : u / 2 ^ 25 = 71 ∧ u < 2 ^ 32 - 1 := by omega
  refine of_raw hw 71 rfl ?_ hop
  rw [raw_47 hop.1]
  simp only [decodeOp47, show u / 2 ^ 4 % 2 ^ 5 = 6 by omega, show u / 2 ^ 13 % 2 ^ 4 = 0 by omega, Nat.reduceEqDiff, reduceIte, and_self, and_true, and_false, false_and]
  congr 2
  all_goals (apply field; omega)

theorem tand (d : BitVec 4) (a : BitVec 4) (b : BitVec 4) (y : BitVec 4) (e : BitVec 1) (m : BitVec 3) : Statement (.tand d a b y e m) := by
  intro hw _ u hn
  have h0 := d.isLt
  have h1 := a.isLt
  have h2 := b.isLt
  have h3 := y.isLt
  have h4 := e.isLt
  have h5 := m.isLt
  replace hn : 2382364800 + d.toNat * 2 ^ 21 + a.toNat * 2 ^ 17 + b.toNat * 2 ^ 13 + y.toNat * 2 ^ 9 + e.toNat * 2 ^ 3 + m.toNat * 2 ^ 0 = u := Option.some.inj hn
  have hop : u / 2 ^ 25 = 71 ∧ u < 2 ^ 32 - 1 := by omega
  refine of_raw hw 71 rfl ?_ hop
  rw [raw_47 hop.1]
  simp only [decodeOp47, show u / 2 ^ 4 % 2 ^ 5 = 8 by omega, Nat.reduceEqDiff, reduceIte, and_self, and_true, and_false, false_and]
  congr 2
  all_goals (apply field; omega)

theorem tor (d : BitVec 4) (a : BitVec 4) (b : BitVec 4) (y : BitVec 4) (e : BitVec 1) (m : BitVec 3) : Statement (.tor d a b y e m) := by
  intro hw _ u hn
  have h0 := d.isLt
  have h1 := a.isLt
  have h2 := b.isLt
  have h3 := y.isLt
  have h4 := e.isLt
  have h5 := m.isLt
  replace hn : 2382364816 + d.toNat * 2 ^ 21 + a.toNat * 2 ^ 17 + b.toNat * 2 ^ 13 + y.toNat * 2 ^ 9 + e.toNat * 2 ^ 3 + m.toNat * 2 ^ 0 = u := Option.some.inj hn
  have hop : u / 2 ^ 25 = 71 ∧ u < 2 ^ 32 - 1 := by omega
  refine of_raw hw 71 rfl ?_ hop
  rw [raw_47 hop.1]
  simp only [decodeOp47, show u / 2 ^ 4 % 2 ^ 5 = 9 by omega, Nat.reduceEqDiff, reduceIte, and_self, and_true, and_false, false_and]
  congr 2
  all_goals (apply field; omega)

theorem txor (d : BitVec 4) (a : BitVec 4) (b : BitVec 4) (y : BitVec 4) (e : BitVec 1) (m : BitVec 3) : Statement (.txor d a b y e m) := by
  intro hw _ u hn
  have h0 := d.isLt
  have h1 := a.isLt
  have h2 := b.isLt
  have h3 := y.isLt
  have h4 := e.isLt
  have h5 := m.isLt
  replace hn : 2382364832 + d.toNat * 2 ^ 21 + a.toNat * 2 ^ 17 + b.toNat * 2 ^ 13 + y.toNat * 2 ^ 9 + e.toNat * 2 ^ 3 + m.toNat * 2 ^ 0 = u := Option.some.inj hn
  have hop : u / 2 ^ 25 = 71 ∧ u < 2 ^ 32 - 1 := by omega
  refine of_raw hw 71 rfl ?_ hop
  rw [raw_47 hop.1]
  simp only [decodeOp47, show u / 2 ^ 4 % 2 ^ 5 = 10 by omega, Nat.reduceEqDiff, reduceIte, and_self, and_true, and_false, false_and]
  congr 2
  all_goals (apply field; omega)

theorem tsll (d : BitVec 4) (a : BitVec 4) (b : BitVec 4) (y : BitVec 4) (e : BitVec 1) (m : BitVec 3) : Statement (.tsll d a b y e m) := by
  intro hw _ u hn
  have h0 := d.isLt
  have h1 := a.isLt
  have h2 := b.isLt
  have h3 := y.isLt
  have h4 := e.isLt
  have h5 := m.isLt
  replace hn : 2382364848 + d.toNat * 2 ^ 21 + a.toNat * 2 ^ 17 + b.toNat * 2 ^ 13 + y.toNat * 2 ^ 9 + e.toNat * 2 ^ 3 + m.toNat * 2 ^ 0 = u := Option.some.inj hn
  have hop : u / 2 ^ 25 = 71 ∧ u < 2 ^ 32 - 1 := by omega
  refine of_raw hw 71 rfl ?_ hop
  rw [raw_47 hop.1]
  simp only [decodeOp47, show u / 2 ^ 4 % 2 ^ 5 = 11 by omega, Nat.reduceEqDiff, reduceIte, and_self, and_true, and_false, false_and]
  congr 2
  all_goals (apply field; omega)

theorem tsrl (d : BitVec 4) (a : BitVec 4) (b : BitVec 4) (y : BitVec 4) (e : BitVec 1) (m : BitVec 3) : Statement (.tsrl d a b y e m) := by
  intro hw _ u hn
  have h0 := d.isLt
  have h1 := a.isLt
  have h2 := b.isLt
  have h3 := y.isLt
  have h4 := e.isLt
  have h5 := m.isLt
  replace hn : 2382364864 + d.toNat * 2 ^ 21 + a.toNat * 2 ^ 17 + b.toNat * 2 ^ 13 + y.toNat * 2 ^ 9 + e.toNat * 2 ^ 3 + m.toNat * 2 ^ 0 = u := Option.some.inj hn
  have hop : u / 2 ^ 25 = 71 ∧ u < 2 ^ 32 - 1 := by omega
  refine of_raw hw 71 rfl ?_ hop
  rw [raw_47 hop.1]
  simp only [decodeOp47, show u / 2 ^ 4 % 2 ^ 5 = 12 by omega, Nat.reduceEqDiff, reduceIte, and_self, and_true, and_false, false_and]
  congr 2
  all_goals (apply field; omega)

theorem tsra (d : BitVec 4) (a : BitVec 4) (b : BitVec 4) (y : BitVec 4) (e : BitVec 1) (m : BitVec 3) : Statement (.tsra d a b y e m) := by
  intro hw _ u hn
  have h0 := d.isLt
  have h1 := a.isLt
  have h2 := b.isLt
  have h3 := y.isLt
  have h4 := e.isLt
  have h5 := m.isLt
  replace hn : 2382364880 + d.toNat * 2 ^ 21 + a.toNat * 2 ^ 17 + b.toNat * 2 ^ 13 + y.toNat * 2 ^ 9 + e.toNat * 2 ^ 3 + m.toNat * 2 ^ 0 = u := Option.some.inj hn
  have hop : u / 2 ^ 25 = 71 ∧ u < 2 ^ 32 - 1 := by omega
  refine of_raw hw 71 rfl ?_ hop
  rw [raw_47 hop.1]
  simp only [decodeOp47, show u / 2 ^ 4 % 2 ^ 5 = 13 by omega, Nat.reduceEqDiff, reduceIte, and_self, and_true, and_false, false_and]
  congr 2
  all_goals (apply field; omega)

theorem tcmpEq (d : BitVec 3) (a : BitVec 4) (b : BitVec 4) (y : BitVec 4) (e : BitVec 1) (m : BitVec 3) : Statement (.tcmpEq d a b y e m) := by
  intro hw _ u hn
  have h0 := d.isLt
  have h1 := a.isLt
  have h2 := b.isLt
  have h3 := y.isLt
  have h4 := e.isLt
  have h5 := m.isLt
  replace hn : 2415919104 + d.toNat * 2 ^ 21 + a.toNat * 2 ^ 17 + b.toNat * 2 ^ 13 + y.toNat * 2 ^ 9 + e.toNat * 2 ^ 3 + m.toNat * 2 ^ 0 = u := Option.some.inj hn
  have hop : u / 2 ^ 25 = 72 ∧ u < 2 ^ 32 - 1 := by omega
  refine of_raw hw 72 rfl ?_ hop
  rw [raw_48 hop.1]
  simp only [decodeOp48, show u / 2 ^ 4 % 2 ^ 5 = 0 by omega, show u / 2 ^ 24 % 2 ^ 1 = 0 by omega, Nat.reduceEqDiff, reduceIte, and_self, and_true, and_false, false_and]
  congr 2
  all_goals (apply field; omega)

theorem tcmpNe (d : BitVec 3) (a : BitVec 4) (b : BitVec 4) (y : BitVec 4) (e : BitVec 1) (m : BitVec 3) : Statement (.tcmpNe d a b y e m) := by
  intro hw _ u hn
  have h0 := d.isLt
  have h1 := a.isLt
  have h2 := b.isLt
  have h3 := y.isLt
  have h4 := e.isLt
  have h5 := m.isLt
  replace hn : 2415919120 + d.toNat * 2 ^ 21 + a.toNat * 2 ^ 17 + b.toNat * 2 ^ 13 + y.toNat * 2 ^ 9 + e.toNat * 2 ^ 3 + m.toNat * 2 ^ 0 = u := Option.some.inj hn
  have hop : u / 2 ^ 25 = 72 ∧ u < 2 ^ 32 - 1 := by omega
  refine of_raw hw 72 rfl ?_ hop
  rw [raw_48 hop.1]
  simp only [decodeOp48, show u / 2 ^ 4 % 2 ^ 5 = 1 by omega, show u / 2 ^ 24 % 2 ^ 1 = 0 by omega, Nat.reduceEqDiff, reduceIte, and_self, and_true, and_false, false_and]
  congr 2
  all_goals (apply field; omega)

theorem tcmpLt (d : BitVec 3) (a : BitVec 4) (b : BitVec 4) (y : BitVec 4) (e : BitVec 1) (m : BitVec 3) : Statement (.tcmpLt d a b y e m) := by
  intro hw _ u hn
  have h0 := d.isLt
  have h1 := a.isLt
  have h2 := b.isLt
  have h3 := y.isLt
  have h4 := e.isLt
  have h5 := m.isLt
  replace hn : 2415919136 + d.toNat * 2 ^ 21 + a.toNat * 2 ^ 17 + b.toNat * 2 ^ 13 + y.toNat * 2 ^ 9 + e.toNat * 2 ^ 3 + m.toNat * 2 ^ 0 = u := Option.some.inj hn
  have hop : u / 2 ^ 25 = 72 ∧ u < 2 ^ 32 - 1 := by omega
  refine of_raw hw 72 rfl ?_ hop
  rw [raw_48 hop.1]
  simp only [decodeOp48, show u / 2 ^ 4 % 2 ^ 5 = 2 by omega, show u / 2 ^ 24 % 2 ^ 1 = 0 by omega, Nat.reduceEqDiff, reduceIte, and_self, and_true, and_false, false_and]
  congr 2
  all_goals (apply field; omega)

theorem tcmpLe (d : BitVec 3) (a : BitVec 4) (b : BitVec 4) (y : BitVec 4) (e : BitVec 1) (m : BitVec 3) : Statement (.tcmpLe d a b y e m) := by
  intro hw _ u hn
  have h0 := d.isLt
  have h1 := a.isLt
  have h2 := b.isLt
  have h3 := y.isLt
  have h4 := e.isLt
  have h5 := m.isLt
  replace hn : 2415919152 + d.toNat * 2 ^ 21 + a.toNat * 2 ^ 17 + b.toNat * 2 ^ 13 + y.toNat * 2 ^ 9 + e.toNat * 2 ^ 3 + m.toNat * 2 ^ 0 = u := Option.some.inj hn
  have hop : u / 2 ^ 25 = 72 ∧ u < 2 ^ 32 - 1 := by omega
  refine of_raw hw 72 rfl ?_ hop
  rw [raw_48 hop.1]
  simp only [decodeOp48, show u / 2 ^ 4 % 2 ^ 5 = 3 by omega, show u / 2 ^ 24 % 2 ^ 1 = 0 by omega, Nat.reduceEqDiff, reduceIte, and_self, and_true, and_false, false_and]
  congr 2
  all_goals (apply field; omega)

theorem tsel (d : BitVec 4) (a : BitVec 4) (b : BitVec 4) (k : BitVec 3) : Statement (.tsel d a b k) := by
  intro hw _ u hn
  have h0 := d.isLt
  have h1 := a.isLt
  have h2 := b.isLt
  have h3 := k.isLt
  replace hn : 2449473544 + d.toNat * 2 ^ 21 + a.toNat * 2 ^ 17 + b.toNat * 2 ^ 13 + k.toNat * 2 ^ 0 = u := Option.some.inj hn
  have hop : u / 2 ^ 25 = 73 ∧ u < 2 ^ 32 - 1 := by omega
  refine of_raw hw 73 rfl ?_ hop
  rw [raw_49 hop.1]
  simp only [decodeOp49, show u / 2 ^ 3 % 2 ^ 10 = 1 by omega, Nat.reduceEqDiff, reduceIte, and_self, and_true, and_false, false_and]
  congr 2
  all_goals (apply field; omega)

theorem tfma (d : BitVec 4) (a : BitVec 4) (b : BitVec 4) (y : BitVec 4) (c : BitVec 4) (e : BitVec 1) (m : BitVec 3) : Statement (.tfma d a b y c e m) := by
  intro hw _ u hn
  have h0 := d.isLt
  have h1 := a.isLt
  have h2 := b.isLt
  have h3 := y.isLt
  have h4 := c.isLt
  have h5 := e.isLt
  have h6 := m.isLt
  replace hn : 2483027968 + d.toNat * 2 ^ 21 + a.toNat * 2 ^ 17 + b.toNat * 2 ^ 13 + y.toNat * 2 ^ 9 + c.toNat * 2 ^ 5 + e.toNat * 2 ^ 3 + m.toNat * 2 ^ 0 = u := Option.some.inj hn
  have hop : u / 2 ^ 25 = 74 ∧ u < 2 ^ 32 - 1 := by omega
  refine of_raw hw 74 rfl ?_ hop
  rw [raw_4A hop.1]
  simp only [decodeOp4A, show u / 2 ^ 4 % 2 ^ 1 = 0 by omega, Nat.reduceEqDiff, reduceIte, and_self, and_true, and_false, false_and]
  congr 2
  all_goals (apply field; omega)

theorem tfms (d : BitVec 4) (a : BitVec 4) (b : BitVec 4) (y : BitVec 4) (c : BitVec 4) (e : BitVec 1) (m : BitVec 3) : Statement (.tfms d a b y c e m) := by
  intro hw _ u hn
  have h0 := d.isLt
  have h1 := a.isLt
  have h2 := b.isLt
  have h3 := y.isLt
  have h4 := c.isLt
  have h5 := e.isLt
  have h6 := m.isLt
  replace hn : 2483027984 + d.toNat * 2 ^ 21 + a.toNat * 2 ^ 17 + b.toNat * 2 ^ 13 + y.toNat * 2 ^ 9 + c.toNat * 2 ^ 5 + e.toNat * 2 ^ 3 + m.toNat * 2 ^ 0 = u := Option.some.inj hn
  have hop : u / 2 ^ 25 = 74 ∧ u < 2 ^ 32 - 1 := by omega
  refine of_raw hw 74 rfl ?_ hop
  rw [raw_4A hop.1]
  simp only [decodeOp4A, show u / 2 ^ 4 % 2 ^ 1 = 1 by omega, Nat.reduceEqDiff, reduceIte, and_self, and_true, and_false, false_and]
  congr 2
  all_goals (apply field; omega)

theorem texp2 (d : BitVec 4) (a : BitVec 4) (y : BitVec 4) (e : BitVec 1) (m : BitVec 3) : Statement (.texp2 d a y e m) := by
  intro hw _ u hn
  have h0 := d.isLt
  have h1 := a.isLt
  have h2 := y.isLt
  have h3 := e.isLt
  have h4 := m.isLt
  replace hn : 2516582400 + d.toNat * 2 ^ 21 + a.toNat * 2 ^ 17 + y.toNat * 2 ^ 9 + e.toNat * 2 ^ 3 + m.toNat * 2 ^ 0 = u := Option.some.inj hn
  have hop : u / 2 ^ 25 = 75 ∧ u < 2 ^ 32 - 1 := by omega
  refine of_raw hw 75 rfl ?_ hop
  rw [raw_4B hop.1]
  simp only [decodeOp4B, show u / 2 ^ 4 % 2 ^ 5 = 0 by omega, show u / 2 ^ 13 % 2 ^ 4 = 0 by omega, Nat.reduceEqDiff, reduceIte, and_self, and_true, and_false, false_and]
  congr 2
  all_goals (apply field; omega)

theorem trcp (d : BitVec 4) (a : BitVec 4) (y : BitVec 4) (e : BitVec 1) (m : BitVec 3) : Statement (.trcp d a y e m) := by
  intro hw _ u hn
  have h0 := d.isLt
  have h1 := a.isLt
  have h2 := y.isLt
  have h3 := e.isLt
  have h4 := m.isLt
  replace hn : 2516582416 + d.toNat * 2 ^ 21 + a.toNat * 2 ^ 17 + y.toNat * 2 ^ 9 + e.toNat * 2 ^ 3 + m.toNat * 2 ^ 0 = u := Option.some.inj hn
  have hop : u / 2 ^ 25 = 75 ∧ u < 2 ^ 32 - 1 := by omega
  refine of_raw hw 75 rfl ?_ hop
  rw [raw_4B hop.1]
  simp only [decodeOp4B, show u / 2 ^ 4 % 2 ^ 5 = 1 by omega, show u / 2 ^ 13 % 2 ^ 4 = 0 by omega, Nat.reduceEqDiff, reduceIte, and_self, and_true, and_false, false_and]
  congr 2
  all_goals (apply field; omega)

theorem trsq (d : BitVec 4) (a : BitVec 4) (y : BitVec 4) (e : BitVec 1) (m : BitVec 3) : Statement (.trsq d a y e m) := by
  intro hw _ u hn
  have h0 := d.isLt
  have h1 := a.isLt
  have h2 := y.isLt
  have h3 := e.isLt
  have h4 := m.isLt
  replace hn : 2516582432 + d.toNat * 2 ^ 21 + a.toNat * 2 ^ 17 + y.toNat * 2 ^ 9 + e.toNat * 2 ^ 3 + m.toNat * 2 ^ 0 = u := Option.some.inj hn
  have hop : u / 2 ^ 25 = 75 ∧ u < 2 ^ 32 - 1 := by omega
  refine of_raw hw 75 rfl ?_ hop
  rw [raw_4B hop.1]
  simp only [decodeOp4B, show u / 2 ^ 4 % 2 ^ 5 = 2 by omega, show u / 2 ^ 13 % 2 ^ 4 = 0 by omega, Nat.reduceEqDiff, reduceIte, and_self, and_true, and_false, false_and]
  congr 2
  all_goals (apply field; omega)

theorem trsum (d : BitVec 4) (a : BitVec 4) (y : BitVec 4) (e : BitVec 1) (m : BitVec 3) : Statement (.trsum d a y e m) := by
  intro hw _ u hn
  have h0 := d.isLt
  have h1 := a.isLt
  have h2 := y.isLt
  have h3 := e.isLt
  have h4 := m.isLt
  replace hn : 2550136832 + d.toNat * 2 ^ 21 + a.toNat * 2 ^ 17 + y.toNat * 2 ^ 9 + e.toNat * 2 ^ 3 + m.toNat * 2 ^ 0 = u := Option.some.inj hn
  have hop : u / 2 ^ 25 = 76 ∧ u < 2 ^ 32 - 1 := by omega
  refine of_raw hw 76 rfl ?_ hop
  rw [raw_4C hop.1]
  simp only [decodeOp4C, show u / 2 ^ 4 % 2 ^ 5 = 0 by omega, show u / 2 ^ 13 % 2 ^ 4 = 0 by omega, Nat.reduceEqDiff, reduceIte, and_self, and_true, and_false, false_and]
  congr 2
  all_goals (apply field; omega)

theorem trmax (d : BitVec 4) (a : BitVec 4) (y : BitVec 4) (e : BitVec 1) (m : BitVec 3) : Statement (.trmax d a y e m) := by
  intro hw _ u hn
  have h0 := d.isLt
  have h1 := a.isLt
  have h2 := y.isLt
  have h3 := e.isLt
  have h4 := m.isLt
  replace hn : 2550136848 + d.toNat * 2 ^ 21 + a.toNat * 2 ^ 17 + y.toNat * 2 ^ 9 + e.toNat * 2 ^ 3 + m.toNat * 2 ^ 0 = u := Option.some.inj hn
  have hop : u / 2 ^ 25 = 76 ∧ u < 2 ^ 32 - 1 := by omega
  refine of_raw hw 76 rfl ?_ hop
  rw [raw_4C hop.1]
  simp only [decodeOp4C, show u / 2 ^ 4 % 2 ^ 5 = 1 by omega, show u / 2 ^ 13 % 2 ^ 4 = 0 by omega, Nat.reduceEqDiff, reduceIte, and_self, and_true, and_false, false_and]
  congr 2
  all_goals (apply field; omega)

theorem trmin (d : BitVec 4) (a : BitVec 4) (y : BitVec 4) (e : BitVec 1) (m : BitVec 3) : Statement (.trmin d a y e m) := by
  intro hw _ u hn
  have h0 := d.isLt
  have h1 := a.isLt
  have h2 := y.isLt
  have h3 := e.isLt
  have h4 := m.isLt
  replace hn : 2550136864 + d.toNat * 2 ^ 21 + a.toNat * 2 ^ 17 + y.toNat * 2 ^ 9 + e.toNat * 2 ^ 3 + m.toNat * 2 ^ 0 = u := Option.some.inj hn
  have hop : u / 2 ^ 25 = 76 ∧ u < 2 ^ 32 - 1 := by omega
  refine of_raw hw 76 rfl ?_ hop
  rw [raw_4C hop.1]
  simp only [decodeOp4C, show u / 2 ^ 4 % 2 ^ 5 = 2 by omega, show u / 2 ^ 13 % 2 ^ 4 = 0 by omega, Nat.reduceEqDiff, reduceIte, and_self, and_true, and_false, false_and]
  congr 2
  all_goals (apply field; omega)

theorem tcsum (d : BitVec 4) (a : BitVec 4) (y : BitVec 4) (e : BitVec 1) (m : BitVec 3) : Statement (.tcsum d a y e m) := by
  intro hw _ u hn
  have h0 := d.isLt
  have h1 := a.isLt
  have h2 := y.isLt
  have h3 := e.isLt
  have h4 := m.isLt
  replace hn : 2550136896 + d.toNat * 2 ^ 21 + a.toNat * 2 ^ 17 + y.toNat * 2 ^ 9 + e.toNat * 2 ^ 3 + m.toNat * 2 ^ 0 = u := Option.some.inj hn
  have hop : u / 2 ^ 25 = 76 ∧ u < 2 ^ 32 - 1 := by omega
  refine of_raw hw 76 rfl ?_ hop
  rw [raw_4C hop.1]
  simp only [decodeOp4C, show u / 2 ^ 4 % 2 ^ 5 = 4 by omega, show u / 2 ^ 13 % 2 ^ 4 = 0 by omega, Nat.reduceEqDiff, reduceIte, and_self, and_true, and_false, false_and]
  congr 2
  all_goals (apply field; omega)

theorem tcmax (d : BitVec 4) (a : BitVec 4) (y : BitVec 4) (e : BitVec 1) (m : BitVec 3) : Statement (.tcmax d a y e m) := by
  intro hw _ u hn
  have h0 := d.isLt
  have h1 := a.isLt
  have h2 := y.isLt
  have h3 := e.isLt
  have h4 := m.isLt
  replace hn : 2550136912 + d.toNat * 2 ^ 21 + a.toNat * 2 ^ 17 + y.toNat * 2 ^ 9 + e.toNat * 2 ^ 3 + m.toNat * 2 ^ 0 = u := Option.some.inj hn
  have hop : u / 2 ^ 25 = 76 ∧ u < 2 ^ 32 - 1 := by omega
  refine of_raw hw 76 rfl ?_ hop
  rw [raw_4C hop.1]
  simp only [decodeOp4C, show u / 2 ^ 4 % 2 ^ 5 = 5 by omega, show u / 2 ^ 13 % 2 ^ 4 = 0 by omega, Nat.reduceEqDiff, reduceIte, and_self, and_true, and_false, false_and]
  congr 2
  all_goals (apply field; omega)

theorem tcmin (d : BitVec 4) (a : BitVec 4) (y : BitVec 4) (e : BitVec 1) (m : BitVec 3) : Statement (.tcmin d a y e m) := by
  intro hw _ u hn
  have h0 := d.isLt
  have h1 := a.isLt
  have h2 := y.isLt
  have h3 := e.isLt
  have h4 := m.isLt
  replace hn : 2550136928 + d.toNat * 2 ^ 21 + a.toNat * 2 ^ 17 + y.toNat * 2 ^ 9 + e.toNat * 2 ^ 3 + m.toNat * 2 ^ 0 = u := Option.some.inj hn
  have hop : u / 2 ^ 25 = 76 ∧ u < 2 ^ 32 - 1 := by omega
  refine of_raw hw 76 rfl ?_ hop
  rw [raw_4C hop.1]
  simp only [decodeOp4C, show u / 2 ^ 4 % 2 ^ 5 = 6 by omega, show u / 2 ^ 13 % 2 ^ 4 = 0 by omega, Nat.reduceEqDiff, reduceIte, and_self, and_true, and_false, false_and]
  congr 2
  all_goals (apply field; omega)

theorem tbcastRow (d : BitVec 4) (a : BitVec 4) (e : BitVec 1) (m : BitVec 3) : Statement (.tbcastRow d a e m) := by
  intro hw _ u hn
  have h0 := d.isLt
  have h1 := a.isLt
  have h2 := e.isLt
  have h3 := m.isLt
  replace hn : 2583691264 + d.toNat * 2 ^ 21 + a.toNat * 2 ^ 17 + e.toNat * 2 ^ 3 + m.toNat * 2 ^ 0 = u := Option.some.inj hn
  have hop : u / 2 ^ 25 = 77 ∧ u < 2 ^ 32 - 1 := by omega
  refine of_raw hw 77 rfl ?_ hop
  rw [raw_4D hop.1]
  simp only [decodeOp4D, show u / 2 ^ 4 % 2 ^ 13 = 0 by omega, Nat.reduceEqDiff, reduceIte, and_self, and_true, and_false, false_and]
  congr 2
  all_goals (apply field; omega)

theorem tbcastCol (d : BitVec 4) (a : BitVec 4) (e : BitVec 1) (m : BitVec 3) : Statement (.tbcastCol d a e m) := by
  intro hw _ u hn
  have h0 := d.isLt
  have h1 := a.isLt
  have h2 := e.isLt
  have h3 := m.isLt
  replace hn : 2583691280 + d.toNat * 2 ^ 21 + a.toNat * 2 ^ 17 + e.toNat * 2 ^ 3 + m.toNat * 2 ^ 0 = u := Option.some.inj hn
  have hop : u / 2 ^ 25 = 77 ∧ u < 2 ^ 32 - 1 := by omega
  refine of_raw hw 77 rfl ?_ hop
  rw [raw_4D hop.1]
  simp only [decodeOp4D, show u / 2 ^ 4 % 2 ^ 13 = 1 by omega, Nat.reduceEqDiff, reduceIte, and_self, and_true, and_false, false_and]
  congr 2
  all_goals (apply field; omega)

theorem tbcastOne (d : BitVec 4) (a : BitVec 4) (e : BitVec 1) (m : BitVec 3) : Statement (.tbcastOne d a e m) := by
  intro hw _ u hn
  have h0 := d.isLt
  have h1 := a.isLt
  have h2 := e.isLt
  have h3 := m.isLt
  replace hn : 2583691296 + d.toNat * 2 ^ 21 + a.toNat * 2 ^ 17 + e.toNat * 2 ^ 3 + m.toNat * 2 ^ 0 = u := Option.some.inj hn
  have hop : u / 2 ^ 25 = 77 ∧ u < 2 ^ 32 - 1 := by omega
  refine of_raw hw 77 rfl ?_ hop
  rw [raw_4D hop.1]
  simp only [decodeOp4D, show u / 2 ^ 4 % 2 ^ 13 = 2 by omega, Nat.reduceEqDiff, reduceIte, and_self, and_true, and_false, false_and]
  congr 2
  all_goals (apply field; omega)

theorem trng (d : BitVec 4) (a : BitVec 4) (b : BitVec 4) : Statement (.trng d a b) := by
  intro hw _ u hn
  have h0 := d.isLt
  have h1 := a.isLt
  have h2 := b.isLt
  replace hn : 2617245696 + d.toNat * 2 ^ 21 + a.toNat * 2 ^ 17 + b.toNat * 2 ^ 13 = u := Option.some.inj hn
  have hop : u / 2 ^ 25 = 78 ∧ u < 2 ^ 32 - 1 := by omega
  refine of_raw hw 78 rfl ?_ hop
  rw [raw_4E hop.1]
  simp only [decodeOp4E, show u % 2 ^ 13 = 0 by omega, Nat.reduceEqDiff, reduceIte, and_self, and_true, and_false, false_and]
  congr 2
  all_goals (apply field; omega)

theorem trngU (d : BitVec 4) (a : BitVec 4) (b : BitVec 4) : Statement (.trngU d a b) := by
  intro hw _ u hn
  have h0 := d.isLt
  have h1 := a.isLt
  have h2 := b.isLt
  replace hn : 2617245712 + d.toNat * 2 ^ 21 + a.toNat * 2 ^ 17 + b.toNat * 2 ^ 13 = u := Option.some.inj hn
  have hop : u / 2 ^ 25 = 78 ∧ u < 2 ^ 32 - 1 := by omega
  refine of_raw hw 78 rfl ?_ hop
  rw [raw_4E hop.1]
  simp only [decodeOp4E, show u % 2 ^ 13 = 16 by omega, Nat.reduceEqDiff, reduceIte, and_self, and_true, and_false, false_and]
  congr 2
  all_goals (apply field; omega)

theorem tcvt (d : BitVec 4) (a : BitVec 4) (y : BitVec 4) : Statement (.tcvt d a y) := by
  intro hw _ u hn
  have h0 := d.isLt
  have h1 := a.isLt
  have h2 := y.isLt
  replace hn : 2650800128 + d.toNat * 2 ^ 21 + a.toNat * 2 ^ 17 + y.toNat * 2 ^ 9 = u := Option.some.inj hn
  have hop : u / 2 ^ 25 = 79 ∧ u < 2 ^ 32 - 1 := by omega
  refine of_raw hw 79 rfl ?_ hop
  rw [raw_4F hop.1]
  simp only [decodeOp4F, show u % 2 ^ 9 = 0 by omega, show u / 2 ^ 13 % 2 ^ 4 = 0 by omega, Nat.reduceEqDiff, reduceIte, and_self, and_true, and_false, false_and]
  congr 2
  all_goals (apply field; omega)

theorem tqnt (d : BitVec 4) (a : BitVec 4) (b : BitVec 4) : Statement (.tqnt d a b) := by
  intro hw _ u hn
  have h0 := d.isLt
  have h1 := a.isLt
  have h2 := b.isLt
  replace hn : 2684354560 + d.toNat * 2 ^ 21 + a.toNat * 2 ^ 17 + b.toNat * 2 ^ 13 = u := Option.some.inj hn
  have hop : u / 2 ^ 25 = 80 ∧ u < 2 ^ 32 - 1 := by omega
  refine of_raw hw 80 rfl ?_ hop
  rw [raw_50 hop.1]
  simp only [decodeOp50, show u % 2 ^ 13 = 0 by omega, Nat.reduceEqDiff, reduceIte, and_self, and_true, and_false, false_and]
  congr 2
  all_goals (apply field; omega)

theorem tdeq (d : BitVec 4) (a : BitVec 4) (y : BitVec 4) : Statement (.tdeq d a y) := by
  intro hw _ u hn
  have h0 := d.isLt
  have h1 := a.isLt
  have h2 := y.isLt
  replace hn : 2717908992 + d.toNat * 2 ^ 21 + a.toNat * 2 ^ 17 + y.toNat * 2 ^ 9 = u := Option.some.inj hn
  have hop : u / 2 ^ 25 = 81 ∧ u < 2 ^ 32 - 1 := by omega
  refine of_raw hw 81 rfl ?_ hop
  rw [raw_51 hop.1]
  simp only [decodeOp51, show u % 2 ^ 9 = 0 by omega, show u / 2 ^ 13 % 2 ^ 4 = 0 by omega, Nat.reduceEqDiff, reduceIte, and_self, and_true, and_false, false_and]
  congr 2
  all_goals (apply field; omega)

theorem fixmerge (d : BitVec 4) (a : BitVec 4) (b : BitVec 4) : Statement (.fixmerge d a b) := by
  intro hw _ u hn
  have h0 := d.isLt
  have h1 := a.isLt
  have h2 := b.isLt
  replace hn : 2751463424 + d.toNat * 2 ^ 21 + a.toNat * 2 ^ 17 + b.toNat * 2 ^ 13 = u := Option.some.inj hn
  have hop : u / 2 ^ 25 = 82 ∧ u < 2 ^ 32 - 1 := by omega
  refine of_raw hw 82 rfl ?_ hop
  rw [raw_52 hop.1]
  simp only [decodeOp52, show u % 2 ^ 13 = 0 by omega, Nat.reduceEqDiff, reduceIte, and_self, and_true, and_false, false_and]
  congr 2
  all_goals (apply field; omega)

theorem fixnorm (d : BitVec 4) (a : BitVec 4) : Statement (.fixnorm d a) := by
  intro hw _ u hn
  have h0 := d.isLt
  have h1 := a.isLt
  replace hn : 2751463440 + d.toNat * 2 ^ 21 + a.toNat * 2 ^ 17 = u := Option.some.inj hn
  have hop : u / 2 ^ 25 = 82 ∧ u < 2 ^ 32 - 1 := by omega
  refine of_raw hw 82 rfl ?_ hop
  rw [raw_52 hop.1]
  simp only [decodeOp52, show u % 2 ^ 13 = 16 by omega, show u % 2 ^ 17 = 16 by omega, Nat.reduceEqDiff, reduceIte, and_self, and_true, and_false, false_and]
  congr 2
  all_goals (apply field; omega)

theorem mset (m : BitVec 3) (a : BitVec 6) : Statement (.mset m a) := by
  intro hw _ u hn
  have h0 := m.isLt
  have h1 := a.isLt
  replace hn : 2785017856 + m.toNat * 2 ^ 12 + a.toNat * 2 ^ 0 = u := Option.some.inj hn
  have hop : u / 2 ^ 25 = 83 ∧ u < 2 ^ 32 - 1 := by omega
  refine of_raw hw 83 rfl ?_ hop
  rw [raw_53 hop.1]
  simp only [decodeOp53, show u / 2 ^ 6 % 2 ^ 6 = 0 by omega, show u / 2 ^ 15 % 2 ^ 10 = 0 by omega, Nat.reduceEqDiff, reduceIte, and_self, and_true, and_false, false_and]
  congr 2
  all_goals (apply field; omega)

theorem msetZ (m : BitVec 3) (a : BitVec 6) : Statement (.msetZ m a) := by
  intro hw _ u hn
  have h0 := m.isLt
  have h1 := a.isLt
  replace hn : 2786066432 + m.toNat * 2 ^ 12 + a.toNat * 2 ^ 0 = u := Option.some.inj hn
  have hop : u / 2 ^ 25 = 83 ∧ u < 2 ^ 32 - 1 := by omega
  refine of_raw hw 83 rfl ?_ hop
  rw [raw_53 hop.1]
  simp only [decodeOp53, show u / 2 ^ 6 % 2 ^ 6 = 0 by omega, show u / 2 ^ 15 % 2 ^ 10 = 32 by omega, Nat.reduceEqDiff, reduceIte, and_self, and_true, and_false, false_and]
  congr 2
  all_goals (apply field; omega)

theorem mand (m : BitVec 3) (x : BitVec 3) (y : BitVec 3) : Statement (.mand m x y) := by
  intro hw _ u hn
  have h0 := m.isLt
  have h1 := x.isLt
  have h2 := y.isLt
  replace hn : 2787115008 + m.toNat * 2 ^ 12 + x.toNat * 2 ^ 9 + y.toNat * 2 ^ 6 = u := Option.some.inj hn
  have hop : u / 2 ^ 25 = 83 ∧ u < 2 ^ 32 - 1 := by omega
  refine of_raw hw 83 rfl ?_ hop
  rw [raw_53 hop.1]
  simp only [decodeOp53, show u / 2 ^ 15 % 2 ^ 10 = 64 by omega, show u % 2 ^ 6 = 0 by omega, Nat.reduceEqDiff, reduceIte, and_self, and_true, and_false, false_and]
  congr 2
  all_goals (apply field; omega)

theorem mor (m : BitVec 3) (x : BitVec 3) (y : BitVec 3) : Statement (.mor m x y) := by
  intro hw _ u hn
  have h0 := m.isLt
  have h1 := x.isLt
  have h2 := y.isLt
  replace hn : 2788163584 + m.toNat * 2 ^ 12 + x.toNat * 2 ^ 9 + y.toNat * 2 ^ 6 = u := Option.some.inj hn
  have hop : u / 2 ^ 25 = 83 ∧ u < 2 ^ 32 - 1 := by omega
  refine of_raw hw 83 rfl ?_ hop
  rw [raw_53 hop.1]
  simp only [decodeOp53, show u / 2 ^ 15 % 2 ^ 10 = 96 by omega, show u % 2 ^ 6 = 0 by omega, Nat.reduceEqDiff, reduceIte, and_self, and_true, and_false, false_and]
  congr 2
  all_goals (apply field; omega)

theorem mnot (m : BitVec 3) (x : BitVec 3) : Statement (.mnot m x) := by
  intro hw _ u hn
  have h0 := m.isLt
  have h1 := x.isLt
  replace hn : 2789212160 + m.toNat * 2 ^ 12 + x.toNat * 2 ^ 9 = u := Option.some.inj hn
  have hop : u / 2 ^ 25 = 83 ∧ u < 2 ^ 32 - 1 := by omega
  refine of_raw hw 83 rfl ?_ hop
  rw [raw_53 hop.1]
  simp only [decodeOp53, show u / 2 ^ 15 % 2 ^ 10 = 128 by omega, show u % 2 ^ 6 = 0 by omega, show u % 2 ^ 9 = 0 by omega, Nat.reduceEqDiff, reduceIte, and_self, and_true, and_false, false_and]
  congr 2
  all_goals (apply field; omega)

theorem mcnt (d : BitVec 5) (x : BitVec 3) : Statement (.mcnt d x) := by
  intro hw _ u hn
  have h0 := d.isLt
  have h1 := x.isLt
  replace hn : 2790260736 + d.toNat * 2 ^ 15 + x.toNat * 2 ^ 9 = u := Option.some.inj hn
  have hop : u / 2 ^ 25 = 83 ∧ u < 2 ^ 32 - 1 := by omega
  refine of_raw hw 83 rfl ?_ hop
  rw [raw_53 hop.1]
  simp only [decodeOp53, show (u / 2 ^ 15 % 2 ^ 10 = 0) = False by simp only [eq_iff_iff, iff_false]; omega, show (u / 2 ^ 15 % 2 ^ 10 = 32) = False by simp only [eq_iff_iff, iff_false]; omega, show u % 2 ^ 6 = 0 by omega, show (u / 2 ^ 15 % 2 ^ 10 = 64) = False by simp only [eq_iff_iff, iff_false]; omega, show (u / 2 ^ 15 % 2 ^ 10 = 96) = False by simp only [eq_iff_iff, iff_false]; omega, show u % 2 ^ 9 = 0 by omega, show (u / 2 ^ 15 % 2 ^ 10 = 128) = False by simp only [eq_iff_iff, iff_false]; omega, show u / 2 ^ 12 % 2 ^ 3 = 0 by omega, show u / 2 ^ 20 % 2 ^ 5 = 5 by omega, Nat.reduceEqDiff, reduceIte, and_self, and_true, and_false, false_and]
  congr 2
  all_goals (apply field; omega)

theorem mtestAny (d : BitVec 5) (x : BitVec 3) : Statement (.mtestAny d x) := by
  intro hw _ u hn
  have h0 := d.isLt
  have h1 := x.isLt
  replace hn : 2791309312 + d.toNat * 2 ^ 15 + x.toNat * 2 ^ 9 = u := Option.some.inj hn
  have hop : u / 2 ^ 25 = 83 ∧ u < 2 ^ 32 - 1 := by omega
  refine of_raw hw 83 rfl ?_ hop
  rw [raw_53 hop.1]
  simp only [decodeOp53, show (u / 2 ^ 15 % 2 ^ 10 = 0) = False by simp only [eq_iff_iff, iff_false]; omega, show (u / 2 ^ 15 % 2 ^ 10 = 32) = False by simp only [eq_iff_iff, iff_false]; omega, show u % 2 ^ 6 = 0 by omega, show (u / 2 ^ 15 % 2 ^ 10 = 64) = False by simp only [eq_iff_iff, iff_false]; omega, show (u / 2 ^ 15 % 2 ^ 10 = 96) = False by simp only [eq_iff_iff, iff_false]; omega, show u % 2 ^ 9 = 0 by omega, show (u / 2 ^ 15 % 2 ^ 10 = 128) = False by simp only [eq_iff_iff, iff_false]; omega, show u / 2 ^ 12 % 2 ^ 3 = 0 by omega, show u / 2 ^ 20 % 2 ^ 5 = 6 by omega, Nat.reduceEqDiff, reduceIte, and_self, and_true, and_false, false_and]
  congr 2
  all_goals (apply field; omega)

theorem mtestAll (d : BitVec 5) (x : BitVec 3) : Statement (.mtestAll d x) := by
  intro hw _ u hn
  have h0 := d.isLt
  have h1 := x.isLt
  replace hn : 2792357888 + d.toNat * 2 ^ 15 + x.toNat * 2 ^ 9 = u := Option.some.inj hn
  have hop : u / 2 ^ 25 = 83 ∧ u < 2 ^ 32 - 1 := by omega
  refine of_raw hw 83 rfl ?_ hop
  rw [raw_53 hop.1]
  simp only [decodeOp53, show (u / 2 ^ 15 % 2 ^ 10 = 0) = False by simp only [eq_iff_iff, iff_false]; omega, show (u / 2 ^ 15 % 2 ^ 10 = 32) = False by simp only [eq_iff_iff, iff_false]; omega, show u % 2 ^ 6 = 0 by omega, show (u / 2 ^ 15 % 2 ^ 10 = 64) = False by simp only [eq_iff_iff, iff_false]; omega, show (u / 2 ^ 15 % 2 ^ 10 = 96) = False by simp only [eq_iff_iff, iff_false]; omega, show u % 2 ^ 9 = 0 by omega, show (u / 2 ^ 15 % 2 ^ 10 = 128) = False by simp only [eq_iff_iff, iff_false]; omega, show u / 2 ^ 12 % 2 ^ 3 = 0 by omega, show u / 2 ^ 20 % 2 ^ 5 = 7 by omega, Nat.reduceEqDiff, reduceIte, and_self, and_true, and_false, false_and]
  congr 2
  all_goals (apply field; omega)

theorem mtestBit (d : BitVec 5) (x : BitVec 3) (a : BitVec 6) : Statement (.mtestBit d x a) := by
  intro hw _ u hn
  have h0 := d.isLt
  have h1 := x.isLt
  have h2 := a.isLt
  replace hn : 2793406464 + d.toNat * 2 ^ 15 + x.toNat * 2 ^ 9 + a.toNat * 2 ^ 0 = u := Option.some.inj hn
  have hop : u / 2 ^ 25 = 83 ∧ u < 2 ^ 32 - 1 := by omega
  refine of_raw hw 83 rfl ?_ hop
  rw [raw_53 hop.1]
  simp only [decodeOp53, show (u / 2 ^ 15 % 2 ^ 10 = 0) = False by simp only [eq_iff_iff, iff_false]; omega, show (u / 2 ^ 15 % 2 ^ 10 = 32) = False by simp only [eq_iff_iff, iff_false]; omega, show (u / 2 ^ 15 % 2 ^ 10 = 64) = False by simp only [eq_iff_iff, iff_false]; omega, show (u / 2 ^ 15 % 2 ^ 10 = 96) = False by simp only [eq_iff_iff, iff_false]; omega, show (u / 2 ^ 15 % 2 ^ 10 = 128) = False by simp only [eq_iff_iff, iff_false]; omega, show u / 2 ^ 12 % 2 ^ 3 = 0 by omega, show u / 2 ^ 20 % 2 ^ 5 = 8 by omega, show u / 2 ^ 6 % 2 ^ 3 = 0 by omega, Nat.reduceEqDiff, reduceIte, and_self, and_true, and_false, false_and]
  congr 2
  all_goals (apply field; omega)

theorem tget (t : BitVec 4) (d : BitVec 5) (a : BitVec 6) (b : BitVec 6) : Statement (.tget t d a b) := by
  intro hw _ u hn
  have h0 := t.isLt
  have h1 := d.isLt
  have h2 := a.isLt
  have h3 := b.isLt
  replace hn : 2818572288 + t.toNat * 2 ^ 20 + d.toNat * 2 ^ 15 + a.toNat * 2 ^ 9 + b.toNat * 2 ^ 3 = u := Option.some.inj hn
  have hop : u / 2 ^ 25 = 84 ∧ u < 2 ^ 32 - 1 := by omega
  refine of_raw hw 84 rfl ?_ hop
  rw [raw_54 hop.1]
  simp only [decodeOp54, show u % 2 ^ 3 = 0 by omega, show u / 2 ^ 24 % 2 ^ 1 = 0 by omega, Nat.reduceEqDiff, reduceIte, and_self, and_true, and_false, false_and]
  congr 2
  all_goals (apply field; omega)

theorem tput (t : BitVec 4) (d : BitVec 5) (a : BitVec 6) (b : BitVec 6) : Statement (.tput t d a b) := by
  intro hw _ u hn
  have h0 := t.isLt
  have h1 := d.isLt
  have h2 := a.isLt
  have h3 := b.isLt
  replace hn : 2835349504 + t.toNat * 2 ^ 20 + d.toNat * 2 ^ 15 + a.toNat * 2 ^ 9 + b.toNat * 2 ^ 3 = u := Option.some.inj hn
  have hop : u / 2 ^ 25 = 84 ∧ u < 2 ^ 32 - 1 := by omega
  refine of_raw hw 84 rfl ?_ hop
  rw [raw_54 hop.1]
  simp only [decodeOp54, show u % 2 ^ 3 = 0 by omega, show u / 2 ^ 24 % 2 ^ 1 = 1 by omega, Nat.reduceEqDiff, reduceIte, and_self, and_true, and_false, false_and]
  congr 2
  all_goals (apply field; omega)

theorem mma (c : BitVec 4) (x : BitVec 1) (a : BitVec 6) (y : BitVec 1) (b : BitVec 6) : Statement (.mma c x a y b) := by
  intro hw _ u hn
  have h0 := c.isLt
  have h1 := x.isLt
  have h2 := a.isLt
  have h3 := y.isLt
  have h4 := b.isLt
  replace hn : 2952790016 + c.toNat * 2 ^ 21 + x.toNat * 2 ^ 20 + a.toNat * 2 ^ 14 + y.toNat * 2 ^ 13 + b.toNat * 2 ^ 7 = u := Option.some.inj hn
  have hop : u / 2 ^ 25 = 88 ∧ u < 2 ^ 32 - 1 := by omega
  refine of_raw hw 88 rfl ?_ hop
  rw [raw_58 hop.1]
  simp only [decodeOp58, show u % 2 ^ 7 = 0 by omega, Nat.reduceEqDiff, reduceIte, and_self, and_true, and_false, false_and]
  congr 2
  all_goals (apply field; omega)

theorem mmas (c : BitVec 4) (x : BitVec 1) (a : BitVec 6) (y : BitVec 1) (b : BitVec 6) (k : BitVec 2) (j : BitVec 2) : Statement (.mmas c x a y b k j) := by
  intro hw _ u hn
  have h0 := c.isLt
  have h1 := x.isLt
  have h2 := a.isLt
  have h3 := y.isLt
  have h4 := b.isLt
  have h5 := k.isLt
  have h6 := j.isLt
  replace hn : 2986344448 + c.toNat * 2 ^ 21 + x.toNat * 2 ^ 20 + a.toNat * 2 ^ 14 + y.toNat * 2 ^ 13 + b.toNat * 2 ^ 7 + k.toNat * 2 ^ 5 + j.toNat * 2 ^ 3 = u := Option.some.inj hn
  have hop : u / 2 ^ 25 = 89 ∧ u < 2 ^ 32 - 1 := by omega
  refine of_raw hw 89 rfl ?_ hop
  rw [raw_59 hop.1]
  simp only [decodeOp59, show u % 2 ^ 3 = 0 by omega, Nat.reduceEqDiff, reduceIte, and_self, and_true, and_false, false_and]
  congr 2
  all_goals (apply field; omega)

theorem mmab (c : BitVec 4) (x : BitVec 1) (a : BitVec 6) (y : BitVec 1) (b : BitVec 6) (k : BitVec 2) (j : BitVec 2) : Statement (.mmab c x a y b k j) := by
  intro hw _ u hn
  have h0 := c.isLt
  have h1 := x.isLt
  have h2 := a.isLt
  have h3 := y.isLt
  have h4 := b.isLt
  have h5 := k.isLt
  have h6 := j.isLt
  replace hn : 3019898880 + c.toNat * 2 ^ 21 + x.toNat * 2 ^ 20 + a.toNat * 2 ^ 14 + y.toNat * 2 ^ 13 + b.toNat * 2 ^ 7 + k.toNat * 2 ^ 5 + j.toNat * 2 ^ 3 = u := Option.some.inj hn
  have hop : u / 2 ^ 25 = 90 ∧ u < 2 ^ 32 - 1 := by omega
  refine of_raw hw 90 rfl ?_ hop
  rw [raw_5A hop.1]
  simp only [decodeOp5A, show u % 2 ^ 3 = 0 by omega, Nat.reduceEqDiff, reduceIte, and_self, and_true, and_false, false_and]
  congr 2
  all_goals (apply field; omega)

theorem azero (c : BitVec 4) : Statement (.azero c) := by
  intro hw _ u hn
  have h0 := c.isLt
  replace hn : 3053453312 + c.toNat * 2 ^ 21 = u := Option.some.inj hn
  have hop : u / 2 ^ 25 = 91 ∧ u < 2 ^ 32 - 1 := by omega
  refine of_raw hw 91 rfl ?_ hop
  rw [raw_5B hop.1]
  simp only [decodeOp5B, show u % 2 ^ 21 = 0 by omega, Nat.reduceEqDiff, reduceIte, and_self, and_true, and_false, false_and]
  congr 2
  all_goals (apply field; omega)

theorem ald (c : BitVec 4) (a : BitVec 6) (b : BitVec 6) : Statement (.ald c a b) := by
  intro hw _ u hn
  have h0 := c.isLt
  have h1 := a.isLt
  have h2 := b.isLt
  replace hn : 3053453313 + c.toNat * 2 ^ 21 + a.toNat * 2 ^ 14 + b.toNat * 2 ^ 8 = u := Option.some.inj hn
  have hop : u / 2 ^ 25 = 91 ∧ u < 2 ^ 32 - 1 := by omega
  refine of_raw hw 91 rfl ?_ hop
  rw [raw_5B hop.1]
  simp only [decodeOp5B, show (u % 2 ^ 21 = 0) = False by simp only [eq_iff_iff, iff_false]; omega, show u % 2 ^ 8 = 1 by omega, show u / 2 ^ 20 % 2 ^ 1 = 0 by omega, Nat.reduceEqDiff, reduceIte, and_self, and_true, and_false, false_and]
  congr 2
  all_goals (apply field; omega)

theorem ast (c : BitVec 4) (a : BitVec 6) (b : BitVec 6) : Statement (.ast c a b) := by
  intro hw _ u hn
  have h0 := c.isLt
  have h1 := a.isLt
  have h2 := b.isLt
  replace hn : 3053453314 + c.toNat * 2 ^ 21 + a.toNat * 2 ^ 14 + b.toNat * 2 ^ 8 = u := Option.some.inj hn
  have hop : u / 2 ^ 25 = 91 ∧ u < 2 ^ 32 - 1 := by omega
  refine of_raw hw 91 rfl ?_ hop
  rw [raw_5B hop.1]
  simp only [decodeOp5B, show (u % 2 ^ 21 = 0) = False by simp only [eq_iff_iff, iff_false]; omega, show u % 2 ^ 8 = 2 by omega, show u / 2 ^ 20 % 2 ^ 1 = 0 by omega, Nat.reduceEqDiff, reduceIte, and_self, and_true, and_false, false_and]
  congr 2
  all_goals (apply field; omega)

theorem commit (d : BitVec 5) : Statement (.commit d) := by
  intro hw _ u hn
  have h0 := d.isLt
  replace hn : 3087007744 + d.toNat * 2 ^ 20 = u := Option.some.inj hn
  have hop : u / 2 ^ 25 = 92 ∧ u < 2 ^ 32 - 1 := by omega
  refine of_raw hw 92 rfl ?_ hop
  rw [raw_5C hop.1]
  simp only [decodeOp5C, show u % 2 ^ 20 = 0 by omega, Nat.reduceEqDiff, reduceIte, and_self, and_true, and_false, false_and]
  congr 2
  all_goals (apply field; omega)

theorem mmaw (a : BitVec 6) (k : BitVec 6) : Statement (.mmaw a k) := by
  intro hw _ u hn
  have h0 := a.isLt
  have h1 := k.isLt
  replace hn : 3087007745 + a.toNat * 2 ^ 14 + k.toNat * 2 ^ 8 = u := Option.some.inj hn
  have hop : u / 2 ^ 25 = 92 ∧ u < 2 ^ 32 - 1 := by omega
  refine of_raw hw 92 rfl ?_ hop
  rw [raw_5C hop.1]
  simp only [decodeOp5C, show (u % 2 ^ 20 = 0) = False by simp only [eq_iff_iff, iff_false]; omega, show u % 2 ^ 8 = 1 by omega, show u / 2 ^ 20 % 2 ^ 5 = 0 by omega, Nat.reduceEqDiff, reduceIte, and_self, and_true, and_false, false_and]
  congr 2
  all_goals (apply field; omega)

theorem swap (t : BitVec 4) : Statement (.swap t) := by
  intro hw _ u hn
  have h0 := t.isLt
  replace hn : 3120562176 + t.toNat * 2 ^ 21 = u := Option.some.inj hn
  have hop : u / 2 ^ 25 = 93 ∧ u < 2 ^ 32 - 1 := by omega
  refine of_raw hw 93 rfl ?_ hop
  rw [raw_5D hop.1]
  simp only [decodeOp5D, show u % 2 ^ 21 = 0 by omega, Nat.reduceEqDiff, reduceIte, and_self, and_true, and_false, false_and]
  congr 2
  all_goals (apply field; omega)

theorem cpsetSrc (a : BitVec 6) : Statement (.cpsetSrc a) := by
  intro hw _ u hn
  have h0 := a.isLt
  replace hn : 3221225472 + a.toNat * 2 ^ 14 = u := Option.some.inj hn
  have hop : u / 2 ^ 25 = 96 ∧ u < 2 ^ 32 - 1 := by omega
  refine of_raw hw 96 rfl ?_ hop
  rw [raw_60 hop.1]
  simp only [decodeOp60, show u % 2 ^ 14 = 0 by omega, show u / 2 ^ 20 % 2 ^ 5 = 0 by omega, Nat.reduceEqDiff, reduceIte, and_self, and_true, and_false, false_and]
  congr 2
  all_goals (apply field; omega)

theorem cpsetDst (a : BitVec 6) : Statement (.cpsetDst a) := by
  intro hw _ u hn
  have h0 := a.isLt
  replace hn : 3221225473 + a.toNat * 2 ^ 14 = u := Option.some.inj hn
  have hop : u / 2 ^ 25 = 96 ∧ u < 2 ^ 32 - 1 := by omega
  refine of_raw hw 96 rfl ?_ hop
  rw [raw_60 hop.1]
  simp only [decodeOp60, show u % 2 ^ 14 = 1 by omega, show u / 2 ^ 20 % 2 ^ 5 = 0 by omega, Nat.reduceEqDiff, reduceIte, and_self, and_true, and_false, false_and]
  congr 2
  all_goals (apply field; omega)

theorem cpsetExt (a : BitVec 6) : Statement (.cpsetExt a) := by
  intro hw _ u hn
  have h0 := a.isLt
  replace hn : 3221225474 + a.toNat * 2 ^ 14 = u := Option.some.inj hn
  have hop : u / 2 ^ 25 = 96 ∧ u < 2 ^ 32 - 1 := by omega
  refine of_raw hw 96 rfl ?_ hop
  rw [raw_60 hop.1]
  simp only [decodeOp60, show u % 2 ^ 14 = 2 by omega, show u / 2 ^ 20 % 2 ^ 5 = 0 by omega, Nat.reduceEqDiff, reduceIte, and_self, and_true, and_false, false_and]
  congr 2
  all_goals (apply field; omega)

theorem cpsetSs (a : BitVec 6) : Statement (.cpsetSs a) := by
  intro hw _ u hn
  have h0 := a.isLt
  replace hn : 3221225475 + a.toNat * 2 ^ 14 = u := Option.some.inj hn
  have hop : u / 2 ^ 25 = 96 ∧ u < 2 ^ 32 - 1 := by omega
  refine of_raw hw 96 rfl ?_ hop
  rw [raw_60 hop.1]
  simp only [decodeOp60, show u % 2 ^ 14 = 3 by omega, show u / 2 ^ 20 % 2 ^ 5 = 0 by omega, Nat.reduceEqDiff, reduceIte, and_self, and_true, and_false, false_and]
  congr 2
  all_goals (apply field; omega)

theorem cpsetDs (a : BitVec 6) : Statement (.cpsetDs a) := by
  intro hw _ u hn
  have h0 := a.isLt
  replace hn : 3221225476 + a.toNat * 2 ^ 14 = u := Option.some.inj hn
  have hop : u / 2 ^ 25 = 96 ∧ u < 2 ^ 32 - 1 := by omega
  refine of_raw hw 96 rfl ?_ hop
  rw [raw_60 hop.1]
  simp only [decodeOp60, show u % 2 ^ 14 = 4 by omega, show u / 2 ^ 20 % 2 ^ 5 = 0 by omega, Nat.reduceEqDiff, reduceIte, and_self, and_true, and_false, false_and]
  congr 2
  all_goals (apply field; omega)

theorem cpsetAttr (a : BitVec 6) : Statement (.cpsetAttr a) := by
  intro hw _ u hn
  have h0 := a.isLt
  replace hn : 3221225477 + a.toNat * 2 ^ 14 = u := Option.some.inj hn
  have hop : u / 2 ^ 25 = 96 ∧ u < 2 ^ 32 - 1 := by omega
  refine of_raw hw 96 rfl ?_ hop
  rw [raw_60 hop.1]
  simp only [decodeOp60, show u % 2 ^ 14 = 5 by omega, show u / 2 ^ 20 % 2 ^ 5 = 0 by omega, Nat.reduceEqDiff, reduceIte, and_self, and_true, and_false, false_and]
  congr 2
  all_goals (apply field; omega)

theorem cpsetBar (a : BitVec 6) : Statement (.cpsetBar a) := by
  intro hw _ u hn
  have h0 := a.isLt
  replace hn : 3221225478 + a.toNat * 2 ^ 14 = u := Option.some.inj hn
  have hop : u / 2 ^ 25 = 96 ∧ u < 2 ^ 32 - 1 := by omega
  refine of_raw hw 96 rfl ?_ hop
  rw [raw_60 hop.1]
  simp only [decodeOp60, show u % 2 ^ 14 = 6 by omega, show u / 2 ^ 20 % 2 ^ 5 = 0 by omega, Nat.reduceEqDiff, reduceIte, and_self, and_true, and_false, false_and]
  congr 2
  all_goals (apply field; omega)

theorem cpsetMask (a : BitVec 6) : Statement (.cpsetMask a) := by
  intro hw _ u hn
  have h0 := a.isLt
  replace hn : 3221225479 + a.toNat * 2 ^ 14 = u := Option.some.inj hn
  have hop : u / 2 ^ 25 = 96 ∧ u < 2 ^ 32 - 1 := by omega
  refine of_raw hw 96 rfl ?_ hop
  rw [raw_60 hop.1]
  simp only [decodeOp60, show u % 2 ^ 14 = 7 by omega, show u / 2 ^ 20 % 2 ^ 5 = 0 by omega, Nat.reduceEqDiff, reduceIte, and_self, and_true, and_false, false_and]
  congr 2
  all_goals (apply field; omega)

theorem copy (d : BitVec 5) : Statement (.copy d) := by
  intro hw _ u hn
  have h0 := d.isLt
  replace hn : 3254779904 + d.toNat * 2 ^ 20 = u := Option.some.inj hn
  have hop : u / 2 ^ 25 = 97 ∧ u < 2 ^ 32 - 1 := by omega
  refine of_raw hw 97 rfl ?_ hop
  rw [raw_61 hop.1]
  simp only [decodeOp61, show u % 2 ^ 20 = 0 by omega, Nat.reduceEqDiff, reduceIte, and_self, and_true, and_false, false_and]
  congr 2
  all_goals (apply field; omega)

theorem copym (d : BitVec 5) : Statement (.copym d) := by
  intro hw _ u hn
  have h0 := d.isLt
  replace hn : 3288334336 + d.toNat * 2 ^ 20 = u := Option.some.inj hn
  have hop : u / 2 ^ 25 = 98 ∧ u < 2 ^ 32 - 1 := by omega
  refine of_raw hw 98 rfl ?_ hop
  rw [raw_62 hop.1]
  simp only [decodeOp62, show u % 2 ^ 20 = 0 by omega, Nat.reduceEqDiff, reduceIte, and_self, and_true, and_false, false_and]
  congr 2
  all_goals (apply field; omega)

theorem barInit (a : BitVec 6) (b : BitVec 6) : Statement (.barInit a b) := by
  intro hw _ u hn
  have h0 := a.isLt
  have h1 := b.isLt
  replace hn : 3321888768 + a.toNat * 2 ^ 14 + b.toNat * 2 ^ 8 = u := Option.some.inj hn
  have hop : u / 2 ^ 25 = 99 ∧ u < 2 ^ 32 - 1 := by omega
  refine of_raw hw 99 rfl ?_ hop
  rw [raw_63 hop.1]
  simp only [decodeOp63, show u % 2 ^ 8 = 0 by omega, show u / 2 ^ 20 % 2 ^ 5 = 0 by omega, Nat.reduceEqDiff, reduceIte, and_self, and_true, and_false, false_and]
  congr 2
  all_goals (apply field; omega)

theorem barExpect (a : BitVec 6) (b : BitVec 6) : Statement (.barExpect a b) := by
  intro hw _ u hn
  have h0 := a.isLt
  have h1 := b.isLt
  replace hn : 3321888769 + a.toNat * 2 ^ 14 + b.toNat * 2 ^ 8 = u := Option.some.inj hn
  have hop : u / 2 ^ 25 = 99 ∧ u < 2 ^ 32 - 1 := by omega
  refine of_raw hw 99 rfl ?_ hop
  rw [raw_63 hop.1]
  simp only [decodeOp63, show u % 2 ^ 8 = 1 by omega, show u / 2 ^ 20 % 2 ^ 5 = 0 by omega, Nat.reduceEqDiff, reduceIte, and_self, and_true, and_false, false_and]
  congr 2
  all_goals (apply field; omega)

theorem barArrive (d : BitVec 5) (a : BitVec 6) : Statement (.barArrive d a) := by
  intro hw _ u hn
  have h0 := d.isLt
  have h1 := a.isLt
  replace hn : 3321888770 + d.toNat * 2 ^ 20 + a.toNat * 2 ^ 14 = u := Option.some.inj hn
  have hop : u / 2 ^ 25 = 99 ∧ u < 2 ^ 32 - 1 := by omega
  refine of_raw hw 99 rfl ?_ hop
  rw [raw_63 hop.1]
  simp only [decodeOp63, show u % 2 ^ 8 = 2 by omega, show u % 2 ^ 14 = 2 by omega, Nat.reduceEqDiff, reduceIte, and_self, and_true, and_false, false_and]
  congr 2
  all_goals (apply field; omega)

theorem barAck (a : BitVec 6) : Statement (.barAck a) := by
  intro hw _ u hn
  have h0 := a.isLt
  replace hn : 3321888771 + a.toNat * 2 ^ 14 = u := Option.some.inj hn
  have hop : u / 2 ^ 25 = 99 ∧ u < 2 ^ 32 - 1 := by omega
  refine of_raw hw 99 rfl ?_ hop
  rw [raw_63 hop.1]
  simp only [decodeOp63, show u % 2 ^ 8 = 3 by omega, show u / 2 ^ 20 % 2 ^ 5 = 0 by omega, show u % 2 ^ 14 = 3 by omega, Nat.reduceEqDiff, reduceIte, and_self, and_true, and_false, false_and]
  congr 2
  all_goals (apply field; omega)

theorem barWait (a : BitVec 6) (b : BitVec 6) : Statement (.barWait a b) := by
  intro hw _ u hn
  have h0 := a.isLt
  have h1 := b.isLt
  replace hn : 3321888772 + a.toNat * 2 ^ 14 + b.toNat * 2 ^ 8 = u := Option.some.inj hn
  have hop : u / 2 ^ 25 = 99 ∧ u < 2 ^ 32 - 1 := by omega
  refine of_raw hw 99 rfl ?_ hop
  rw [raw_63 hop.1]
  simp only [decodeOp63, show u % 2 ^ 8 = 4 by omega, show u / 2 ^ 20 % 2 ^ 5 = 0 by omega, show (u % 2 ^ 14 = 2) = False by simp only [eq_iff_iff, iff_false]; omega, show (u % 2 ^ 14 = 3) = False by simp only [eq_iff_iff, iff_false]; omega, Nat.reduceEqDiff, reduceIte, and_self, and_true, and_false, false_and]
  congr 2
  all_goals (apply field; omega)

theorem sound (d : BitVec 5) (a : BitVec 6) (b : BitVec 6) (i : BitVec 2) (f : BitVec 2) (q : BitVec 4) : Statement (.sound d a b i f q) := by
  intro hw _ u hn
  have h0 := d.isLt
  have h1 := a.isLt
  have h2 := b.isLt
  have h3 := i.isLt
  have h4 := f.isLt
  have h5 := q.isLt
  replace hn : 3355443200 + d.toNat * 2 ^ 20 + a.toNat * 2 ^ 14 + b.toNat * 2 ^ 8 + i.toNat * 2 ^ 6 + f.toNat * 2 ^ 4 + q.toNat * 2 ^ 0 = u := Option.some.inj hn
  have hop : u / 2 ^ 25 = 100 ∧ u < 2 ^ 32 - 1 := by omega
  refine of_raw hw 100 rfl ?_ hop
  rw [raw_64 hop.1]
  simp only [decodeOp64]
  congr 2
  all_goals (apply field; omega)

theorem sndfill (d : BitVec 5) (a : BitVec 6) (b : BitVec 6) : Statement (.sndfill d a b) := by
  intro hw _ u hn
  have h0 := d.isLt
  have h1 := a.isLt
  have h2 := b.isLt
  replace hn : 3388997632 + d.toNat * 2 ^ 20 + a.toNat * 2 ^ 14 + b.toNat * 2 ^ 8 = u := Option.some.inj hn
  have hop : u / 2 ^ 25 = 101 ∧ u < 2 ^ 32 - 1 := by omega
  refine of_raw hw 101 rfl ?_ hop
  rw [raw_65 hop.1]
  simp only [decodeOp65, show u % 2 ^ 8 = 0 by omega, Nat.reduceEqDiff, reduceIte, and_self, and_true, and_false, false_and]
  congr 2
  all_goals (apply field; omega)

theorem snddot (d : BitVec 5) (a : BitVec 6) (b : BitVec 6) (i : BitVec 2) (f : BitVec 2) (q : BitVec 4) : Statement (.snddot d a b i f q) := by
  intro hw _ u hn
  have h0 := d.isLt
  have h1 := a.isLt
  have h2 := b.isLt
  have h3 := i.isLt
  have h4 := f.isLt
  have h5 := q.isLt
  replace hn : 3422552064 + d.toNat * 2 ^ 20 + a.toNat * 2 ^ 14 + b.toNat * 2 ^ 8 + i.toNat * 2 ^ 6 + f.toNat * 2 ^ 4 + q.toNat * 2 ^ 0 = u := Option.some.inj hn
  have hop : u / 2 ^ 25 = 102 ∧ u < 2 ^ 32 - 1 := by omega
  refine of_raw hw 102 rfl ?_ hop
  rw [raw_66 hop.1]
  simp only [decodeOp66]
  congr 2
  all_goals (apply field; omega)

theorem fenceX (s : BitVec 6) (d : BitVec 6) : Statement (.fenceX s d) := by
  intro hw _ u hn
  have h0 := s.isLt
  have h1 := d.isLt
  replace hn : 3468689408 + s.toNat * 2 ^ 12 + d.toNat * 2 ^ 6 = u := Option.some.inj hn
  have hop : u / 2 ^ 25 = 103 ∧ u < 2 ^ 32 - 1 := by omega
  refine of_raw hw 103 rfl ?_ hop
  rw [raw_67 hop.1]
  simp only [decodeOp67, show (u % 2 ^ 25 = 0) = False by simp only [eq_iff_iff, iff_false]; omega, show (u % 2 ^ 25 = 4194304) = False by simp only [eq_iff_iff, iff_false]; omega, show (u % 2 ^ 25 = 8388608) = False by simp only [eq_iff_iff, iff_false]; omega, show u % 2 ^ 6 = 0 by omega, show u / 2 ^ 18 % 2 ^ 7 = 48 by omega, Nat.reduceEqDiff, reduceIte, and_self, and_true, and_false, false_and]
  congr 2
  all_goals (apply field; omega)

theorem chartLd (t : BitVec 4) (a : BitVec 6) (p : BitVec 6) (i : BitVec 8) : Statement (.chartLd t a p i) := by
  intro hw _ u hn
  have h0 := t.isLt
  have h1 := a.isLt
  have h2 := p.isLt
  have h3 := i.isLt
  replace hn : 3489660928 + t.toNat * 2 ^ 21 + a.toNat * 2 ^ 15 + p.toNat * 2 ^ 9 + i.toNat * 2 ^ 0 = u := Option.some.inj hn
  have hop : u / 2 ^ 25 = 104 ∧ u < 2 ^ 32 - 1 := by omega
  refine of_raw hw 104 rfl ?_ hop
  rw [raw_68 hop.1]
  simp only [decodeOp68, show u / 2 ^ 8 % 2 ^ 1 = 0 by omega, Nat.reduceEqDiff, reduceIte, and_self, and_true, and_false, false_and]
  congr 2
  all_goals (apply field; omega)

theorem chartWin (d : BitVec 5) (a : BitVec 6) : Statement (.chartWin d a) := by
  intro hw _ u hn
  have h0 := d.isLt
  have h1 := a.isLt
  replace hn : 3523215360 + d.toNat * 2 ^ 20 + a.toNat * 2 ^ 14 = u := Option.some.inj hn
  have hop : u / 2 ^ 25 = 105 ∧ u < 2 ^ 32 - 1 := by omega
  refine of_raw hw 105 rfl ?_ hop
  rw [raw_69 hop.1]
  simp only [decodeOp69, show u % 2 ^ 14 = 0 by omega, Nat.reduceEqDiff, reduceIte, and_self, and_true, and_false, false_and]
  congr 2
  all_goals (apply field; omega)

theorem sysrd (d : BitVec 5) (n : BitVec 12) : Statement (.sysrd d n) := by
  intro hw _ u hn
  have h0 := d.isLt
  have h1 := n.isLt
  replace hn : 3758096384 + d.toNat * 2 ^ 20 + n.toNat * 2 ^ 0 = u := Option.some.inj hn
  have hop : u / 2 ^ 25 = 112 ∧ u < 2 ^ 32 - 1 := by omega
  refine of_raw hw 112 rfl ?_ hop
  rw [raw_70 hop.1]
  simp only [decodeOp70, show u / 2 ^ 12 % 2 ^ 8 = 0 by omega, Nat.reduceEqDiff, reduceIte, and_self, and_true, and_false, false_and]
  congr 2
  all_goals (apply field; omega)

theorem syswr (a : BitVec 6) (n : BitVec 12) : Statement (.syswr a n) := by
  intro hw _ u hn
  have h0 := a.isLt
  have h1 := n.isLt
  replace hn : 3791650816 + a.toNat * 2 ^ 14 + n.toNat * 2 ^ 0 = u := Option.some.inj hn
  have hop : u / 2 ^ 25 = 113 ∧ u < 2 ^ 32 - 1 := by omega
  refine of_raw hw 113 rfl ?_ hop
  rw [raw_71 hop.1]
  simp only [decodeOp71, show u / 2 ^ 12 % 2 ^ 2 = 0 by omega, show u / 2 ^ 20 % 2 ^ 5 = 0 by omega, Nat.reduceEqDiff, reduceIte, and_self, and_true, and_false, false_and]
  congr 2
  all_goals (apply field; omega)

theorem trap (a : BitVec 6) (i : BitVec 14) : Statement (.trap a i) := by
  intro hw _ u hn
  have h0 := a.isLt
  have h1 := i.isLt
  replace hn : 3825205248 + a.toNat * 2 ^ 14 + i.toNat * 2 ^ 0 = u := Option.some.inj hn
  have hop : u / 2 ^ 25 = 114 ∧ u < 2 ^ 32 - 1 := by omega
  refine of_raw hw 114 rfl ?_ hop
  rw [raw_72 hop.1]
  simp only [decodeOp72, show u / 2 ^ 20 % 2 ^ 5 = 0 by omega, Nat.reduceEqDiff, reduceIte, and_self, and_true, and_false, false_and]
  congr 2
  all_goals (apply field; omega)

theorem feat (d : BitVec 5) (a : BitVec 6) (i : BitVec 14) : Statement (.feat d a i) := by
  intro hw _ u hn
  have h0 := d.isLt
  have h1 := a.isLt
  have h2 := i.isLt
  replace hn : 3959422976 + d.toNat * 2 ^ 20 + a.toNat * 2 ^ 14 + i.toNat * 2 ^ 0 = u := Option.some.inj hn
  have hop : u / 2 ^ 25 = 118 ∧ u < 2 ^ 32 - 1 := by omega
  refine of_raw hw 118 rfl ?_ hop
  rw [raw_76 hop.1]
  simp only [decodeOp76]
  congr 2
  all_goals (apply field; omega)

theorem mboxSend (d : BitVec 5) (a : BitVec 6) (b : BitVec 6) : Statement (.mboxSend d a b) := by
  intro hw _ u hn
  have h0 := d.isLt
  have h1 := a.isLt
  have h2 := b.isLt
  replace hn : 3992977408 + d.toNat * 2 ^ 20 + a.toNat * 2 ^ 14 + b.toNat * 2 ^ 8 = u := Option.some.inj hn
  have hop : u / 2 ^ 25 = 119 ∧ u < 2 ^ 32 - 1 := by omega
  refine of_raw hw 119 rfl ?_ hop
  rw [raw_77 hop.1]
  simp only [decodeOp77, show u % 2 ^ 8 = 0 by omega, Nat.reduceEqDiff, reduceIte, and_self, and_true, and_false, false_and]
  congr 2
  all_goals (apply field; omega)

theorem mboxRecv (d : BitVec 5) : Statement (.mboxRecv d) := by
  intro hw _ u hn
  have h0 := d.isLt
  replace hn : 3992977409 + d.toNat * 2 ^ 20 = u := Option.some.inj hn
  have hop : u / 2 ^ 25 = 119 ∧ u < 2 ^ 32 - 1 := by omega
  refine of_raw hw 119 rfl ?_ hop
  rw [raw_77 hop.1]
  simp only [decodeOp77, show u % 2 ^ 8 = 1 by omega, show u % 2 ^ 20 = 1 by omega, Nat.reduceEqDiff, reduceIte, and_self, and_true, and_false, false_and]
  congr 2
  all_goals (apply field; omega)

theorem tlbinvPage (a : BitVec 6) : Statement (.tlbinvPage a) := by
  intro hw _ u hn
  have h0 := a.isLt
  replace hn : 4026531840 + a.toNat * 2 ^ 14 = u := Option.some.inj hn
  have hop : u / 2 ^ 25 = 120 ∧ u < 2 ^ 32 - 1 := by omega
  refine of_raw hw 120 rfl ?_ hop
  rw [raw_78 hop.1]
  simp only [decodeOp78, show u % 2 ^ 14 = 0 by omega, show u / 2 ^ 20 % 2 ^ 5 = 0 by omega, Nat.reduceEqDiff, reduceIte, and_self, and_true, and_false, false_and]
  congr 2
  all_goals (apply field; omega)

theorem tlbinvRange (a : BitVec 6) (b : BitVec 6) : Statement (.tlbinvRange a b) := by
  intro hw _ u hn
  have h0 := a.isLt
  have h1 := b.isLt
  replace hn : 4026531841 + a.toNat * 2 ^ 14 + b.toNat * 2 ^ 8 = u := Option.some.inj hn
  have hop : u / 2 ^ 25 = 120 ∧ u < 2 ^ 32 - 1 := by omega
  refine of_raw hw 120 rfl ?_ hop
  rw [raw_78 hop.1]
  simp only [decodeOp78, show (u % 2 ^ 14 = 0) = False by simp only [eq_iff_iff, iff_false]; omega, show u / 2 ^ 20 % 2 ^ 5 = 0 by omega, show u % 2 ^ 8 = 1 by omega, Nat.reduceEqDiff, reduceIte, and_self, and_true, and_false, false_and]
  congr 2
  all_goals (apply field; omega)

theorem cachecfg (d : BitVec 5) (a : BitVec 6) : Statement (.cachecfg d a) := by
  intro hw _ u hn
  have h0 := d.isLt
  have h1 := a.isLt
  replace hn : 4060086272 + d.toNat * 2 ^ 20 + a.toNat * 2 ^ 14 = u := Option.some.inj hn
  have hop : u / 2 ^ 25 = 121 ∧ u < 2 ^ 32 - 1 := by omega
  refine of_raw hw 121 rfl ?_ hop
  rw [raw_79 hop.1]
  simp only [decodeOp79, show u % 2 ^ 14 = 0 by omega, Nat.reduceEqDiff, reduceIte, and_self, and_true, and_false, false_and]
  congr 2
  all_goals (apply field; omega)

theorem launch (d : BitVec 5) (a : BitVec 6) : Statement (.launch d a) := by
  intro hw _ u hn
  have h0 := d.isLt
  have h1 := a.isLt
  replace hn : 4093640704 + d.toNat * 2 ^ 20 + a.toNat * 2 ^ 14 = u := Option.some.inj hn
  have hop : u / 2 ^ 25 = 122 ∧ u < 2 ^ 32 - 1 := by omega
  refine of_raw hw 122 rfl ?_ hop
  rw [raw_7A hop.1]
  simp only [decodeOp7A, show u % 2 ^ 14 = 0 by omega, Nat.reduceEqDiff, reduceIte, and_self, and_true, and_false, false_and]
  congr 2
  all_goals (apply field; omega)

theorem tldx (t : BitVec 4) (a : BitVec 6) (p : BitVec 6) (i : BitVec 8) : Statement (.tldx t a p i) := by
  intro hw _ u hn
  have h0 := t.isLt
  have h1 := a.isLt
  have h2 := p.isLt
  have h3 := i.isLt
  replace hn : 4160749568 + t.toNat * 2 ^ 21 + a.toNat * 2 ^ 15 + p.toNat * 2 ^ 9 + i.toNat * 2 ^ 0 = u := Option.some.inj hn
  have hop : u / 2 ^ 25 = 124 ∧ u < 2 ^ 32 - 1 := by omega
  refine of_raw hw 124 rfl ?_ hop
  rw [raw_7C hop.1]
  simp only [decodeOp7C, show u / 2 ^ 8 % 2 ^ 1 = 0 by omega, Nat.reduceEqDiff, reduceIte, and_self, and_true, and_false, false_and]
  congr 2
  all_goals (apply field; omega)

theorem mma8x (c : BitVec 4) (x : BitVec 1) (a : BitVec 6) (y : BitVec 1) (b : BitVec 6) : Statement (.mma8x c x a y b) := by
  intro hw _ u hn
  have h0 := c.isLt
  have h1 := x.isLt
  have h2 := a.isLt
  have h3 := y.isLt
  have h4 := b.isLt
  replace hn : 4194304000 + c.toNat * 2 ^ 21 + x.toNat * 2 ^ 20 + a.toNat * 2 ^ 14 + y.toNat * 2 ^ 13 + b.toNat * 2 ^ 7 = u := Option.some.inj hn
  have hop : u / 2 ^ 25 = 125 ∧ u < 2 ^ 32 - 1 := by omega
  refine of_raw hw 125 rfl ?_ hop
  rw [raw_7D hop.1]
  simp only [decodeOp7D, show u % 2 ^ 7 = 0 by omega, Nat.reduceEqDiff, reduceIte, and_self, and_true, and_false, false_and]
  congr 2
  all_goals (apply field; omega)

theorem hintLog (s : BitVec 24) : Statement (.hintLog s) := by
  intro hw _ u hn
  have h0 := s.isLt
  have hx : s.toNat < 2 ^ 24 - 1 := of_decide_eq_true hw
  replace hn : 4278190080 + s.toNat * 2 ^ 0 = u := Option.some.inj hn
  have hop : u / 2 ^ 25 = 127 ∧ u < 2 ^ 32 - 1 := by omega
  refine of_raw hw 127 rfl ?_ hop
  rw [raw_7F hop.1]
  simp only [decodeOp7F, show u / 2 ^ 24 % 2 = 1 by omega, Nat.reduceEqDiff, reduceIte, and_self, and_true, and_false, false_and]
  congr 2
  all_goals (apply field; omega)

theorem hintImm (p : BitVec 22) : Statement (.hintImm p) := by
  intro hw _ u hn
  have h0 := p.isLt
  replace hn : 4261412864 + p.toNat * 2 ^ 0 = u := Option.some.inj hn
  have hop : u / 2 ^ 25 = 127 ∧ u < 2 ^ 32 - 1 := by omega
  refine of_raw hw 127 rfl ?_ hop
  rw [raw_7F hop.1]
  simp only [decodeOp7F, show u / 2 ^ 24 % 2 = 0 by omega, show u / 2 ^ 22 % 4 = 0 by omega, Nat.reduceEqDiff, reduceIte, and_self, and_true, and_false, false_and]
  congr 2
  all_goals (apply field; omega)

theorem hintSched (l : BitVec 1) (a : BitVec 2) : Statement (.hintSched l a) := by
  intro hw _ u hn
  have h0 := l.isLt
  have h1 := a.isLt
  replace hn : 4265607168 + l.toNat * 2 ^ 2 + a.toNat * 2 ^ 0 = u := Option.some.inj hn
  have hop : u / 2 ^ 25 = 127 ∧ u < 2 ^ 32 - 1 := by omega
  refine of_raw hw 127 rfl ?_ hop
  rw [raw_7F hop.1]
  simp only [decodeOp7F, show u / 2 ^ 24 % 2 = 0 by omega, show u / 2 ^ 22 % 4 = 1 by omega, show u / 2 ^ 3 % 2 ^ 19 = 0 by omega, Nat.reduceEqDiff, reduceIte, and_self, and_true, and_false, false_and]
  congr 2
  all_goals (apply field; omega)

theorem hintMod (r : BitVec 2) : Statement (.hintMod r) := by
  intro hw _ u hn
  have h0 := r.isLt
  replace hn : 4269801472 + r.toNat * 2 ^ 0 = u := Option.some.inj hn
  have hop : u / 2 ^ 25 = 127 ∧ u < 2 ^ 32 - 1 := by omega
  refine of_raw hw 127 rfl ?_ hop
  rw [raw_7F hop.1]
  simp only [decodeOp7F, show u / 2 ^ 24 % 2 = 0 by omega, show u / 2 ^ 22 % 4 = 2 by omega, show u / 2 ^ 2 % 2 ^ 20 = 0 by omega, Nat.reduceEqDiff, reduceIte, and_self, and_true, and_false, false_and]
  congr 2
  all_goals (apply field; omega)

theorem hintUnknown (p : BitVec 22) : Statement (.hintUnknown p) := by
  intro hw _ u hn
  have h0 := p.isLt
  replace hn : 4273995776 + p.toNat * 2 ^ 0 = u := Option.some.inj hn
  have hop : u / 2 ^ 25 = 127 ∧ u < 2 ^ 32 - 1 := by omega
  refine of_raw hw 127 rfl ?_ hop
  rw [raw_7F hop.1]
  simp only [decodeOp7F, show u / 2 ^ 24 % 2 = 0 by omega, show u / 2 ^ 22 % 4 = 3 by omega, Nat.reduceEqDiff, reduceIte, and_self, and_true, and_false, false_and]
  congr 2
  all_goals (apply field; omega)

theorem divideComplete (c : Nat) (r : Nat) : Statement (.divideComplete c r) :=
  no_word rfl

theorem logbookEntryFetch (cell : Nat) (slot : Nat) : Statement (.logbookEntryFetch cell slot) :=
  no_word rfl

theorem matrixExecStart (cell : Nat) : Statement (.matrixExecStart cell) :=
  no_word rfl

theorem matrixSegmentEnd (cell : Nat) : Statement (.matrixSegmentEnd cell) :=
  no_word rfl

theorem swapExchange (cell : Nat) : Statement (.swapExchange cell) :=
  no_word rfl

theorem matrixFaultReply (cell : Nat) (reply : Word) : Statement (.matrixFaultReply cell reply) :=
  no_word rfl

theorem copyStart (op : Nat) : Statement (.copyStart op) :=
  no_word rfl

theorem copyPiecePerformed (op : Nat) (k : Nat) : Statement (.copyPiecePerformed op k) :=
  no_word rfl

theorem copyFinish (op : Nat) : Statement (.copyFinish op) :=
  no_word rfl

theorem copyArbRound (cluster : Nat) : Statement (.copyArbRound cluster) :=
  no_word rfl

theorem barAckAtBank (id : Nat) : Statement (.barAckAtBank id) :=
  no_word rfl

theorem barByteCount (id : Nat) : Statement (.barByteCount id) :=
  no_word rfl

theorem soundStart (op : Nat) : Statement (.soundStart op) :=
  no_word rfl

theorem qbcast (op : Nat) (k : Nat) : Statement (.qbcast op k) :=
  no_word rfl

theorem scan (op : Nat) (k : Nat) : Statement (.scan op k) :=
  no_word rfl

theorem scanYield (op : Nat) (k : Nat) : Statement (.scanYield op k) :=
  no_word rfl

theorem fixrd (op : Nat) (k : Nat) : Statement (.fixrd op k) :=
  no_word rfl

theorem fixRecordWrite (op : Nat) (k : Nat) : Statement (.fixRecordWrite op k) :=
  no_word rfl

theorem sndfillAtHome (op : Nat) : Statement (.sndfillAtHome op) :=
  no_word rfl

theorem fillw (op : Nat) : Statement (.fillw op) :=
  no_word rfl

theorem hbmRefresh (stack : Nat) (collides : Nat) : Statement (.hbmRefresh stack collides) :=
  no_word rfl

theorem retry (stack : Nat) : Statement (.retry stack) :=
  no_word rfl

theorem chartRefreshEnd (die : Nat) (bank : Nat) : Statement (.chartRefreshEnd die bank) :=
  no_word rfl

theorem mboxArrival (id : Nat) : Statement (.mboxArrival id) :=
  no_word rfl

theorem mboxSendStatus (id : Nat) : Statement (.mboxSendStatus id) :=
  no_word rfl

theorem tlbinvComplete (c : Nat) : Statement (.tlbinvComplete c) :=
  no_word rfl

theorem cachecfgComplete (cluster : Nat) : Statement (.cachecfgComplete cluster) :=
  no_word rfl

theorem launchTokenComplete (id : Nat) : Statement (.launchTokenComplete id) :=
  no_word rfl

theorem trapEntry (c : Nat) : Statement (.trapEntry c) :=
  no_word rfl

theorem barrelCycle (core : Nat) : Statement (.barrelCycle core) :=
  no_word rfl

theorem spadBankCycle (cluster : Nat) (bank : Nat) : Statement (.spadBankCycle cluster bank) :=
  no_word rfl

theorem storeAtHome (id : Nat) : Statement (.storeAtHome id) :=
  no_word rfl

theorem storeOwned (id : Nat) : Statement (.storeOwned id) :=
  no_word rfl

theorem revoke (id : Nat) : Statement (.revoke id) :=
  no_word rfl

theorem atomicAtHome (id : Nat) : Statement (.atomicAtHome id) :=
  no_word rfl

theorem lineFill (core : Nat) (line : Nat) : Statement (.lineFill core line) :=
  no_word rfl

theorem loadValueArrival (id : Nat) : Statement (.loadValueArrival id) :=
  no_word rfl

theorem walkComplete (id : Nat) : Statement (.walkComplete id) :=
  no_word rfl

theorem faultReply (cell : Nat) (reply : Word) : Statement (.faultReply cell reply) :=
  no_word rfl

theorem taskDispatch (core : Nat) : Statement (.taskDispatch core) :=
  no_word rfl

theorem stealProbe (core : Nat) : Statement (.stealProbe core) :=
  no_word rfl

theorem depDecRemote (id : Nat) : Statement (.depDecRemote id) :=
  no_word rfl

theorem hostLaunchRecord (vf : Nat) (q : Nat) (tag : Word) : Statement (.hostLaunchRecord vf q tag) :=
  no_word rfl

theorem launchRecordStart (vf : Nat) (q : Nat) : Statement (.launchRecordStart vf q) :=
  no_word rfl

theorem wake (cell : Nat) : Statement (.wake cell) :=
  no_word rfl

theorem cellPartEnd (cell : Nat) : Statement (.cellPartEnd cell) :=
  no_word rfl

theorem hostApertureWrite (vf : Nat) (ap : Nat) (off : Nat) (bytes : List Byte) : Statement (.hostApertureWrite vf ap off bytes) :=
  no_word rfl

theorem hostApertureRead (vf : Nat) (ap : Nat) (off : Nat) (len : Nat) : Statement (.hostApertureRead vf ap off len) :=
  no_word rfl

theorem hostAtomicop (vf : Nat) (ap : Nat) (off : Nat) (size : Nat) (op : HostAtomic) (p : Word) (cmp : Word) : Statement (.hostAtomicop vf ap off size op p cmp) :=
  no_word rfl

theorem registerWrite (reg : HostReg) (v : Word) : Statement (.registerWrite reg v) :=
  no_word rfl

theorem extentRelease (base : Nat) (len : Nat) : Statement (.extentRelease base len) :=
  no_word rfl

theorem extentForcedRemoval (base : Nat) (len : Nat) : Statement (.extentForcedRemoval base len) :=
  no_word rfl

theorem extentAdd (base : Nat) (len : Nat) : Statement (.extentAdd base len) :=
  no_word rfl

theorem preemptRequest (launch : Nat) : Statement (.preemptRequest launch) :=
  no_word rfl

theorem timeSliceExpiry (vf : Nat) : Statement (.timeSliceExpiry vf) :=
  no_word rfl

theorem resume (launch : Nat) (place : List (Nat × Nat)) : Statement (.resume launch place) :=
  no_word rfl

theorem hardwareFault (u : FailUnit) : Statement (.hardwareFault u) :=
  no_word rfl

theorem flitCrcFail (link : Nat) : Statement (.flitCrcFail link) :=
  no_word rfl

theorem retransmitLimit (link : Nat) (vfs : List Nat) : Statement (.retransmitLimit link vfs) :=
  no_word rfl

theorem linkDown (link : Nat) : Statement (.linkDown link) :=
  no_word rfl

theorem hostMarkRequest (pilot : Nat) : Statement (.hostMarkRequest pilot) :=
  no_word rfl

theorem markLatch (block : Nat) : Statement (.markLatch block) :=
  no_word rfl

theorem hostResumeStop (launch : Nat) : Statement (.hostResumeStop launch) :=
  no_word rfl

theorem hostDumpRead (cell : Nat) : Statement (.hostDumpRead cell) :=
  no_word rfl

theorem profileSessionOpen (vf : Nat) (events : List (Nat × List (Nat × Nat))) : Statement (.profileSessionOpen vf events) :=
  no_word rfl

theorem binaryLoad (vf : Nat) (file : List Byte) (ch : LoadChoice) : Statement (.binaryLoad vf file ch) :=
  no_word rfl

theorem resourceMove (proc : Nat) (entry : Nat) (ch : LoadChoice) : Statement (.resourceMove proc entry ch) :=
  no_word rfl

theorem pageMigration (cell : Nat) (core : Nat) (va : Nat) (frame : Nat) : Statement (.pageMigration cell core va frame) :=
  no_word rfl

theorem errorInject (word : InjectAt) (hard : Nat) : Statement (.errorInject word hard) :=
  no_word rfl

theorem keySlotReplace (slot : Nat) (material : Nat) : Statement (.keySlotReplace slot material) :=
  no_word rfl

theorem pilotFirmwareReplace (fw : PilotImage) : Statement (.pilotFirmwareReplace fw) :=
  no_word rfl

theorem clusterFence (cluster : Nat) : Statement (.clusterFence cluster) :=
  no_word rfl

theorem pseudoChannelRecal (stack : Nat) (pch : Nat) : Statement (.pseudoChannelRecal stack pch) :=
  no_word rfl

theorem linkRecal (link : Nat) : Statement (.linkRecal link) :=
  no_word rfl

theorem chartBankRetire (die : Nat) (bank : Nat) : Statement (.chartBankRetire die bank) :=
  no_word rfl

theorem powerOn (devno : Nat) (mscSize : Nat) (boot : BootSet) : Statement (.powerOn devno mscSize boot) :=
  no_word rfl

theorem powerLimit (exceeds : Bool) : Statement (.powerLimit exceeds) :=
  no_word rfl

theorem dieOvertemp (die : Nat) : Statement (.dieOvertemp die) :=
  no_word rfl

theorem dieCriticalTemp (die : Nat) : Statement (.dieCriticalTemp die) :=
  no_word rfl

theorem tileOpComplete (cell : Nat) (id : Nat) : Statement (.tileOpComplete cell id) :=
  no_word rfl

theorem hbmWritebackAck (line : Nat) : Statement (.hbmWritebackAck line) :=
  no_word rfl

theorem linkRecalEnd (link : Nat) : Statement (.linkRecalEnd link) :=
  no_word rfl

theorem hwfaultRecovery (u : FailUnit) : Statement (.hwfaultRecovery u) :=
  no_word rfl

theorem hostEndsLaunch (launch : Nat) : Statement (.hostEndsLaunch launch) :=
  no_word rfl

theorem retire : Statement .retire := by
  intro hw _ u hn
  replace hn : 1744830464 = u := Option.some.inj hn
  have hop : u / 2 ^ 25 = 52 ∧ u < 2 ^ 32 - 1 := by omega
  refine of_raw hw 52 rfl ?_ hop
  rw [raw_34 hop.1]
  simp only [decodeOp34, show u % 2 ^ 25 = 0 by omega, Nat.reduceEqDiff, reduceIte, and_self, and_true, and_false, false_and]

theorem fenceAcq : Statement .fenceAcq := by
  intro hw _ u hn
  replace hn : 3456106496 = u := Option.some.inj hn
  have hop : u / 2 ^ 25 = 103 ∧ u < 2 ^ 32 - 1 := by omega
  refine of_raw hw 103 rfl ?_ hop
  rw [raw_67 hop.1]
  simp only [decodeOp67, show u % 2 ^ 25 = 0 by omega, Nat.reduceEqDiff, reduceIte, and_self, and_true, and_false, false_and]

theorem fenceRel : Statement .fenceRel := by
  intro hw _ u hn
  replace hn : 3460300800 = u := Option.some.inj hn
  have hop : u / 2 ^ 25 = 103 ∧ u < 2 ^ 32 - 1 := by omega
  refine of_raw hw 103 rfl ?_ hop
  rw [raw_67 hop.1]
  simp only [decodeOp67, show u % 2 ^ 25 = 4194304 by omega, Nat.reduceEqDiff, reduceIte, and_self, and_true, and_false, false_and]

theorem fenceSc : Statement .fenceSc := by
  intro hw _ u hn
  replace hn : 3464495104 = u := Option.some.inj hn
  have hop : u / 2 ^ 25 = 103 ∧ u < 2 ^ 32 - 1 := by omega
  refine of_raw hw 103 rfl ?_ hop
  rw [raw_67 hop.1]
  simp only [decodeOp67, show u % 2 ^ 25 = 8388608 by omega, Nat.reduceEqDiff, reduceIte, and_self, and_true, and_false, false_and]

theorem eret : Statement .eret := by
  intro hw _ u hn
  replace hn : 3858759680 = u := Option.some.inj hn
  have hop : u / 2 ^ 25 = 115 ∧ u < 2 ^ 32 - 1 := by omega
  refine of_raw hw 115 rfl ?_ hop
  rw [raw_73 hop.1]
  simp only [decodeOp73, show u % 2 ^ 25 = 0 by omega, Nat.reduceEqDiff, reduceIte, and_self, and_true, and_false, false_and]

theorem halt : Statement .halt := by
  intro hw _ u hn
  replace hn : 3892314112 = u := Option.some.inj hn
  have hop : u / 2 ^ 25 = 116 ∧ u < 2 ^ 32 - 1 := by omega
  refine of_raw hw 116 rfl ?_ hop
  rw [raw_74 hop.1]
  simp only [decodeOp74, show u % 2 ^ 25 = 0 by omega, Nat.reduceEqDiff, reduceIte, and_self, and_true, and_false, false_and]

theorem mark : Statement .mark := by
  intro hw _ u hn
  replace hn : 3925868544 = u := Option.some.inj hn
  have hop : u / 2 ^ 25 = 117 ∧ u < 2 ^ 32 - 1 := by omega
  refine of_raw hw 117 rfl ?_ hop
  rw [raw_75 hop.1]
  simp only [decodeOp75, show u % 2 ^ 25 = 0 by omega, Nat.reduceEqDiff, reduceIte, and_self, and_true, and_false, false_and]

theorem tlbinvAll : Statement .tlbinvAll := by
  intro hw _ u hn
  replace hn : 4026531842 = u := Option.some.inj hn
  have hop : u / 2 ^ 25 = 120 ∧ u < 2 ^ 32 - 1 := by omega
  refine of_raw hw 120 rfl ?_ hop
  rw [raw_78 hop.1]
  simp only [decodeOp78, show u % 2 ^ 14 = 2 by omega, show u / 2 ^ 20 % 2 ^ 5 = 0 by omega, show u % 2 ^ 8 = 2 by omega, show u % 2 ^ 25 = 2 by omega, Nat.reduceEqDiff, reduceIte, and_self, and_true, and_false, false_and]

theorem nop : Statement .nop := by
  intro hw _ u hn
  replace hn : 4127195136 = u := Option.some.inj hn
  have hop : u / 2 ^ 25 = 123 ∧ u < 2 ^ 32 - 1 := by omega
  refine of_raw hw 123 rfl ?_ hop
  rw [raw_7B hop.1]
  simp only [decodeOp7B, show u % 2 ^ 25 = 0 by omega, Nat.reduceEqDiff, reduceIte, and_self, and_true, and_false, false_and]

theorem markInEdge : Statement .markInEdge :=
  no_word rfl

end Sys2Proof.Laws.EncodeDecode
end

