-- ==== Sys2Proof/Laws/Scalar.lean ====
section
/-! SUPPORT. One lemma for each shared operation of the scalar instructions: a clear instruction completes with its value and
the whole frame; and the shifts and rotates as the bit-vector operations. -/

namespace Sys2Proof.Laws

open Sys2Proof.Machine

/-- Registers are as before an observation. -/
theorem observe_reg (s : State) (l) (r): (observe s s.cur (sMask l)).me.reg r = s.me.reg r := by
  have := reg_baseCtx s l r
  simpa [baseCtx, Ctx.reg, Ctx.clearS, Ctx.consumeArm] using this

/-- So is the hint latch. -/
theorem observe_hints (s : State) (l) : (observe s s.cur (sMask l)).me.hints = s.me.hints := by
  have ho := observes s s.cur (sMask l)
  have hc : (observe s s.cur (sMask l)).cur = s.cur := by rw [ho.rest]
  unfold State.me
  rw [hc, ho.ctx]

/-- A source field. -/
theorem field_lt (a : BitVec 6) : a.toNat < 64 := a.isLt

/-- The shared two-source operation completes with its value (R242, R246). -/
theorem yields_opRR {i : Instr} {s : State} {op} {d : BitVec 5} {a b : BitVec 6} {f : Word → Word → Word}
  (h : exec i s = .next (opRR op d a b f s)) (hc : Clear s op none [a.toNat, b.toNat] [d.toNat]) {v}
    (hv : f (s.me.reg (a.toNat % 32)) (s.me.reg (b.toNat % 32)) = v) :
  YieldsReg i s [a.toNat, b.toNat] d v := by
  apply yieldsReg_of _ _ _ _ _ (by simp [field_lt])
  rw [h]
  unfold opRR
  dsimp only
  rw [gated_clear s _ _ hc (by simp [anyGate]) rfl]
  simp only [anyGate, fieldOf, Ctx.src, observe_reg, hv]

/-- The shared one-source operation (R244, R245). -/
theorem yields_opR {i : Instr} {s : State} {op} {d : BitVec 5} {a : BitVec 6} {f : Word → Word}
  (h : exec i s = .next (opR op d a f s)) (hc : Clear s op none [a.toNat] [d.toNat]) {v}
    (hv : f (s.me.reg (a.toNat % 32)) = v) :
  YieldsReg i s [a.toNat] d v := by
  apply yieldsReg_of _ _ _ _ _ (by simp [field_lt])
  rw [h]
  unfold opR
  dsimp only
  rw [gated_clear s _ _ hc (by simp [anyGate]) rfl]
  simp only [anyGate, fieldOf, Ctx.src, observe_reg, hv]

/-- `sra` by less than the width is the arithmetic shift. -/
theorem sarSem_eq (x : Word) (k : Nat) (hk : k < 64): sarSem x k = x.sshiftRight k := by
  unfold sarSem wordOfInt
  apply BitVec.eq_of_toInt_eq
  rw [BitVec.toInt_sshiftRight, Nat.mod_eq_of_lt hk, BitVec.toInt_ofInt, Int.shiftRight_eq_div_pow]
  rw [Int.fdiv_eq_ediv_of_nonneg _ (Int.natCast_nonneg _)]
  have h1 := x.toInt_lt
  have h2 := x.le_toInt
  rw [← Int.shiftRight_eq_div_pow, ← BitVec.toInt_sshiftRight]
  exact BitVec.toInt_bmod_cancel _

/-- `sll` by less than the width is the left shift. -/
theorem shlSem_eq (x : Word) (k : Nat) (hk : k < 64): shlSem x k = x <<< k := by
  apply BitVec.eq_of_toNat_eq
  simp [shlSem, Nat.mod_eq_of_lt hk, Nat.shiftLeft_eq]

/-- `srl` by less than the width is the logical shift. -/
theorem shrSem_eq (x : Word) (k : Nat) (hk : k < 64): shrSem x k = x >>> k := by
  apply BitVec.eq_of_toNat_eq
  have := x.isLt
  simp only [shrSem, Nat.mod_eq_of_lt hk, BitVec.toNat_ofNat, BitVec.toNat_ushiftRight, Nat.shiftRight_eq_div_pow]
  apply Nat.mod_eq_of_lt
  exact Nat.lt_of_le_of_lt (Nat.div_le_self _ _) this

/-- `rol` by less than the width. -/
theorem rolSem_eq (x : Word) (k : Nat) (hk : k < 64): rolSem x k = x.rotateLeft k := by
  apply BitVec.eq_of_toNat_eq
  rw [BitVec.toNat_rotateLeft, Nat.mod_eq_of_lt hk, ]
  simp only [rolSem, Nat.mod_eq_of_lt hk, BitVec.toNat_ofNat]
  rw [Nat.shiftRight_eq_div_pow, Nat.shiftLeft_eq]
  have hx := x.isLt
  rw [← Nat.shiftLeft_eq]
  have hb : x.toNat / 2 ^ (64 - k) < 2 ^ k := by
    rw [Nat.div_lt_iff_lt_mul (Nat.two_pow_pos _), ← Nat.pow_add]
    rwa [show k + (64 - k) = 64 by omega]
  rw [Nat.shiftLeft_add_eq_or_of_lt hb, Nat.or_mod_two_pow]
  congr 1
  apply Nat.mod_eq_of_lt
  exact Nat.lt_of_le_of_lt (Nat.div_le_self _ _) hx

/-- `ror` by less than the width. -/
theorem rorSem_eq (x : Word) (k : Nat) (hk : k < 64): rorSem x k = x.rotateRight k := by
  apply BitVec.eq_of_toNat_eq
  rw [BitVec.toNat_rotateRight, Nat.mod_eq_of_lt hk]
  simp only [rorSem, Nat.mod_eq_of_lt hk, BitVec.toNat_ofNat]
  rw [Nat.shiftRight_eq_div_pow, ← Nat.shiftLeft_eq]
  have hx := x.isLt
  have hb : x.toNat / 2 ^ k < 2 ^ (64 - k) := by
    rw [Nat.div_lt_iff_lt_mul (Nat.two_pow_pos _), ← Nat.pow_add]
    rwa [show (64 - k) + k = 64 by omega]
  rw [Nat.add_comm, Nat.shiftLeft_add_eq_or_of_lt hb, Nat.or_mod_two_pow, Nat.or_comm]
  congr 1
  apply Nat.mod_eq_of_lt
  exact Nat.lt_of_le_of_lt (Nat.div_le_self _ _) hx

/-- The shared register and immediate operation (R243). -/
theorem yields_opRI {i : Instr} {s : State} {op} {d : BitVec 5} {a : BitVec 6} {im} {f : Word → Word → Word}
  (h : exec i s = .next (opRI op d a im f s)) (hc : Clear s op none [a.toNat] [d.toNat]) {v}
    (hv : f (s.me.reg (a.toNat % 32)) (wordOfInt (s.me.imm im)) = v) :
  YieldsReg i s [a.toNat] d v := by
  apply yieldsReg_of _ _ _ _ _ (by simp [field_lt])
  rw [h]
  unfold opRI
  dsimp only
  rw [gated_clear s _ _ hc (by simp [anyGate]) rfl]
  simp only [anyGate, fieldOf, Ctx.src, observe_reg, hv, Ctx.imm, observe_hints] at hv ⊢

/-- The shared two-source F32 operation (R249). -/
theorem yields_opFF {i : Instr} {s : State} {d : BitVec 5} {a b : BitVec 6} {f : RMode → Word → Word → Word}
  (h : exec i s = .next (opFF d a b f s)) (hc : Clear s 7 none [a.toNat, b.toNat] [d.toNat]) {v}
    (hv : f s.me.rmode (s.me.reg (a.toNat % 32)) (s.me.reg (b.toNat % 32)) = v) :
  YieldsReg i s [a.toNat, b.toNat] d v := by
  apply yieldsReg_of _ _ _ _ _ (by simp [field_lt])
  rw [h]
  unfold opFF
  dsimp only
  rw [gated_clear s _ _ hc (by simp [anyGate]) rfl]
  simp only [anyGate, fieldOf, Ctx.src, observe_reg, Ctx.rmode, observe_hints] at hv ⊢
  rw [hv]

/-- The shared conversion (R249). -/
theorem yields_opF {i : Instr} {s : State} {d : BitVec 5} {a : BitVec 6} {f : RMode → Word → Word}
  (h : exec i s = .next (opF d a f s)) (hc : Clear s 7 none [a.toNat] [d.toNat]) {v}
    (hv : f s.me.rmode (s.me.reg (a.toNat % 32)) = v) :
  YieldsReg i s [a.toNat] d v := by
  apply yieldsReg_of _ _ _ _ _ (by simp [field_lt])
  rw [h]
  unfold opF
  dsimp only
  rw [gated_clear s _ _ hc (by simp [anyGate]) rfl]
  simp only [anyGate, fieldOf, Ctx.src, observe_reg, Ctx.rmode, observe_hints] at hv ⊢
  rw [hv]

end Sys2Proof.Laws
end

