-- ==== Sys2Proof/Tests/Slice0.lean ====
section
/-! SUPPORT. Tests of the model: ill-formed terms that each check refuses, words written out from the spec's encodings,
single steps, and concrete states that meet the hypotheses of the statements. -/

namespace Sys2Proof.Tests.Slice0

open Sys2Proof Sys2Proof.Machine

set_option Elab.async false
set_option maxRecDepth 100000

/-! ### Ill-formed terms -/

/-- Fields past bit 63, loop offsets below 1, caps above 8, and argument registers past s31 (R248, R266, R283, R269). -/
theorem test_scalar_fields_refused :
    [Instr.bfx 1 2 63 1, .bfi 1 2 32 32, .loop 1 0, .loop 1 (2 ^ 18), .unrx 1 9 0, .unrx 1 0 9, .spawn 1 0, .spawn 1 30,
      .sound 1 0 1 0 0 1, .sound 1 31 1 0 0 1, .sound 1 2 1 3 0 1, .sound 1 2 1 0 3 1, .sound 1 2 1 0 0 12,
      .snddot 1 0 1 0 0 1, .snddot 1 2 1 3 0 1, .snddot 1 2 1 0 3 1, .snddot 1 2 1 0 0 15, .hintLog (2 ^ 24 - 1)].all
      (fun i => !i.wellFormed) = true := by decide

/-- Fields of kind T that name an accumulator (R220). -/
theorem test_tile_fields_refused :
    [Instr.tld 12 1 1 0 0, .tst 13 1 1 0 0, .tldT 14 1 1 0 0, .tgath 12 1 1 0 0, .tgath 1 1 12 0 0, .trng 12 1 1,
      .trng 1 12 1, .trng 1 1 12, .trngU 12 1 1, .trngU 1 12 1, .trngU 1 1 12, .tcvt 12 1 1, .tcvt 1 12 1, .tcvt 1 1 0,
      .tqnt 12 1 1, .tqnt 1 12 1, .tqnt 1 1 12, .tdeq 12 1 1, .tdeq 1 12 1, .tdeq 1 1 0, .fixmerge 12 1 1,
      .fixmerge 1 12 1, .fixmerge 1 1 12, .fixnorm 12 1, .fixnorm 1 12, .swap 12, .chartLd 12 1 1 1, .tldx 12 1 1 1].all
      (fun i => !i.wellFormed) = true := by decide

/-- A mask field without ME (R221). -/
theorem test_mask_fields_refused :
    [Instr.tzero 1 0 1, .tfill 1 1 0 2, .tseqCol 1 0 1, .tseqRow 1 0 1, .tseqLin 1 0 1, .tadd 1 1 1 0 0 1,
      .tsub 1 1 1 0 0 1, .tmul 1 1 1 0 0 1, .tmin 1 1 1 0 0 1, .tmax 1 1 1 0 0 1, .tabs 1 1 0 0 1, .tneg 1 1 0 0 1,
      .tand 1 1 1 0 0 1, .tor 1 1 1 0 0 1, .txor 1 1 1 0 0 1, .tsll 1 1 1 0 0 1, .tsrl 1 1 1 0 0 1, .tsra 1 1 1 0 0 1,
      .tcmpEq 1 1 1 0 0 1, .tcmpNe 1 1 1 0 0 1, .tcmpLt 1 1 1 0 0 1, .tcmpLe 1 1 1 0 0 1, .tfma 1 1 1 1 0 0 1,
      .tfms 1 1 1 1 0 0 1, .texp2 1 1 0 0 1, .trcp 1 1 0 0 1, .trsq 1 1 0 0 1, .trsum 1 1 0 0 1, .trmax 1 1 0 0 1,
      .trmin 1 1 0 0 1, .tcsum 1 1 0 0 1, .tcmax 1 1 0 0 1, .tcmin 1 1 0 0 1, .tbcastRow 1 1 0 1, .tbcastCol 1 1 0 1,
      .tbcastOne 1 1 0 1].all
      (fun i => !i.wellFormed) = true := by decide

/-- Accumulator fields that name no accumulator, and MX operands that name no tile or pair (R220, R224). -/
theorem test_matrix_fields_refused :
    [Instr.azero 11, .ald 3 1 1, .ast 0 1 1, .mma 11 0 1 0 1, .mma 12 0 12 0 1, .mma 12 0 1 0 12, .mma 12 1 0 0 1,
      .mma 12 0 1 1 31].all (fun i => !i.wellFormed) = true ∧
    [Instr.mmas 11 0 1 0 1 0 0, .mmas 12 0 12 0 1 0 0, .mmas 12 0 1 1 0 0 0, .mmab 11 0 1 0 1 0 0, .mmab 12 1 0 0 1 0 0,
      .mmab 12 0 1 0 63 0 0, .mma8x 11 0 1 0 1, .mma8x 12 0 12 0 1, .mma8x 12 0 1 1 0].all (fun i => !i.wellFormed) = true := by
  decide

/-- Words of the wrong fate (R226, R231, R232). -/
theorem test_word_fates_refused :
    [Instr.unassignedWord 0x02000000, .fieldsIllegal 0, .fieldsIllegal 0xFE400008, .ignoredHint 0xFE400001,
      .ignoredHint 0xFE800001, .ignoredHint 0xFF000000].all (fun i => !i.wellFormed) = true := by decide

/-- Event arguments outside the device (R2). -/
theorem test_event_arguments_refused :
    [Instr.divideComplete 33792 1, .divideComplete 0 32, .logbookEntryFetch 1024 0, .matrixExecStart 1024,
      .matrixSegmentEnd 1024, .swapExchange 1024, .matrixFaultReply 1024 0, .copyArbRound 64, .hbmRefresh 12 0, .retry 12,
      .chartRefreshEnd 4 0, .chartRefreshEnd 0 4096, .tlbinvComplete 33792, .cachecfgComplete 64, .trapEntry 33792,
      .barrelCycle 3072, .spadBankCycle 64 0, .spadBankCycle 0 80, .lineFill 3072 0, .faultReply 1024 0,
      .taskDispatch 3072, .stealProbe 3072, .hostLaunchRecord 33 0 0, .hostLaunchRecord 0 256 0, .launchRecordStart 33 0,
      .launchRecordStart 0 256, .wake 1024, .cellPartEnd 1024].all (fun i => !i.wellFormed) = true ∧
    [Instr.hostApertureWrite 33 0 0 [], .hostApertureWrite 0 17 0 [], .hostApertureRead 33 0 0 8, .hostApertureRead 0 20 0 8,
      .hostAtomicop 33 0 0 8 .swap 0 0, .hostAtomicop 0 16 0 8 .swap 0 0, .binaryLoad 33 [] ⟨0, 0, [], 0, [], 0, 0, 0⟩,
      .timeSliceExpiry 33, .flitCrcFail 24, .retransmitLimit 24 [], .linkDown 18, .hostMarkRequest 16,
      .hostDumpRead 1024, .profileSessionOpen 33 [], .profileSessionOpen 0 [(0, List.replicate 9 (0, 0))], .profileSessionOpen 0 [(1969, [])],
      .pageMigration 1024 0 0 0, .pageMigration 0 3 0 0, .keySlotReplace 64 0, .pilotFirmwareReplace ⟨16, [], []⟩, .clusterFence 64,
      .pseudoChannelRecal 12 0, .pseudoChannelRecal 0 64, .linkRecal 18, .chartBankRetire 4 0, .chartBankRetire 0 4096,
      .powerOn 32 0 ⟨[], [], []⟩, .powerOn 0 17 ⟨[], [], []⟩, .hardwareFault (.stack 12), .hardwareFault (.die 4), .hardwareFault (.pilot 16),
      .hwfaultRecovery (.cluster 64), .dieOvertemp 4, .dieCriticalTemp 4, .tileOpComplete 1024 0, .linkRecalEnd 18].all
      (fun i => !i.wellFormed) = true := by decide


/-- Whether the word with these values at these bit places decodes to this instruction. -/
def reads (p : List (Nat × Nat) × Instr) : Bool :=
  decide (decode (.ofNat 32 (p.1.foldl (fun n f => n + f.2 * 2 ^ f.1) 0)) = p.2)


/-! ### Words written out from the encodings: for every constructor with a word, the sum of its fields at their places (R224, R230) -/

theorem test_words_scalar_1 :
    [([(25, 0x01), (20, 21), (14, 9), (8, 51)], Instr.add 21 9 51),
      ([(25, 0x01), (20, 21), (14, 9), (8, 51), (0, 0x01)], .sub 21 9 51),
      ([(25, 0x01), (20, 21), (14, 9), (8, 51), (0, 0x02)], .mul 21 9 51),
      ([(25, 0x01), (20, 21), (14, 9), (8, 51), (0, 0x03)], .mulhI 21 9 51),
      ([(25, 0x01), (20, 21), (14, 9), (8, 51), (0, 0x04)], .mulhN 21 9 51),
      ([(25, 0x01), (20, 21), (14, 9), (8, 51), (0, 0x05)], .divI 21 9 51),
      ([(25, 0x01), (20, 21), (14, 9), (8, 51), (0, 0x06)], .divN 21 9 51),
      ([(25, 0x01), (20, 21), (14, 9), (8, 51), (0, 0x07)], .remI 21 9 51),
      ([(25, 0x01), (20, 21), (14, 9), (8, 51), (0, 0x08)], .remN 21 9 51),
      ([(25, 0x01), (20, 21), (14, 9), (8, 51), (0, 0x10)], .and 21 9 51),
      ([(25, 0x01), (20, 21), (14, 9), (8, 51), (0, 0x11)], .or 21 9 51),
      ([(25, 0x01), (20, 21), (14, 9), (8, 51), (0, 0x12)], .xor 21 9 51),
      ([(25, 0x01), (20, 21), (14, 9), (8, 51), (0, 0x18)], .sll 21 9 51),
      ([(25, 0x01), (20, 21), (14, 9), (8, 51), (0, 0x19)], .srl 21 9 51),
      ([(25, 0x01), (20, 21), (14, 9), (8, 51), (0, 0x1A)], .sra 21 9 51),
      ([(25, 0x01), (20, 21), (14, 9), (8, 51), (0, 0x1B)], .rol 21 9 51),
      ([(25, 0x01), (20, 21), (14, 9), (8, 51), (0, 0x1C)], .ror 21 9 51),
      ([(25, 0x01), (20, 21), (14, 9), (8, 51), (0, 0x20)], .minI 21 9 51),
      ([(25, 0x01), (20, 21), (14, 9), (8, 51), (0, 0x21)], .maxI 21 9 51),
      ([(25, 0x01), (20, 21), (14, 9), (8, 51), (0, 0x22)], .minN 21 9 51)].all
      reads = true := by decide

theorem test_words_scalar_2 :
    [([(25, 0x01), (20, 21), (14, 9), (8, 51), (0, 0x23)], Instr.maxN 21 9 51),
      ([(25, 0x02), (20, 21), (14, 9)], .clz 21 9),
      ([(25, 0x02), (20, 21), (14, 9), (0, 0x01)], .ctz 21 9),
      ([(25, 0x02), (20, 21), (14, 9), (0, 0x02)], .popc 21 9),
      ([(25, 0x02), (20, 21), (14, 9), (0, 0x04)], .sext1 21 9),
      ([(25, 0x02), (20, 21), (14, 9), (0, 0x05)], .sext2 21 9),
      ([(25, 0x02), (20, 21), (14, 9), (0, 0x06)], .sext4 21 9),
      ([(25, 0x02), (20, 21), (14, 9), (0, 0x08)], .zext1 21 9),
      ([(25, 0x02), (20, 21), (14, 9), (0, 0x09)], .zext2 21 9),
      ([(25, 0x02), (20, 21), (14, 9), (0, 0x0A)], .zext4 21 9),
      ([(25, 0x03), (20, 21), (14, 9), (8, 51)], .cmpEq 21 9 51),
      ([(25, 0x03), (20, 21), (14, 9), (8, 51), (0, 0x01)], .cmpNe 21 9 51),
      ([(25, 0x03), (20, 21), (14, 9), (8, 51), (0, 0x02)], .cmpLtI 21 9 51),
      ([(25, 0x03), (20, 21), (14, 9), (8, 51), (0, 0x03)], .cmpGeI 21 9 51),
      ([(25, 0x03), (20, 21), (14, 9), (8, 51), (0, 0x04)], .cmpLtN 21 9 51),
      ([(25, 0x03), (20, 21), (14, 9), (8, 51), (0, 0x05)], .cmpGeN 21 9 51),
      ([(25, 0x04), (20, 21), (14, 9), (8, 51), (2, 20)], .sel 21 9 51 20),
      ([(25, 0x05), (20, 21), (14, 9), (8, 10), (2, 45)], .bfx 21 9 10 45),
      ([(25, 0x06), (20, 21), (14, 9), (8, 10), (2, 45)], .bfi 21 9 10 45),
      ([(25, 0x07), (20, 21), (14, 9), (8, 51)], .fadd 21 9 51)].all
      reads = true := by decide

theorem test_words_scalar_3 :
    [([(25, 0x07), (20, 21), (14, 9), (8, 51), (0, 0x01)], Instr.fmul 21 9 51),
      ([(25, 0x07), (20, 21), (14, 9), (8, 51), (0, 0x08)], .fcmpEq 21 9 51),
      ([(25, 0x07), (20, 21), (14, 9), (8, 51), (0, 0x09)], .fcmpNe 21 9 51),
      ([(25, 0x07), (20, 21), (14, 9), (8, 51), (0, 0x0A)], .fcmpLt 21 9 51),
      ([(25, 0x07), (20, 21), (14, 9), (8, 51), (0, 0x0B)], .fcmpLe 21 9 51),
      ([(25, 0x07), (20, 21), (14, 9), (0, 0x10)], .fcvtF32I64 21 9),
      ([(25, 0x07), (20, 21), (14, 9), (0, 0x11)], .fcvtF32N64 21 9),
      ([(25, 0x07), (20, 21), (14, 9), (0, 0x12)], .fcvtF32F16 21 9),
      ([(25, 0x07), (20, 21), (14, 9), (0, 0x13)], .fcvtF32Bf16 21 9),
      ([(25, 0x07), (20, 21), (14, 9), (0, 0x18)], .fcvtI64F32 21 9),
      ([(25, 0x07), (20, 21), (14, 9), (0, 0x19)], .fcvtN64F32 21 9),
      ([(25, 0x07), (20, 21), (14, 9), (0, 0x1A)], .fcvtF16F32 21 9),
      ([(25, 0x07), (20, 21), (14, 9), (0, 0x1B)], .fcvtBf16F32 21 9),
      ([(25, 0x08), (20, 21), (14, 9), (8, 51), (2, 20)], .ffma 21 9 51 20),
      ([(25, 0x09), (20, 21), (14, 9), (0, 6748)], .addi 21 9 6748),
      ([(25, 0x0A), (20, 21), (14, 9), (0, 6748)], .andi 21 9 6748),
      ([(25, 0x0B), (20, 21), (14, 9), (0, 6748)], .ori 21 9 6748),
      ([(25, 0x0C), (20, 21), (14, 9), (0, 6748)], .xori 21 9 6748),
      ([(25, 0x0D), (20, 21), (14, 9), (0, 51)], .slli 21 9 51),
      ([(25, 0x0D), (20, 21), (14, 9), (6, 0x20), (0, 51)], .srli 21 9 51)].all
      reads = true := by decide

theorem test_words_scalar_4 :
    [([(25, 0x0D), (20, 21), (14, 9), (6, 0x40), (0, 51)], Instr.srai 21 9 51),
      ([(25, 0x0D), (20, 21), (14, 9), (6, 0x60), (0, 51)], .roli 21 9 51),
      ([(25, 0x0D), (20, 21), (14, 9), (6, 0x80), (0, 51)], .rori 21 9 51)].all
      reads = true := by decide

theorem test_words_memory_1 :
    [([(25, 0x10), (20, 21), (14, 9), (0, 6748)], Instr.ld1 21 9 6748),
      ([(25, 0x11), (20, 21), (14, 9), (0, 6748)], .ld2 21 9 6748),
      ([(25, 0x12), (20, 21), (14, 9), (0, 6748)], .ld4 21 9 6748),
      ([(25, 0x13), (20, 21), (14, 9), (0, 6748)], .ld8 21 9 6748),
      ([(25, 0x14), (19, 38), (14, 10), (0, 6748)], .st1 38 10 6748),
      ([(25, 0x15), (19, 38), (14, 10), (0, 6748)], .st2 38 10 6748),
      ([(25, 0x16), (19, 38), (14, 10), (0, 6748)], .st4 38 10 6748),
      ([(25, 0x17), (19, 38), (14, 10), (0, 6748)], .st8 38 10 6748),
      ([(25, 0x18), (20, 21), (14, 9), (8, 51), (0, 2)], .ldIndex 21 9 51 2),
      ([(25, 0x19), (19, 38), (13, 9), (7, 51), (0, 2)], .stIndex 38 9 51 2),
      ([(25, 0x1A), (20, 21), (14, 9), (4, 677), (0, 2)], .ldRes 21 9 677 2),
      ([(25, 0x1B), (19, 38), (13, 9), (3, 677), (0, 2)], .stRes 38 9 677 2),
      ([(25, 0x1C), (20, 21), (14, 9), (0, 6748)], .ldAcq 21 9 6748),
      ([(25, 0x1D), (19, 38), (14, 10), (0, 6748)], .stRel 38 10 6748),
      ([(25, 0x1E), (20, 21), (14, 9), (8, 51), (4, 1)], .amoAdd 21 9 51 1),
      ([(25, 0x1E), (20, 21), (14, 9), (8, 51), (4, 1), (0, 0x01)], .amoAnd 21 9 51 1),
      ([(25, 0x1E), (20, 21), (14, 9), (8, 51), (4, 1), (0, 0x02)], .amoOr 21 9 51 1),
      ([(25, 0x1E), (20, 21), (14, 9), (8, 51), (4, 1), (0, 0x03)], .amoXor 21 9 51 1),
      ([(25, 0x1E), (20, 21), (14, 9), (8, 51), (4, 1), (0, 0x04)], .amoMinI 21 9 51 1),
      ([(25, 0x1E), (20, 21), (14, 9), (8, 51), (4, 1), (0, 0x05)], .amoMaxI 21 9 51 1)].all
      reads = true := by decide

theorem test_words_memory_2 :
    [([(25, 0x1E), (20, 21), (14, 9), (8, 51), (4, 1), (0, 0x06)], Instr.amoMinN 21 9 51 1),
      ([(25, 0x1E), (20, 21), (14, 9), (8, 51), (4, 1), (0, 0x07)], .amoMaxN 21 9 51 1),
      ([(25, 0x1E), (20, 21), (14, 9), (8, 51), (4, 1), (0, 0x08)], .amoSwap 21 9 51 1),
      ([(25, 0x1E), (20, 21), (14, 9), (8, 51), (0, 0x09)], .famoAdd 21 9 51),
      ([(25, 0x1F), (20, 21), (14, 9), (8, 51), (2, 20), (0, 1)], .cas 21 9 51 20 1)].all
      reads = true := by decide

theorem test_words_control :
    [([(25, 0x28), (19, 38), (0, 173507)], Instr.beqz 38 173507),
      ([(25, 0x29), (19, 38), (0, 173507)], .bnez 38 173507),
      ([(25, 0x2A), (19, 38), (0, 173507)], .bltz 38 173507),
      ([(25, 0x2B), (19, 38), (0, 173507)], .bgez 38 173507),
      ([(25, 0x2C), (20, 21), (0, 173507)], .jal 21 173507),
      ([(25, 0x2D), (20, 21), (14, 9), (0, 6748)], .jr 21 9 6748),
      ([(25, 0x2E), (19, 38), (0, 107971)], .loop 38 107971),
      ([(25, 0x2F), (24, 1), (0, 173507)], .bexpMaj 1 173507),
      ([(25, 0x2F), (24, 1), (19, 0x01), (0, 173507)], .bexpLast 1 173507)].all
      reads = true := by decide

theorem test_words_tasks :
    [([(25, 0x30), (20, 21), (14, 9), (8, 51), (0, 1)], Instr.selxMaj 21 9 51 1),
      ([(25, 0x30), (20, 21), (14, 9), (8, 51), (1, 0x01), (0, 1)], .selxLast 21 9 51 1),
      ([(25, 0x31), (20, 21), (4, 7), (0, 3)], .unrx 21 7 3),
      ([(25, 0x32), (20, 21), (6, 9), (0, 51)], .pfx 21 9 51),
      ([(25, 0x33), (20, 21), (14, 9), (8, 51)], .start 21 9 51),
      ([(25, 0x37), (20, 21), (14, 9), (0, 6748)], .helpres 21 9 6748)].all
      reads = true := by decide

theorem test_words_tile_memory :
    [([(25, 0x40), (21, 5), (15, 9)], Instr.tshape 5 9),
      ([(25, 0x41), (21, 5), (15, 9), (9, 51), (8, 1), (0, 165)], .tld 5 9 51 1 165),
      ([(25, 0x42), (21, 5), (15, 9), (9, 51), (8, 1), (0, 165)], .tst 5 9 51 1 165),
      ([(25, 0x43), (21, 5), (15, 9), (9, 51), (8, 1), (0, 165)], .tldT 5 9 51 1 165),
      ([(25, 0x44), (21, 5), (15, 9), (9, 2), (8, 1), (0, 165)], .tgath 5 9 2 1 165)].all
      reads = true := by decide

theorem test_words_tile_moves_1 :
    [([(25, 0x45), (21, 5), (3, 1), (0, 5)], Instr.tzero 5 1 5),
      ([(25, 0x45), (21, 5), (15, 9), (4, 0x01), (3, 1), (0, 5)], .tfill 5 9 1 5),
      ([(25, 0x45), (21, 5), (17, 9), (0, 0x20)], .tmov 5 9),
      ([(25, 0x46), (21, 5), (3, 1), (0, 5)], .tseqCol 5 1 5),
      ([(25, 0x46), (21, 5), (4, 0x01), (3, 1), (0, 5)], .tseqRow 5 1 5),
      ([(25, 0x46), (21, 5), (4, 0x02), (3, 1), (0, 5)], .tseqLin 5 1 5),
      ([(25, 0x47), (21, 5), (17, 9), (13, 2), (9, 10), (3, 1), (0, 5)], .tadd 5 9 2 10 1 5),
      ([(25, 0x47), (21, 5), (17, 9), (13, 2), (9, 10), (4, 0x01), (3, 1), (0, 5)], .tsub 5 9 2 10 1 5),
      ([(25, 0x47), (21, 5), (17, 9), (13, 2), (9, 10), (4, 0x02), (3, 1), (0, 5)], .tmul 5 9 2 10 1 5),
      ([(25, 0x47), (21, 5), (17, 9), (13, 2), (9, 10), (4, 0x03), (3, 1), (0, 5)], .tmin 5 9 2 10 1 5),
      ([(25, 0x47), (21, 5), (17, 9), (13, 2), (9, 10), (4, 0x04), (3, 1), (0, 5)], .tmax 5 9 2 10 1 5),
      ([(25, 0x47), (21, 5), (17, 9), (9, 2), (4, 0x05), (3, 1), (0, 5)], .tabs 5 9 2 1 5),
      ([(25, 0x47), (21, 5), (17, 9), (9, 2), (4, 0x06), (3, 1), (0, 5)], .tneg 5 9 2 1 5),
      ([(25, 0x47), (21, 5), (17, 9), (13, 2), (9, 10), (4, 0x08), (3, 1), (0, 5)], .tand 5 9 2 10 1 5),
      ([(25, 0x47), (21, 5), (17, 9), (13, 2), (9, 10), (4, 0x09), (3, 1), (0, 5)], .tor 5 9 2 10 1 5),
      ([(25, 0x47), (21, 5), (17, 9), (13, 2), (9, 10), (4, 0x0A), (3, 1), (0, 5)], .txor 5 9 2 10 1 5),
      ([(25, 0x47), (21, 5), (17, 9), (13, 2), (9, 10), (4, 0x0B), (3, 1), (0, 5)], .tsll 5 9 2 10 1 5),
      ([(25, 0x47), (21, 5), (17, 9), (13, 2), (9, 10), (4, 0x0C), (3, 1), (0, 5)], .tsrl 5 9 2 10 1 5),
      ([(25, 0x47), (21, 5), (17, 9), (13, 2), (9, 10), (4, 0x0D), (3, 1), (0, 5)], .tsra 5 9 2 10 1 5),
      ([(25, 0x49), (21, 5), (17, 9), (13, 2), (3, 0x01), (0, 5)], .tsel 5 9 2 5)].all
      reads = true := by decide

theorem test_words_tile_moves_2 :
    [([(25, 0x4A), (21, 5), (17, 9), (13, 2), (9, 10), (5, 13), (3, 1), (0, 5)], Instr.tfma 5 9 2 10 13 1 5),
      ([(25, 0x4A), (21, 5), (17, 9), (13, 2), (9, 10), (5, 13), (4, 0x01), (3, 1), (0, 5)], .tfms 5 9 2 10 13 1 5)].all
      reads = true := by decide

theorem test_words_tile_arithmetic :
    [([(25, 0x4B), (21, 5), (17, 9), (9, 2), (3, 1), (0, 5)], Instr.texp2 5 9 2 1 5),
      ([(25, 0x4B), (21, 5), (17, 9), (9, 2), (4, 0x01), (3, 1), (0, 5)], .trcp 5 9 2 1 5),
      ([(25, 0x4B), (21, 5), (17, 9), (9, 2), (4, 0x02), (3, 1), (0, 5)], .trsq 5 9 2 1 5),
      ([(25, 0x4C), (21, 5), (17, 9), (9, 2), (3, 1), (0, 5)], .trsum 5 9 2 1 5),
      ([(25, 0x4C), (21, 5), (17, 9), (9, 2), (4, 0x01), (3, 1), (0, 5)], .trmax 5 9 2 1 5),
      ([(25, 0x4C), (21, 5), (17, 9), (9, 2), (4, 0x02), (3, 1), (0, 5)], .trmin 5 9 2 1 5),
      ([(25, 0x4C), (21, 5), (17, 9), (9, 2), (4, 0x04), (3, 1), (0, 5)], .tcsum 5 9 2 1 5),
      ([(25, 0x4C), (21, 5), (17, 9), (9, 2), (4, 0x05), (3, 1), (0, 5)], .tcmax 5 9 2 1 5),
      ([(25, 0x4C), (21, 5), (17, 9), (9, 2), (4, 0x06), (3, 1), (0, 5)], .tcmin 5 9 2 1 5),
      ([(25, 0x4D), (21, 5), (17, 9), (3, 1), (0, 5)], .tbcastRow 5 9 1 5),
      ([(25, 0x4D), (21, 5), (17, 9), (4, 0x01), (3, 1), (0, 5)], .tbcastCol 5 9 1 5),
      ([(25, 0x4D), (21, 5), (17, 9), (4, 0x02), (3, 1), (0, 5)], .tbcastOne 5 9 1 5),
      ([(25, 0x4E), (21, 5), (17, 9), (13, 2)], .trng 5 9 2),
      ([(25, 0x4E), (21, 5), (17, 9), (13, 2), (0, 0x10)], .trngU 5 9 2),
      ([(25, 0x4F), (21, 5), (17, 9), (9, 2)], .tcvt 5 9 2),
      ([(25, 0x50), (21, 5), (17, 9), (13, 2)], .tqnt 5 9 2),
      ([(25, 0x51), (21, 5), (17, 9), (9, 2)], .tdeq 5 9 2),
      ([(25, 0x52), (21, 5), (17, 9), (13, 2)], .fixmerge 5 9 2),
      ([(25, 0x52), (21, 5), (17, 9), (0, 0x10)], .fixnorm 5 9)].all
      reads = true := by decide

theorem test_words_matrix :
    [([(25, 0x58), (21, 13), (20, 1), (14, 51), (13, 1), (7, 38)], Instr.mma 13 1 51 1 38),
      ([(25, 0x59), (21, 13), (20, 1), (14, 51), (13, 1), (7, 38), (5, 2), (3, 2)], .mmas 13 1 51 1 38 2 2),
      ([(25, 0x5A), (21, 13), (20, 1), (14, 51), (13, 1), (7, 38), (5, 2), (3, 2)], .mmab 13 1 51 1 38 2 2),
      ([(25, 0x5B), (21, 13)], .azero 13),
      ([(25, 0x5B), (21, 13), (14, 9), (8, 51), (0, 0x01)], .ald 13 9 51),
      ([(25, 0x5B), (21, 13), (14, 9), (8, 51), (0, 0x02)], .ast 13 9 51),
      ([(25, 0x5C), (20, 21)], .commit 21),
      ([(25, 0x5D), (21, 5)], .swap 5)].all
      reads = true := by decide

theorem test_words_engines :
    [([(25, 0x61), (20, 21)], Instr.copy 21),
      ([(25, 0x62), (20, 21)], .copym 21),
      ([(25, 0x63), (20, 21), (14, 9), (0, 0x02)], .barArrive 21 9),
      ([(25, 0x64), (20, 21), (14, 9), (8, 51), (6, 1), (4, 2), (0, 9)], .sound 21 9 51 1 2 9),
      ([(25, 0x65), (20, 21), (14, 9), (8, 51)], .sndfill 21 9 51),
      ([(25, 0x66), (20, 21), (14, 9), (8, 51), (6, 1), (4, 2), (0, 9)], .snddot 21 9 51 1 2 9),
      ([(25, 0x68), (21, 5), (15, 9), (9, 51), (0, 165)], .chartLd 5 9 51 165),
      ([(25, 0x69), (20, 21), (14, 9)], .chartWin 21 9)].all
      reads = true := by decide

theorem test_words_system :
    [([(25, 0x70), (20, 21), (0, 1443)], Instr.sysrd 21 1443),
      ([(25, 0x76), (20, 21), (14, 9), (0, 6748)], .feat 21 9 6748),
      ([(25, 0x77), (20, 21), (14, 9), (8, 51)], .mboxSend 21 9 51),
      ([(25, 0x77), (20, 21), (0, 0x01)], .mboxRecv 21),
      ([(25, 0x79), (20, 21), (14, 9)], .cachecfg 21 9),
      ([(25, 0x7A), (20, 21), (14, 9)], .launch 21 9),
      ([(25, 0x7C), (21, 5), (15, 9), (9, 51), (0, 165)], .tldx 5 9 51 165),
      ([(25, 0x7D), (21, 13), (20, 1), (14, 51), (13, 1), (7, 38)], .mma8x 13 1 51 1 38)].all
      reads = true := by decide

/-! ### Small states -/

/-- The state in which the instruction of a word runs right after reset: context 0, 11 or 22 of cell 0, its turn spent. -/
def probe (w : Nat) : State :=
  let s := State.reset.withFetchWord 32 w
  { s with turns := [], cur := s.turns.headD 0 }

/-- The same with registers of the running context set. -/
def probeRegs (w : Nat) (rs : List (Nat × Word)) : State :=
  (probe w).modMe fun x => rs.foldl (fun x e => x.setS e.1 e.2) x

/-- The next state of an instruction, or the state itself where it stops. -/
def nextOf (i : Instr) (s : State) : State :=
  match exec i s with
  | .next t => t
  | .fault _ => s
  | .refused _ => s

/-- The conditions of `Clear` as one test. -/
def clearB (s : State) (op : Nat) (owner : Option CoreKind) (srcs plain : List Nat) : Bool :=
  !featHidden s s.cur op && (owner == none || owner == some (kindOf s.cur)) &&
    (plain ++ srcs.map (· % 32)).all (fun r => !s.me.isBusy r) && srcs.all (fun a => decide (a < 32) || s.me.isFull (a % 32))

theorem clear_of {s : State} {op : Nat} {owner : Option CoreKind} {srcs plain : List Nat}
    (h : clearB s op owner srcs plain = true) : Clear s op owner srcs plain := by
  simp only [clearB, Bool.and_eq_true, Bool.or_eq_true, List.all_eq_true, beq_iff_eq, Bool.not_eq_true'] at h
  refine ⟨h.1.1.1, h.1.1.2, fun r hr => h.1.2 r ?_, fun a ha hs => ?_⟩
  · exact List.mem_append.mpr hr
  · rcases h.2 a ha with h' | h'
    · exact absurd (of_decide_eq_true h') (by omega)
    · exact h'

/-! ### Steps -/

/-- The first step after reset with a word placed runs it: `addi s3, s0, -1` (R243). -/
theorem test_step_addi : (match step (State.reset.withFetchWord 32 (0x09 * 2 ^ 25 + 3 * 2 ^ 20 + 16383)) with
    | .next t => decide ((t.ctx 0).reg 3 = .allOnes 64 ∧ (t.ctx 0).pc = 0x10004)
    | _ => false) = true := by decide

/-- `trap 5` with a handler enters it with ARG 5 and the address after the word (R361). -/
theorem test_trap : (let s := (probe 0xE4000005).modMe fun x => { x with trVec := 0x20003 }
    let t := nextOf (.trap 0 5) s
    decide (t.me.pc = 0x20000 ∧ t.me.trPc = 0x10004 ∧ fieldN t.me.trCause 8 16 = 5)) = true := by decide

/-- 2^63 * 2^63: `mulh.i` of two most negative numbers is 2^62, and `mul` wraps to 0 (R242). -/
theorem test_mul_wraps : (let s := probeRegs 0x02000000 [(1, 0x8000000000000000)]
    decide ((nextOf (.mulhI 3 1 1) s).me.reg 3 = 0x4000000000000000 ∧ (nextOf (.mul 3 1 1) s).me.reg 3 = 0)) = true := by decide

/-- A division by 0 gives all ones, and the remainder the dividend (R242). -/
theorem test_divide_by_zero : (let s := probeRegs 0x02000000 [(1, 7)]
    decide ((nextOf (.divideComplete 0 3) (nextOf (.divN 3 1 0) s)).me.reg 3 = .allOnes 64 ∧
      (nextOf (.divideComplete 0 3) (nextOf (.remN 3 1 0) s)).me.reg 3 = 7)) = true := by decide

/-- The most negative number divided by -1 wraps (R242). -/
theorem test_divide_overflow : (let s := probeRegs 0x02000000 [(1, 0x8000000000000000), (2, .allOnes 64)]
    decide ((nextOf (.divideComplete 0 3) (nextOf (.divI 3 1 2) s)).me.reg 3 = 0x8000000000000000)) = true := by decide

/-- s0 discards a write (R8). -/
theorem test_s0_discards : ((nextOf (.addi 0 0 5) (probe 0x12000000)).me.reg 0 == 0) = true := by decide

/-- A synchronised source is read and left empty (R219). -/
theorem test_source_emptied : (let t := nextOf (.addi 3 36 1) (probeRegs 0x12000000 [(4, 9)])
    t.me.reg 3 == 10 && !t.me.isFull 4 && t.me.isFull 3) = true := by decide

/-- A shift by 64 shifts by 0, and an arithmetic shift keeps the sign (R241). -/
theorem test_shifts : (let s := probeRegs 0x02000000 [(1, 0x8000000000000001), (2, 64), (4, 63)]
    decide ((nextOf (.sll 3 1 2) s).me.reg 3 = 0x8000000000000001 ∧ (nextOf (.sra 3 1 4) s).me.reg 3 = .allOnes 64 ∧
      (nextOf (.rol 3 1 4) s).me.reg 3 = 0xC000000000000000)) = true := by decide

/-- Leading zeros of 0 and of 1 (R245); bit fields at the top of a word (R248). -/
theorem test_bits : (let s := probeRegs 0x04000000 [(1, 1), (2, 0x8000000000000000)]
    decide ((nextOf (.clz 3 0) s).me.reg 3 = 64 ∧ (nextOf (.clz 3 1) s).me.reg 3 = 63 ∧ (nextOf (.ctz 3 2) s).me.reg 3 = 63 ∧
      (nextOf (.bfx 3 2 63 0) s).me.reg 3 = 1)) = true := by decide

/-- 1.0 + 2^-24 rounds to even, and 1.0 < NaN is false while `ne` holds (R155, R156, R249). -/
theorem test_float : (let s := probeRegs 0x0E000000 [(1, 0x3F800000), (2, 0x33800000), (4, 0x7FC00000)]
    decide ((nextOf (.fadd 3 1 2) s).me.reg 3 = 0x3F800000 ∧ (nextOf (.fcmpLt 3 1 4) s).me.reg 3 = 0 ∧
      (nextOf (.fcmpNe 3 4 4) s).me.reg 3 = 1)) = true := by decide

/-- A branch is taken backwards by its sign-extended offset (R263). -/
theorem test_branch_back : ((nextOf (.beqz 0 (BitVec.allOnes 19)) (probe 0x50000000)).me.pc == 0xFFFC) = true := by decide

/-- A count of 0 goes past the body (R266). -/
theorem test_loop_zero : ((nextOf (.loop 0 3) (probe 0x5C000003)).me.pc == 0x10010) = true := by decide

/-- A misaligned load traps MISALIGN before it has any effect, with no handler it halts (R239, R360). -/
theorem test_misaligned : ((nextOf (.ld8 3 1 0) (probeRegs 0x26000000 [(1, 4)])).me.stat == CtxStat.halted) = true := by decide

/-- A word of all zeros traps ILLEGAL_OP (R231). -/
theorem test_zero_word : (let s := (probe 0).modMe fun x => { x with trVec := 0x20000 }
    fieldN (nextOf (.unassignedWord 0) s).me.trCause 0 8 == tcIllegalOp) = true := by decide

/-- A semaphore at 0 parks; a free mutex is taken (R272). -/
theorem test_semp_parks : ((nextOf (.semp 3) (probe 0x70000000)).me.stat == CtxStat.parked) = true := by decide

/-! ### States that meet the hypotheses of the statements: encoding, steps and scalar instructions -/

/-- DecodeEncode. -/
theorem test_meets_DecodeEncode : (Instr.add 1 2 35).wellFormed = true ∧ encode (.add 1 2 35) = some 0x0210A300 := by decide

/-- StepRunsDecoded: a word that the core fetches from its home, and one that its instruction cache holds. -/
theorem test_meets_StepRunsDecoded : (let s := State.reset.withFetchWord 32 0x02000000
    let s' := nextOf .nop { s with turns := [] }
    let u := { s with turns := [], cur := 0 }
    let v := fillCoreTlb u 0 .exec (s.ctx 0).pc
    !s.dev.off && (s.ctx 0).stat == .eligible && !heldByQueue u 0 && !stopDue u 0 && !(s.ctx 0).tell && (s.ctx 0).pendStop.isNone &&
      (s.ctx 0).pendTrap.isEmpty && (bkptHit u 0).isNone && inCode u 0 (s.ctx 0).pc && s'.turns.isEmpty &&
      (match translate u 0 .exec (s.ctx 0).pc with
       | .ok x =>
         let k := u.modCore 0 fun y => { y with icache := [(x.loc.key / 64, ⟨Vector.replicate 8 0x02000000, 255, 0⟩)] }
         (homeCheck u 0 x.loc).isNone && (icacheWord u 0 x.loc).isNone && icacheWord k 0 x.loc == some 0x02000000 &&
           !poisoned u x.loc && readLoc (touchHome v x.loc x.pl 0 x.uc) x.loc == 0x02000000
       | _ => false)) = true := by decide

/-- StepRunsEvent: a well-formed event, and what is none. -/
theorem test_meets_StepRunsEvent : (let s := { State.reset with agenda := [.barrelCycle 0] }
    !s.dev.off && s.turns.isEmpty && (Instr.barrelCycle 0).isEvent && (Instr.barrelCycle 0).wellFormed && !Instr.nop.isEvent &&
      !(Instr.barrelCycle 3072).wellFormed) = true := by decide

/-- StepKeepsMemory: the machine after reset takes a step. -/
theorem test_meets_StepKeepsMemory : State.reset.memWf = true ∧
    (match step { State.reset with agenda := [.barrelCycle 0] } with | .next _ => true | _ => false) = true := by decide

/-- AluResults, Divisions, ScalarResults, SelectRule, ImmediateResults, FloatResults: registers that are full and await nothing. -/
theorem test_meets_scalar : ([0x01, 0x02, 0x03, 0x04, 0x05, 0x06, 0x07, 0x08, 0x09, 0x0A, 0x0B, 0x0C, 0x0D].all fun op =>
    clearB (probe 0x02000000) op none [33, 2, 63] [3]) = true := by decide

/-- Their words of no instruction. -/
theorem test_meets_scalar_words : (0x08000001 : Nat) / 2 ^ 25 = 0x04 ∧ (0x04000003 : Nat) / 2 ^ 25 ∈ [0x02, 0x03, 0x05, 0x06] := by decide

/-- Divisions: a division in progress, and none. -/
theorem test_meets_Divisions : (let s := nextOf (.divN 3 1 0) (probeRegs 0x02000000 [(1, 7)])
    (s.ctx 0).divs.find? (·.1 == 3) == some (3, .allOnes 64) && ((s.ctx 0).divs.find? (·.1 == 31)).isNone) = true := by decide

/-! ### Scalar memory -/

/-- The running context's core has a translation of the page at 0x20000, readable and writable. -/
def withData (s : State) : State :=
  s.modCore (coreOf s.cur) fun k => { k with dtlb := [{ vf := 0, asid := 0, vpn := 2, level := 3, leaf := 2 * 2 ^ 11 + 0xF }] }

/-- A state for scalar memory instructions: s1 holds an address, s2 a value, s4 an index of 0, and a handler is set. -/
def memState (va : Word) : State :=
  (withData (probeRegs 0x26000000 [(1, va), (2, 0x1122334455667788)])).modMe fun x => { x with trVec := 0x30000 }

/-- The conditions of `Meets` and of the location's home as one test. -/
def meetsB (s : State) (k : AccessKind) (n : Nat) (va : Word) : Bool :=
  decide (va.toNat % n = 0) && !acqPending s s.cur && s.me.spadReq.isNone &&
    match translate s s.cur k va with
    | .ok x => (homeCheck (fillCoreTlb s s.cur k va) s.cur x.loc).isNone && !ownSpad s x.loc && !x.uc &&
        decide (sendUsed s (coreOf s.cur) < 16)
    | _ => false

/-- LoadMisses: a load of each operand form at the page's first and last word. -/
theorem test_meets_LoadMisses : ([0x20000, 0x2FFF8].all fun va => let s := memState va
     meetsB s .read 8 va && clearB s 0x13 none [1] [3] && clearB s 0x18 none [1, 4] [3] && clearB s 0x1C none [33] [3] &&
       (match translate s s.cur .read va with | .ok x => (cacheWord s 0 x.loc).isNone | _ => false)) = true := by decide

/-- LoadHits: the word is in the core's cache. -/
theorem test_meets_LoadHits : (let s := memState 0x20008
    let s := s.modCore 0 fun k => { k with dcache := [(0x20000 / 64, { words := Vector.replicate 8 5, valid := 0xFF, owned := 0 })] }
    meetsB s .read 4 0x20008 && clearB s 0x12 none [1] [3] &&
      (match translate s s.cur .read 0x20008 with | .ok x => (cacheWord s 0 x.loc) == some 5 && !behindOwn s x.loc | _ => false) &&
      (nextOf (.ld4 3 1 0) s).me.reg 3 == 5) = true := by decide

/-- MisalignedAccessTraps: a context with a handler whose address ends in 4. -/
theorem test_meets_MisalignedAccessTraps : (let s := memState 0x20004
    fieldN s.me.trCause 40 1 == 0 && s.me.trVec != 0 && clearB s 0x13 none [1] [3] && clearB s 0x17 none [2, 1] [] &&
      clearB s 0x1D none [2, 1] [] && clearB s 0x1E none [1, 2] [3] && drained s s.cur && s.me.failed.isEmpty &&
      s.me.spadReq.isNone && (nextOf (.ld8 3 1 0) s).me.pc == 0x30000) = true := by decide

/-- LoadValueArrives: a load on its way to a clean word, and to a poisoned one. -/
theorem test_meets_LoadValueArrives : (let s := memState 0x20000
    let t := nextOf (.ld8 3 1 0) s
    t.accs.all (fun a => a.op == .read && !blockedAcc t a && !locBusy t a.loc && a.dest == 3 && !poisoned t a.loc &&
      (t.ctx a.ctx).isBusy 3 && poisoned (t.modMem fun m => { m with poison := [0x20000] }) a.loc &&
      (t.ctx a.ctx).pendTrap.isEmpty) && t.accs.length == 1) = true := by decide

/-- StoreIssues: a plain store and a release. -/
theorem test_meets_StoreIssues : (let s := memState 0x20000
    meetsB s .write 8 0x20000 && clearB s 0x17 none [2, 1] [] && clearB s 0x1D none [34, 1] [] && drained s s.cur &&
      s.me.failed.isEmpty) = true := by decide

/-- StoresAtHome: a store on its way to a line under its own key, and one whose extent is gone. -/
theorem test_meets_StoresAtHome : (let s := nextOf (.st8 2 1 0) (memState 0x20000)
    let u : State := { s with accs := s.accs.map fun (a : Acc) => { a with loc := .mem 0x040000000000 } }
    let o := s.modMem fun m => { m with owner := [⟨0x20000, 4, 0, 99⟩] }
    s.accs.all (fun a => a.phase == .sent && !blockedAcc s a && (homeCheck s a.ctx a.loc).isNone && a.loc == .mem 0x20000 &&
        ownerOf s a.loc == none && ownerOf o a.loc == some 4 && coreOf a.ctx == 0) &&
      keyMat s (paKey 0x20000) == some 1 && s.accs.length == 1 && u.accs.length == 1 &&
      u.accs.all fun a => homeCheck u a.ctx a.loc == some fcExtentGone) = true := by decide

/-- OwnershipMoves: a performed store of a word that its core holds, and one that waits for a revoke. -/
theorem test_meets_OwnershipMoves : (let s := nextOf (.st8 2 1 0) (memState 0x20000)
    let id := s.accs.head?.elim 0 (·.id)
    let t : State := { s with accs := s.accs.map fun (a : Acc) => { a with phase := .performed } }
    let u := nextOf (.storeAtHome id) (s.modMem fun m => { m with owner := [⟨0x20000, 4, 0, 99⟩] })
    t.accs.all (·.phase == .performed) && t.accs.length == 1 && u.accs.all (·.phase == .revoking 4) && u.accs.length == 1) = true := by
  decide

/-- AtomicIssues, AtomicsAtHome: an atomic of 8 bytes is issued and stands at its home; the old word is then in sd. -/
theorem test_meets_Atomics : (let s := memState 0x20000
    let t := nextOf (.amoAdd 3 1 2 1) s
    meetsB s .atomic 8 0x20000 && clearB s 0x1E none [1, 2] [3] && drained s s.cur && s.me.failed.isEmpty &&
      t.accs.all (fun a => a.phase == .sent && a.loc == .mem 0x20000 && !blockedAcc t a && !poisoned t a.loc &&
        !replayHolds t 0 0x20000 (requester t a.ctx) && a.dest == 3 && (t.ctx a.ctx).isBusy 3 && a.acq && a.size == 8 &&
        (match a.op with | .amo _ n off _ _ _ => n == 8 && off == 0 | _ => false)) &&
      keyMat t (paKey 0x20000) == some 1 && t.accs.length == 1) = true := by decide

/-- ScratchpadAccess: a load of the own cluster's scratchpad, presented, and answered by its bank; BankServes: the same access. -/
theorem test_meets_ScratchpadAccess : (let s := memState 0xF00000003FFFF8
    let t := nextOf (.ld8 3 1 0) s
    let u := nextOf (.spadBankCycle 0 63) t
    clearB s 0x13 none [1] [3] && (match translate s s.cur .read 0xF00000003FFFF8 with
      | .ok x => x.loc == .spad 0 0x3FFFF8 && s.me.spadReq.isNone && !acqPending s s.cur
      | _ => false) &&
      t.me.spadReq == some { cluster := 0, phys := 0x3FFFF8, op := .read, result := none } &&
      (match u.me.spadReq with | some r => r.result == some (0, false, false) | none => false)) = true := by decide

/-- LineFills: a missing load has asked for its line; and a prefetch of a page that is translated. -/
theorem test_meets_LineFills : (let s := memState 0x20000
    let t := { nextOf (.ld8 3 1 0) s with accs := [] }
    Map.find (t.core 0).fills (0x20000 / 64) == some 0 && (lineLocs (0x20000 / 64)).all (fun l =>
        !locBusy t l && (homeCheck t 0 l).isNone && !poisoned t l) &&
      clearB s 0x20 none [1] [] && (match translateBy s s.cur .read 0x20000 (tlbOf s s.cur .read) with
        | .ok x => !x.uc && !linePresent s 0 x.loc
        | _ => false)) = true := by decide

/-- WalkCompletes: a walk that ends in a leaf, and one that ends in a fault. -/
theorem test_meets_WalkCompletes : (let w : WalkRec := ⟨9, 0, 0, 0, 0x40000, 2, 0x20000, [(0, false)], [3], [], false⟩
    let s := { probe 0x26000000 with walks := [w] }
    let table := ((s.mem.ram.setWord 0x40000 (2 * 2 ^ 11 + 1)).setWord 0x20000 (3 * 2 ^ 11 + 1)).setWord 0x30010 (4 * 2 ^ 11 + 0xF)
    let t := s.modMem fun m => { m with ram := table, written := [(0, 2 ^ 20)] }
    let z := s.modMem fun m => { m with written := [(0x40000, 0x40008)] }
    s.walks.find? (·.id == 9) == some w && (walking s 0).contains w &&
      (match walk z w.root w.va 0 with | .error _ => true | .ok _ => false) &&
      (match walk t w.root w.va 0 with | .error _ => false | .ok (l, v) => l == 4 * 2 ^ 11 + 0xF && v == 3)) = true := by decide

/-! ### Control, system and traps -/

/-- BranchesAndJumps: sources that are ready, a forward loop, and a group that binds a slot or none. -/
theorem test_meets_BranchesAndJumps : (let s := probeRegs 0x50000000 [(1, 5)]
    let t := nextOf (.hintLog 7) s
    [0x28, 0x29, 0x2A, 0x2B, 0x2D, 0x2E].all (fun op => clearB s op none [33] [3]) && clearB s 0x2C none [] [3] &&
      decide ((1 : BitVec 19).toInt = 1) && (logSlot s s.cur).isNone && t.me.hints.length == 1) = true := by decide

/-- LogbookReaders: a slot of each kind is seen, and none where the group names none. -/
theorem test_meets_LogbookReaders : (let s := probe 0x5E000000
    match logView s s.cur with
    | (_, some v) => v.kind == 0 && clearB s 0x2F none [] [] && clearB s 0x30 none [1, 2] [3] && clearB s 0x31 none [] [3] &&
        clearB s 0x32 none [] [3]
    | _ => false) = true := by decide

/-- HintsJoin: a context whose run of hints counts, and one that ignores its run. -/
theorem test_meets_HintsJoin : (let s := (probe 0xFE000001).modMe fun x => { x with arrived := false, ignoring := false }
    let u := s.modMe fun x => { x with ignoring := true }
    !s.me.ignoring && !s.me.arrived && s.me.hints.isEmpty && u.me.ignoring &&
      (nextOf (.hintImm 1) s).me.hints.length == 1) = true := by decide

/-- SysReads and SysWrites: assigned and unassigned numbers, and a handler. -/
theorem test_meets_System : (let s := (probe 0xE0000000).modMe fun x => { x with trVec := 0x30000 }
    clearB s 0x70 none [] [3] && clearB s 0x71 none [1] [] && (sysValue s s.cur 0x030).isSome && (sysValue s s.cur 0xFFF).isNone &&
      sysWritable 0x045 && !sysWritable 0xFFF && fieldN s.me.trCause 40 1 == 0 && s.me.trVec != 0) = true := by decide

/-- TrapRule, and TrapReturn in the handler and outside it. -/
theorem test_meets_Traps : (let s := (probe 0xE4000005).modMe fun x => { x with trVec := 0x30000 }
    let t := nextOf (.trap 0 5) s
    clearB s 0x72 none [0] [] && fieldN s.me.trCause 40 1 == 0 && fieldN t.me.trCause 40 1 == 1 && clearB t 0x73 none [] [] &&
      (nextOf .eret t).me.pc == 0x10004) = true := by decide

/-- HaltMarkNopFeat: nothing in flight, a store in flight, a mark in progress or none, and words of no instruction. -/
theorem test_meets_HaltMarkNopFeat : (let s := (probe 0xE8000000).modMe fun x => { x with trVec := 0x30000 }
    let t := nextOf .mark s
    [0x74, 0x75, 0x7B].all (fun op => clearB s op none [] []) && clearB s 0x76 none [1] [3] && drained s s.cur &&
      !drained (nextOf (.st8 2 1 0) (memState 0x20000)) 0 && s.dev.marking.isEmpty && !t.dev.marking.isEmpty &&
      opOwner 0x58 == some .a && kindOf 11 != .a && opOwner 0x04 == none) = true := by decide

/-! ### Events of cores and memory, tasks, fences -/

/-- A launch that covers the first cluster and a cell of the second, running in cell 0. -/
def oneLaunch : Launch :=
  { id := 1, vf := 0, q := 0, proc := 1, record := List.replicate 8 0, cseq := 1, man := 0x50000, stat := .running, snap := [],
    cells := List.range 17, ended := [], orphan := 0, fail := none, hwfault := false, place := [], reports := false,
    stopping := false, start := 0, allStop := false }

/-- The launch runs in cells 0 and 1. -/
def withLaunch (s : State) : State :=
  ((s.modHost fun h => { h with launches := [(1, oneLaunch)] }).modCell 0 fun x => { x with launch := some 1 }).modCell 1
    fun x => { x with launch := some 1, cellNo := 1 }

/-- RepliesAndEntry: a parked context that waits for a reply, one that none awaits, and a pending trap. -/
theorem test_meets_RepliesAndEntry : (let f : FaultWait := ⟨7, 1, 0x20000, 0, 0x10000, false, 0⟩
    let s := (probe 0).modMe fun x => { x with stat := .parked, faultWait := some f, trVec := 0x30000 }
    let q : TrapReq := ⟨tcMemerr, none, 0x20000, 0, 0, 0, true, 3⟩
    let u := (probe 0).modMe fun x => { x with pendTrap := [q], trVec := 0x30000 }
    u.me.spadReq.isNone && u.me.block == .none && faultWaiter s 0 7 == some (0, f) && (faultWaiter s 0 8).isNone && fieldN (4 * 7 + 1) 2 32 == 7 && u.me.stat == .eligible &&
      fieldN u.me.trCause 40 1 == 0 && (nextOf (.trapEntry 0) u).me.pc == 0x30000 &&
      (nextOf (.faultReply 0 (4 * 7 + 1)) s).me.pendTrap.isEmpty == false) = true := by decide

/-- TimeAndWritebacks: a core that is due and one that is not, a context that may take a turn, and an entry that is being fetched. -/
theorem test_meets_TimeAndWritebacks : (let s := probe 0
    let s := s.modCell 0 fun x => { x with log := [⟨3, true, SlotVal.cold, SlotVal.cold, 0, []⟩] }
    (s.cell 0).log.any (fun e => e.slot == 3 && e.fetching && e.waiting.isEmpty) && (s.cell 0).logQ.isEmpty &&
      (s.ctx 0).stat == .eligible && coreDue s 0 && !coreDue s 1 && !coreDue s 5 && coreDue { s with ctxs := [] } 5 &&
      (nextOf (.barrelCycle 0) s).turns == [0] && (nextOf (.barrelCycle 1) s).turns.isEmpty) = true := by decide

/-- TimeAndWritebacks: a dirty line of a slice. -/
theorem test_meets_TimeAndWritebacks_line : (let s := probe 0
    let l : SLine := { slice := 0, set := 0, way := 0, words := Vector.replicate 8 5, dirty := 1, writers := [(0, 0)] }
    let s := s.modMem fun m => { m with slines := [(0x20000 / 64, l)] }
    heldWords s (0x20000 / 64) == 0 && s.dev.mscSize == 0 && (keyMat s (paKey 0x20000)).isSome &&
      mediaWord (nextOf (.hbmWritebackAck (0x20000 / 64)) s) 0 0x20000 == 5) = true := by decide

/-- BankServes: a lone new access with empty queues, a load and a store, and one that meets a forfeited access. -/
theorem test_meets_BankServes : (let s := nextOf (.ld8 3 1 0) (memState 0xF0000000000000)
    let u := nextOf (.st8 2 1 0) (memState 0xF0000000000000)
    let k := Map.at (s.cluster 0).banks 0 Bank.reset
    let v := s.modCluster 0 fun c => { c with banks := Map.put c.banks 0 { k with forfeit := [⟨33, 64, .read⟩] } }
    k.present == [⟨0, 0, .read⟩] && s.me.spadReq.isSome && !poisoned s (.spad 0 0) && k.forfeit.isEmpty && k.engine.isEmpty &&
      (Map.at (u.cluster 0).banks 0 Bank.reset).present.length == 1 && u.me.spadReq.isSome &&
      (Map.at (v.cluster 0).banks 0 Bank.reset).forfeit == [⟨33, 64, .read⟩] && coreInCluster 33 == 3) = true := by decide

/-- A cell whose contexts 1 to 10 are free, with a launch. -/
def taskState : State :=
  (probeRegs 0x66000000 [(1, 4), (2, 9), (3, 0)]).modCell 0 fun x => { x with launch := some 1, codeBase := 0x10000 }

/-- TaskInstructions: a free helper and none, a record for the deque, counters at 0 and above. -/
theorem test_meets_TaskInstructions : (let s := taskState
    let u := s.modCore 0 fun k => { k with resv := 10 }
    clearB s 0x33 none [1, 2] [3] && drained s s.cur && s.me.failed.isEmpty && takeHelper s 0 false == some 1 &&
      (takeHelper u 0 false).isNone && clearB s 0x35 none [3, 1] [2, 3] && fieldN (s.me.reg 3) 17 2 == 0 &&
      s.myCell.deque.isEmpty && clearB s 0x37 none [1] [3] && clearB s 0x36 none [1, 2] [] && depVal s 0 4 == 0 &&
      depVal (setDep s 0 4 65535) 0 4 == 65535 &&
      (nextOf (.start 3 1 2) s).me.reg 3 == 1) = true := by decide

/-- Semaphores: counts of 0, 1 and 65,535; a mutex that is free, held, and held by another. -/
theorem test_meets_Semaphores : (let s := taskState.modMe fun x => { x with trVec := 0x30000 }
    let n (v : Nat) := s.modCell 0 fun x => { x with sems := Map.put x.sems 3 v }
    let h (c : Nat) := s.modCell 0 fun x => { x with mtx := Map.put x.mtx 7 c }
    let p := (n 0).setCtx 5 { (s.ctx 5) with stat := .parked, park := .semaphore, parkNum := 3 }
    clearB s 0x38 none [] [] && clearB s 0x39 none [] [] && semVal (n 65535) 0 3 == 65535 && semVal (n 1) 0 3 == 1 &&
      semVal s 0 3 == 0 && (firstParked s 0 .semaphore 3).isNone && firstParked p 0 .semaphore 3 == some 5 &&
      Map.find (h 0).myCell.mtx 7 == some 0 && Map.find (h 1).myCell.mtx 7 == some 1 && (Map.find s.myCell.mtx 7).isNone &&
      fieldN s.me.trCause 40 1 == 0 && s.me.trVec != 0) = true := by decide

/-- TaskEvents: an idle context that retires, a ready task of the own deque, a stolen task's decrement. -/
theorem test_meets_TaskEvents : (let s := taskState
    let e : TaskRec := ⟨0, 7, 8, 9, 0, 1, 0, none, false, []⟩
    let d := s.modCell 0 fun x => { x with deque := [e] }
    let m := [0, 1, 2].foldl (fun s k => s.modCore k fun x => { x with cyc := s.time }) { s with depMsgs := [⟨5, 0, 63, none, []⟩] }
    clearB s 0x34 none [] [] && engineIdle s s.cur && drained s s.cur && s.me.failed.isEmpty && s.me.task.isNone &&
      s.myCell.log.isEmpty && s.myCell.mtx.isEmpty && coreRuns s 0 && decide ((d.core 0).dispAt ≤ d.time) &&
      ownTask d 0 == some 0 && takeHelper d 0 false == some 1 && (m.depMsgs.find? (·.id == 5)).isSome && cellActed m 0) = true := by decide

/-- TaskEvents: an idle core of cell 1 probes its neighbour to the west, whose ready task may be stolen by an M core, and takes it. -/
theorem test_meets_TaskEvents_steal : (let s := (taskState.modCell 1 fun x => { x with launch := some 1, codeBase := 0x10000 }).modCore 5 fun k =>
      { k with probe := 2 }
    let e : TaskRec := ⟨2 ^ 18, 7, 8, 9, 0, 1, 0, none, false, []⟩
    let d := s.modCell 0 fun x => { x with deque := [e] }
    let z := s.modCore 5 fun k => { k with probeAt := 0 }
    coreIdle d 5 && nextProbe 1 (d.core 5).probe == 3 && neighbour 1 3 == some 0 && decide ((d.core 5).probeAt ≤ d.time) &&
      probeTurn d 0 == some 1 && neighbour 0 1 == some 1 && (List.range 3).all (fun j => (ownTask d j).isNone || !coreRuns d j || j == 2) &&
      stealable d 0 5 == some 0 && stealable z 0 5 == none && probeTurn z 0 == some 1 && decide ((d.cell 0).probeAt ≤ d.time) &&
      (takeHelper d 5 false).map coreOf == some 5) = true := by decide

/-- Fences: loads back and every access ended, a store in flight, no dirty line; in the CHART window an address of a covered die, and
addresses of an uncovered one, of a retired bank and outside the window. -/
theorem test_meets_Fences : (let s := memState 0x20000
    let c := withLaunch (memState 0xF2000000010000)
    let r := (c.modDev fun d => { d with retired := [(1, 0)] }).setLaunch { oneLaunch with start := 1 }
    let o := (c.me.reg 1).toNat % 2 ^ 48
    clearB s 0x67 none [] [] && loadsBack s s.cur && drained s s.cur && s.me.failed.isEmpty && coveredLines s s.cur 1 == [] &&
      !drained (nextOf (.st8 2 1 0) s) 0 && clearB s 0x69 none [1] [3] && (s.me.reg 1).toNat / 2 ^ 48 != 0xF2 &&
      clearB c 0x69 none [1] [3] && (c.me.reg 1).toNat / 2 ^ 48 == 0xF2 && decide (o < 0x40000000) && coversDie c 0 (o / 2 ^ 28) &&
      !coversDie c 0 1 && !bankRetired c 0 (o / 2 ^ 16) && bankRetired r 0 (o / 2 ^ 16)) = true := by decide

/-! ### Barriers -/

/-- A context of the launch whose s1 holds an address of a barrier word. -/
def barState (va : Word) : State := withLaunch (memState va)

/-- Barriers: in the own scratchpad nothing is presented yet, then the bank has answered, refused or made the context wait. -/
theorem test_meets_Barriers : (let s := barState 0xF0000000000008
    let t := nextOf (.barArrive 3 1) s
    let u := t.modMe fun x => { x with spadReq := x.spadReq.map fun r => { r with result := some (0, true, false) } }
    let v := nextOf (.barWait 1 0) s
    let z := s.modMe fun x => x.setS 2 0x000001
    clearB s 0x63 none [1, 2] [3] && [0xF0, 0xF1].contains ((s.me.reg 1).toNat / 2 ^ 48) && s.me.spadReq.isNone &&
      (match translate s s.cur .atomic (s.me.reg 1) with | .ok x => x.loc == .spad 0 8 | _ => false) &&
      (match translate s s.cur .write (s.me.reg 1) with | .ok x => x.loc == .spad 0 8 | _ => false) &&
      fieldN (z.me.reg 2) 56 8 == 0 && fieldN (z.me.reg 2) 24 16 == 0 && drained s s.cur && s.me.failed.isEmpty &&
      t.me.spadReq == some { cluster := 0, phys := 8, op := .barArrive, result := none } &&
      u.me.spadReq == some { cluster := 0, phys := 8, op := .barArrive, result := some (0, true, false) } &&
      !acqPending u u.cur && v.me.spadReq == some { cluster := 0, phys := 8, op := .barWait 0, result := none } &&
      fieldN s.me.trCause 40 1 == 0 && s.me.trVec != 0) = true := by decide

/-- Barriers: the scratchpad of another cluster that the launch covers, with a free entry of the send queue; the acknowledgement is
posted and waits in the bank's engine queue. -/
theorem test_meets_Barriers_other : (let s := barState 0xF1000000800008
    let t := nextOf (.barAck 1) s
    [AccessKind.read, .write, .atomic].all (fun k =>
      (match translate s s.cur k (s.me.reg 1) with | .ok x => x.loc == .spad 1 8 | _ => false)) && !acqPending s s.cur &&
      s.me.spadReq.isNone && decide (sendUsed s (coreOf s.cur) < 16) && clusterOfCell (cellOf s.cur) == 0 && t.posts.length == 1 &&
      (Map.at (t.cluster 1).banks 0 Bank.reset).engine == t.posts.map (·.id)) = true := by decide

/-- BarrierEvents: an acknowledgement of a word with ARR 0, at the head of its bank's queue; and what it leaves there (R347). -/
theorem test_meets_BarrierEvents_ack : (let s := nextOf (.barAck 1) (barState 0xF1000000800008)
    let id := s.posts.head?.elim 0 (·.id)
    let k := Map.at (s.cluster 1).banks 0 Bank.reset
    (match s.posts.find? (·.id == id) with
     | some q => q.cluster == 1 && q.phys == 8 && q.op == .barAck
     | none => false) && !poisoned s (.spad 1 8) && barArr ((s.cluster 1).spad.word 8) == 0 && (s.cluster 1).waiters.isEmpty &&
      (s.accs.find? (·.id == id)).isNone && k.engine.head? == some id && k.forfeit.isEmpty && k.present.isEmpty &&
      fieldN (((nextOf (.barAckAtBank id) s).cluster 1).spad.word 8) 62 1 == 1) = true := by decide

/-- BarrierEvents: a byte count in range and one out of it, and a waiting context. -/
theorem test_meets_BarrierEvents : (let s := barState 0xF0000000000008
    let count (n : Nat) : State := { s with posts := [⟨9, 0, 8, .barCount n, none, none, 0, []⟩] }
    let w := (s.cluster 0).spad.word 8
    let z := (s.modCluster 0 fun c => { c with waiters := [⟨5, 8, 1, 0⟩] }).modCtx 5 fun x => { x with stat := .parked, park := .barrier }
    !poisoned s (.spad 0 8) && (s.cluster 0).waiters.isEmpty &&
      decide (-(2 ^ 23) ≤ signedN (barExpb w) 24 - 8388608) && decide (signedN (barExpb w) 24 - 8388609 < -(2 ^ 23)) &&
      ((count 8388608).posts.find? (·.id == 9)).isSome && (z.ctx 5).stat == .parked && (z.ctx 5).park == .barrier &&
      (z.cluster 0).waiters.all (fun x => x.phys == 8 && x.p != barPhase (setField w 62 1 1))) = true := by decide

/-! ### Tile registers -/

/-- The state for a tile instruction of a major opcode, with tags in tile, accumulator and mask registers. -/
def tileState (op : Nat) (tags : List (Nat × Word)) : State :=
  ((probe (op * 2 ^ 25)).modCell 0 fun x =>
    { x with tiles := tags.foldl (fun t e => Map.put t e.1 { tag := e.2, data := [] }) x.tiles }).modMe
      fun x => { x with trVec := 0x30000 }

/-- The conditions of `TileReady` as one test. -/
def readyB (s : State) (op : Nat) (owner : Option CoreKind) (srcs plain reads writes : List Nat) : Bool :=
  clearB s op owner srcs plain && s.myCell.pend.all (fun p => p.ctx != s.cur) && !acqPending s s.cur &&
    !hazard s s.cur reads writes && (reads ++ writes).all fun r => r < 12 || 16 ≤ r || kindOf s.cur == .a

/-- F32 tiles of 128 x 64, and a mask of their shape. -/
def f32Tags : List (Nat × Word) :=
  [(0, mkTag fmtF32 128 64), (1, mkTag fmtF32 128 64), (2, mkTag fmtF32 128 64), (16, mkTag 0 128 64)]

/-- TileStorage: a view of 1-bit and of 32-bit elements that fills its row, and an instruction in progress. -/
theorem test_meets_TileStorage : (let s := tileState 0x45 f32Tags
    let t := nextOf (.tzero 1 0 0) s
    let v := s.look 0
    let m := s.look 16
    viewBits v == 32 && decide (32 * 64 ≤ 8 * rowStride v.reg) && viewBits m == 1 && decide (1 * 128 ≤ 8 * rowStride m.reg) &&
      (t.cell 0).pend.all (fun p => p.writes.map (·.reg) == [1]) && (t.cell 0).pend.length == 1) = true := by decide

/-- TileMoves: tags that pass and one that does not, on the cores that run each. -/
theorem test_meets_TileMoves : (let s := tileState 0x45 f32Tags
    let a := tileState 0x46 f32Tags
    tagOk 0 (s.look 0).tag && (s.look 0).tag != 0 && maskOk 0 0 && maskOk 1 7 && readyB s 0x45 none [] [] [1, 16] [0] &&
      readyB s 0x45 none [1] [] [] [0] && readyB a 0x46 (some .a) [] [] [16] [0] && ekind fmtF32 != .other &&
      readyB a 0x4D (some .a) [] [] [1] [0] && readyB s 0x40 none [1] [] [] [0] && tagOk 0 (mkTag fmtT8 1 256) &&
      !tagOk 0 (mkTag fmtT8 129 1) && readyB s 0x54 none [1, 2] [3] [] [0] && readyB s 0x54 none [1, 2] [3] [5] [] &&
      (s.look 5).tag == 0 && fieldN s.me.trCause 40 1 == 0 && s.me.trVec != 0) = true := by decide

/-- MaskInstructions: a mask tag, and what is none. -/
theorem test_meets_MaskInstructions : (let s := tileState 0x53 f32Tags
    readyB s 0x53 none [1] [] [] [17] && readyB s 0x53 none [] [] [16, 23] [17] && readyB s 0x53 none [] [3] [16] [] &&
      readyB s 0x53 none [1] [3] [16] [] && tagOk 16 (mkTag 0 128 128) && !tagOk 16 (mkTag 0 128 129) &&
      (nextOf (.mcnt 3 0) s).me.reg 3 == 0) = true := by decide

/-- TileArithmetic: two F32 tiles of one shape, an integer tile, tiles of other shapes, and tags of a row and a column. -/
theorem test_meets_TileArithmetic : (let s := tileState 0x47 (f32Tags ++ [(3, mkTag fmtI32 4 4), (4, mkTag fmtF32 4 4)])
    elemFmt (s.look 0).tag 0 == some fmtF32 && elemFmt (s.look 3).tag 0 == some fmtI32 && sameShape (s.look 0).tag (s.look 1).tag &&
      !sameShape (s.look 0).tag (s.look 4).tag && (tewElem .add fmtF32 .rne 0 0).isSome && (tewElem .xor fmtI32 .rne 0 0).isSome &&
      readyB s 0x47 (some .a) [] [] [0, 1, 16] [2] && readyB s 0x4A (some .a) [] [] [0, 1, 2] [2] && ekind fmtF32 == .ieee f32 &&
      readyB s 0x48 (some .a) [] [] [0, 1] [16] && readyB s 0x49 (some .a) [] [] [0, 1, 16] [2] &&
      readyB s 0x4B (some .a) [] [] [0] [2] && readyB s 0x4C (some .a) [] [] [0] [2] && tagOk 2 (mkTag fmtF32 128 1) &&
      tagOk 2 (mkTag fmtF32 1 64) && tagOk 16 (mkTag 0 128 64)) = true := by decide

/-- The tag of an I8 tile of 16 x 32 with scales of rows in tile 3, and with ballast in tile 4. -/
def narrowTag (bal : Bool) : Word :=
  .ofNat 64 ((mkTag fmtI8 16 32).toNat + 2 ^ 42 + 3 * 2 ^ 44 + (if bal then 2 ^ 48 + 4 * 2 ^ 49 else 0))

/-- TileConversions: narrow tiles with their scale and ballast tiles, integer tiles for random words, and fixes. -/
theorem test_meets_TileConversions : (let s := tileState 0x4F [(0, mkTag fmtF32 16 32), (1, narrowTag false), (3, scaleTag (narrowTag false)),
        (2, narrowTag true), (4, ballastTag (narrowTag true)), (5, mkTag fmtI32 16 32), (6, mkTag fmtN32 16 32)]
    let a := tileState 0x52 [(0, mkTag fmtF32 2 64), (1, mkTag fmtF32 2 64)]
    readyB s 0x4F (some .c) [] [] [0] [7] && tagOk 7 (mkTag fmtT8 16 32) && readyB s 0x51 (some .c) [] [] [1] [7] &&
      fmtNarrow (tagFmt (s.look 1).tag) && namedOk s (s.look 1).tag && namedOk s (s.look 2).tag && tagHasBal (s.look 2).tag &&
      readyB s 0x50 (some .c) [] [] [0, 0] [1] && tagAxis (s.look 1).tag == 1 && tagScaleReg (s.look 1).tag == 3 &&
      tagBalReg (s.look 2).tag == 4 && readyB s 0x4E (some .c) [] [] [5, 6] [7] && tagOk 7 (mkTag fmtI32 16 32) &&
      tagOk 7 (setField (mkTag fmtI32 16 32) 36 4 fmtF32) && readyB a 0x52 (some .a) [] [] [0, 1] [2] &&
      (fixDim (a.look 0).tag).isSome) = true := by decide

/-! ### Tile memory and the matrix engine -/

/-- A state for tile memory instructions: tile 0 is F32 of 2 x 2, s1 holds an address; its cluster's TLB has the page too. -/
def tileMemState (op : Nat) (va : Word) : State :=
  (withData ((tileState op [(0, mkTag fmtF32 2 2), (1, mkTag fmtI32 2 1)]).modMe fun x => x.setS 1 va)).modCluster 0 fun k =>
    { k with tlb := [{ vf := 0, asid := 0, vpn := 2, level := 3, leaf := 2 * 2 ^ 11 + 0xF }] }

/-- A load's form is legal on an M core, its banks have served it, and its units can be transferred from the first on, up to one that
stops as `stop` says. -/
def loadsB (s : State) (i : Instr) (op : Nat) (stop : Option UnitStop → Bool) : Bool :=
  match tileLoadForm s i with
  | some f =>
    let n := f.base.note s
    let l := unitsFrom f.units (n.me.startPos f.kind)
    let z := unitsXlat n (f.how == .gather) .read (cutUnit n l) l
    let parts := partsOf z.2.1
    f.legal && f.op == op && readyB s f.op (some .m) f.srcs [] f.reads [f.reg] && s.accs.isEmpty && decide (f.reg < 12) &&
      decide (sendUsed s (coreOf s.cur) < 16) && !tileBehind z.1 f.how parts && z.1.me.ticket.isNone &&
      parts.all (fun p => match p.x.loc with | .spad _ _ => false | _ => true) && (refreshBanks z.1 f.how parts).isEmpty &&
      (readUnits (banksDone z.1) (s.look f.reg) f.how f.trans z.2.1).2.2.isNone && stop (z.2.2.map (·.2))
  | none => false

/-- TileLoads: each form on a translated page. -/
theorem test_meets_TileLoads : (loadsB (tileMemState 0x41 0x20000) (.tld 0 1 0 0 0) 0x41 (·.isNone) &&
    loadsB (tileMemState 0x43 0x20000) (.tldT 0 1 0 0 0) 0x43 (·.isNone) &&
    loadsB (tileMemState 0x7C 0x20000) (.tldx 0 1 0 0) 0x7C (·.isNone)) = true := by decide

/-- TileLoads: a gather, through the cluster's TLB. -/
theorem test_meets_TileLoads_gather : (let s := (tileMemState 0x44 0x20000).modMem fun m => { m with written := [(0x20000, 0x30000)] }
    loadsB s (.tgath 0 1 1 0 0) 0x44 (·.isNone)) = true := by decide

/-- TileLoads: a unit that faults, in the part of CHART that is not covered. -/
theorem test_meets_TileLoads_fault : loadsB (tileMemState 0x41 0xF2000000000000) (.tld 0 1 0 0 0) 0x41
    (fun | some (.fault f) => f.cause == fcNotMapped | _ => false) = true := by decide

/-- TileLoads: the units up to the second; and, of a context that a pre-emption found in the middle, where it stops is open (R371). -/
theorem test_meets_TileLoads_stop : (let s := tileMemState 0x41 0x20000
    (match tileLoadForm s (.tld 0 1 0 0 0) with
     | some f => let z := unitsXlat s false .read (some 1) (unitsFrom f.units 0)
       z.2.2 == some (1, .preempt) && z.2.1.map (·.1) == [0]
     | none => false)) = true := by decide

/-- TileStores: a store whose units can be transferred, a chart load of a covered die, and one outside the window. -/
theorem test_meets_TileStores : (let s := tileMemState 0x42 0x20000
    let b := tmBase s 1 0 0
    let v := s.look 0
    let pitch := tmPitch s 0 (tagRowBytes v.tag)
    let n := b.note s
    let l := unitsFrom (tileUnits s b .write v.tag pitch) 0
    let c := withLaunch (tileMemState 0x68 0xF2000000000000)
    let us := tileUnits c (tmBase c 1 0 0) .read v.tag pitch
    let z := unitsXlat c false .read none ((List.range us.length).zip us)
    let parts (l : List TileUnit) := l.flatMap fun x => x.spans.flatMap fun sp => (spanParts sp.va sp.n).map (·.1)
    readyB s 0x42 (some .m) [1, 0] [] [0] [] && tmAligned s b (fmtSize (tagFmt v.tag)) [pitch] && v.tag != 0 &&
      decide (sendUsed s (coreOf s.cur) < 16) && (unitsXlat n false .write (cutUnit n l) l).2.2.isNone &&
      readyB c 0x68 (some .m) [1, 0] [] [] [0] && c.accs.isEmpty && decide (sendUsed c (coreOf c.cur) < 16) &&
      (parts us).all (chartOk c) && (parts us).length == 2 && (readUnits z.1 v .bank false z.2.1).2.2.isNone &&
      !(parts (tileUnits s b .read v.tag pitch)).all (chartOk s)) = true := by decide

/-- A state for matrix instructions: a0 is 16 x 16, tile 0 holds A of 16 x 32 and tile 1 B of 32 x 16, in F16. -/
def matrixState (op : Nat) : State :=
  withLaunch (tileState op [(12, mkTag fmtF32 16 16), (0, mkTag fmtF16 16 32), (1, mkTag fmtF16 32 16), (2, mkTag fmtF32 2 2)])

/-- MatrixInstructions: operands that pass and that do not, and K windows. -/
theorem test_meets_MatrixInstructions : (let s := matrixState 0x58
    let w := (s.look 12).tag
    let a := (mxOperand s 0 0 0).2
    let b := (mxOperand s 0 1 0).2
    let z := (mxOperand s 0 2 0).2
    accField 12 && mxOk 0 0 && mxOk 0 1 && mxFormatOk .mma w a b 0 0 && !mxFormatOk .mma w z b 0 0 && a.arg && b.arg && a.align &&
      b.align && kWindow 0 a.cols == some (0, 32) && (kWindow 33 a.cols).isNone && decide (sendUsed s (coreOf s.cur) < 16) &&
      [0x58, 0x59, 0x5A, 0x5D].all (fun op => readyB s op (some .a) [] [] [] []) && readyB s 0x5B (some .a) [1, 2] [] [] [] &&
      w != 0 && (s.me.reg 1).toNat % 4 == 0 && (coveredCells s 0).contains (swapPartner s.myCell.cellNo) &&
      !(coveredCells (tileState 0x5D []) 0).contains 0 && fieldN s.me.trCause 40 1 == 0 && s.me.trVec != 0) = true := by decide

/-- MatrixBatches: batches that are complete, committed and open; an engine micro-step to send and one that has ended. -/
theorem test_meets_MatrixBatches : (let s := matrixState 0x5C
    let t := nextOf (.commit 3) (nextOf (.azero 12) s)
    let q := tileState 0x7D [(12, mkTag fmtF32 16 16), (0, mkTag fmtI8 16 16), (1, mkTag fmtI8 16 16)]
    let u := q.modMe fun x => { x with block := .microDone }
    clearB s 0x5C (some .a) [] [3] && clearB s 0x5C (some .a) [1] [] && !batchCommitted s.me.mbatch 0 &&
      batchCommitted t.me.mbatch 0 && !batchComplete t.me.mbatch 0 &&
      batchComplete (nextOf (.matrixExecStart 0) t).me.mbatch 0 && q.me.block == .none && u.me.block == .microDone &&
      readyB q 0x7D (some .a) [] [] [] [] && !hazard q q.cur (mxTiles q 0 0 ++ mxTiles q 0 1) [12] && decide (sendUsed q (coreOf q.cur) < 16) &&
      hazard (q.modCell 0 fun x => { x with mq := [{ MxOp.blank .azero 12 with id := 1, ctx := 1 }] }) q.cur
        (mxTiles q 0 0 ++ mxTiles q 0 1) [12] && mxFormatOk .micro (q.look 12).tag (mxOperand q 0 0 0).2 (mxOperand q 0 1 0).2 0 0 &&
      q.myCell.mq.isEmpty) = true := by decide

/-- MatrixEvents: a product that starts, its first segment, and a fault that a reply answers. -/
theorem test_meets_MatrixEvents : (let s := nextOf (.mma 12 0 0 0 1) (matrixState 0x58)
    let t := nextOf (.matrixExecStart 0) s
    let z := nextOf (.azero 12) (matrixState 0x5B)
    let f := s.modCell 0 fun x => { x with mxFault := some ⟨7, 1, 0x20000, 0, 0x10000, false, 0⟩ }
    (match mxHead s 0, mxHead t 0, mxHead z 0 with
     | some o, some p, some q => !o.started && o.kind == .mma && !stoppedAt s o.ctx && p.started && p.acc == 12 && p.ticket.isNone && decide (tagCols p.accTag ≤ 128) &&
         tagFmt p.accTag == fmtF32 && decide (p.pos / 16 < segCount p) && segCount p == 2 && q.kind == .azero &&
         (match p.a, p.b with | .tile 0 _, .tile 1 _ => true | _, _ => false) && cellOf p.ctx == 0 &&
         (s.ctx o.ctx).pendTrap.isEmpty
     | _, _, _ => false) && (f.cell 0).mxFault.isSome && (f.cell 0).mq.head?.isSome && fieldN (4 * 7 + 1) 2 32 == 7) = true := by decide

/-- MatrixEvents: two cells at a swap. -/
theorem test_meets_MatrixEvents_swap : (let s := matrixState 0x5D
    let o : MxOp := { MxOp.blank .swap 0 with id := 1, ctx := 0 }
    let q : MxOp := { MxOp.blank .swap 0 with id := 2, ctx := 33 * 4 }
    let s := s.modCell 1 fun x => { x with mq := [o], cellNo := 1 }
    let s := s.modCell 4 fun x => { x with mq := [q], launch := some 1, cellNo := 4 }
    mxHead s 1 == some o && placeCell s 1 (swapPartner (s.cell 1).cellNo) == 4 && mxHead s 4 == some q && !stoppedAt s 0 &&
      o.pairing == q.pairing && (s.cell 4).launch == (s.cell 1).launch) = true := by decide

/-! ### Copies and soundings -/

/-- The engines' translations of the page at 0x20000, in the core and in the cluster. -/
def withEngine (s : State) : State :=
  let e : TlbEnt := { vf := 0, asid := 0, vpn := 2, level := 3, leaf := 2 * 2 ^ 11 + 0xF }
  ((withData (withLaunch s)).modCluster 0 fun k => { k with tlb := [e], spad := k.spad.setWord 0 0x20000 })

/-- An M core context with a shadow set for a copy of 64 bytes within the scratchpad, a dependence counter, and a barrier. -/
def copyState : State :=
  withEngine ((tileState 0x61 []).modMe fun x =>
    { x with cp := (((x.cp.setIfInBounds 0 0xF0000000000000).setIfInBounds 1 0xF0000000001000).setIfInBounds 2
                      (64 + 2 ^ 32 + 2 ^ 48)).setIfInBounds 5 (2 ^ 16 + 2 ^ 17 + 3 * 2 ^ 10) |>.setIfInBounds 6 0xF0000000002000 })

/-- TokenInstructions: the shadow set's registers, copies, and tiles that hold a query of 64 and none. -/
theorem test_meets_TokenInstructions : (let s := withEngine (tileState 0x64 [(0, mkTag fmtF32 1 64)])
    clearB s 0x60 (some .m) [1] [] && clearB s 0x61 (some .m) [] [3] && clearB s 0x62 (some .m) [] [0] &&
      clearB s 0x65 (some .m) [1, 2] [3] && clearB s 0x64 (some .m) [4, 2] [5, 3] && clearB s 0x66 (some .m) [4, 2] [5, 3] &&
      pairOk 4 && s.myCell.pend.isEmpty && !acqPending s s.cur && s.ops.isEmpty && decide (sendUsed s (coreOf s.cur) < 16) &&
      tagFmt (s.look 0).tag == fmtF32 && tagCols (s.look 0).tag == 64 && tagRows (s.look 0).tag == 1 &&
      tagFmt (s.look 1).tag != fmtF32 && fieldN s.me.trCause 40 1 == 0 && s.me.trVec != 0 &&
      !(nextOf (.copy 3) copyState).me.isFull 3) = true := by decide

/-- Banks of cluster 0 serve one access each. -/
def serveBanks (s : State) (l : List Nat) : State := l.foldl (fun s b => after (execSpadBankCycle 0 b s) s) s

/-- A copy that the engine has taken, and that copy in pieces. -/
def copyTaken : State := (fun s => after (execCopyArbRound 0 s) s) (nextOf (.copy 3) copyState)
def copyId : Nat := copyTaken.ops.head?.elim 0 (·.id)
def copyCut : State := after (execCopyStart copyId copyTaken) copyTaken

/-- CopyEvents: a copy that waits for the engine, one that is taken whole, with good arguments and bad. -/
theorem test_meets_CopyEvents : (let s := nextOf (.copy 3) copyState
    (s.ops.filter fun p => coreOf p.ctx == 2 && p.todo != 0 && !stoppedAt s p.ctx).length == 1 &&
      (match findOp copyTaken copyId with
       | some o => o.credit == 64 && o.todo == 0 && !o.started && o.added.isEmpty && copyBadArg copyTaken o == 0 && o.depEn && !o.decDone &&
           copyBadArg copyTaken { o with shape := o.shape.setIfInBounds 2 0 } == 1 &&
           (match cutPieces copyTaken o none with | (_, ps, e) => ps.length == 1 && e.isNone)
       | none => false)) = true := by decide

/-- CopyEvents: a copy cut into a piece that its banks have served, and that may be performed. -/
theorem test_meets_CopyEvents_piece : (let t := serveBanks copyCut [0, 0]
    (match findOp t copyId with
     | some p => (match p.pieces with
       | [q] => !q.performed && !pieceBad t p q && !pieceGone t p q && (pieceBar t p q).isSome && decide (q.o + q.len ≤ p.credit) &&
           copyCut.atBank q.ticket && !t.atBank q.ticket && (pieceSrc p q).all fun l => !locBusy t l
       | _ => false) && p.status.isSome && p.started
     | none => false)) = true := by decide

/-- CopyEvents: a copy whose one piece is performed and counted ends and writes its token, once the cell's cores have acted. -/
theorem test_meets_CopyEvents_finish : (let t := nextOf (.copyPiecePerformed copyId 0) (serveBanks copyCut [0, 0])
    let t := nextOf (.barByteCount (t.posts.head?.elim 0 (·.id))) t
    let t := [0, 1, 2].foldl (fun s k => s.modCore k fun x => { x with cyc := s.time }) t
    (match findOp t copyId with
     | some o => o.status.isSome && o.started && o.pieces.all (fun p => p.performed && p.counted) && o.pieces.length == 1 &&
         (t.ctx o.ctx).tokens.find? (·.2 == copyId) == some (3, copyId) && depVal (setDep t 0 3 1) 0 o.dep == 1 &&
         cellActed t (cellOf o.ctx) && decide ((t.cell 0).depAt ≤ t.time)
     | none => false) && (nextOf (.copyFinish copyId) t).me.isFull 3) = true := by decide

/-- A sounding of one block at 0x20000, all zeros, of a query of 64; the engine has taken it, and the bank with its LIST has served it. -/
def soundTaken : State :=
  let s := (withEngine (tileState 0x64 [(0, mkTag fmtF32 1 64)])).modMe fun x =>
    ((x.setS 4 0xF0000000000000).setS 5 0xF0000000001000).setS 6 (2 ^ 51 + 31 * 2 ^ 17)
  (fun s => after (execCopyArbRound 0 s) s) (nextOf (.sound 3 4 6 0 0 0) (s.modMem fun m => { m with written := [(0x20000, 0x30000)] }))
def soundId : Nat := soundTaken.ops.head?.elim 0 (·.id)

/-- The sounding with its checks done, and its commands sent. -/
def soundStarted : State :=
  let go (s : State) : State := after (execSoundStart soundId s) s
  let s := go (serveBanks (go soundTaken) [0])
  after (execCopyArbRound 0 s) s

/-- SoundEvents: a sounding whose arguments are good or bad, and whose checks pass. -/
theorem test_meets_SoundEvents_start : (let s := serveBanks (nextOf (.soundStart soundId) soundTaken) [0]
    (match findOp s soundId with
     | some o => o.credit == 64 && !o.started && o.ticket.any (fun q => !s.atBank q) && sndArgs o == 0 &&
         sndArgs { o with args := [0, 0, 0] } == 1 &&
         (match soundChecks s o, soundChecks s { o with args := [0, 0, 0] } with
          | (_, .ok q), (_, .error (some _)) => q.banks.length == 1
          | _, _ => false)
     | none => false)) = true := by decide

/-- SoundEvents: its bank waits, and its command arrives there first. -/
theorem test_meets_SoundEvents_query : (let s := soundStarted
    let q := nextOf (.qbcast soundId 0) s
    (match bankAt s soundId 0, bankAt q soundId 0 with
     | some (o, b), some (p, c) => b.phase == .waiting && b.arr.isNone && decide (64 ≤ o.credit) && !soundBlocked s o b.bank &&
         c.phase == .waiting && c.arr.isSome && (q.ops.all fun p => p.banks.all fun c => !c.holds) && p.banks.length == 1 &&
         arrivals q c.bank == [c.arr.getD 0]
     | _, _ => false)) = true := by decide

/-- SoundEvents: the bank has the query, is in its SID's turn, and scans to the end; then it returns its fix. -/
theorem test_meets_SoundEvents_scan : (let q := nextOf (.qbcast soundId 0) (nextOf (.qbcast soundId 0) soundStarted)
    let n := nextOf (.scan soundId 0) q
    (match bankAt q soundId 0, bankAt n soundId 0 with
     | some (o, c), some (_, d) => c.phase == .queried && decide (64 * (2 * o.banks.length + 1) ≤ o.credit) && (sidTurn q c.bank).isSome &&
         d.phase == .scanned && (sidTurn (q.modDev fun v => { v with sidAct := Map.put v.sidAct (pchOf c.bank) 1 }) c.bank).isSome
     | _, _ => false)) = true := by decide

/-- SoundEvents: a yielded scan; the record of the last bank, whose turns at its banks have come, ends the sounding. -/
theorem test_meets_SoundEvents_record : (let q := nextOf (.qbcast soundId 0) (nextOf (.qbcast soundId 0) soundStarted)
    let f := serveBanks (nextOf (.fixrd soundId 0) (nextOf (.scan soundId 0) q)) [0, 1, 2, 3, 4]
    (match bankAt f soundId 0 with
     | some (o, e) => e.phase == .returned && !f.atBank e.ticket && o.banks.length == 1 &&
         (match bankAt (putBank f o 0 { e with phase := .yielded }) soundId 0 with | some (_, y) => y.phase == .yielded | none => false)
     | none => false) && (nextOf (.fixRecordWrite soundId 0) f).me.isFull 3 &&
      (nextOf (.hbmRefresh 2 1) f).dev.refresh == [2]) = true := by decide

/-- SoundEvents: a fill of a good header, and its end at the bank. -/
theorem test_meets_SoundEvents_fill : (let s := withEngine ((tileState 0x65 []).modMe fun x => (x.setS 1 0x20000).setS 2 32)
    let s := s.modMem fun m => { m with written := [(0x20000, 0x20040)] }
    let s := nextOf (.copyArbRound 0) (nextOf (.sndfill 3 1 2) s)
    let id := s.ops.head?.elim 0 (·.id)
    let t := nextOf (.sndfillAtHome id) s
    (match findOp s id, findOp t id with
     | some o, some p => o.credit != 0 && o.hdrNew.isNone && fieldN (o.arg 0) 0 6 == 0 && fieldN (o.arg 0) 56 8 == 0 &&
         decide ((o.arg 1).toNat ≤ 32) &&
         (match translateEng s o.ctx o.id .atomic (o.arg 0) with
          | (s1, .ok x) => blockPa s1 x.loc 8 == some 0x20000 && !fillEarlier s o (hbmBank (paLocal 0x20000)).1 &&
              (let u := touchHome s1 x.loc x.pl 0 x.uc
               !poisoned u (.mem 0x20000) && hdrOk (readMem u 0x20000) && (keyMat u (paKey 0x20000)).isSome &&
                 (Map.find u.mem.slines (0x20000 / 64)).isSome)
          | _ => false) && p.hdrNew.isSome && !fillwBlocked t p p.hdrPa && t.dev.mscSize == 0
     | _, _ => false) && (nextOf (.fillw id) t).me.isFull 3) = true := by decide

/-! ### System requests, launches, the host -/

/-- A context of the launch of cell 0: s1 and s2 as given. -/
def sysState (op : Nat) (a b : Word) : State :=
  withLaunch ((tileState op []).modMe fun x => (x.setS 1 a).setS 2 b)

/-- SystemRequests: mailboxes empty and with a word, a request not yet and already done, way counts, and record addresses. -/
theorem test_meets_SystemRequests : (let s := sysState 0x77 16 64
    let m := s.modMe fun x => { x with mbox := [(7, 0)] }
    let d := s.modMe fun x => { x with block := .tlbinvDone }
    let g := s.modMe fun x => { x with block := .cachecfgDone 3 }
    let w := s.modCluster 0 fun k => { k with busy := true }
    clearB s 0x77 none [1, 2] [3] && clearB s 0x78 none [1, 2] [] && clearB s 0x79 none [1] [3] && clearB s 0x7A none [2] [3] &&
      decide (sendUsed s (coreOf s.cur) < 16) && s.me.mbox.isEmpty && m.me.mbox.length == 1 && s.me.block == .none &&
      d.me.block == .tlbinvDone && g.me.block == .cachecfgDone 3 && (s.me.reg 1).toNat == 16 && coversWhole s 0 &&
      !coversWhole (tileState 0x79 []) 0 && !(s.cluster 0).busy && (w.cluster 0).busy && (s.cluster 0).conv != 16 &&
      (s.me.reg 2).toNat % 64 == 0 && (s.me.reg 1).toNat % 64 != 0 && drained s s.cur && s.me.failed.isEmpty &&
      fieldN s.me.trCause 40 1 == 0 && s.me.trVec != 0) = true := by decide

/-- SystemEvents: a word on its way to a mailbox with room and to a full one, and a reply on its way back. -/
theorem test_meets_SystemEvents_mailbox : (let s := sysState 0x77 1 7
    let t := nextOf (.mboxSend 3 1 2) s
    let id := t.mboxes.head?.elim 0 (·.id)
    let r := nextOf (.mboxArrival id) t
    let f := t.modCtx 1 fun x => { x with mbox := [(1, 0), (2, 0), (3, 0), (4, 0)] }
    (match t.mboxes.find? (·.id == id), r.mboxes.find? (·.id == id) with
     | some m, some n => m.status.isNone && fieldN m.target 17 47 == 0 && fieldN m.target 16 1 == 0 &&
         (coveredCells t 0).contains (fieldN m.target 6 10) && fieldN m.target 4 2 != 3 && decide (fieldN m.target 0 4 ≤ 10) &&
         !cellPreempted t (placeCell t 0 (fieldN m.target 6 10)) && n.status == some 0 && n.dest == 3 &&
         (r.ctx n.sender).isBusy 3 && !mboxBehind t m false && !mboxBehind r n true
     | _, _ => false) && (f.ctx 1).mbox.length == 4 && (t.ctx 1).mbox.length == 0) = true := by decide

/-- SystemEvents: an invalidation that is ready, a way conversion in progress, and a launch request. -/
theorem test_meets_SystemEvents_waits : (let s := sysState 0x78 0x10000 1
    let t := nextOf (.tlbinvRange 1 2) s
    let c := nextOf (.cachecfg 3 1) (sysState 0x79 16 0)
    let l := nextOf (.launch 3 1) (sysState 0x7A 0xF0000000000000 0)
    (match (t.ctx 0).block with
     | .tlbinv lo hi ws => invReady t (launchPlaces t 0) lo hi && lo == 0x10000 && hi == 0x10001 && ws.isEmpty
     | _ => false) && (t.core 0).itlb.length == 1 && (c.cluster 0).cfgCtx == some 0 && (c.ctx 0).block == .cachecfg 0 &&
      (c.cluster 0).cfgWait.isEmpty && decide (0 < (c.cluster 0).cfgNew) && !waysHeld (emptyWays c 0 0) 0 0 && l.reqs.length == 1 &&
      (l.reqs.head?.elim false fun r => r.status.isNone && (match engAccess l r.ctx r.id .read r.va with
        | (z, .ok x) => !locBusy z x.loc
        | _ => false))) = true := by decide

/-- SystemEvents: a mailbox in a cell whose launch is being pre-empted and whose contexts have stopped; a launch request whose record
has no mapping in the windows. -/
theorem test_meets_SystemEvents_others : (let s := sysState 0x77 1 7
    let g := (s.modHost fun h => { h with launches := [(1, { oneLaunch with stopping := true })] }).modCtx 0 fun x =>
      { x with stat := .halted, held := true }
    let l := nextOf (.launch 3 1) (sysState 0x7A 0xF0000000800000 0)
    let q := l.reqs.head?
    !cellPreempted s 0 && cellPreempted ([11, 22].foldl (fun s c => s.modCtx c fun x => { x with stat := .halted }) g) 0 &&
      q.any (fun r => (match engAccess l r.ctx r.id .read r.va with
        | (_, .fault f) => f.cause == fcNotMapped
        | _ => false) && (l.ctx r.ctx).tokens.find? (·.2 == r.id) == some (3, r.id))) = true := by decide

/-- A machine with process 1 of function 0 bound to queue 0, its code at 0x10000, and a record for cell 0 and one stage but for
its last word. -/
def hostState : State :=
  let p : Proc := { vf := 0, asid := 0, ptRoot := 0, codeBase := 0x10000, codeSize := 65536, manPa := 0x50000, manCount := 0,
                    manCopy := 0x60000, logPa := 0x70000, lbSlots := 0, frames := [], bin := [], shared := false, held := [] }
  let words : Vector Word 8 := #v[0, 0, 2 ^ 48 + 2 ^ 32 + 2 ^ 16, 0, 0, 2 ^ 32, 77, 0]
  let s := (probe 0).modHost fun h => { h with procs := [(1, p)] }
  s.setQueue 0 0 { s.queue 0 0 with proc := some 1, slot := words }

/-- LaunchEvents: a good record, a bad one, and a full queue. -/
theorem test_meets_LaunchEvents_record : (let s := hostState
    let q := s.queue 0 0
    let f := s.setQueue 0 0 { q with recs := List.range 16 }
    q.proc == some 1 && (s.proc 1).isSome && q.recs.isEmpty && (f.queue 0 0).recs.length == 16 &&
      (match s.proc 1 with
       | some p => recWhy s p (q.slot.setIfInBounds 7 9).toList == 0 && recWhy s p (List.replicate 8 0) == 2
       | none => false)) = true := by decide

/-- LaunchEvents: an accepted record that may start, a cell whose WAKE waits, and a cell whose part may end. -/
theorem test_meets_LaunchEvents_start : (let s := nextOf (.hostLaunchRecord 0 0 9) hostState
    let t := nextOf (.launchRecordStart 0 0) s
    let w := nextOf (.wake 0) t
    let d := ((List.range 33).filter fun i => i % 11 == 0).foldl (fun s c => s.modCtx c fun x => { x with stat := .halted }) w
    (match (s.queue 0 0).recs with
     | [id] => (match Map.find s.host.launches id with
       | some l => l.id == id && l.proc == 1 && l.cells == [0] && s.dev.hot.isEmpty && s.dev.failed.isEmpty &&
           nextQueue s 1 == some 0 && (waitingHeads s).all (fun h => !outranks s h l) && !clustersTaken s l && !(s.cluster 0).fenced && !(s.cluster 0).fencing && (t.cell 0).launch.isNone &&
           (t.cell 0).wakes == [id] && !earlierLaunch t l 0 && (launchOf d 0).isSome && partDone d 0 && lastInCluster l 0 &&
           !waysBusy d 0 0x400000 && (d.cell 0).log.isEmpty && (w.ctx 22).pc == 0x10000 && (w.ctx 22).reg 1 == 77
       | none => false)
     | _ => false)) = true := by decide

/-- HostPortEvents: accesses inside memory and outside it. -/
theorem test_meets_HostPortEvents_access : (let s := probe 0
    hostAddr s 0 0x20000 == some 0x20000 && hostRange s 0 0x20004 4 && !hostRange s 0 (2 ^ 44) 8 &&
      keyMat s (paKey 0x20000) == some 1 && (touched 0x20000 8).all (fun a => !poisoned s (.mem a)) && s.host.replay.isEmpty) = true := by decide

/-- Two bytes that the host writes into a word (R131). -/
theorem test_host_write : (let s := (probe 0).modMem fun m => { m with written := [(0x20000, 0x20040)] }
    readMem (nextOf (.hostApertureWrite 0 0 0x20006 [1, 2]) s) 0x20000 == 0x0201000000000000) = true := by decide

/-- HostPortEvents: an extent that the device has, an address range for a new one, and a mark on its way. -/
theorem test_meets_HostPortEvents_extent : (let s := nextOf (.extentAdd 0x040000000000 4096) (probe 0)
    let t := nextOf .markInEdge s
    hasExtent s 0x040000000000 4096 && isCxl 0x040000001000 && isCxl 0x040000001FFF && s.dev.marking.isEmpty &&
      s.mem.extents.all (fun e => decide (e.base + e.len ≤ 0x040000001000)) && !extentBusy s 0x040000000000 4096 && s.mem.slines.isEmpty &&
      extentBusy { s with accs := [⟨1, 0, .mem 0x040000000000, 0, .read, false, 0, 3, 8, 0, false, false, 0, none, none, 0, .sent, 0, 0, []⟩] }
        0x040000000000 4096 && t.dev.marking.contains 1968) = true := by decide

/-- A machine whose launch has just begun in cell 0, its contexts as WAKE leaves them. -/
def runState : State :=
  let a := { hostState with turns := [] }
  let b := after (execHostLaunchRecord 0 0 9 a) a
  let c := after (execLaunchRecordStart 0 0 b) b
  after (execWake 0 c) c

/-- The same with its contexts stopped for a pre-emption. -/
def stoppedState : State :=
  [0, 11, 22].foldl (fun s c => s.modCtx c fun x => { x with stat := .halted, held := true }) runState

/-- PreemptEvents: a launch whose contexts have stopped, and one whose contexts still run. -/
theorem test_meets_PreemptEvents_launch : (let s := stoppedState
    let r := runState
    (match s.host.launches with
     | [(id, l)] => l.id == id && canPreempt s l && l.stat == .running && runningCells s l == [0] && (s.ctx 0).pendTrap.isEmpty &&
         !canPreempt r l && ((s.host.launches.filter fun e => e.2.vf == 0 && e.2.stat == .running).map (·.1)) == [id] &&
         s.host.saves.isEmpty && ((nextOf (.preemptRequest id) r).host.launches.map fun e => e.2.stopping) == [true]
     | _ => false)) = true := by decide

/-- PreemptEvents: a pre-empted launch that may be resumed, its context 0 ELIGIBLE in its image and HALTED meanwhile (R371); a replay. -/
theorem test_meets_PreemptEvents_resume : (let s := stoppedState
    (match s.host.launches with
     | [(id, _)] =>
       let t := nextOf (.preemptRequest id) s
       let r := s.modHost fun h => { h with replayed := [0] }
       r.host.replayed.contains 0 && !s.host.replayed.contains 0 && (t.ctx 0).stat == .halted && (t.ctx 1).stat == .free &&
         (match Map.find t.host.launches id, Map.find t.host.images id with
          | some m, some img => m.stat == .preempted && img.cells.map (·.1) == [0] && (t.proc m.proc).isSome &&
              placeOk t m [(0, 5)] && (Map.find img.ctxs 0).any fun x => x.stat == .eligible
          | _, _ => false)
     | _ => false)) = true := by decide

/-- PreemptEvents: units that no function uses, one that has failed, and a context that has stopped. -/
theorem test_meets_PreemptEvents_units : (let s := probe 0
    let t := nextOf (.hardwareFault (.cluster 9)) s
    let b := s.modCtx 0 fun x => { x with stat := .halted, bkHit := true }
    ((List.range 33).all fun v => !usesUnit s v (.cluster 9)) && t.dev.failed.contains (.cluster 9) &&
      (ctxsOfCell 0).any (stoppedAt b) && (nextOf (.hwfaultRecovery (.cluster 9)) t).dev.failed.isEmpty) = true := by decide

/-- A key whose exponent is 1: what it signs stands in the signature as it is. -/
def testKey : SignKey := { der := [0x30], modulus := 2 ^ 3072 - 1, exponent := 1 }

/-- The signature section of an image of no bytes under that key: the key's digest, the PSS encoding with a salt of zeros, zeros (R387; made
with another implementation of SHA-256). -/
def signedNothing : List Byte :=
  beBytes 448 (0x5feceb66ffc86f38d952786c6d696c79c2dbc239dd4e91b46729d73a27fb57e9363d507a7abca18fd05d02dc28a8568cb51eedb248252d0bc73389d48c123e32154ed077fcfec09842676a3b2b6f4579ff31cbd215334aea2b2f460da0d9329ab96c6621f037b19e48ce889a7386a2ca7a783731608f8782d14fcc5d6a089d9832003027184a204cab2293b928f90223ca6e7f3428ca925d68b02a2124126d0908165203062b525284b6ba69e3c892b764df0f34d4f0d9336e77e476781e5a282583c7759d6fb6dd7f329dee7bdbe3a0eb0fd45bd69e807a70f6de80437fbe99e8bbfd327ccc92e91c9f5559a029b1b5f2ef07dc998de00dcfbc91b04998bdb2e275b109582be9e535df0c20af128002e45ad01b1400830773d86c31050ef12ae4b70e3d75c9de544d7b0de6feb98ff14b11f73594abf11432e09219767e144bbf959b1173ca13311ea28297003a7b9add6f4896ddc15a4a26e2742e3e30c9065593ea0d81c1e077a9a124ec58e20c447e5507faf5fd3abfc1314de88f73e1587c0075da5b7c15d6d7df599bb9c402baf9f3af3e5513d6facedb999ea13db1bc0000000000000000000000000000000000000000000000000000000000000000)

/-- The signature section of the binary below. -/
def tinySignature : List Byte :=
  beBytes 448 (0x5feceb66ffc86f38d952786c6d696c79c2dbc239dd4e91b46729d73a27fb57e974ff426b4382a7489daa0ae1892dcf5362dc55425bc9856598bf19e3976ea934f74070265704e72b06223ccb30f0590df0006740312f38eca40ce8818e7e8678f6fea08ff9ec7f41dbd636e4003bf319be86b237f04179fe79cf07eab3db420fb87fa4cd3709914677f7c74116a9688907fe6f66803245477661e79e95d9b6fd30990711fd2788980b6f3e0b5d0950ccf95b427b60bb52fbdf7a0d087c1674a5612a138ac458c5fb819c9bc8ea0b84f11a08a05c20ed5e9551117cbb86a07dffddfee291f2e54f123b17eeb6bc14278439248bb2feef30084fdbfeeb77b3c1930a13abc9d582a711d27173d3048959140dacaf00f1150950eb1f17d9b8bb3d146d15e81b32aa8781e6a9a0b1a5c2886e0c27a1304e36c6b52bc2d49925bf263c9ba06295aa9f0aee84ba2b65394a38e35c2c185ae5bce9a8dc1d42f72c41e84309096e201f12ec1cf97212b4e786a218088f14f1bd200603a69e2f7ff7fd2b030c72ec72c37114b78b852ad4f53bd0a6fc6be80bb354e539ec6647feb6e4edbc0000000000000000000000000000000000000000000000000000000000000000)

/-- A binary of one code word and nothing else, signed with the key of the tests (R380, R387). -/
def tinyBinary : List Byte :=
  let row (k off size : Nat) : List Byte := leBytes 4 k ++ leBytes 4 0 ++ leBytes 8 off ++ leBytes 8 size ++ leBytes 8 0
  leBytes 8 0x5759096042494E01 ++ leBytes 4 1 ++ leBytes 4 0 ++ leBytes 4 4 ++ List.replicate 44 0 ++
    (row 1 192 4 ++ row 3 256 0 ++ row 4 256 0 ++ row 6 256 448) ++ List.replicate 64 0 ++ tinySignature

/-- ServiceEvents: a file that fails a check and a module that is ready. -/
theorem test_meets_ServiceEvents_reject : (let s := nextOf (.powerOn 0 0 ⟨[(0, 1)], [], signedNothing⟩) (State.reset.modDev fun d => { d with fwKeys := [testKey] })
    s.dev.ready && s.host.procs.isEmpty && loadCode s 0 [] == 1 && !State.reset.dev.ready && !State.reset.dev.off) = true := by decide

/-- ServiceEvents: where the hypervisor trusts the key, the small binary passes. -/
theorem test_meets_ServiceEvents_load :
    loadCode (State.reset.modHost fun h => { h with signKeys := [testKey] }) 0 tinyBinary = 0 := by decide +kernel

/-- ServiceEvents: no frames to place it in. -/
theorem test_meets_ServiceEvents_noframes :
    ((match planPages State.reset 0x40000 tinyBinary ⟨0, 2, [], 0x10000, [], 0, 0, 0⟩ with | .error .short => true | _ => false) &&
      (match planPages State.reset 0x40000 tinyBinary ⟨0, 2, [4], 0, [], 0, 0, 0⟩ with | .error .barred => true | _ => false)) = true := by
  decide +kernel

/-- A process with a table at 0x40000 that maps the page at 0x20000, and one manifest entry of 64 KiB. -/
def tableState : State :=
  let s := hostState
  let s := s.modHost fun h => { h with procs := h.procs.map fun e =>
    (e.1, { e.2 with ptRoot := 0x40000, manCount := 1, manPa := 0x50000, frames := [9, 10, 11] }) }
  let s := s.modCell 0 fun x => { x with ptRoot := 0x40000 }
  let ram := (((s.mem.ram.setWord 0x40000 (8 * 2 ^ 11 + 1)).setWord 0x80000 (12 * 2 ^ 11 + 1)).setWord 0xC0010 (6 * 2 ^ 11 + 0xF))
  s.modMem fun m => { m with ram := (ram.setWord 0x50008 65536).setWord 0x50010 3, written := [(0, 2 ^ 24)] }

/-- ServiceEvents: a manifest entry that moves to free frames, and a page that migrates. -/
theorem test_meets_ServiceEvents_move : (let s := tableState
    (match s.proc 1 with
     | some p =>
       let e := (List.range 8).map fun j => readMem s (p.manPa + 8 * j)
       s.host.launches.isEmpty && (readMem s (p.manPa + 8)).toNat == 65536 && keyMat s (paKey p.manPa) == some 1 &&
         (match takePages s p.ptRoot p.frames 0x30000 65536 (resLeaf e) with
          | .ok (pg, fr) => (match mapPages s p.ptRoot pg fr with | .ok _ => true | .error _ => false) &&
              !rangeUsed s p.ptRoot 0x30000 (pagesFor 65536).1 (pagesFor 65536).2
          | .error _ => false) &&
         (match leafWord s p.ptRoot 0x20000 3 (ptRootAddr p.ptRoot) with
          | some (pa, w) => pa == 0xC0010 && (leafPa s p.ptRoot w) == some 0x60000 &&
              (leafPa s p.ptRoot (setField w 11 29 13)).isSome && invReady s (procCells s p.ptRoot) 0x20000 0x30000
          | none => false)
     | none => false)) = true := by decide

/-- ServiceEvents: words of HBM, launches none of which runs, a link that is not recalibrated, and keys to boot with. -/
theorem test_meets_ServiceEvents_rest : (let s := State.reset
    isHbm s (0x20004 / 8 * 8 % 2 ^ 45) && 0x20004 / 8 * 8 / 2 ^ 45 == s.dev.devno && s.host.launches.isEmpty &&
      (Map.find s.dev.recal 3).isNone && decide (([(0, 1), (63, 2)].map (·.1) : List Nat).Nodup)) = true := by decide


/-- CleanHomes (TileLoads, HostPortEvents): no slice holds a dirty word. -/
theorem test_meets_CleanHomes : CleanHomes (probe 0) := by
  refine ⟨by decide, fun tag l h => ?_⟩
  rw [show (probe 0).mem.slines = [] from by decide] at h
  exact absurd h (by simp [Map.find])

/-! ### Corners that the rules name -/

/-- `eret` with all ones in TRWAY and TRLOOP: the reserved bits of WAYPT and LOOPSL read 0 (R16, R212, R265). -/
theorem test_eret_reserved : (let s := (probe 0xE6000000).modMe fun x =>
      { x with trCause := 2 ^ 40, trWay := .allOnes 64, trLoop := .allOnes 64 }
    let t := nextOf .eret s
    t.me.waypt == 0xF80000000000FFFF && t.me.loopSl == 0x3FFFFFF) = true := by decide

/-- `helpres` of 2^64 - 1 and 1 does not wrap to 0 (R271). -/
theorem test_helpres_wide : (let s := (probeRegs 0x6E000000 [(1, .allOnes 64)]).modMe fun x => { x with trVec := 0x30000 }
    fieldN (nextOf (.helpres 3 1 1) s).me.trCause 0 8 == tcTaskArg) = true := by decide

/-- The sum of one NaN is the canonical NaN (R156). -/
theorem test_sum_of_one_nan : reduceLine .add fmtF32 .rne [0x7FC00001] = 0x7FC00000 := by decide

/-- A matrix instruction leaves an armed waypoint (R328), and a plain one consumes it (R216). -/
theorem test_matrix_keeps_arm : (let s := (matrixState 0x5B).modMe fun x => { x with waypt := setField 0 59 1 1 }
    fieldN (nextOf (.azero 12) s).me.waypt 59 1 == 1 && fieldN (nextOf .nop s).me.waypt 59 1 == 0) = true := by decide

/-- A store of one byte joins its byte to the word of a present line at once (R47, R102). -/
theorem test_partial_store : (let s := (memState 0x20000).modCore 0 fun k =>
      { k with dcache := [(0x20000 / 64, { words := Vector.replicate 8 5, valid := 0xFF, owned := 0 })] }
    cacheWord s 0 (.mem 0x20000) == some 5 && cacheWord (nextOf (.st1 2 1 0) (s.modMe fun x => x.setS 1 0x20003)) 0 (.mem 0x20000) ==
      some 0x88000005) = true := by decide

/-! ### Witnesses of further clauses -/

/-- HintsJoin: a seventh hint drops the first of the six that the latch holds. -/
theorem test_meets_HintsJoin_six : (let s := (probe 0xFE000001).modMe fun x =>
      { x with arrived := false, ignoring := false, hints := (List.range 6).map fun i => ⟨.ofNat 64 i, .mod 0⟩ }
    let t := nextOf (.hintImm 9) s
    t.me.hints.length == 6 && (t.me.hints.head?.map (·.pc)) == some 1) = true := by decide

/-- A cell with an entry of slot 3 that is not being fetched. -/
def logState (e : LogEntry) : State := (probe 0x50000000).modCell 0 fun x => { x with winLen := 16 * 2 ^ 32, log := [e] }

/-- LogbookReaders: events that agree with an entry, clash with it, fill it, and find another kind at its home; a branch and a load that are
bound to its slot, and the exit of a bound loop. -/
theorem test_meets_LogbookReaders_events : (let e : LogEntry := ⟨3, false, SlotVal.cold, SlotVal.cold, 0, []⟩
    let d : SlotVal := { SlotVal.cold with kind := 2 }
    let s := logState e
    let u := logState { e with delta := d, ev := 1 }
    let f := logState { e with ev := 4095 }
    let b := nextOf (.hintLog 3) s
    let l := { s with accs := (nextOf (.ld8 3 1 0) (memState 0x20000)).accs.map fun (a : Acc) => { a with slot := some 3 } }
    let z := s.modMe fun x => { x with loopSl := 2 ^ 25 + 2 ^ 24 + 3, loopPc := setField 0 32 32 (wordOff s 0 x.pc), loopCnt := 5 * 2 ^ 32 + 1 }
    decide (3 < fieldN (s.cell 0).winLen 32 27) && (s.cell 0).logQ.isEmpty && ((s.cell 0).log.find? (·.slot == 3)) == some e &&
      (LogEvent.branch true).kind == 1 && u.cells != s.cells && (f.cell 0).log.all (fun e => e.ev + 1 == 4096) &&
      logSlot b 0 == some 3 && clearB b 0x28 none [1] [] && l.accs.all (fun a => a.slot == some 3 && a.exitEv.isNone && a.op == .read) &&
      fieldN z.me.loopSl 25 1 == 1 && wordOff z 0 z.me.pc == fieldN z.me.loopPc 32 32 && fieldN z.me.loopCnt 0 32 == 1 &&
      fieldN z.me.loopSl 24 1 == 1 && ((nextOf .nop z).cell 0).log.all (fun e => e.delta.kind == 3 && e.delta.h == 5)) = true := by decide

/-- RepliesAndEntry: STOP to a context of a launch that has not failed. -/
theorem test_meets_RepliesAndEntry_stop : (let f : FaultWait := ⟨7, 1, 0x20000, 0, 0x10000, false, 0⟩
    let s := withLaunch ((probe 0).modMe fun x => { x with stat := .parked, faultWait := some f })
    faultWaiter s 0 7 == some (0, f) && (launchOf s 0).any (fun l => l.fail.isNone) && fieldN (4 * 7 + 2) 0 2 == 2 &&
      ((Map.find (nextOf (.faultReply 0 (4 * 7 + 2)) s).host.launches 1).bind (·.fail)) == some (tcMemfault, 1, 0)) = true := by decide

/-- BankServes: an access of the forfeit queue, and a load and a store of another cluster at the head of the engine queue. -/
theorem test_meets_BankServes_queues : (let s := nextOf (.ld8 3 1 0) (memState 0xF0000000000000)
    let k := Map.at (s.cluster 0).banks 0 Bank.reset
    let w (b : Bank) : State := (s.modCluster 0 fun c => { c with banks := Map.put c.banks 0 b }).modCtx 33 fun x =>
      { x with spadReq := some { cluster := 0, phys := 64, op := .read, result := none } }
    let f := w { k with forfeit := [⟨33, 64, .write 5 255⟩] }
    let a (op : WordOp) : State := { (w { k with engine := [9] }) with
      accs := [⟨9, 600, .spad 0 64, 0xF0000000000040, op, false, 0, 3, 8, 0, false, false, 0, none, none, 0, .sent, 0, 0, []⟩] }
    let l := (a .read).modCtx 600 fun x => { x with busy := 8 }
    !poisoned f (.spad 0 64) && k.engine.isEmpty && k.present.length == 1 &&
      ((nextOf (.spadBankCycle 0 0) f).cluster 0).spad.word 64 == 5 && (l.ctx 600).isBusy 3 && ((nextOf (.spadBankCycle 0 0) l).ctx 600).isFull 3 &&
      ((nextOf (.spadBankCycle 0 0) (a (.write 6 255))).cluster 0).spad.word 64 == 6) = true := by decide

/-- TaskEvents: a task that ends, of its own cell and of another, and a mutex that its context holds. -/
theorem test_meets_TaskEvents_task : (let q (n : Nat) : TaskInfo := ⟨1, n, 5, true, 0, 0, 0, 0, false, some 1⟩
    let s (n : Nat) := (withLaunch (taskState.modMe fun x => { x with task := some (q n) })).modCell 0 fun x => { x with mtx := [(2, 0)] }
    let t := setDep (s 0) 0 5 3
    placeCell t 0 0 == 0 && placeCell (s 1) 0 1 == 1 && clearB t 0x34 none [] [] && engineIdle t 0 && drained t 0 && t.me.failed.isEmpty &&
      t.me.stat == .eligible && Map.find t.myCell.mtx 2 == some 0 && (firstParked t 0 .mutex 2).isNone && depVal t 0 5 == 3 &&
      depVal (nextOf .retire t) 0 5 == 2 && (nextOf .retire (s 1)).depMsgs.map (fun m => (m.cell, m.dep)) == [(1, 5)]) = true := by decide

/-- Fences: a dirty line of HBM with a write of the context. -/
theorem test_meets_Fences_lines : (let s := (memState 0x20000).modMem fun m =>
      { m with slines := [(0x20000 / 64, { slice := 0, set := 0, way := 0, words := Vector.replicate 8 5, dirty := 1, writers := [(0, 0)] })] }
    coveredLines s s.cur 1 == [0x20000 / 64] && drained s s.cur &&
      (nextOf (.fenceX 1 32) s).me.block == .writebacks [0x20000 / 64]) = true := by decide

/-- TileLoads: a gathered row whose address is not aligned, and a word with an uncorrectable error. -/
theorem test_meets_TileLoads_traps : (let s := ((tileMemState 0x44 0x20000).modMem fun m => { m with written := [(0x20000, 0x30000)] })
    let g := s.modCell 0 fun x => { x with tiles := x.tiles.map fun e => if e.1 = 1 then (1, { e.2 with data := [(0, 2)] }) else e }
    let p := (tileMemState 0x41 0x20000).modMem fun m => { m with poison := [0x20000], written := [(0x20000, 0x30000)] }
    loadsB g (.tgath 0 1 1 0 0) 0x44 (fun | some (.misalign _) => true | _ => false) &&
      (match tileLoadForm p (.tld 0 1 0 0 0) with
       | some f =>
         let z := unitsXlat (f.base.note p) false .read none (unitsFrom f.units 0)
         (readUnits (banksDone z.1) (p.look 0) f.how f.trans z.2.1).2.2.map (·.1) == some 0 && z.2.2.isNone
       | none => false)) = true := by decide

/-- TileStores: a store whose second row faults, and a chart load with an uncorrectable error. -/
theorem test_meets_TileStores_stop : (let s := (tileMemState 0x42 0x2FFF8).modMe fun x => x.setS 2 8
    let b := tmBase s 1 0 0
    let v := s.look 0
    let pitch := tmPitch s 2 (tagRowBytes v.tag)
    let s := s.modCore 2 fun k => { k with dtlb := k.dtlb ++ [{ vf := 0, asid := 0, vpn := 3, level := 3, leaf := 3 * 2 ^ 11 + 7 }] }
    let l := unitsFrom (tileUnits s b .write v.tag pitch) 0
    let z := unitsXlat (b.note s) false .write none l
    let c := (withLaunch (tileMemState 0x68 0xF2000000000000)).modMem fun m => { m with cpoison := [0] }
    let us := tileUnits c (tmBase c 1 0 0) .read v.tag (tagRowBytes v.tag)
    let y := unitsXlat c false .read none ((List.range us.length).zip us)
    (match z.2.2 with | some (1, .fault f) => f.cause == fcPerm | _ => false) && z.2.1.map (·.1) == [0] &&
      (readUnits y.1 v .bank false y.2.1).2.2.map (·.1) == some 0) = true := by decide

/-- SoundEvents: a fill of a block in the scratchpad. -/
theorem test_meets_SoundEvents_place : (let s := withEngine ((tileState 0x65 []).modMe fun x => (x.setS 1 0xF0000000000000).setS 2 32)
    let s := nextOf (.copyArbRound 0) (nextOf (.sndfill 3 1 2) s)
    let id := s.ops.head?.elim 0 (·.id)
    (match findOp s id with
     | some o => o.credit != 0 && (match translateEng s o.ctx o.id .atomic (o.arg 0) with
       | (s1, .ok x) => (blockPa s1 x.loc 8).isNone
       | _ => false)
     | none => false) && (nextOf (.sndfillAtHome id) s).me.reg 3 == .ofNat 64 (sndStatus 3 5 0 1 0).toNat) = true := by decide

/-- SystemEvents: an earlier launch request of the core in the same lane. -/
theorem test_meets_SystemEvents_lane : (let s := nextOf (.launch 3 1) (sysState 0x7A 0xF0000000000000 0)
    let r := s.reqs.head?
    r.any (fun r => let u := { s with reqs := s.reqs ++ [{ r with id := r.id + 1 }] }
      reqBehind u { r with id := r.id + 1 } false && !reqBehind u r false &&
        nextOf (.launchTokenComplete (r.id + 1)) u == u)) = true := by decide

/-- LaunchEvents: a record that waits for cells which a launch of a lower class has. -/
theorem test_meets_LaunchEvents_class : (let s := nextOf (.hostLaunchRecord 0 0 9) hostState
    let low : Launch := { oneLaunch with id := 50, vf := 3, proc := 7 }
    let s := s.modHost fun h => { h with classes := [(0, 0), (3, 2)], launches := h.launches ++ [(50, low)] }
    (match (s.queue 0 0).recs with
     | [id] => (match Map.find s.host.launches id with
       | some l => l.id == id && clustersTaken s l && (waitingHeads s).all (fun h => !outranks s h l) && nextQueue s l.proc == some 0 &&
           (blockers s l).map (·.id) == [50] && sliceClass s 0 < sliceClass s 3 && Map.find s.host.launches 50 == some low &&
           ((Map.find (nextOf (.launchRecordStart 0 0) s).host.launches 50).map (·.stopping)) == some true
       | none => false)
     | _ => false)) = true := by decide

/-- HostPortEvents: a write of several words, a window's registers, an AtomicOp, a dirty line that an extent loses, and a session. -/
theorem test_meets_HostPortEvents_more : (let s := (probe 0).modMem fun m => { m with written := [(0x20000, 0x20040)] }
    let w := nextOf (.hostApertureWrite 0 0 0x20006 ((List.range 12).map (.ofNat 8 ·))) s
    let c := nextOf (.hostAtomicop 0 0 0x20004 4 .cas 7 0) s
    let x := (nextOf (.extentAdd 0x040000000000 4096) (probe 0)).modMem fun m =>
      { m with slines := [(0x040000000000 / 64, { slice := 0, set := 0, way := 0, words := Vector.replicate 8 5, dirty := 1, writers := [] })] }
    let y := nextOf (.extentForcedRemoval 0x040000000000 4096) x
    hostRange s 0 0x20006 12 && (touched 0x20006 12).length == 3 && s.ops.isEmpty && s.host.logs.isEmpty && s.host.replay.isEmpty &&
      readMem w 0x20008 == 0x0908070605040302 && readMem c 0x20000 == 7 * 2 ^ 32 && hasExtent x 0x040000000000 4096 && x.accs.isEmpty &&
      y.host.out == [.extentLost 0x040000000000 4096 1] && y.mem.poison.contains 0x040000000000 &&
      (Map.find (nextOf (.profileSessionOpen 3 [(0, [(16, 0)])]) s).host.events (3 * 2048)).isSome) = true := by decide

/-- HostPortEvents: the bytes of a record's last word complete it, and QSTAT counts it (R408, R409). -/
theorem test_record_bytes : (let s := nextOf (.hostApertureWrite 0 16 0x38 (leBytes 8 9)) hostState
    (s.queue 0 0).recs.length == 1 && (nextOf (.hostApertureRead 0 16 0x40 2) s).host.out == [.read 0 [1, 0] false]) = true := by decide

/-- PreemptEvents: another function of the class that waits, a pre-empted launch whose image a stack holds, and a cell at a breakpoint. -/
theorem test_meets_PreemptEvents_more : (let s := stoppedState
    let r := s.modHost fun h => { h with launches := h.launches ++ [(90, { oneLaunch with id := 90, vf := 4, stat := .accepted })] }
    let p := (match s.host.launches with | [(id, _)] => nextOf (.preemptRequest id) s | _ => s).modHost fun h => { h with saves := [(0, 0)] }
    let a := s.modHost fun h => { h with launches := h.launches.map fun e => (e.1, { e.2 with allStop := true }) }
    !sliceRival s 0 && sliceRival r 0 && p.host.launches.all (fun e => e.2.stat == .preempted && holdsImage p (.stack 0) e.2) &&
      (List.range 33).all (fun v => !usesUnit p v (.cluster 9)) && allStopped a 0 && !allStopped s 0) = true := by decide

/-- ServiceEvents: a page's move in its three steps, in a partition that has it enabled. -/
theorem test_meets_ServiceEvents_page : (let s := (tableState.modHost fun h => { h with migrates := [0] })
    let t := nextOf (.pageMigration 0 0 0x20000 13) s
    let c := t.modHost fun h => { h with moves := h.moves.map fun m => { m with phase := .copied } }
    let u := nextOf (.pageMigration 0 0 0x20000 13) c
    s.host.moves.isEmpty && s.host.migrates.contains (ptVf (s.cell 0).ptRoot) && t.host.moves.length == 1 &&
      fieldN (readMem t 0xC0010) 0 1 == 0 && t.host.moves.all (fun m => m.phase == .unmapped && (leafPa t m.root m.leaf).isSome &&
        (leafPa t m.root (setField m.leaf 11 29 m.frame)).isSome && invReady t (procCells t m.root) 0x20000 0x30000) &&
      fieldN (readMem u 0xC0010) 11 29 == 13 && fieldN (readMem u 0xC0010) 0 1 == 1 && u.host.moves.isEmpty) = true := by decide

/-- ServiceEvents: a word that an error may be armed at, and a partition without injection; a chart bank in use; a module whose power is cut. -/
theorem test_meets_ServiceEvents_inject : (let s := (tableState.modHost fun h => { h with injects := [0] }).modMem fun m =>
      { m with ram := m.ram.setWord 0x50000 0x20000 }
    let o := State.reset.modDev fun d => { d with off := true, fwKeys := [testKey] }
    injectPa s ⟨1, 0, 8⟩ == some 0x60008 && (injectPa tableState ⟨1, 0, 8⟩).isNone && (Map.find s.dev.retired 5).isNone &&
      (Map.find (nextOf (.chartBankRetire 0 5) s).dev.retired 5) == some s.fresh && o.dev.off) = true := by decide

/-! ### Witnesses of the clauses on order, hand-overs, tasks and the matrix engine -/

/-- ImmediateResults: a group with a wide immediate. -/
theorem test_meets_ImmediateResults_wide : (let s := (probe 0x12000000).modMe fun x => { x with hints := [⟨0x10000, .imm 1⟩] }
    immHints s.me.hints == [1] && clearB s 0x09 none [33] [3] && (nextOf (.addi 3 0 0) s).me.reg 3 == 16384) = true := by decide

/-- LoadValueArrives, LogbookReaders: a load that ends a bound loop, and one bound to a slot; events of two cores in one cycle. -/
theorem test_meets_late_events : (let s := nextOf (.ld8 3 1 0) (memState 0x20000)
    let id := s.accs.head?.elim 0 (·.id)
    let f (g : Acc → Acc) : State := { s with accs := s.accs.map g }
    let x := f fun a => { a with exitEv := some (3, 7) }
    let l := f fun a => { a with slot := some 3 }
    let e (c k : Nat) : LateEv := ⟨c, k, 3, .branch true⟩
    s.accs.all (fun a => a.op == .read && a.slot.isNone && a.exitEv.isNone) && (loadOlds s (.mem 0x20000) 0).isEmpty &&
      ((nextOf (.loadValueArrival id) x).cell 0).late.map (fun e => (e.cyc, e.core, e.slot)) == [(lateCycle s 0, 0, 3)] &&
      ((nextOf (.loadValueArrival id) l).cell 0).late.map (fun e => (e.cyc, e.core, e.slot)) == [(lateCycle s 0, 0, 3)] &&
      (insertLate (e 4 1) [e 4 0, e 4 2, e 5 0]).map (fun e => (e.cyc, e.core)) == [(4, 0), (4, 1), (4, 2), (5, 0)]) = true := by decide

/-- OwnershipMoves: a performed store whose word a later store of the core has recorded, and one whose record is another core's. -/
theorem test_meets_OwnershipMoves_records : (let s := nextOf (.st8 2 1 0) (nextOf (.st8 2 1 0) (memState 0x20000))
    match s.accs with
    | [a, b] =>
      let p := (s.modMem fun m => { m with owner := [{ key := a.loc.key, core := 0, slice := 0, id := b.id }] })
      let q := (s.modMem fun m => { m with owner := [{ key := a.loc.key, core := 7, slice := 0, id := 999 }] })
      a.loc == b.loc && !a.uc && !a.rel && recordOf p a.loc (coreOf a.ctx) && !recordOf q a.loc (coreOf a.ctx)
    | _ => false) = true := by decide

/-- WalkCompletes: a walk that an operation which has not started and a gather wait for. -/
theorem test_meets_WalkCompletes_keeps : (let s := copyTaken
    let w : WalkRec := { id := 9, cluster := 0, vf := 0, asid := 0, root := 0, page := 2, va := 0x20000, waiters := [(0, false)],
                         engs := [copyId, gatherId 4], prefs := [], discard := false }
    s.ops.any (fun o => w.engs.contains o.id && !o.started) && w.engs.contains (gatherId 4) && decide (copyId < 2 ^ 64)) = true := by decide

/-- SysWrites: a write of LOOPSL that makes a loop live whose body ends here, with trips left. -/
theorem test_meets_SysWrites_loop : (let s := (probeRegs 0x70000000 [(1, 2 ^ 25)]).modMe fun x =>
      { x with loopPc := setField 0 32 32 (wordOff (probe 0) 0 x.pc), loopCnt := 3 }
    let t := nextOf (.syswr 1 0x033) s
    fieldN s.me.loopSl 25 1 == 0 && fieldN t.me.loopSl 25 1 == 1 && t.me.pc == codeAddr s 0 0 && fieldN t.me.loopCnt 0 32 == 2) = true := by decide

/-- RepliesAndEntry: a reply before its message has arrived. -/
theorem test_meets_RepliesAndEntry_early : (let f : FaultWait := ⟨7, 1, 0x20000, 0, 0x10000, false, 0⟩
    let s := (probe 0).modMe fun x => { x with stat := .parked, faultWait := some f }
    let e := { s with faults := [{ id := 0, core := 0, pilot := 0, cell := 0, seq := 7, words := [] }] }
    faultWaiter e 0 7 == some (0, f) && replyEarly e 0 0 f && !replyEarly s 0 0 f && nextOf (.faultReply 0 (4 * 7)) e == e) = true := by decide

/-- TimeAndWritebacks: a core that waits for the probes of the present cycle, and a chart window that idle cores pass. -/
theorem test_meets_TimeAndWritebacks_probes : (let s := ((probe 0).modCell 0 fun x => { x with launch := some 1 }).moveTime 5
    let z := ([0, 1, 2].foldl (fun s k => s.modCore k fun x => { x with cyc := s.time }) s)
    let h := s.modMe fun x => { x with stat := .halted }
    coreDue s 0 && (idleProbers s).isEmpty && decide (z.time < nextCycle z 0) && !(idleProbers z).isEmpty && nextOf (.barrelCycle 0) z == z &&
      (activeCores h).isEmpty && !(idleProbers h).isEmpty) = true := by decide

/-- TaskInstructions: operands out of range of START, SPAWN, DEP_SET and DEP_DEC. -/
theorem test_meets_TaskInstructions_args : (let s := taskState.modMe fun x => { x with trVec := 0x30000 }
    let r (l : List (Nat × Word)) : State := s.modMe fun x => l.foldl (fun x e => x.setS e.1 e.2) x
    let traps (i : Instr) (s : State) : Bool := fieldN (nextOf i s).me.trCause 0 8 == tcTaskArg
    let a := r [(1, 2 ^ 32)]
    let b := r [(3, 3 * 2 ^ 17)]
    let c := r [(1, 64)]
    let d := r [(1, 63), (2, 65536)]
    clearB a 0x33 none [1, 2] [3] && clearB b 0x35 none [3, 1] [2, 3] && clearB c 0x36 none [1, 2] [] &&
      traps (.start 3 1 2) a && traps (.spawn 3 1) b && traps (.depSet 1 2) c && traps (.depDec 1) c && traps (.depSet 1 2) d) = true := by decide

/-- Semaphores: a count of 0 and a mutex of another context park; what is released goes to the context that parked first. -/
theorem test_meets_Semaphores_hands : (let s := withLaunch taskState
    let w (p : ParkCause) (n : Nat) : State := (s.modCell 0 fun x => { x with mtx := [(2, 0)] }).modCtx 1 fun x =>
      { x with stat := .parked, park := p, parkNum := n, pc := 0x10100 }
    let o := s.modCell 0 fun x => { x with mtx := [(2, 5)] }
    let p := nextOf (.semp 3) s
    let v := nextOf (.semv 3) (w .semaphore 3)
    let m := nextOf (.munlock 2) (w .mutex 2)
    p.me.stat == .parked && p.me.parkNum == 3 && (nextOf (.mlock 2) o).me.park == .mutex && firstParked (w .semaphore 3) 0 .semaphore 3 == some 1 &&
      drained s s.cur && s.me.failed.isEmpty && (v.ctx 1).stat == .eligible && (v.ctx 1).pc == 0x10104 && semVal v 0 3 == 0 &&
      Map.find (m.cell 0).mtx 2 == some 1 && (m.ctx 1).pc == 0x10104) = true := by decide

/-- TaskEvents: decrements for a pre-empted launch's cell, and for a cell that its launch has left. -/
theorem test_meets_TaskEvents_away : (let s := [0, 1, 2].foldl (fun s k => s.modCore k fun x => { x with cyc := s.time }) (withLaunch taskState)
    let m (l : Nat) : DepMsg := ⟨5, 0, 63, some l, []⟩
    let p := { (s.modHost fun h => { h with launches := [(1, { oneLaunch with stat := .preempted })] }) with depMsgs := [m 1] }
    let g := { s with depMsgs := [m 9] }
    depAway p (m 1) && !depAway g (m 9) && cellActed g 0 && (s.cell 0).launch == some 1 && (s.cell 0).last != some 9 &&
      nextOf (.depDecRemote 5) p == p && (nextOf (.depDecRemote 5) g).depMsgs.isEmpty) = true := by decide

/-- Fences: a load outstanding, and a tile write in progress. -/
theorem test_meets_Fences_waits : (let s := nextOf (.ld8 3 1 0) (memState 0x20000)
    let p := (memState 0x20000).modMyCell fun x => { x with pend := [{ id := 9, ctx := 0, writes := [] }] }
    !drained s 0 && nextOf (.fenceX 1 1) s == s && nextOf (.fenceX 8 1) s != s && nextOf (.fenceX 8 1) p == p && nextOf (.fenceX 2 1) p != p) = true := by
  decide

/-- Barriers: an address outside the scratchpad windows, and other bits of the word of BAR_INIT. -/
theorem test_meets_Barriers_args : (let s := barState 0x20000
    let i := (barState 0xF0000000000008).modMe fun x => x.setS 2 (2 ^ 60)
    clearB s 0x63 none [1] [3] && s.me.spadReq.isNone && drained s 0 && clearB i 0x63 none [1, 2] [] &&
      [Instr.barArrive 3 1, .barWait 1 2].all (fun j => fieldN (nextOf j s).me.trCause 0 8 == tcBarArg) &&
      fieldN (nextOf (.barInit 1 2) i).me.trCause 0 8 == tcBarArg) = true := by decide

/-- MatrixEvents: the execution of `ald` and `ast`. -/
theorem test_meets_MatrixEvents_rows : (let s := withEngine ((tileState 0x5B [(12, mkTag fmtF32 2 4)]).modMe fun x => x.setS 1 0x20000)
    let s := s.modMem fun m => { m with written := [(0x20000, 0x30000)], ram := m.ram.setWord 0x20008 0x0807060504030201 }
    let l := nextOf (.matrixExecStart 0) (nextOf (.ald 12 1 0) s)
    let t := nextOf (.matrixExecStart 0) (nextOf (.ast 12 1 0) (s.modCell 0 fun x =>
      { x with tiles := Map.put x.tiles 12 { tag := mkTag fmtF32 2 4, data := [(0, 9)] } }))
    (mxHead (nextOf (.ald 12 1 0) s) 0).any (fun o => !o.started && o.ticket.isNone && (accRuns o).length == 2 && tagCols o.accTag == 4) &&
      (l.cell 0).mq.isEmpty && Memory.byte (tileOf l 0 12).data 9 == 2 && readMem t 0x20000 == 9) = true := by decide

/-- A product of one kind that has started, on the tiles of `matrixState` and narrow ones. -/
def productState (kind : MxKind) (a b : MxOperand) (kc pos : Nat) : State :=
  let s := tileState 0x59 [(12, mkTag fmtF32 16 16), (1, narrowTag true), (3, scaleTag (narrowTag false)), (4, ballastTag (narrowTag true)),
    (2, mkTag fmtF16 32 16)]
  (withLaunch s).modCell 0 fun x => { x with mq := [{ MxOp.blank kind 12 with
    id := 50, accTag := mkTag fmtF32 16 16, a := a, b := b, kc := kc, pos := pos, started := true }] }

/-- MatrixEvents: segments with scales, a diverted group, a micro-step, and an operand in the scratchpad. -/
theorem test_meets_MatrixEvents_segments : (let a := MxOperand.tile 1 (narrowTag true)
    let b := MxOperand.tile 2 (mkTag fmtF16 32 16)
    let u := productState .mmas a b 32 0
    let v := productState .mmab a b 32 32
    let m := productState .micro (.tile 2 (mkTag fmtF16 32 16)) b 32 0
    let p := productState .mma (.spad 0xF0000000000000 fmtF16 16 32 0 64 0) b 32 0
    let r := p.modCell 0 fun x => { x with mq := x.mq.map fun o => { o with ticket := some 7 } }
    (mxHead u 0).any (fun o => segCount o == 2 && (segRuns u o 0).isEmpty && cellOf o.ctx == 0) &&
      (mxHead v 0).any (fun o => segCount o == 2 && (segRuns v o 2).isEmpty) && (mxHead m 0).any (fun o => segCount o == 1) &&
      (mxHead r 0).any (fun o => !(segRuns r o 0).isEmpty && !r.atBank 7 && (segRuns r o 0).all (fun e => inSpadWin e.1)) &&
      ((nextOf (.matrixSegmentEnd 0) u).cell 0).mq.map (·.pos) == [16] && ((nextOf (.matrixSegmentEnd 0) v).cell 0).mq.isEmpty &&
      ((nextOf (.matrixSegmentEnd 0) m).cell 0).mq.isEmpty && ((nextOf (.matrixSegmentEnd 0) r).cell 0).mq.map (·.pos) == [16]) = true := by decide

/-- MatrixEvents: two cells' swaps meet, with a write in progress on one tile; a reply that comes early; an operand's bytes read and written. -/
theorem test_meets_MatrixEvents_race : (let s := matrixState 0x5D
    let s := s.modCell 1 fun x => { x with mq := [{ MxOp.blank .swap 0 with id := 51, ctx := 33 }], cellNo := 1 }
    let s := s.modCell 4 fun x => { x with
      mq := [{ MxOp.blank .swap 0 with id := 54, ctx := 132 }], launch := some 1, cellNo := 4, tiles := [(0, { tag := mkTag fmtF32 1 1, data := [(0, 5)] })] }
    let p := s.modCell 4 fun x => { x with pend := [{ id := 9, ctx := 133, writes := [⟨0, none, [(0, 6)]⟩] }] }
    let t := nextOf (.swapExchange 1) s
    let e := { (matrixState 0x58) with faults := [{ id := 0, core := 0, pilot := 0, cell := 0, seq := 7, words := [] }] }
    (tileOf t 1 0).data == [(0, 5)] && (t.cell 1).mq.isEmpty && (t.cell 4).mq.isEmpty &&
      (p.cell 4).pend.any (fun z => z.ctx != 132 && z.writes.any (·.reg == 0)) && ((nextOf (.swapExchange 1) p).cell 1).mq.isEmpty &&
      replyEarly e 0 0 ⟨7, 1, 0x20000, 0, 0x10000, false, 0⟩) = true := by decide

theorem test_meets_MatrixEvents_bytes : (let s := (withEngine (matrixState 0x58)).modMem fun m =>
      { m with written := [(0x20000, 0x30000)], ram := m.ram.setWord 0x20008 0x0807060504030201 }
    let o := MxOp.blank .ald 12
    let w := mxWrite s 0 50 0x20004 (List.replicate 8 7) (2, 0)
    (match mxTranslate s 0 0 .read (rotVa 0x2000A 0) with
     | (u, .ok x) => !poisoned (touchHome u x.loc x.pl 0 x.uc) x.loc
     | _ => false) && (match mxRead s o 0 (0x2000A, 4, 0) with | (_, .ok l) => l == [3, 4, 5, 6] | _ => false) &&
      (match mxRead s o 0 (0x2000E, 4, 0) with | (_, .ok l) => l == [7, 8, 0, 0] | _ => false) &&
      readMem w 0x20000 == 0x0707070700000000 && readMem w 0x20008 == 0x0807060507070707) = true := by decide

/-- SystemEvents: messages of one core to one pilot core, a fault message behind them, and an invalidation that a gather holds. -/
theorem test_meets_SystemEvents_order : (let s := (sysState 0x77 (2 ^ 16) 5).bump
    let s := nextOf (.mboxSend 3 1 2) s
    match s.mboxes with
    | [m] =>
      let r : LaunchReq := { id := m.id - 1, ctx := 0, va := 0, launch := 1, status := none }
      let u := { s with reqs := [r] }
      let f : FaultMsg := { id := m.id + 1, core := 0, pilot := 0, cell := 0, seq := 1, words := [] }
      let x := { u with faults := [f] }
      let y := { s with faults := [{ f with id := m.id }] }
      let g := (s.modMe fun x => { x with block := .tlbinv 0 (2 ^ 64) [] }).modMyCell fun x =>
        { x with pend := [{ id := 9, ctx := 1, writes := [], gather := [(⟨0, 0, 0, 0, 0, 0, 0⟩, [])] }] }
      m.pilot == some 0 && m.status.isNone && lane 0 == 0 && r.pilot u == some 0 && mboxBehind u m false && mboxBehind u m true &&
        nextOf (.mboxArrival m.id) u == u && pilotBehind x f.core f.pilot f.id 0 false && (flushFaults x).faults == [f] &&
        faultAhead y 0 0 m.id && mboxBehind y m false && launchPlaces g 0 != [] && nextOf (.tlbinvComplete 0) g == g
    | _ => false) = true := by decide

/-- LaunchEvents: the last cell of a cluster, with a conversion in progress, and with ways that still have an access. -/
theorem test_meets_LaunchEvents_ways : (let s := [0, 11, 22].foldl (fun s c => s.modCtx c fun x => { x with stat := .halted }) runState
    let b := s.modCluster 0 fun k => { k with busy := true }
    let w := s.modCluster 0 fun k => { k with conv := 3, banks := [(0, { Bank.reset with forfeit := [⟨99, 0x400000, .read⟩] })] }
    (launchOf s 0).any (fun l => lastInCluster l 0) && partDone s 0 && partDone w 0 && !waysBusy s 0 (wayBase 0) && waysBusy w 0 (wayBase 0) &&
      nextOf (.cellPartEnd 0) b == b && ((nextOf (.cellPartEnd 0) w).cluster 0).conv == 0 && !((nextOf (.cellPartEnd 0) w).cell 0).launch.isNone &&
      (nextOf (.cellPartEnd 0) s |>.cell 0).launch.isNone) = true := by decide

/-- HostPortEvents: a word that a log marks, and a launch that the host brings. -/
theorem test_meets_HostPortEvents_bring : (let i : SavedImage := { launch := 70, ctxs := [], cells := [], resvs := [], spads := [], convs := [],
                                                                   ops := [], reqs := [], counters := [], events := [] }
    let b : Brought := { launch := { oneLaunch with id := 70 }, image := i, codeBase := 0x10000, bases := [], bytes := [], bin := [],
                         featmask := List.replicate 64 (BitVec.allOnes 64), proc := 1 }
    let s := nextOf (.registerWrite (.bring b) 1) hostState
    let r := nextOf (.registerWrite (.replayWord 0 0 0 8 5 0) 0) (nextOf (.registerWrite (.replayWord 0 0 0 8 5 3) 0) hostState)
    b.memWf && s.host.brought == [b] && (resumable s 70).isSome && r.host.replay.map (fun x => (x.runs, x.bad)) == [([], true)]) = true := by decide

/-- PreemptEvents: a resumption that another launch outranks, and one whose other cell's WAKE had not been taken. -/
theorem test_meets_PreemptEvents_rank : (let s := stoppedState
    (match s.host.launches with
     | [(id, l)] =>
       let t := nextOf (.preemptRequest id) (s.modHost fun h => { h with launches := [(id, { l with cells := [0, 1] })] })
       let up : Launch := { oneLaunch with id := 60, vf := 3, proc := 7, stat := .preempted, cells := [0] }
       let o := t.modHost fun h => { h with classes := [(3, 0)], launches := h.launches ++ [(60, up)] }
       let r := nextOf (.resume id [(0, 0)]) t
       (Map.find t.host.launches id).any (fun m => outranked o m && !outranked t m && placeOk t m [(0, 0)] && !m.ended.contains 1) &&
         nextOf (.resume id [(0, 0)]) o == o && (r.cell 0).launch == some id && (r.cell 1).wakes == [id] &&
         (Map.find t.host.images id).any (fun g => g.convs.map (·.1) == [0] && g.spads.map (·.1) == [0])
     | _ => false)) = true := by decide

/-- ServiceEvents: a frame that is in use and one that is free, and a page whose fault message is still on its way. -/
theorem test_meets_ServiceEvents_frames : (let s := (tableState.modHost fun h => { h with migrates := [0], procs := h.procs.map fun e =>
      (e.1, { e.2 with held := [(0xD0000, 65536)] }) })
    let t := nextOf (.pageMigration 0 0 0x20000 13) s
    let u := nextOf (.pageMigration 0 0 0x20000 14) s
    let f : FaultWait := ⟨7, 1, 0x20000, 0, 0x10000, false, 0⟩
    let c := { ((u.modHost fun h => { h with moves := h.moves.map fun m => { m with phase := .copied } }).modMe fun x =>
      { x with stat := .parked, faultWait := some f }).modCell 0 fun x => { x with launch := some 1 } with
      faults := [{ id := 0, core := 0, pilot := 0, cell := 0, seq := 7, words := [] }] }
    !frameFree s 0xD0000 && frameFree s 0xE0000 && t.host.moves.isEmpty && u.host.moves.length == 1 &&
      u.host.procs.all (fun e => e.2.held.contains (0xE0000, 65536)) && pageEarly c (procCells c 0x40000) 2 &&
      nextOf (.pageMigration 0 0 0x20000 14) c == c) = true := by decide

end Sys2Proof.Tests.Slice0
end

section
/-! PROOFS. Trap at decode, SEL and the instructions with an immediate (R228, R231, R243, R244, R247, R358). -/

namespace Sys2Proof.Proofs

open Sys2Proof Sys2Proof.Machine Sys2Proof.Laws

/-! ### Words -/

/-- A word that the encoder writes for an instruction of the opcode table decodes to it. -/
theorem decode_of_encodeNat {i : Instr} {n : Nat} (hs : EncodeDecode.Statement i) (hw : i.wellFormed = true)
    (hf : ∀ w, i ≠ .fieldsIllegal w) (he : encodeNat i = some n) : decode (.ofNat 32 n) = i :=
  (hs hw (fun w e => absurd e (hf w)) n he).2

/-- A word of an assigned opcode whose fields are read as no instruction is FIELDS_ILLEGAL (R232). -/
theorem decode_of_raw_none {n op : Nat} (ha : opAssigned op = true) (hop : n / 2 ^ 25 = op) (hn : n < 2 ^ 32 - 1)
    (hr : decodeRaw n = none) : decode (.ofNat 32 n) = .fieldsIllegal (.ofNat 32 n) := by
  have h0 : n ≠ 0 := by
    rintro rfl
    rw [← hop] at ha
    exact absurd ha (by decide)
  have hm : (BitVec.ofNat 32 n).toNat = n := Nat.mod_eq_of_lt (by omega)
  have hc : ¬ (n = 0 ∨ n = 2 ^ 32 - 1 ∨ opAssigned (n / 2 ^ 25) = false) := by
    rw [hop, ha]
    simp only [reduceCtorEq, or_false]
    omega
  unfold decode
  rw [hm, if_neg hc, hr]

/-- The words of opcode 0x04: SEL's with func 0, of no instruction with func 1 to 3 (R230, R247). -/
theorem decode_select_word (d : BitVec 5) (a b c : BitVec 6) (f : BitVec 2) :
    decode (.ofNat 32 (0x04 * 2 ^ 25 + d.toNat * 2 ^ 20 + a.toNat * 2 ^ 14 + b.toNat * 2 ^ 8 + c.toNat * 2 ^ 2 + f.toNat)) =
      if f = 0 then .sel d a b c else
        .fieldsIllegal (.ofNat 32 (0x04 * 2 ^ 25 + d.toNat * 2 ^ 20 + a.toNat * 2 ^ 14 + b.toNat * 2 ^ 8 + c.toNat * 2 ^ 2 + f.toNat)) := by
  have hd := d.isLt
  have ha := a.isLt
  have hb := b.isLt
  have hc := c.isLt
  have hf := f.isLt
  split
  · next h =>
    subst h
    exact decode_of_encodeNat (EncodeDecode.sel d a b c) rfl nofun rfl
  · next h =>
    have h0 : f.toNat ≠ 0 := fun e => h (BitVec.eq_of_toNat_eq e)
    generalize hn : 0x04 * 2 ^ 25 + d.toNat * 2 ^ 20 + a.toNat * 2 ^ 14 + b.toNat * 2 ^ 8 + c.toNat * 2 ^ 2 + f.toNat = n
    have hop : n / 2 ^ 25 = 4 := by omega
    have hfunc : n % 2 ^ 2 ≠ 0 := by omega
    refine decode_of_raw_none rfl hop (by omega) ?_
    rw [EncodeDecode.raw_04 hop]
    exact if_neg hfunc

/-! ### A trap that the context takes at once (R358) -/

/-- The low byte of the cause word is the trap's code (R356). -/
theorem fieldN_causeWord_code (t : TrapReq) : fieldN (causeWord t) 0 8 = t.code % 256 := by
  have hr : t.reg % 32 < 32 := Nat.mod_lt _ (by decide)
  have hk : t.kind % 4 < 4 := Nat.mod_lt _ (by decide)
  have hf : t.fcause % 256 < 256 := Nat.mod_lt _ (by decide)
  have ha : t.arg % 2 ^ 16 < 2 ^ 16 := Nat.mod_lt _ (by decide)
  simp only [fieldN, bitsAt, causeWord, BitVec.toNat_ofNat]
  split <;> omega

/-- A context that can trap enters its handler: of its record the registers stay, and TRCAUSE names the trap. -/
theorem trapPlain_keeps_regs_and_names_code {s : State} (code : Nat) (h : CanTrap s) :
    (trapPlain s s.cur code).me.regs = s.me.regs ∧ fieldN (trapPlain s s.cur code).me.trCause 0 8 = code % 256 := by
  obtain ⟨hfree, hvec⟩ := h
  have hc : ¬ (fieldN (s.ctx s.cur).trCause 40 1 = 1 ∨ (s.ctx s.cur).trVec = 0) := by
    rintro (e | e)
    · exact absurd (hfree.symm.trans e) (by decide)
    · exact hvec e
  simp only [trapPlain, trapNow, trapEntry, if_neg hc, State.me, setCtx_cur, setCtx_same, fieldN_causeWord_code, Ctx.dropHints,
    and_self]

/-- A word of fate FIELDS_ILLEGAL whose opcode belongs to every core and which names no accumulator traps ILLEGAL_OP, hidden or
not (R231, R237). -/
theorem exec_fieldsIllegal_traps (s : State) (w : IWord) (ho : opOwner (w.toNat / 2 ^ 25) = none) (ht : wordTa w = false) :
    exec (.fieldsIllegal w) s = .next (trapPlain s s.cur tcIllegalOp) := by
  have hg : gateRes s s.cur ⟨w.toNat / 2 ^ 25, opOwner (w.toNat / 2 ^ 25), wordTa w, false, [], []⟩ = .trap tcIllegalOp := by
    rw [ho, ht]
    simp [gateRes]
  have hx : exec (.fieldsIllegal w) s =
    .next (gated s ⟨w.toNat / 2 ^ 25, opOwner (w.toNat / 2 ^ 25), wordTa w, false, [], []⟩ id) := rfl
  rw [hx, gated, hg]

/-! ### SEL (R247) -/

/-- SEL completes with S(b) where S(c) is 0 and with S(a) elsewhere, all three sources being read. -/
theorem yields_sel {s : State} {d : BitVec 5} {a b c : BitVec 6} (hc : Clear s 0x04 none [a.toNat, b.toNat, c.toNat] [d.toNat]) :
    YieldsReg (.sel d a b c) s [a.toNat, b.toNat, c.toNat] d
      (if s.me.reg (c.toNat % 32) = 0 then s.me.reg (b.toNat % 32) else s.me.reg (a.toNat % 32)) := by
  apply yieldsReg_of _ _ _ _ _ (by simp [field_lt])
  have hx : exec (.sel d a b c) s = execSel d a b c s := rfl
  rw [hx, execSel, gated_clear s _ _ hc (by simp [anyGate]) rfl]
  simp only [anyGate, fieldOf, Ctx.src, observe_reg]

/-- Settles O10: a clear SEL completes with the chosen source; a word of func 1 to 3 names no instruction, and its trap is taken at
once where one can be taken. -/
theorem selectRule : Obligations.SelectRule := by
  unfold Obligations.SelectRule
  refine ⟨fun s d a b c hc => yields_sel hc, decode_select_word, fun s w hop ht => ?_⟩
  obtain ⟨hregs, hcause⟩ := trapPlain_keeps_regs_and_names_code tcIllegalOp ht
  have howner : opOwner (w.toNat / 2 ^ 25) = none := by rw [hop]; rfl
  have hta : wordTa w = false := by
    have hop' : w.toNat / 33554432 = 0x04 := hop
    simp [wordTa, hop']
  exact ⟨_, exec_fieldsIllegal_traps s w howner hta, hregs, .inl hcause⟩

/-! ### The immediate of a hint group (R228) -/

/-- The payloads are concatenated from the left. -/
theorem catHints_eq_foldl (acc : Nat) (ps : List (BitVec 22)) :
    catHints acc ps = ps.foldl (fun (n : Nat) p => n * 2 ^ 22 + p.toNat) acc := by
  induction ps generalizing acc with
  | nil => rfl
  | cons p r ih => exact ih _

/-- Each payload adds 22 bits. -/
theorem catHints_lt (acc k : Nat) (ps : List (BitVec 22)) (h : acc < 2 ^ k) : catHints acc ps < 2 ^ (k + 22 * ps.length) := by
  induction ps generalizing acc k with
  | nil => exact h
  | cons p r ih =>
    have hp := p.isLt
    have hstep : acc * 2 ^ 22 + p.toNat < 2 ^ (k + 22) := by
      rw [Nat.pow_add]
      omega
    have := ih _ (k + 22) hstep
    rwa [Nat.add_assoc, Nat.add_comm 22, ← Nat.mul_succ] at this

/-- A wide immediate with its field has as many bits as its width says. -/
theorem wideImm_lt {w : Nat} (f : BitVec w) (ps : List (BitVec 22)) :
    catHints 0 ps * 2 ^ w + f.toNat < 2 ^ (22 * ps.length + w) := by
  have hc : catHints 0 ps + 1 ≤ 2 ^ (22 * ps.length) := by
    have hlt := catHints_lt 0 0 ps (by decide)
    rw [Nat.zero_add] at hlt
    exact hlt
  calc catHints 0 ps * 2 ^ w + f.toNat < catHints 0 ps * 2 ^ w + 2 ^ w := Nat.add_lt_add_left f.isLt _
    _ = (catHints 0 ps + 1) * 2 ^ w := (Nat.succ_mul _ _).symm
    _ ≤ 2 ^ (22 * ps.length) * 2 ^ w := Nat.mul_le_mul_right _ hc
    _ = 2 ^ (22 * ps.length + w) := (Nat.pow_add ..).symm

/-- What lies above bit 63 of a number does not reach its register word. -/
theorem wordOfInt_sub_two_pow (x : Int) {n : Nat} (h : 64 ≤ n) : wordOfInt (x - 2 ^ n) = wordOfInt x := by
  obtain ⟨k, hk⟩ : (2 ^ 64 : Int) ∣ 2 ^ n := ⟨2 ^ (n - 64), by rw [← Int.pow_add, Nat.add_sub_cancel' h]⟩
  apply BitVec.eq_of_toNat_eq
  simp only [wordOfInt, BitVec.toNat_ofInt, hk]
  congr 1
  exact Int.sub_mul_emod_self_left _ _ _

/-- The immediate of a field (R228): the signed value of the group's payloads and the field together, wrapped to 64 bits. -/
theorem wordOfInt_imm {w : Nat} (x : Ctx) (f : BitVec w) {n u : Nat} (hn : n = 22 * (immHints x.hints).length + w)
    (hu : u = catHints 0 (immHints x.hints) * 2 ^ w + f.toNat) :
    wordOfInt (x.imm f) = .ofInt 64 (if u < 2 ^ (n - 1) then (u : Int) else (u : Int) - 2 ^ n) := by
  have hlt : u < 2 ^ n := by
    rw [hu, hn]
    exact wideImm_lt f _
  have himm : x.imm f = if n ≤ 64 then signedN u n else ((u % 2 ^ 64 : Nat) : Int) := by
    rw [hu, hn]
    rfl
  rw [himm]
  by_cases h : n ≤ 64
  · rw [if_pos h, signedN, Nat.mod_eq_of_lt hlt, Int.natCast_pow]
    rfl
  · have hwrap : wordOfInt ((u % 2 ^ 64 : Nat) : Int) = wordOfInt u := by
      simp only [wordOfInt, BitVec.ofInt_natCast]
      exact BitVec.eq_of_toNat_eq (Nat.mod_mod _ _)
    rw [if_neg h, hwrap]
    split
    · rfl
    · exact (wordOfInt_sub_two_pow u (by omega)).symm

/-- `Signed` of a whole field (R8) is its two's complement value. -/
theorem signedN_toNat {w : Nat} (f : BitVec w) : signedN f.toNat w = f.toInt := by
  have hlt : f.toNat < 2 ^ w := f.isLt
  have hhalf : f.toNat < 2 ^ (w - 1) ↔ 2 * f.toNat < 2 ^ w := by
    cases w with
    | zero => simp [BitVec.of_length_zero]
    | succ k => simp only [Nat.add_sub_cancel, Nat.pow_succ]; omega
  simp only [signedN, BitVec.toInt, Nat.mod_eq_of_lt hlt, hhalf]

/-- Without `hint.imm` words the immediate is the field, sign-extended. -/
theorem wordOfInt_imm_narrow {w : Nat} (x : Ctx) (f : BitVec w) (hw : w ≤ 64) (h : immHints x.hints = []) :
    wordOfInt (x.imm f) = f.signExtend 64 := by
  have himm : x.imm f = signedN f.toNat w := by
    simp [Ctx.imm, h, catHints, hw]
  rw [himm, signedN_toNat]
  rfl

/-! ### ADDI, ANDI, ORI, XORI and SHI (R243, R244) -/

/-- The words of the four opcodes (R230). -/
theorem decode_immediate_words (d : BitVec 5) (a : BitVec 6) (i : BitVec 14) :
    let word (op : Nat) : IWord := .ofNat 32 (op * 2 ^ 25 + d.toNat * 2 ^ 20 + a.toNat * 2 ^ 14 + i.toNat)
    decode (word 0x09) = .addi d a i ∧ decode (word 0x0A) = .andi d a i ∧ decode (word 0x0B) = .ori d a i ∧
      decode (word 0x0C) = .xori d a i :=
  ⟨decode_of_encodeNat (EncodeDecode.addi d a i) rfl nofun (by simp [encodeNat, put]),
    decode_of_encodeNat (EncodeDecode.andi d a i) rfl nofun (by simp [encodeNat, put]),
    decode_of_encodeNat (EncodeDecode.ori d a i) rfl nofun (by simp [encodeNat, put]),
    decode_of_encodeNat (EncodeDecode.xori d a i) rfl nofun (by simp [encodeNat, put])⟩

/-- The five shifts and rotates by the amount that stands in the word. -/
theorem yields_shiftImm {s : State} {d : BitVec 5} {a : BitVec 6} (n : BitVec 6) (hc : Clear s 0x0D none [a.toNat] [d.toNat]) :
    let x := s.me.reg (a.toNat % 32)
    let r := [a.toNat]
    YieldsReg (.slli d a n) s r d (x <<< n.toNat) ∧ YieldsReg (.srli d a n) s r d (x >>> n.toNat) ∧
      YieldsReg (.srai d a n) s r d (x.sshiftRight n.toNat) ∧ YieldsReg (.roli d a n) s r d (x.rotateLeft n.toNat) ∧
      YieldsReg (.rori d a n) s r d (x.rotateRight n.toNat) :=
  ⟨yields_opR rfl hc (shlSem_eq _ _ n.isLt), yields_opR rfl hc (shrSem_eq _ _ n.isLt), yields_opR rfl hc (sarSem_eq _ _ n.isLt),
    yields_opR rfl hc (rolSem_eq _ _ n.isLt), yields_opR rfl hc (rorSem_eq _ _ n.isLt)⟩

/-- Settles O11: the immediate is the one of R228, and each operation is the shared one of its format. -/
theorem immediateResults : Obligations.ImmediateResults := by
  unfold Obligations.ImmediateResults
  intro s d a n i
  refine ⟨decode_immediate_words d a i, ?_, wordOfInt_imm_narrow s.me i (by decide), ?_⟩
  · exact wordOfInt_imm s.me i rfl (by rw [catHints_eq_foldl])
  · exact ⟨fun hc => yields_opRI rfl hc rfl, fun hc => yields_opRI rfl hc rfl, fun hc => yields_opRI rfl hc rfl,
      fun hc => yields_opRI rfl hc rfl, yields_shiftImm n⟩

end Sys2Proof.Proofs
end
